-- ==== Sys2Proof/Word.lean ====
section
/-! DEFINITION. The words of huffman_tree_builder: 32-bit registers (00_scope.md R6, `REG_W`) and bytes (R8). -/

namespace Sys2Proof

/-- A 32-bit register, bus value, length or offset (`REG_W`, `LEN_W`, `ADDR_W`, `COUNT_W`; 00_scope.md R6). -/
abbrev Word := BitVec 32

/-- A byte of host memory (00_scope.md R8). -/
abbrev Byte := BitVec 8

end Sys2Proof
end

