-- ==== Sys2Proof/Config.lean ====
section
/-! DEFINITION. What the spec fixes once for the block (00_scope.md R6, R12, R13), its open parameters, and the
free values. An `opaque` constant has no body here: nothing can evaluate it or prove a value of it. -/

namespace Sys2Proof.Config

/-- `NSYM`, the number of symbol indices (00_scope.md R6, R12). -/
abbrev numSymbols : Nat := 257

/-- `NNODE`, the size of the node arena (00_scope.md R6). -/
abbrev numNodes : Nat := 513

/-- `MAXCODE`, the longest code in digits (00_scope.md R6). -/
abbrev maxCode : Nat := 256

/-- The size of host memory, 2^32 bytes (20_memory.md R70). -/
abbrev addrSpace : Nat := 4294967296

/-- The size of the register window in bytes (10_state.md R20, 70_reset_and_hazards.md R249). -/
abbrev windowSize : Nat := 256

/-- `ID_VALUE` (10_state.md R27). -/
def idValue : Word := 0x48554631#32

/-- The symbol index of END_OF_TEXT (00_scope.md R12). -/
abbrev endOfText : Nat := 256

/-- The terminator byte of the table section, START_OF_TRANSMISSION = 3 (00_scope.md R13). -/
def terminator : Byte := 0x03#8

/-- The key byte of the END_OF_TEXT pair (00_scope.md R13). -/
def eotKey : Byte := 0x04#8

/-- `MMIO_BASE`, OPEN: the platform chooses it (20_memory.md R79, 93_implementation_defined.md item 22; log 7).
It is a plain number, so that a platform may put the window outside the space the DMA port reaches. -/
opaque mmioBase : Nat

/-- `LATENCY`, OPEN and finite (10_state.md R24, 70_reset_and_hazards.md R251): no rule depends on it, and nothing
in the model does. -/
opaque latency : Nat

/-- The free values ("any value" in 93_implementation_defined.md items 16 to 19), one for each draw; log 4. -/
opaque freeWord : Nat → BitVec 32

end Sys2Proof.Config
end

