-- ==== Sys2Proof/Syntax.lean ====
section
/-! DEFINITION. The syntax: the eleven commands of spec/opcode_table.json (30_encoding.md R91), the registers of the
window (10_state.md R20) and the operations the host makes (30_encoding.md R100, R101). -/

namespace Sys2Proof

/-- The commands, one constructor per row of spec/opcode_table.json. A command carries no operand in its word
(30_encoding.md R93). -/
inductive Instr where
  | clear
  | count
  | build
  | derive
  | serialize
  | encodePayload
  | parse
  | decodePayload
  | compress
  | decompress
  | encode
  deriving DecidableEq, Repr

/-- The registers of the window, in the order of the map (10_state.md R20). -/
inductive Reg where
  | id
  | cmd
  | status
  | intEn
  | intStatus
  | srcAddr
  | srcLen
  | srcPos
  | dstAddr
  | dstCap
  | dstLen
  | errInfo
  | freqSel
  | freqCount
  | freqFlags
  | codeSel
  | codeInfo
  | codeBits
  | nodeSel
  | nodeInfo
  | nodeChild
  | nodeWeightLo
  | nodeWeightHi
  | treeInfo
  deriving DecidableEq, Repr

/-- The width of a bus access to the window; only 32 bits is a register access (10_state.md R21). -/
inductive AccessWidth where
  | bits8
  | bits16
  | bits32
  | bits64
  deriving DecidableEq, Repr

/-- How host memory answers a DMA access: it completes, it gets a bus error, or it never completes
(20_memory.md R87, R88; 93_implementation_defined.md items 9 and 25). -/
inductive BusReply where
  | completes
  | busError
  | never
  deriving DecidableEq, Repr

/-- One operation of the host (or, for `answer`, of host memory), in the notation of 30_encoding.md R100, R101. -/
inductive HostOp where
  /-- `WR`: a write of `value` at byte offset `off` of the register window. -/
  | write (off : BitVec 8) (width : AccessWidth) (value : Word)
  /-- `RD`: a read at byte offset `off` of the register window. -/
  | read (off : BitVec 8) (width : AccessWidth)
  /-- The host writes one byte of host memory. -/
  | memWrite (addr : Word) (value : Byte)
  /-- The host reads one byte of host memory. -/
  | memRead (addr : Word)
  /-- Host memory changes how it answers DMA reads and writes at one address (20_memory.md R88; log 5). -/
  | answer (addr : Word) (onRead onWrite : BusReply)
  /-- The reset input is asserted (70_reset_and_hazards.md R240, R241), and stays so until `release`. -/
  | reset
  /-- The reset input is released (70_reset_and_hazards.md R240). -/
  | release
  /-- The host lets the engine make its next access (log 1). -/
  | pass
  /-- `WAIT`: the host does nothing more until the engine is IDLE (30_encoding.md R101). -/
  | wait
  deriving DecidableEq, Repr

end Sys2Proof
end

