-- ==== Sys2Proof/WellFormed.lean ====
section
/-! DEFINITION. Well-formedness: of a command word (30_encoding.md R90, R92), of a register access (10_state.md R21),
and of a command. A command has no operand field (30_encoding.md R93), so every term of `Instr` is well formed. -/

namespace Sys2Proof

/-- Bits 31:4 of a command word are 0 (30_encoding.md R90). -/
def reservedClear (w : Word) : Bool := w.extractLsb' 4 28 == 0#28

/-- OPCODE is one of the eleven commands' (30_encoding.md R91, R92). -/
def opcodeLegal (w : Word) : Bool :=
  decide (1 ≤ (w.extractLsb' 0 4).toNat) && decide ((w.extractLsb' 0 4).toNat ≤ 11)

/-- A legal command word (30_encoding.md R92). -/
def commandWordOk (w : Word) : Bool := reservedClear w && opcodeLegal w

/-- A register access is 32 bits wide (10_state.md R21). -/
def widthOk (width : AccessWidth) : Bool := width == .bits32

/-- A register access is at an offset that is a multiple of 4 (10_state.md R21). -/
def offsetAligned (off : BitVec 8) : Bool := off.extractLsb' 0 2 == 0#2

/-- An access this spec admits: 32 bits wide and aligned (10_state.md R21). -/
def accessOk (off : BitVec 8) (width : AccessWidth) : Bool := widthOk width && offsetAligned off

/-- A well-formed host operation: its register accesses are those the spec admits (10_state.md R21). -/
def HostOp.wf : HostOp → Bool
  | .write off width _ => accessOk off width
  | .read off width => accessOk off width
  | .memWrite _ _ => true
  | .memRead _ => true
  | .answer _ _ _ => true
  | .reset => true
  | .release => true
  | .pass => true
  | .wait => true

/-- A well-formed command: every command is, since none has an operand field (30_encoding.md R93). -/
def Instr.wf : Instr → Bool
  | .clear => true
  | .count => true
  | .build => true
  | .derive => true
  | .serialize => true
  | .encodePayload => true
  | .parse => true
  | .decodePayload => true
  | .compress => true
  | .decompress => true
  | .encode => true

end Sys2Proof
end

