-- ==== Sys2Proof/Decode.lean ====
section
/-! DEFINITION. Decoding a command word, total on all 2^32 words and rejecting by name (30_encoding.md R90 to R92), the
encoder from the same table, and the register map's offsets (10_state.md R20). -/

namespace Sys2Proof

/-- Why a command word is illegal (30_encoding.md R92); both complete by ILLEGAL_CMD. -/
inductive DecodeError where
  /-- One of bits 31:4 is set. -/
  | reservedBitsSet
  /-- OPCODE is 0x0 or 0xC to 0xF. -/
  | reservedOpcode
  deriving DecidableEq, Repr

/-- One row of spec/opcode_table.json. -/
structure OpcodeRow where
  pattern : Word
  mask : Word
  instr : Instr
  deriving DecidableEq, Repr

/-- spec/opcode_table.json: "match" and "mask" of each row (30_encoding.md R91). -/
def opcodeTable : List OpcodeRow :=
  [ ⟨0x00000001#32, 0xFFFFFFFF#32, .clear⟩,
    ⟨0x00000002#32, 0xFFFFFFFF#32, .count⟩,
    ⟨0x00000003#32, 0xFFFFFFFF#32, .build⟩,
    ⟨0x00000004#32, 0xFFFFFFFF#32, .derive⟩,
    ⟨0x00000005#32, 0xFFFFFFFF#32, .serialize⟩,
    ⟨0x00000006#32, 0xFFFFFFFF#32, .encodePayload⟩,
    ⟨0x00000007#32, 0xFFFFFFFF#32, .parse⟩,
    ⟨0x00000008#32, 0xFFFFFFFF#32, .decodePayload⟩,
    ⟨0x00000009#32, 0xFFFFFFFF#32, .compress⟩,
    ⟨0x0000000A#32, 0xFFFFFFFF#32, .decompress⟩,
    ⟨0x0000000B#32, 0xFFFFFFFF#32, .encode⟩ ]

/-- A row matches a word: "match = OPCODE, mask = 0xFFFFFFFF" (30_encoding.md R91). -/
def OpcodeRow.fits (r : OpcodeRow) (w : Word) : Bool := (w &&& r.mask) == r.pattern

/-- The decoder (30_encoding.md R91, R92). -/
def decode (w : Word) : Except DecodeError Instr :=
  match opcodeTable.find? (fun r => r.fits w) with
  | some r => .ok r.instr
  | none => if reservedClear w then .error .reservedOpcode else .error .reservedBitsSet

/-- OPCODE of each command (30_encoding.md R91). -/
def Instr.opcode : Instr → BitVec 4
  | .clear => 0x1#4
  | .count => 0x2#4
  | .build => 0x3#4
  | .derive => 0x4#4
  | .serialize => 0x5#4
  | .encodePayload => 0x6#4
  | .parse => 0x7#4
  | .decodePayload => 0x8#4
  | .compress => 0x9#4
  | .decompress => 0xA#4
  | .encode => 0xB#4

/-- The command word of a command: OPCODE in bits 3:0, bits 31:4 zero (30_encoding.md R90). -/
def encode (i : Instr) : Word := 0#28 ++ i.opcode

/-- The opcode of a stage, the one STATUS.STAGE shows when the word is accepted: the command's own if it is a
legal non-composite command, else 0 (10_state.md R33). -/
def stageOfWord (w : Word) : BitVec 4 :=
  match decode w with
  | .ok .clear => 0x1#4
  | .ok .count => 0x2#4
  | .ok .build => 0x3#4
  | .ok .derive => 0x4#4
  | .ok .serialize => 0x5#4
  | .ok .encodePayload => 0x6#4
  | .ok .parse => 0x7#4
  | .ok .decodePayload => 0x8#4
  | .ok .compress => 0x0#4
  | .ok .decompress => 0x0#4
  | .ok .encode => 0x0#4
  | .error _ => 0x0#4

/-- The commands that read the source (30_encoding.md R91, column "reads"). -/
def Instr.readsSource : Instr → Bool
  | .clear => false
  | .count => true
  | .build => false
  | .derive => false
  | .serialize => false
  | .encodePayload => true
  | .parse => true
  | .decodePayload => true
  | .compress => true
  | .decompress => true
  | .encode => true

/-- The commands that write the destination (30_encoding.md R91, column "writes"). -/
def Instr.writesDest : Instr → Bool
  | .clear => false
  | .count => false
  | .build => false
  | .derive => false
  | .serialize => true
  | .encodePayload => true
  | .parse => false
  | .decodePayload => true
  | .compress => true
  | .decompress => true
  | .encode => false

/-- The register at a byte offset of the window; none at a reserved offset, 0x60 to 0xFC (10_state.md R20). -/
def regAt (off : BitVec 8) : Option Reg :=
  match off.toNat with
  | 0x00 => some .id
  | 0x04 => some .cmd
  | 0x08 => some .status
  | 0x0C => some .intEn
  | 0x10 => some .intStatus
  | 0x14 => some .srcAddr
  | 0x18 => some .srcLen
  | 0x1C => some .srcPos
  | 0x20 => some .dstAddr
  | 0x24 => some .dstCap
  | 0x28 => some .dstLen
  | 0x2C => some .errInfo
  | 0x30 => some .freqSel
  | 0x34 => some .freqCount
  | 0x38 => some .freqFlags
  | 0x3C => some .codeSel
  | 0x40 => some .codeInfo
  | 0x44 => some .codeBits
  | 0x48 => some .nodeSel
  | 0x4C => some .nodeInfo
  | 0x50 => some .nodeChild
  | 0x54 => some .nodeWeightLo
  | 0x58 => some .nodeWeightHi
  | 0x5C => some .treeInfo
  | _ => none

/-- The byte offset of each register (10_state.md R20). -/
def Reg.offset : Reg → BitVec 8
  | .id => 0x00#8
  | .cmd => 0x04#8
  | .status => 0x08#8
  | .intEn => 0x0C#8
  | .intStatus => 0x10#8
  | .srcAddr => 0x14#8
  | .srcLen => 0x18#8
  | .srcPos => 0x1C#8
  | .dstAddr => 0x20#8
  | .dstCap => 0x24#8
  | .dstLen => 0x28#8
  | .errInfo => 0x2C#8
  | .freqSel => 0x30#8
  | .freqCount => 0x34#8
  | .freqFlags => 0x38#8
  | .codeSel => 0x3C#8
  | .codeInfo => 0x40#8
  | .codeBits => 0x44#8
  | .nodeSel => 0x48#8
  | .nodeInfo => 0x4C#8
  | .nodeChild => 0x50#8
  | .nodeWeightLo => 0x54#8
  | .nodeWeightHi => 0x58#8
  | .treeInfo => 0x5C#8

/-- The instruction read from `nbits` bits `w`, bit 0 the least significant bit of the command word, every bit above
`nbits` zero. A command word longer than 32 bits does not exist (30_encoding.md R90). -/
def decodeTableWord (nbits w : Nat) : Option Instr :=
  match decode (BitVec.ofNat 32 (w % 2 ^ nbits)) with
  | .ok i => some i
  | .error _ => none

end Sys2Proof
end

