-- ==== Sys2Proof/Machine/State.lean ====
section
/-! DEFINITION. The state of the block, of host memory and of the host (00_scope.md R7), as plain data; the reasons a
step or a command stops; the state after reset (70_reset_and_hazards.md R240). -/

namespace Sys2Proof.Machine

/-- The session phase (10_state.md R40). -/
inductive Phase where
  | empty
  | counted
  | built
  | coded
  deriving DecidableEq, Repr

/-- The error codes (60_exceptions.md R211); codes 0x0D to 0xFF are never raised. -/
inductive ErrCode where
  | none
  | illegalCmd
  | sequence
  | range
  | overlap
  | srcBus
  | dstBus
  | dstFull
  | noCode
  | truncatedHeader
  | malformedTable
  | truncatedPayload
  | badCode
  deriving DecidableEq, Repr

/-- An entry of FREQ (10_state.md R41). -/
structure FreqEntry where
  valid : Bool
  count : Word
  deriving DecidableEq, Repr

/-- An entry of the node arena NODE (10_state.md R45). -/
structure NodeEntry where
  valid : Bool
  leaf : Bool
  sym : BitVec 9
  left : BitVec 10
  right : BitVec 10
  weight : BitVec 64
  deriving DecidableEq, Repr

/-- TREE: the root and the number of valid arena entries (10_state.md R48). -/
structure TreeReg where
  root : BitVec 10
  nodes : BitVec 10
  deriving DecidableEq, Repr

/-- An entry of CODE; digit j is held at position j of `bits` (10_state.md R49). -/
structure CodeEntry where
  valid : Bool
  len : BitVec 9
  bits : BitVec 256
  deriving DecidableEq, Repr

/-- The bitstream decoder's walk: the current node, the byte being walked and its next bit position
(10_state.md R55). -/
structure Walk where
  node : BitVec 10
  byte : Byte
  bit : BitVec 3
  deriving DecidableEq, Repr

/-- What the engine still has to do for the running command, one piece after another: the progress through the source
and destination bytes that 10_state.md R23 calls internal state (log 1). A job makes at most one access to host
memory. -/
inductive Job where
  /-- The start checks (60_exceptions.md R214). -/
  | check (i : Instr)
  /-- STAGE of a composite's stage (10_state.md R33). -/
  | stage (i : Instr)
  /-- `session_clear()` (46_session_ops.md R190). -/
  | clear
  /-- COUNT reads the source from offset `k` on, `n` bytes (41_frequency_counter.md R120). -/
  | count (k n : Nat)
  /-- The end of COUNT (41_frequency_counter.md R121). -/
  | endCount
  /-- The body of BUILD, which makes no access (42_tree_builder.md R130). -/
  | build
  /-- The body of DERIVE, which makes no access (43_code_deriver.md R140). -/
  | derive
  /-- SERIALIZE begins (44_table_serializer.md R152). -/
  | serialize
  /-- Bytes are emitted (44_table_serializer.md R151). -/
  | emit (bs : List Byte)
  /-- PARSE reads the key at offset `pos`, pair position `idx`; `seen` says that the END_OF_TEXT pair was read
  (44_table_serializer.md R155, R156). -/
  | parseKey (pos idx : Nat) (seen : Bool)
  /-- PARSE reads the count of the pair whose key stood at offset `kpos`; `got` are the count bytes read
  (44_table_serializer.md R156). -/
  | parseCount (kpos sym : Nat) (got : List Byte) (idx : Nat) (seen : Bool)
  /-- The end of PARSE, with the offset after the terminator (44_table_serializer.md R156). -/
  | endParse (pos : Nat)
  /-- ENCODE_PAYLOAD begins (45_bitstream.md R170). -/
  | startEncode
  /-- ENCODE_PAYLOAD reads the source from offset `k` on, `n` bytes (45_bitstream.md R170). -/
  | encode (k n : Nat)
  /-- `put` of digits (45_bitstream.md R171). -/
  | put (ds : List Bool)
  /-- `put(CODE[256])` (45_bitstream.md R170). -/
  | endOfText
  /-- Padding (45_bitstream.md R172). -/
  | pad
  /-- DECODE_PAYLOAD begins (45_bitstream.md R175). -/
  | startDecode
  /-- DECODE_PAYLOAD reads the source byte at offset `pos` (45_bitstream.md R175). -/
  | decode (pos : Nat)
  /-- The next `n` bits of the byte at offset `bpos` are walked (45_bitstream.md R175, R176). -/
  | bits (bpos n : Nat)
  /-- The walk goes back to the root (45_bitstream.md R176). -/
  | toRoot
  deriving DecidableEq, Repr

/-- How host memory answers at one address (20_memory.md R88). -/
structure BusEntry where
  addr : Nat
  onRead : BusReply
  onWrite : BusReply
  deriving DecidableEq, Repr

def FreqEntry.absent : FreqEntry := ⟨false, 0#32⟩

def NodeEntry.absent : NodeEntry := ⟨false, false, 0#9, 0#10, 0#10, 0#64⟩

def CodeEntry.absent : CodeEntry := ⟨false, 0#9, 0#256⟩

def TreeReg.absent : TreeReg := ⟨0#10, 0#10⟩

def Walk.atRest : Walk := ⟨0#10, 0#8, 0#3⟩

/-- The state. The first five groups are the spec's; the last is the model's own (INVENTORY.md, State). -/
structure State where
  -- STATUS (10_state.md R29)
  busy : Bool
  done : Bool
  err : Bool
  cmdDropped : Bool
  phase : Phase
  extraInput : Bool
  errCode : ErrCode
  cmd : BitVec 4
  stage : BitVec 4
  -- the other registers of the window (10_state.md R34 to R39, R42, R46, R50)
  doneIE : Bool
  donePend : Bool
  srcAddr : Word
  srcLen : Word
  srcPos : Word
  dstAddr : Word
  dstCap : Word
  dstLen : Word
  errInfo : Word
  freqSel : BitVec 9
  codeSym : BitVec 9
  codeChunk : BitVec 3
  nodeSel : BitVec 10
  -- the reset input is asserted (70_reset_and_hazards.md R240)
  inReset : Bool
  -- the session (10_state.md R40, R41, R45, R48, R49)
  freq : Vector FreqEntry 257
  node : Vector NodeEntry 513
  tree : TreeReg
  code : Vector CodeEntry 257
  -- state inside a running command (10_state.md R23, R53, R54, R55), and host memory (20_memory.md R70)
  todo : List Job
  queue : List Nat
  acc : List Bool
  walk : Walk
  mem : List Host.Cell
  -- the model's own: the host, host memory's answers, the free values, the hazards of R247 and R241, the strap
  host : List HostOp
  hostData : List Word
  bus : List BusEntry
  draws : Nat
  srcTouched : List Nat
  dstTouched : List Nat
  undo : List Host.Cell
  mmioBase : Nat
  deriving DecidableEq, Repr

/-- Why the machine stops with no next state. -/
inductive Fault where
  /-- Raised by BUILD when its priority structure is empty, which no run reaches (42_tree_builder.md R135, "should
  fault"). Safe: no state is claimed. -/
  | emptyQueue
  /-- Raised by a DMA access outside the 2^32 bytes of host memory, which the range check excludes (20_memory.md R70
  to R72). Safe: no state is claimed. -/
  | outsideHostMemory (addr : Nat)
  deriving DecidableEq, Repr

/-- Why a command has no meaning. -/
inductive Refusal where
  /-- Raised by an arm of `exec` that has no meaning yet. Safe: no state is claimed. -/
  | notModelled (mnemonic : String)
  /-- Raised by a command whose source or destination range includes the block's own register window: "A model should
  refuse such a command" (70_reset_and_hazards.md R249). Safe: no state is claimed. -/
  | dmaIntoWindow
  deriving DecidableEq, Repr

/-- How a job of the engine can end other than by going through. -/
inductive Stop where
  /-- `raise Error(CODE, info)` (60_exceptions.md R212). -/
  | error (code : ErrCode) (info : Word)
  /-- Host memory has not answered the job's access: the command waits as long as the bus takes (60_exceptions.md R220;
  93_implementation_defined.md item 9). -/
  | waits
  /-- The machine stops. -/
  | fault (reason : Fault)
  /-- The command is outside the spec. -/
  | refuse (reason : Refusal)
  deriving DecidableEq, Repr

/-- The state after reset (70_reset_and_hazards.md R240), the reset input being released: every register at its table value, the session EMPTY, the
engine IDLE. Host memory lists nothing (log 3); the model's own fields are at rest (log 2, 4, 5); the strap is the
platform's (log 7). -/
def State.reset : State where
  busy := false
  done := false
  err := false
  cmdDropped := false
  phase := .empty
  extraInput := false
  errCode := .none
  cmd := 0#4
  stage := 0#4
  doneIE := false
  donePend := false
  srcAddr := 0#32
  srcLen := 0#32
  srcPos := 0#32
  dstAddr := 0#32
  dstCap := 0#32
  dstLen := 0#32
  errInfo := 0#32
  freqSel := 0#9
  codeSym := 0#9
  codeChunk := 0#3
  nodeSel := 0#10
  inReset := false
  freq := Vector.replicate 257 FreqEntry.absent
  node := Vector.replicate 513 NodeEntry.absent
  tree := TreeReg.absent
  code := Vector.replicate 257 CodeEntry.absent
  todo := []
  queue := []
  acc := []
  walk := Walk.atRest
  mem := []
  host := []
  hostData := []
  bus := []
  draws := 0
  srcTouched := []
  dstTouched := []
  undo := []
  mmioBase := Config.mmioBase

end Sys2Proof.Machine
end

