-- ==== Sys2Proof/Machine/Memory.lean ====
section
/-! DEFINITION. Host memory (20_memory.md R70): a list of (address, byte) pairs in one canonical form, read and written
a byte at a time (R76), and the drawing of free values (93_implementation_defined.md). -/

namespace Sys2Proof.Machine

/-- What a byte that nothing has written reads as: 0, as in the spec's programs ("every other byte reads 0",
95_test_vectors.md part 3). DESIGN CHOICE, unsafe; log 3. -/
def Memory.unlisted : Byte := 0#8

/-- The canonical form: addresses strictly rising, no entry equal to what an unlisted address reads as. -/
abbrev Memory.wf (m : List Host.Cell) : Prop :=
  m.Pairwise (fun c d => c.1 < d.1) ∧ ∀ c ∈ m, c.2 ≠ Memory.unlisted

/-- The byte at an address. -/
def Memory.read : List Host.Cell → Nat → Byte
  | [], _ => Memory.unlisted
  | (b, v) :: m, a => if b = a then v else Memory.read m a

/-- Puts an entry in its place in a list that has none for its address. -/
def Memory.insert : List Host.Cell → Nat → Byte → List Host.Cell
  | [], a, v => [(a, v)]
  | (b, w) :: m, a, v => if b < a then (b, w) :: Memory.insert m a v else (a, v) :: (b, w) :: m

/-- Takes the entries of an address out. -/
def Memory.erase (m : List Host.Cell) (a : Nat) : List Host.Cell := m.filter (fun c => c.1 != a)

/-- Writes a byte; writing what an unlisted address reads as leaves no entry. -/
def Memory.write (m : List Host.Cell) (a : Nat) (v : Byte) : List Host.Cell :=
  if v = Memory.unlisted then Memory.erase m a else Memory.insert (Memory.erase m a) a v

/-- The `n` bytes from an address on. -/
def Memory.bytes (m : List Host.Cell) (a n : Nat) : List Byte :=
  (List.range n).map (fun k => Memory.read m (a + k))

/-- Draws a free value: the constant `Config.freeWord` at the next index, which nothing can evaluate (log 4). -/
def State.draw (s : State) : Word × State := (Config.freeWord s.draws, { s with draws := s.draws + 1 })

/-- Stores one byte of host memory. -/
def State.store (s : State) (a : Nat) (v : Byte) : State := { s with mem := Memory.write s.mem a v }

end Sys2Proof.Machine
end

