-- ==== Sys2Proof/Machine/Operands.lean ====
section
/-! DEFINITION. What a command takes its operands from: the operand registers (10_state.md R22, R36 to R38), the source
and destination ranges with their checks (20_memory.md R71 to R73; 70_reset_and_hazards.md R249), and the entries of
the session arrays (10_state.md R41, R45, R49). -/

namespace Sys2Proof.Machine

/-- PHASE as a number, 0 EMPTY to 3 CODED (10_state.md R40). -/
def Phase.code : Phase → BitVec 2
  | .empty => 0#2
  | .counted => 1#2
  | .built => 2#2
  | .coded => 3#2

/-- `p.atLeast q`: "PHASE ≥ q" (10_state.md R40). -/
def Phase.atLeast (p q : Phase) : Bool := decide (q.code.toNat ≤ p.code.toNat)

/-- A range is in range when it does not pass 2^32 (20_memory.md R71). -/
def inRange (a n : Word) : Bool := decide (a.toNat + n.toNat ≤ Config.addrSpace)

/-- An address lies in the range of `n` bytes from `a` (20_memory.md R70). -/
def rangeHas (a n : Word) (x : Nat) : Bool := decide (a.toNat ≤ x) && decide (x < a.toNat + n.toNat)

/-- The source and the destination share an address (20_memory.md R73). -/
def overlaps (s : State) : Bool :=
  decide (0 < s.srcLen.toNat) && decide (0 < s.dstCap.toNat) &&
    decide (s.srcAddr.toNat < s.dstAddr.toNat + s.dstCap.toNat) &&
    decide (s.dstAddr.toNat < s.srcAddr.toNat + s.srcLen.toNat)

/-- A range includes a byte of the register window at `base` (70_reset_and_hazards.md R249; log 7). -/
def touchesWindow (base : Nat) (a n : Word) : Bool :=
  decide (0 < n.toNat) && decide (a.toNat < base + Config.windowSize) && decide (base < a.toNat + n.toNat)

/-- The address of source byte `k`, an exact sum (20_memory.md R72). -/
def State.srcByte (s : State) (k : Nat) : Nat := s.srcAddr.toNat + k

/-- The address the next destination byte goes to, an exact sum (44_table_serializer.md R151, 20_memory.md R72). -/
def State.dstByte (s : State) : Nat := s.dstAddr.toNat + s.dstLen.toNat

/-- FREQ[i]; an index past 256 has no entry (10_state.md R41). -/
def State.freqAt (s : State) (i : Nat) : FreqEntry := (s.freq[i]?).getD FreqEntry.absent

/-- NODE[n]; an index past 512 has no entry (10_state.md R45). -/
def State.nodeAt (s : State) (n : Nat) : NodeEntry := (s.node[n]?).getD NodeEntry.absent

/-- CODE[i]; an index past 256 has no entry (10_state.md R49). -/
def State.codeAt (s : State) (i : Nat) : CodeEntry := (s.code[i]?).getD CodeEntry.absent

def State.setFreq (s : State) (i : Nat) (e : FreqEntry) : State := { s with freq := s.freq.setIfInBounds i e }

def State.setNode (s : State) (n : Nat) (e : NodeEntry) : State := { s with node := s.node.setIfInBounds n e }

def State.setCode (s : State) (i : Nat) (e : CodeEntry) : State := { s with code := s.code.setIfInBounds i e }

/-- The digits of a code, first digit first (00_scope.md R9, 10_state.md R49). -/
def CodeEntry.digits (e : CodeEntry) : List Bool := (List.range e.len.toNat).map (fun j => e.bits.getLsbD j)

/-- The CODE entry that holds a bit string: digit j at position j, 0 at and past its length (10_state.md R49). -/
def CodeEntry.ofDigits (ds : List Bool) : CodeEntry :=
  ⟨true, BitVec.ofNat 9 ds.length, (BitVec.ofBoolListLE ds).setWidth 256⟩

/-- The command that runs, from STATUS.CMD (10_state.md R33). -/
def State.running (s : State) : Option Instr :=
  match decode (0#28 ++ s.cmd) with
  | .ok i => some i
  | .error _ => none

/-- An address of the running command's source range (70_reset_and_hazards.md R247). -/
def State.inSource (s : State) (x : Nat) : Bool :=
  (match s.running with
    | some i => i.readsSource
    | none => false) && rangeHas s.srcAddr s.srcLen x

/-- An address of the running command's destination range (70_reset_and_hazards.md R247). -/
def State.inDest (s : State) (x : Nat) : Bool :=
  (match s.running with
    | some i => i.writesDest
    | none => false) && rangeHas s.dstAddr s.dstCap x

/-- How host memory answers an access at an address; an address that is not listed answers well (20_memory.md R88;
log 5). -/
def State.busAt (s : State) (a : Nat) : BusEntry :=
  (s.bus.find? (fun e => e.addr == a)).getD ⟨a, .completes, .completes⟩

/-- `session_clear()` (46_session_ops.md R190). -/
def State.sessionClear (s : State) : State :=
  { s with
    freq := Vector.replicate 257 FreqEntry.absent
    node := Vector.replicate 513 NodeEntry.absent
    tree := TreeReg.absent
    code := Vector.replicate 257 CodeEntry.absent
    phase := .empty }

end Sys2Proof.Machine
end

