-- ==== Sys2Proof/Machine/Flags.lean ====
section
/-! DEFINITION. The status flags: STATUS put together from its fields (10_state.md R29), what acceptance clears (R30 to
R33, R39) and what completion sets (60_exceptions.md R212, R213), and the interrupt output (R217). -/

namespace Sys2Proof.Machine

/-- ERRCODE's number (60_exceptions.md R211). -/
def ErrCode.code : ErrCode → BitVec 8
  | .none => 0x00#8
  | .illegalCmd => 0x01#8
  | .sequence => 0x02#8
  | .range => 0x03#8
  | .overlap => 0x04#8
  | .srcBus => 0x05#8
  | .dstBus => 0x06#8
  | .dstFull => 0x07#8
  | .noCode => 0x08#8
  | .truncatedHeader => 0x09#8
  | .malformedTable => 0x0A#8
  | .truncatedPayload => 0x0B#8
  | .badCode => 0x0C#8

/-- The layout of STATUS: reserved 31:24, STAGE 23:20, CMD 19:16, ERRCODE 15:8, reserved 7, EXTRA_INPUT 6, PHASE 5:4,
CMD_DROPPED 3, ERR 2, DONE 1, BUSY 0 (10_state.md R29). -/
def statusLayout (stage cmd : BitVec 4) (errCode : BitVec 8) (extraInput : Bool) (phase : BitVec 2)
    (cmdDropped err done busy : Bool) : Word :=
  0#8 ++ stage ++ cmd ++ errCode ++ 0#1 ++ BitVec.ofBool extraInput ++ phase ++ BitVec.ofBool cmdDropped ++
    BitVec.ofBool err ++ BitVec.ofBool done ++ BitVec.ofBool busy

/-- STATUS as it reads while IDLE (10_state.md R29). -/
def State.statusWord (s : State) : Word :=
  statusLayout s.stage s.cmd s.errCode.code s.extraInput s.phase.code s.cmdDropped s.err s.done s.busy

/-- STATUS as it reads while BUSY: DONE, ERR, ERRCODE and EXTRA_INPUT 0, CMD and CMD_DROPPED exact, PHASE and STAGE
any value, here bits of the free value `f` (10_state.md R26). -/
def State.statusBusy (s : State) (f : Word) : Word :=
  statusLayout (f.extractLsb' 2 4) s.cmd 0#8 false (f.extractLsb' 0 2) s.cmdDropped false false true

/-- The interrupt output `irq` (60_exceptions.md R217). -/
def State.irq (s : State) : Bool := s.donePend && s.doneIE

/-- A command word is accepted (10_state.md R24, R30 to R33, R39). The marks of R247 and R241 start empty (log 11,
log 12). -/
def State.accept (s : State) (w : Word) : State :=
  { s with
    busy := true
    done := false
    err := false
    errCode := .none
    errInfo := 0#32
    cmdDropped := false
    extraInput := false
    cmd := w.extractLsb' 0 4
    stage := stageOfWord w
    todo := []
    queue := []
    acc := []
    walk := Walk.atRest
    srcTouched := []
    dstTouched := []
    undo := [] }

/-- What every completion does: BUSY 0, DONE 1, DONE_PEND 1 (60_exceptions.md R212, R213), and the state inside the
command ceases to exist (10_state.md R23, R53 to R55). -/
def State.finish (s : State) : State :=
  { s with
    busy := false
    done := true
    donePend := true
    todo := []
    queue := []
    acc := []
    walk := Walk.atRest
    srcTouched := []
    dstTouched := []
    undo := [] }

/-- Completion by an error (60_exceptions.md R212 item 3); STAGE keeps the stage that raised it. -/
def State.finishError (s : State) (code : ErrCode) (info : Word) : State :=
  { s.finish with
    err := true
    errCode := code
    errInfo := info }

/-- STAGE as a stage of a composite begins (10_state.md R33, 46_session_ops.md R191 to R193). -/
def State.setStage (s : State) (i : Instr) : State := { s with stage := i.opcode }

end Sys2Proof.Machine
end

