-- ==== Sys2Proof/Machine/Window.lean ====
section
/-! DEFINITION. The register window (10_state.md R20, R21): what a read of each register returns while IDLE (R27 to R52)
and while BUSY (R26), and what a write does (R25). No read has a side effect on the block (20_memory.md R78). -/

namespace Sys2Proof.Machine

/-- FREQ_COUNT (10_state.md R43). -/
def State.freqCountReg (s : State) : Word :=
  if s.phase.atLeast .counted && (s.freqAt s.freqSel.toNat).valid then (s.freqAt s.freqSel.toNat).count else 0#32

/-- FREQ_FLAGS (10_state.md R44). -/
def State.freqFlagsReg (s : State) : Word :=
  0#31 ++ BitVec.ofBool (s.phase.atLeast .counted && (s.freqAt s.freqSel.toNat).valid)

/-- The selected code is shown (10_state.md R51). -/
def State.codeShown (s : State) : Bool := s.phase.atLeast .coded && (s.codeAt s.codeSym.toNat).valid

/-- CODE_INFO (10_state.md R51). -/
def State.codeInfoReg (s : State) : Word :=
  if s.codeShown then 1#1 ++ 0#22 ++ (s.codeAt s.codeSym.toNat).len else 0#32

/-- CODE_BITS: digits 32·CHUNK to 32·CHUNK + 31, the first in bit 31 (10_state.md R52). -/
def State.codeBitsReg (s : State) : Word :=
  if s.codeShown then ((s.codeAt s.codeSym.toNat).bits.extractLsb' (32 * s.codeChunk.toNat) 32).reverse else 0#32

/-- The selected node is shown (10_state.md R46). -/
def State.nodeShown (s : State) : Bool :=
  s.phase.atLeast .built && decide (s.nodeSel.toNat < s.tree.nodes.toNat)

/-- NODE_INFO (10_state.md R46). -/
def State.nodeInfoReg (s : State) : Word :=
  if s.nodeShown then
    1#1 ++ BitVec.ofBool (s.nodeAt s.nodeSel.toNat).leaf ++ 0#21 ++
      (if (s.nodeAt s.nodeSel.toNat).leaf then (s.nodeAt s.nodeSel.toNat).sym else 0#9)
  else 0#32

/-- NODE_CHILD (10_state.md R47). -/
def State.nodeChildReg (s : State) : Word :=
  if s.nodeShown && !(s.nodeAt s.nodeSel.toNat).leaf then
    0#6 ++ (s.nodeAt s.nodeSel.toNat).right ++ 0#6 ++ (s.nodeAt s.nodeSel.toNat).left
  else 0#32

/-- NODE_WEIGHT_LO (10_state.md R47). -/
def State.nodeWeightLoReg (s : State) : Word :=
  if s.nodeShown then (s.nodeAt s.nodeSel.toNat).weight.extractLsb' 0 32 else 0#32

/-- NODE_WEIGHT_HI (10_state.md R47). -/
def State.nodeWeightHiReg (s : State) : Word :=
  if s.nodeShown then (s.nodeAt s.nodeSel.toNat).weight.extractLsb' 32 32 else 0#32

/-- TREE_INFO (10_state.md R48). -/
def State.treeInfoReg (s : State) : Word :=
  if s.phase.atLeast .built then 1#1 ++ 0#5 ++ s.tree.nodes ++ 0#6 ++ s.tree.root else 0#32

/-- What a read of a register returns while IDLE (10_state.md R27 to R52). -/
def State.regIdle (s : State) : Reg → Word
  | .id => Config.idValue
  | .cmd => 0#32
  | .status => s.statusWord
  | .intEn => 0#31 ++ BitVec.ofBool s.doneIE
  | .intStatus => 0#31 ++ BitVec.ofBool s.donePend
  | .srcAddr => s.srcAddr
  | .srcLen => s.srcLen
  | .srcPos => s.srcPos
  | .dstAddr => s.dstAddr
  | .dstCap => s.dstCap
  | .dstLen => s.dstLen
  | .errInfo => s.errInfo
  | .freqSel => 0#23 ++ s.freqSel
  | .freqCount => s.freqCountReg
  | .freqFlags => s.freqFlagsReg
  | .codeSel => 0#13 ++ s.codeChunk ++ 0#7 ++ s.codeSym
  | .codeInfo => s.codeInfoReg
  | .codeBits => s.codeBitsReg
  | .nodeSel => 0#22 ++ s.nodeSel
  | .nodeInfo => s.nodeInfoReg
  | .nodeChild => s.nodeChildReg
  | .nodeWeightLo => s.nodeWeightLoReg
  | .nodeWeightHi => s.nodeWeightHiReg
  | .treeInfo => s.treeInfoReg

/-- What a read of a register returns while BUSY, "any value" being the free value `f` (10_state.md R26). -/
def State.regBusy (s : State) (f : Word) : Reg → Word
  | .id => s.regIdle .id
  | .cmd => s.regIdle .cmd
  | .status => s.statusBusy f
  | .intEn => s.regIdle .intEn
  | .intStatus => s.regIdle .intStatus
  | .srcAddr => s.regIdle .srcAddr
  | .srcLen => s.regIdle .srcLen
  | .srcPos => f
  | .dstAddr => s.regIdle .dstAddr
  | .dstCap => s.regIdle .dstCap
  | .dstLen => f
  | .errInfo => f
  | .freqSel => s.regIdle .freqSel
  | .freqCount => f
  | .freqFlags => f
  | .codeSel => s.regIdle .codeSel
  | .codeInfo => f
  | .codeBits => f
  | .nodeSel => s.regIdle .nodeSel
  | .nodeInfo => f
  | .nodeChild => f
  | .nodeWeightLo => f
  | .nodeWeightHi => f
  | .treeInfo => f

/-- The value a read at a register returns to the host is put with the values it has (log 2). -/
def State.give (s : State) (v : Word) : State := { s with hostData := v :: s.hostData }

/-- A host read of the window. A reserved offset reads 0, and so does an access of another width or not aligned
(10_state.md R21; log 10). -/
def State.windowRead (s : State) (off : BitVec 8) (width : AccessWidth) : State :=
  if accessOk off width then
    match regAt off with
    | none => s.give 0#32
    | some r => if s.busy then (s.draw.2).give (s.regBusy s.draw.1 r) else s.give (s.regIdle r)
  else s.give 0#32

/-- A write to a register, other than one that starts a command: a CMD write while BUSY is dropped and sets CMD_DROPPED,
the operand registers drop writes while BUSY, the others take them at any time, the read-only ones never (10_state.md
R21, R25, R34 to R38, R42, R46, R50). -/
def State.regWrite (s : State) (v : Word) : Reg → State
  | .id => s
  | .cmd => if s.busy then { s with cmdDropped := true } else s
  | .status => s
  | .intEn => { s with doneIE := v.getLsbD 0 }
  | .intStatus => if v.getLsbD 0 then { s with donePend := false } else s
  | .srcAddr => if s.busy then s else { s with srcAddr := v }
  | .srcLen => if s.busy then s else { s with srcLen := v }
  | .srcPos => if s.busy then s else { s with srcPos := v }
  | .dstAddr => if s.busy then s else { s with dstAddr := v }
  | .dstCap => if s.busy then s else { s with dstCap := v }
  | .dstLen => if s.busy then s else { s with dstLen := v }
  | .errInfo => s
  | .freqSel => { s with freqSel := v.extractLsb' 0 9 }
  | .freqCount => s
  | .freqFlags => s
  | .codeSel => { s with codeSym := v.extractLsb' 0 9, codeChunk := v.extractLsb' 16 3 }
  | .codeInfo => s
  | .codeBits => s
  | .nodeSel => { s with nodeSel := v.extractLsb' 0 10 }
  | .nodeInfo => s
  | .nodeChild => s
  | .nodeWeightLo => s
  | .nodeWeightHi => s
  | .treeInfo => s

/-- A host write to the window, other than one that starts a command. A reserved offset ignores it, and so does an
access of another width or not aligned (10_state.md R21; log 10). -/
def State.windowWrite (s : State) (off : BitVec 8) (width : AccessWidth) (v : Word) : State :=
  if accessOk off width then
    match regAt off with
    | none => s
    | some r => s.regWrite v r
  else s

/-- The bus write is a CMD write (10_state.md R28). -/
def isCmdWrite (off : BitVec 8) (width : AccessWidth) : Bool :=
  accessOk off width && (regAt off == some .cmd)

end Sys2Proof.Machine
end

