-- ==== Sys2Proof/Machine/HostBus.lean ====
section
/-! DEFINITION. What the host (and the answering memory) does besides starting a command: register and memory accesses
(10_state.md R25, R26; 70_reset_and_hazards.md R247), while IDLE and while BUSY, and the reset input (R240, R241). -/

namespace Sys2Proof.Machine

/-- The host writes a byte of host memory. While BUSY, a byte of the running command's source is marked, so that each
later engine read of it is any value, and a byte of its destination takes any value (70_reset_and_hazards.md R247;
log 12). -/
def State.hostStore (s : State) (a : Nat) (v : Byte) : State :=
  if s.busy && s.inDest a then
    { (s.draw.2).store a (s.draw.1.extractLsb' 0 8) with
      dstTouched := a :: s.dstTouched
      srcTouched := if s.inSource a then a :: s.srcTouched else s.srcTouched }
  else if s.busy && s.inSource a then
    { s.store a v with srcTouched := a :: s.srcTouched }
  else s.store a v

/-- The host reads a byte of host memory. While BUSY, a byte of the running command's destination reads any value
(70_reset_and_hazards.md R247). The read changes no byte: R78 of 20_memory.md leaves the side effects of a read to the
platform, and that there are none is the model's choice (log 23). -/
def State.hostLoad (s : State) (a : Nat) : State :=
  if s.busy && s.inDest a then (s.draw.2).give (0#24 ++ s.draw.1.extractLsb' 0 8)
  else s.give (0#24 ++ Memory.read s.mem a)

/-- Host memory changes its answers at one address (20_memory.md R88; log 5). -/
def State.setAnswer (s : State) (a : Nat) (onRead onWrite : BusReply) : State :=
  { s with bus := ⟨a, onRead, onWrite⟩ :: s.bus.filter (fun e => e.addr != a) }

/-- One operation of the host that neither starts a command nor lets the engine go on nor resets the block. -/
def State.hostAct (s : State) : HostOp → State
  | .write off width v => s.windowWrite off width v
  | .read off width => s.windowRead off width
  | .memWrite a v => s.hostStore a.toNat v
  | .memRead a => s.hostLoad a.toNat
  | .answer a r w => s.setAnswer a.toNat r w
  | .reset => s
  | .release => s
  | .pass => s
  | .wait => s

/-- After an abandoned command each byte it wrote is its old value or the value written, by a free value for each
(70_reset_and_hazards.md R241; log 11). -/
def State.restoreSome (s : State) : List Host.Cell → State
  | [] => s
  | (a, old) :: rest =>
    State.restoreSome (if s.draw.1.getLsbD 0 then (s.draw.2).store a old else s.draw.2) rest

/-- The block while reset is asserted (70_reset_and_hazards.md R240): every register at its table value, the session
EMPTY, the engine IDLE; host memory, its answers, the host's operations and the strap are not the block's. -/
def State.resetKeeping (s : State) : State :=
  { State.reset with
    inReset := true
    mem := s.mem
    host := s.host
    hostData := s.hostData
    bus := s.bus
    draws := s.draws
    mmioBase := s.mmioBase }

/-- The reset input is asserted, while IDLE or BUSY (70_reset_and_hazards.md R240, R241). -/
def State.applyReset (s : State) : State := (s.restoreSome s.undo).resetKeeping

/-- The reset input is released: the block keeps the values it had while reset was asserted, and takes writes again
(70_reset_and_hazards.md R240). -/
def State.releaseReset (s : State) : State := { s with inReset := false }

/-- The host waits for completion, or has nothing left to do. -/
def State.hostWaits (s : State) : Bool :=
  match s.host with
  | [] => true
  | .wait :: _ => true
  | .write _ _ _ :: _ => false
  | .read _ _ :: _ => false
  | .memWrite _ _ :: _ => false
  | .memRead _ :: _ => false
  | .answer _ _ _ :: _ => false
  | .reset :: _ => false
  | .release :: _ => false
  | .pass :: _ => false

end Sys2Proof.Machine
end

