-- ==== Sys2Proof/Machine/Ops.lean ====
section
/-! DEFINITION. The engine's shared operations: a DMA read and a DMA write (20_memory.md R76, R87), `emit`
(44_table_serializer.md R151), the start checks (60_exceptions.md R214), and the block's one taking of an exception,
`raise Error` (R212). There is no return from one (R218). -/

namespace Sys2Proof.Machine

/-- A computation of the engine: it goes on with a value, or stops; either way with the state it has reached, so that
errors are precise (60_exceptions.md R212). -/
abbrev Cmd (α : Type) := EStateM Stop State α

/-- `raise Error(CODE, info)` (60_exceptions.md R212). -/
def raise {α : Type} (code : ErrCode) (info : Word) : Cmd α := throw (.error code info)

/-- Changes the state and goes on. -/
def update (f : State → State) : Cmd Unit := fun s => .ok () (f s)

/-- The byte host memory gives at an address: what it holds, or any value where the host wrote the byte while the
command ran (20_memory.md R88, 70_reset_and_hazards.md R247). The read changes no byte: R78 of 20_memory.md leaves the
side effects of a read to the platform, and that there are none is the model's choice (log 23). -/
def fetchByte (a : Nat) : Cmd Byte := fun s =>
  if s.srcTouched.contains a then .ok (s.draw.1.extractLsb' 0 8) s.draw.2 else .ok (Memory.read s.mem a) s

/-- Puts a byte into host memory at an address, or any value where the host wrote the byte while the command ran
(70_reset_and_hazards.md R247); the byte's old value is kept for R241 (log 11). -/
def putByte (a : Nat) (v : Byte) : Cmd Unit := fun s =>
  if s.dstTouched.contains a then
    .ok () { (s.draw.2).store a (s.draw.1.extractLsb' 0 8) with undo := (a, Memory.read s.mem a) :: s.undo }
  else .ok () { s.store a v with undo := (a, Memory.read s.mem a) :: s.undo }

/-- `MemRead(addr, 1)` (00_scope.md R10): the answer of host memory (20_memory.md R87, R88). -/
def memRead (a : Nat) : Cmd Byte := fun s =>
  if Config.addrSpace ≤ a then .error (.fault (.outsideHostMemory a)) s
  else
    match (s.busAt a).onRead with
    | .completes => fetchByte a s
    | .busError => .error (.error .srcBus (BitVec.ofNat 32 a)) s
    | .never => .error .waits s

/-- `MemWrite(addr, 1, v)` (00_scope.md R10): the answer of host memory (20_memory.md R87, R88). -/
def memWrite (a : Nat) (v : Byte) : Cmd Unit := fun s =>
  if Config.addrSpace ≤ a then .error (.fault (.outsideHostMemory a)) s
  else
    match (s.busAt a).onWrite with
    | .completes => putByte a v s
    | .busError => .error (.error .dstBus (BitVec.ofNat 32 a)) s
    | .never => .error .waits s

/-- One more destination byte is counted (44_table_serializer.md R151). -/
def State.bumpDstLen (s : State) : State := { s with dstLen := s.dstLen + 1#32 }

/-- `emit(v)` (44_table_serializer.md R151). -/
def emit (v : Byte) : Cmd Unit := do
  let s ← get
  if s.dstLen.toNat < s.dstCap.toNat then
    memWrite s.dstByte v
    update State.bumpDstLen
  else raise .dstFull s.dstLen

/-- The first of some bytes is emitted, and the others are left to emit (44_table_serializer.md R151). -/
def emitNext (b : Byte) (bs : List Byte) : Cmd (List Job) := do
  emit b
  pure [.emit bs]

/-- The phase check: SEQUENCE with ERR_INFO the phase (60_exceptions.md R211, R214). -/
def needPhase (ok : Phase → Bool) : Cmd Unit := do
  let s ← get
  if ok s.phase then pure () else raise .sequence (0#30 ++ s.phase.code)

/-- The source's range check (20_memory.md R71; ERR_INFO 0). -/
def checkSource : Cmd Unit := do
  let s ← get
  if inRange s.srcAddr s.srcLen then pure () else raise .range 0#32

/-- The destination's range check (20_memory.md R71; ERR_INFO 1). -/
def checkDest : Cmd Unit := do
  let s ← get
  if inRange s.dstAddr s.dstCap then pure () else raise .range 1#32

/-- The overlap check (20_memory.md R73). -/
def checkOverlap : Cmd Unit := do
  let s ← get
  if overlaps s then raise .overlap 0#32 else pure ()

/-- A source that includes the register window is refused (70_reset_and_hazards.md R249; log 7). -/
def refuseWindowSource : Cmd Unit := do
  let s ← get
  if touchesWindow s.mmioBase s.srcAddr s.srcLen then throw (.refuse .dmaIntoWindow) else pure ()

/-- A destination that includes the register window is refused (70_reset_and_hazards.md R249; log 7). -/
def refuseWindowDest : Cmd Unit := do
  let s ← get
  if touchesWindow s.mmioBase s.dstAddr s.dstCap then throw (.refuse .dmaIntoWindow) else pure ()

/-- The checks of a command that reads the source only (60_exceptions.md R214). -/
def startSource : Cmd Unit := do
  checkSource
  refuseWindowSource

/-- The checks of a command that writes the destination only (60_exceptions.md R214). -/
def startDest : Cmd Unit := do
  checkDest
  refuseWindowDest

/-- The checks of a command that does both (60_exceptions.md R214). -/
def startBoth : Cmd Unit := do
  checkSource
  checkDest
  checkOverlap
  refuseWindowSource
  refuseWindowDest

/-- The start checks of each command, in the order of 60_exceptions.md R214: the phase it needs (30_encoding.md R91), and
the ranges it uses. -/
def startChecks : Instr → Cmd Unit
  | .clear => pure ()
  | .count => startSource
  | .build => needPhase (fun p => p.atLeast .counted)
  | .derive => needPhase (fun p => p.atLeast .built)
  | .serialize => do
    needPhase (fun p => p.atLeast .counted)
    startDest
  | .encodePayload => do
    needPhase (fun p => p == .coded)
    startBoth
  | .parse => startSource
  | .decodePayload => do
    needPhase (fun p => p.atLeast .built)
    startBoth
  | .compress => startBoth
  | .decompress => startBoth
  | .encode => startSource

/-- `raise Error(CODE, info)` takes effect (60_exceptions.md R212): the session is cleared first where the stage's rule
says so (41_frequency_counter.md R123, 44_table_serializer.md R158), and the command completes by the error. -/
def State.takeError (s : State) (clears : Bool) (code : ErrCode) (info : Word) : State :=
  (if clears then s.sessionClear else s).finishError code info

/-- An illegal command word is accepted and completes at once by ILLEGAL_CMD with ERR_INFO the word
(30_encoding.md R92). -/
def illegalWord (w : Word) (s : State) : State := (s.accept w).takeError false .illegalCmd w

end Sys2Proof.Machine
end

