-- ==== Sys2Proof/Machine/Serializer.lean ====
section
/-! DEFINITION. The frequency-table serializer: the pieces of SERIALIZE and PARSE (44_table_serializer.md R150 to R159). -/

namespace Sys2Proof.Machine

/-- A pair: the key byte and the count, most significant byte first (30_encoding.md R96, 20_memory.md R74). -/
def pairBytes (key : Byte) (c : Word) : List Byte :=
  [key, c.extractLsb' 24 8, c.extractLsb' 16 8, c.extractLsb' 8 8, c.extractLsb' 0 8]

/-- The pair of a literal byte, if it is present (44_table_serializer.md R150). -/
def literalPair (b : Nat) (e : FreqEntry) : List Byte :=
  if e.valid then pairBytes (BitVec.ofNat 8 b) e.count else []

/-- The pairs of the literals but 3, from literal `b` on, in increasing order (44_table_serializer.md R150 item 3). -/
def literalPairs : List FreqEntry → (b : Nat) → List Byte
  | [], _ => []
  | e :: es, b => (if b = 3 then [] else literalPair b e) ++ literalPairs es (b + 1)

/-- The table section in the order of 44_table_serializer.md R150: the literal-3 pair if present, the END_OF_TEXT pair,
the other literals in increasing order, the terminator. -/
def State.tableSection (s : State) : List Byte :=
  literalPair 3 (s.freqAt 3) ++ pairBytes Config.eotKey (s.freqAt Config.endOfText).count ++
    literalPairs (s.freq.toList.take 256) 0 ++ [Config.terminator]

/-- DST_LEN starts at 0 (10_state.md R38). -/
def State.startDst (s : State) : State := { s with dstLen := 0#32 }

/-- SERIALIZE begins: DST_LEN is 0 and the table section is left to emit (44_table_serializer.md R152). -/
def startSerialize : Cmd (List Job) := do
  update State.startDst
  let s ← get
  pure [.emit s.tableSection]

/-- `next_byte()` at source offset `pos` (44_table_serializer.md R154). -/
def nextByte (pos : Nat) : Cmd Byte := do
  let s ← get
  if pos < s.srcLen.toNat then memRead (s.srcByte pos)
  else raise .truncatedHeader (BitVec.ofNat 32 pos)

/-- What a key byte means where it stands (44_table_serializer.md R155). -/
inductive KeyClass where
  | pair (sym : Nat)
  | endOfTextPair
  | terminator
  | malformed
  deriving DecidableEq, Repr

/-- Key classification: at pair position 0 or later, before or after the END_OF_TEXT pair (44_table_serializer.md
R155). -/
def classify (idx : Nat) (seen : Bool) (k : Byte) : KeyClass :=
  if seen then (if k = Config.terminator then .terminator else .pair k.toNat)
  else if k = Config.eotKey then .endOfTextPair
  else if k = Config.terminator && idx == 0 then .pair 3
  else .malformed

/-- `be32(b0, b1, b2, b3)` (00_scope.md R10, 20_memory.md R74). -/
def be32 (b0 b1 b2 b3 : Byte) : Word := b0 ++ b1 ++ b2 ++ b3

/-- PARSE reads the key byte at offset `pos`, at pair position `idx` (44_table_serializer.md R155, R156). -/
def parseKeyByte (pos idx : Nat) (seen : Bool) : Cmd (List Job) := do
  let k ← nextByte pos
  match classify idx seen k with
  | .pair sym => pure [.parseCount pos sym [] idx seen]
  | .endOfTextPair => pure [.parseCount pos Config.endOfText [] idx true]
  | .terminator => pure [.endParse (pos + 1)]
  | .malformed => raise .malformedTable (BitVec.ofNat 32 pos)

/-- PARSE reads the next count byte of the pair whose key byte stood at `kpos` (44_table_serializer.md R156). -/
def parseCountByte (kpos sym : Nat) (got : List Byte) (idx : Nat) (seen : Bool) : Cmd (List Job) := do
  let b ← nextByte (kpos + 1 + got.length)
  pure [.parseCount kpos sym (got ++ [b]) idx seen]

/-- The count of the four bytes read. -/
def countOfBytes (got : List Byte) : Word := be32 (got.getD 0 0#8) (got.getD 1 0#8) (got.getD 2 0#8) (got.getD 3 0#8)

/-- The pair enters FREQ; a key read before is a duplicate, found after its four count bytes are read, as in the
pseudocode (44_table_serializer.md R156; log 24 on R252's bound). -/
def enterPair (kpos sym : Nat) (got : List Byte) (idx : Nat) (seen : Bool) : Cmd (List Job) := do
  let s ← get
  if (s.freqAt sym).valid then raise .malformedTable (BitVec.ofNat 32 kpos)
  else
    update (fun t => t.setFreq sym ⟨true, countOfBytes got⟩)
    pure [.parseKey (kpos + 5) (idx + 1) seen]

/-- The end of PARSE: SRC_POS and PHASE (44_table_serializer.md R156). -/
def State.endParse (s : State) (pos : Nat) : State :=
  { s with
    srcPos := BitVec.ofNat 32 pos
    phase := .counted }

end Sys2Proof.Machine
end

