-- ==== Sys2Proof/Machine/Bitstream.lean ====
section
/-! DEFINITION. The bitstream encoder and decoder: the pieces of ENCODE_PAYLOAD and DECODE_PAYLOAD (45_bitstream.md R170 to R180). -/

namespace Sys2Proof.Machine

/-- Eight digits as a byte, the first digit in bit 7 (45_bitstream.md R171, 20_memory.md R74). -/
def byteOfDigits (ds : List Bool) : Byte :=
  BitVec.ofNat 8 (ds.foldl (fun v d => 2 * v + d.toNat) 0)

/-- A digit joins the bit buffer (45_bitstream.md R171). -/
def State.pushDigit (s : State) (d : Bool) : State := { s with acc := s.acc ++ [d] }

/-- The bit buffer is emptied (45_bitstream.md R171). -/
def State.emptyAcc (s : State) : State := { s with acc := [] }

/-- One digit of `put(c)`: it joins the bit buffer, and a full buffer becomes a byte to emit; the digits `ds` are left
(45_bitstream.md R171). The buffer is emptied as its byte is made up; a failing emit loses it anyway (R170). -/
def putDigit (d : Bool) (ds : List Bool) : Cmd (List Job) := do
  update (fun s => s.pushDigit d)
  let s ← get
  if s.acc.length = 8 then do
    update State.emptyAcc
    pure [.emit [byteOfDigits s.acc], .put ds]
  else pure [.put ds]

/-- Padding: a buffer of 1 to 7 digits is filled with "0" digits (45_bitstream.md R172). -/
def padAcc : Cmd (List Job) := do
  let s ← get
  if s.acc.length = 0 then pure [] else pure [.put (List.replicate (8 - s.acc.length) false)]

/-- Reads the source byte at offset `k` and puts its code; `n` bytes are left after it (45_bitstream.md R170, R173). -/
def encodeByte (k n : Nat) : Cmd (List Job) := do
  let s ← get
  let b ← memRead (s.srcByte k)
  let t ← get
  if (t.codeAt b.toNat).valid then pure [.put (t.codeAt b.toNat).digits, .encode (k + 1) n]
  else raise .noCode (BitVec.ofNat 32 k)

/-- END_OF_TEXT's code is put (45_bitstream.md R170). -/
def putEndOfText : Cmd (List Job) := do
  let s ← get
  pure [.put (s.codeAt Config.endOfText).digits]

/-- The walk goes to a node. -/
def State.walkTo (s : State) (n : BitVec 10) : State := { s with walk := { s.walk with node := n } }

/-- A byte is taken into the walk, its bit 7 first (45_bitstream.md R175). -/
def State.walkByte (s : State) (b : Byte) : State := { s with walk := { s.walk with byte := b, bit := 7#3 } }

/-- The walk's next bit position is the one below (45_bitstream.md R175). -/
def State.nextBit (s : State) : State := { s with walk := { s.walk with bit := s.walk.bit - 1#3 } }

/-- The bit the walk is at. -/
def State.walkDigit (s : State) : Bool := s.walk.byte.getLsbD s.walk.bit.toNat

/-- The decode stops at END_OF_TEXT, `pos` being the offset after the byte that held its last bit
(45_bitstream.md R176, R178; 10_state.md R32). -/
def State.stopDecode (s : State) (pos : Nat) : State :=
  { s with
    srcPos := BitVec.ofNat 32 pos
    extraInput := decide (pos < s.srcLen.toNat) }

/-- The walk on one bit: on a one-leaf tree a "0" stays at the root and a "1" is no code, else "0" goes to the LEFT child
and "1" to the RIGHT child (45_bitstream.md R176, R177). -/
def walkOn (bpos : Nat) (d : Bool) : Cmd Unit := do
  let s ← get
  if (s.nodeAt s.tree.root.toNat).leaf then
    if d then raise .badCode (BitVec.ofNat 32 bpos) else update (fun t => t.walkTo t.tree.root)
  else
    update (fun t =>
      t.walkTo (if d then (t.nodeAt t.walk.node.toNat).right else (t.nodeAt t.walk.node.toNat).left))

/-- Where the walk has come to: END_OF_TEXT's leaf stops the decode, a literal's leaf is emitted and the walk goes back
to the root, an internal node goes on; `n` bits of the byte at `bpos` are left (45_bitstream.md R176, R178). -/
def atNode (bpos n : Nat) : Cmd (List Job) := do
  let s ← get
  if (s.nodeAt s.walk.node.toNat).leaf then
    if (s.nodeAt s.walk.node.toNat).sym.toNat = Config.endOfText then do
      update (fun t => t.stopDecode (bpos + 1))
      pure []
    else pure [.emit [(s.nodeAt s.walk.node.toNat).sym.setWidth 8], .toRoot, .bits bpos n]
  else pure [.bits bpos n]

/-- `step(d)` on the next bit of the byte at offset `bpos`; `n` bits are left after it (45_bitstream.md R175, R176). -/
def decodeBit (bpos n : Nat) : Cmd (List Job) := do
  let s ← get
  walkOn bpos s.walkDigit
  update State.nextBit
  atNode bpos n

/-- The payload byte at source offset `pos`; past the source's end the payload is truncated (45_bitstream.md R175,
R179). -/
def decodeByte (pos : Nat) : Cmd (List Job) := do
  let s ← get
  if pos < s.srcLen.toNat then do
    let b ← memRead (s.srcByte pos)
    update (fun t => t.walkByte b)
    pure [.bits pos 8]
  else raise .truncatedPayload (BitVec.ofNat 32 pos)

/-- DECODE_PAYLOAD begins: DST_LEN is 0, the walk is at the root, SRC_POS is the first payload offset
(45_bitstream.md R175). -/
def beginDecode : Cmd (List Job) := do
  update State.startDst
  update (fun s => s.walkTo s.tree.root)
  let s ← get
  pure [.decode s.srcPos.toNat]

end Sys2Proof.Machine
end

