-- ==== Sys2Proof/Machine/Builder.lean ====
section
/-! DEFINITION. The tree builder: the body of BUILD (42_tree_builder.md R130 to R137). -/

namespace Sys2Proof.Machine

/-- The tree and the codes are discarded, and PHASE goes back to COUNTED (42_tree_builder.md R130, R137). -/
def State.dropTree (s : State) : State :=
  { s with
    node := Vector.replicate 513 NodeEntry.absent
    tree := TreeReg.absent
    code := Vector.replicate 257 CodeEntry.absent
    phase := .counted }

/-- The next free arena entry takes a node, and its index joins the priority structure (42_tree_builder.md R130). -/
def State.addNode (s : State) (e : NodeEntry) : State :=
  { s.setNode s.tree.nodes.toNat e with
    tree := ⟨s.tree.root, s.tree.nodes + 1#10⟩
    queue := s.queue ++ [s.tree.nodes.toNat] }

/-- The leaf of a symbol: its weight is its count (42_tree_builder.md R130). -/
def leafOf (sym : Nat) (e : FreqEntry) : NodeEntry :=
  ⟨true, true, BitVec.ofNat 9 sym, 0#10, 0#10, e.count.setWidth 64⟩

/-- The internal node of two extracted nodes: the first is its left child, its weight is their sum
(42_tree_builder.md R130, R133). -/
def State.parentOf (s : State) (a b : Nat) : NodeEntry :=
  ⟨true, false, 0#9, BitVec.ofNat 10 a, BitVec.ofNat 10 b, (s.nodeAt a).weight + (s.nodeAt b).weight⟩

/-- Places the leaves of the entries of FREQ from symbol index `sym` on, in increasing symbol index
(42_tree_builder.md R130). -/
def State.placeLeaves (s : State) : List FreqEntry → (sym : Nat) → State
  | [], _ => s
  | e :: es, sym => (if e.valid then s.addNode (leafOf sym e) else s).placeLeaves es (sym + 1)

/-- `key(i) < key(j)`: the pair (WEIGHT, node index), compared lexicographically (42_tree_builder.md R131). -/
def State.keyLess (s : State) (i j : Nat) : Bool :=
  decide ((s.nodeAt i).weight.toNat < (s.nodeAt j).weight.toNat) ||
    (decide ((s.nodeAt i).weight.toNat = (s.nodeAt j).weight.toNat) && decide (i < j))

/-- The index with the least key among `i` and a list. -/
def State.leastFrom (s : State) (i : Nat) : List Nat → Nat
  | [] => i
  | j :: js => s.leastFrom (if s.keyLess j i then j else i) js

/-- Two nodes are extracted and combined (42_tree_builder.md R130, R131). With fewer than two nothing is done. -/
def State.combine (s : State) : State :=
  match s.queue with
  | [] => s
  | i :: is =>
    let a := s.leastFrom i is
    match s.queue.erase a with
    | [] => s
    | j :: js =>
      let b := s.leastFrom j js
      ({ s with queue := (s.queue.erase a).erase b }).addNode (s.parentOf a b)

/-- "while |Q| > 1": at most `n` combinations (42_tree_builder.md R130; 70_reset_and_hazards.md R252). -/
def State.combineAll (s : State) : Nat → State
  | 0 => s
  | n + 1 => if 1 < s.queue.length then s.combine.combineAll n else s

/-- The one element left is the root (42_tree_builder.md R130). -/
def State.setRoot (s : State) (r : Nat) : State :=
  { s with
    tree := ⟨BitVec.ofNat 10 r, s.tree.nodes⟩
    queue := []
    phase := .built }

/-- The tree is finished; an empty priority structure faults (42_tree_builder.md R130, R135). -/
def endBuild : Cmd Unit := fun s =>
  match s.queue with
  | [] => .error (.fault .emptyQueue) s
  | r :: _ => .ok () (s.setRoot r)

/-- The leaves, and then the combinations, on a state without a tree (42_tree_builder.md R130). -/
def State.growTree (s : State) : State :=
  let t := s.dropTree.placeLeaves s.freq.toList 0
  t.combineAll t.queue.length

/-- BUILD's pseudocode after its start check (42_tree_builder.md R130). -/
def buildStage : Cmd Unit := do
  update State.growTree
  endBuild

end Sys2Proof.Machine
end

