-- ==== Sys2Proof/Machine/Counter.lean ====
section
/-! DEFINITION. The frequency counter: the pieces of COUNT (41_frequency_counter.md R120 to R124). -/

namespace Sys2Proof.Machine

/-- One source byte is counted (41_frequency_counter.md R120). -/
def State.tally (s : State) (b : Byte) : State :=
  s.setFreq b.toNat ⟨true, (s.freqAt b.toNat).count + 1#32⟩

/-- Reads and counts the source byte at offset `k`; `n` are left after it (41_frequency_counter.md R120). -/
def countByte (k n : Nat) : Cmd (List Job) := do
  let s ← get
  let b ← memRead (s.srcByte k)
  update (fun t => t.tally b)
  pure [.count (k + 1) n]

/-- The end of the count: END_OF_TEXT with count 1 (41_frequency_counter.md R121), and PHASE COUNTED. -/
def State.endCount (s : State) : State :=
  { s.setFreq Config.endOfText ⟨true, 1#32⟩ with phase := .counted }

end Sys2Proof.Machine
end

