-- ==== Sys2Proof/Machine/Deriver.lean ====
section
/-! DEFINITION. The code deriver: the body of DERIVE (43_code_deriver.md R140 to R145). -/

namespace Sys2Proof.Machine

/-- The branches from node `n` down to node `target`, "0" for a step to a LEFT child and "1" for a step to a RIGHT
child, the first step first; none where `target` is not at or below `n` within `fuel` steps (43_code_deriver.md R141). -/
def State.pathFrom (s : State) (target : Nat) : (fuel n : Nat) → Option (List Bool)
  | 0, n => if n = target then some [] else none
  | fuel + 1, n =>
    if n = target then some []
    else if (s.nodeAt n).leaf then none
    else
      match s.pathFrom target fuel (s.nodeAt n).left.toNat with
      | some p => some (false :: p)
      | none =>
        match s.pathFrom target fuel (s.nodeAt n).right.toNat with
        | some p => some (true :: p)
        | none => none

/-- `path(n)` (43_code_deriver.md R141); no path is longer than MAXCODE (R144). -/
def State.path (s : State) (n : Nat) : Option (List Bool) :=
  s.pathFrom n Config.maxCode s.tree.root.toNat

/-- A leaf's symbol gets its path as its code (43_code_deriver.md R140). -/
def State.codeLeaf (s : State) (n : Nat) : State :=
  if (s.nodeAt n).leaf then
    match s.path n with
    | some p => s.setCode (s.nodeAt n).sym.toNat (CodeEntry.ofDigits p)
    | none => s
  else s

/-- The codes of the leaves from node `n` on, `k` nodes (43_code_deriver.md R140, R145). -/
def State.codeLeaves (s : State) (n : Nat) : Nat → State
  | 0 => s
  | k + 1 => (s.codeLeaf n).codeLeaves (n + 1) k

/-- The codes are discarded, and PHASE goes back to BUILT (43_code_deriver.md R140). -/
def State.dropCodes (s : State) : State :=
  { s with
    code := Vector.replicate 257 CodeEntry.absent
    phase := .built }

/-- The code table of the tree (43_code_deriver.md R140, R142). -/
def State.deriveCodes (s : State) : State :=
  if (s.nodeAt s.tree.root.toNat).leaf then
    s.setCode (s.nodeAt s.tree.root.toNat).sym.toNat (CodeEntry.ofDigits [false])
  else s.codeLeaves 0 s.tree.nodes.toNat

/-- PHASE becomes CODED (43_code_deriver.md R140). -/
def State.endDerive (s : State) : State := { s with phase := .coded }

/-- DERIVE's pseudocode after its start check (43_code_deriver.md R140). -/
def deriveStage : Cmd Unit := update (fun s => s.dropCodes.deriveCodes.endDerive)

end Sys2Proof.Machine
end

