-- ==== Sys2Proof/Machine/Engine.lean ====
section
/-! DEFINITION. The engine: what each job does, one job, one access (00_scope.md R7), a run until the command completes,
and acceptance (10_state.md R24). -/

namespace Sys2Proof.Machine

/-- What a job does, and the jobs that take its place. -/
def Job.run : Job → Cmd (List Job)
  | .check i => do
    startChecks i
    pure []
  | .stage i => do
    update (fun s => s.setStage i)
    pure []
  | .clear => do
    update State.sessionClear
    pure []
  | .count _ 0 => pure []
  | .count k (n + 1) => countByte k n
  | .endCount => do
    update State.endCount
    pure []
  | .build => do
    buildStage
    pure []
  | .derive => do
    deriveStage
    pure []
  | .serialize => startSerialize
  | .emit [] => pure []
  | .emit (b :: bs) => emitNext b bs
  | .parseKey pos idx seen => parseKeyByte pos idx seen
  | .parseCount kpos sym got idx seen =>
    if got.length < 4 then parseCountByte kpos sym got idx seen else enterPair kpos sym got idx seen
  | .endParse pos => do
    update (fun s => s.endParse pos)
    pure []
  | .startEncode => do
    update State.emptyAcc
    pure []
  | .encode _ 0 => pure []
  | .encode k (n + 1) => encodeByte k n
  | .put [] => pure []
  | .put (d :: ds) => putDigit d ds
  | .endOfText => putEndOfText
  | .pad => padAcc
  | .startDecode => beginDecode
  | .decode pos => decodeByte pos
  | .bits bpos 0 => pure [.decode (bpos + 1)]
  | .bits bpos (n + 1) => decodeBit bpos n
  | .toRoot => do
    update (fun s => s.walkTo s.tree.root)
    pure []

/-- The jobs that access host memory, or raise the error that comes in its place. -/
def Job.accesses : Job → Bool
  | .check _ => false
  | .stage _ => false
  | .clear => false
  | .count _ 0 => false
  | .count _ (_ + 1) => true
  | .endCount => false
  | .build => false
  | .derive => false
  | .serialize => false
  | .emit [] => false
  | .emit (_ :: _) => true
  | .parseKey _ _ _ => true
  | .parseCount _ _ got _ _ => decide (got.length < 4)
  | .endParse _ => false
  | .startEncode => false
  | .encode _ 0 => false
  | .encode _ (_ + 1) => true
  | .put _ => false
  | .endOfText => false
  | .pad => false
  | .startDecode => false
  | .decode _ => true
  | .bits _ _ => false
  | .toRoot => false

/-- The jobs whose errors leave the session EMPTY: those of COUNT and PARSE (41_frequency_counter.md R123,
44_table_serializer.md R158). -/
def Job.clearsOnError : Job → Bool
  | .check _ => false
  | .stage _ => false
  | .clear => false
  | .count _ _ => true
  | .endCount => false
  | .build => false
  | .derive => false
  | .serialize => false
  | .emit _ => false
  | .parseKey _ _ _ => true
  | .parseCount _ _ _ _ _ => true
  | .endParse _ => false
  | .startEncode => false
  | .encode _ _ => false
  | .put _ => false
  | .endOfText => false
  | .pad => false
  | .startDecode => false
  | .decode _ => false
  | .bits _ _ => false
  | .toRoot => false

/-- What one job comes to. -/
inductive Progress where
  /-- The command goes on. -/
  | goes (s : State)
  /-- The command has completed, normally or by an error. -/
  | ends (s : State)
  /-- Host memory has not answered; nothing has changed. -/
  | waits
  /-- The machine stops. -/
  | fault (reason : Fault)
  /-- The command is outside the spec. -/
  | refused (reason : Refusal)

/-- The job `j` is done, with the jobs `rest` after it. -/
def State.doJob (s : State) (j : Job) (rest : List Job) : Progress :=
  match j.run s with
  | .ok new t => .goes { t with todo := new ++ rest }
  | .error (.error code info) t => .ends (t.takeError j.clearsOnError code info)
  | .error .waits _ => .waits
  | .error (.fault r) _ => .fault r
  | .error (.refuse r) _ => .refused r

/-- The engine's next job; with none left the command completes normally (60_exceptions.md R213). -/
def State.progress (s : State) : Progress :=
  match s.todo with
  | [] => .ends s.finish
  | j :: rest => s.doJob j rest

/-- The engine's next job is an access. -/
def State.atAccess (s : State) : Bool :=
  match s.todo with
  | [] => false
  | j :: _ => j.accesses

/-- A bound on what a job comes to, itself and the jobs it leaves, in a command over `n` source bytes: an entry of CODE
has at most 511 digits, a table section at most 1291 bytes, a payload byte 8 bits (70_reset_and_hazards.md R252). -/
def Job.work (n : Nat) : Job → Nat
  | .check _ => 1
  | .stage _ => 1
  | .clear => 1
  | .count _ left => left + 1
  | .endCount => 1
  | .build => 1
  | .derive => 1
  | .serialize => 1293
  | .emit bs => bs.length + 1
  | .parseKey pos _ _ => 10 * (n - pos) + 2
  | .parseCount kpos _ got _ _ => 4 - got.length + (10 * (n - (kpos + 5)) + 3)
  | .endParse _ => 1
  | .startEncode => 1
  | .encode _ left => 1535 * left + 1
  | .put ds => 3 * ds.length + 1
  | .endOfText => 1535
  | .pad => 26
  | .startDecode => 40 * n + 2
  | .decode pos => 40 * (n - pos) + 1
  | .bits bpos left => 4 * left + (40 * (n - (bpos + 1)) + 2)
  | .toRoot => 1

/-- More jobs than the running command has left: the fuel of its run. -/
def State.work (s : State) : Nat := (s.todo.map (Job.work s.srcLen.toNat)).sum + 1

/-- The engine runs until the command completes, or waits for host memory: at most `fuel` jobs. -/
def State.drive : (fuel : Nat) → State → Host.Outcome State Fault Refusal
  | 0, s => .next s
  | fuel + 1, s =>
    match s.progress with
    | .goes t => State.drive fuel t
    | .ends t => .next t
    | .waits => .next s
    | .fault r => .fault r
    | .refused r => .refused r

/-- The engine runs until the command completes, or waits for host memory. -/
def State.runOn (s : State) : Host.Outcome State Fault Refusal := s.drive s.work

/-- The engine goes on through its next access to host memory, at most `fuel` jobs. -/
def State.toAccess : (fuel : Nat) → State → Host.Outcome State Fault Refusal
  | 0, s => .next s
  | fuel + 1, s =>
    match s.progress with
    | .goes t => if s.atAccess then .next t else State.toAccess fuel t
    | .ends t => .next t
    | .waits => .next s
    | .fault r => .fault r
    | .refused r => .refused r

/-- The engine goes on through its next access to host memory, or to completion where no access is left: one step of
the engine (00_scope.md R7). -/
def State.oneAccess (s : State) : Host.Outcome State Fault Refusal := s.toAccess s.work

/-- A command is accepted with its jobs (10_state.md R24). A host that waits does nothing before it completes, so the
engine's steps up to there are made at once; else the engine is BUSY, and the host goes on (log 1). -/
def State.start (s : State) (i : Instr) (jobs : List Job) : Host.Outcome State Fault Refusal :=
  let t := { s.accept (encode i) with todo := jobs }
  if t.hostWaits then t.runOn else .next t

end Sys2Proof.Machine
end

