-- ==== Sys2Proof/Machine/Session.lean ====
section
/-! DEFINITION. The meaning of each command: its pseudocode as the jobs it is accepted with, the operand registers being
read at acceptance (30_encoding.md R91, R93, R94; 10_state.md R25). -/

namespace Sys2Proof.Machine

/-- COUNT's pseudocode after its start checks (41_frequency_counter.md R120). -/
def State.countJobs (s : State) : List Job := [.clear, .count 0 s.srcLen.toNat, .endCount]

/-- PARSE's pseudocode after its start checks (44_table_serializer.md R156). -/
def parseJobs : List Job := [.clear, .parseKey 0 0 false]

/-- ENCODE_PAYLOAD's pseudocode after its start checks (45_bitstream.md R170). -/
def State.encodeJobs (s : State) : List Job := [.startEncode, .encode 0 s.srcLen.toNat, .endOfText, .pad]

/-- The four stages COMPRESS and ENCODE begin with (46_session_ops.md R191, R193). -/
def State.analyseJobs (s : State) : List Job :=
  [.stage .clear, .clear, .stage .count] ++ s.countJobs ++ [.stage .build, .build, .stage .derive, .derive]

/-- CLEAR (46_session_ops.md R190). -/
def execClear (s : State) : Host.Outcome State Fault Refusal := s.start .clear [.check .clear, .clear]

/-- COUNT (41_frequency_counter.md R120). -/
def execCount (s : State) : Host.Outcome State Fault Refusal := s.start .count (.check .count :: s.countJobs)

/-- BUILD (42_tree_builder.md R130). -/
def execBuild (s : State) : Host.Outcome State Fault Refusal := s.start .build [.check .build, .build]

/-- DERIVE (43_code_deriver.md R140). -/
def execDerive (s : State) : Host.Outcome State Fault Refusal := s.start .derive [.check .derive, .derive]

/-- SERIALIZE (44_table_serializer.md R152). -/
def execSerialize (s : State) : Host.Outcome State Fault Refusal := s.start .serialize [.check .serialize, .serialize]

/-- ENCODE_PAYLOAD (45_bitstream.md R170). -/
def execEncodePayload (s : State) : Host.Outcome State Fault Refusal :=
  s.start .encodePayload (.check .encodePayload :: s.encodeJobs)

/-- PARSE (44_table_serializer.md R156). -/
def execParse (s : State) : Host.Outcome State Fault Refusal := s.start .parse (.check .parse :: parseJobs)

/-- DECODE_PAYLOAD (45_bitstream.md R175). -/
def execDecodePayload (s : State) : Host.Outcome State Fault Refusal :=
  s.start .decodePayload [.check .decodePayload, .startDecode]

/-- COMPRESS (46_session_ops.md R191). -/
def execCompress (s : State) : Host.Outcome State Fault Refusal :=
  s.start .compress (.check .compress ::
    (s.analyseJobs ++ [.stage .serialize, .serialize, .stage .encodePayload] ++ s.encodeJobs))

/-- DECOMPRESS (46_session_ops.md R192). -/
def execDecompress (s : State) : Host.Outcome State Fault Refusal :=
  s.start .decompress (.check .decompress ::
    ([.stage .clear, .clear, .stage .parse] ++ parseJobs ++
      [.stage .build, .build, .stage .decodePayload, .startDecode]))

/-- ENCODE (46_session_ops.md R193). -/
def execEncode (s : State) : Host.Outcome State Fault Refusal :=
  s.start .encode (.check .encode :: s.analyseJobs)

end Sys2Proof.Machine
end

