-- ==== Sys2Proof/Machine/Dispatch.lean ====
section
/-! DEFINITION. The meaning of each command, one arm per constructor of `Instr`. -/

namespace Sys2Proof.Machine

def exec (i : Instr) (s : State) : Host.Outcome State Fault Refusal :=
  match i with
  | .clear => Sys2Proof.Machine.execClear s
  | .count => Sys2Proof.Machine.execCount s
  | .build => Sys2Proof.Machine.execBuild s
  | .derive => Sys2Proof.Machine.execDerive s
  | .serialize => Sys2Proof.Machine.execSerialize s
  | .encodePayload => Sys2Proof.Machine.execEncodePayload s
  | .parse => Sys2Proof.Machine.execParse s
  | .decodePayload => Sys2Proof.Machine.execDecodePayload s
  | .compress => Sys2Proof.Machine.execCompress s
  | .decompress => Sys2Proof.Machine.execDecompress s
  | .encode => Sys2Proof.Machine.execEncode s

end Sys2Proof.Machine
end

