-- ==== Sys2Proof/Machine/Fetch.lean ====
section
/-! DEFINITION. The next move of the machine: the host's next operation starts a command, changes the state by itself,
or lets the engine of a running command go on (00_scope.md R7, 10_state.md R24, R28; log 1, log 2). -/

namespace Sys2Proof.Machine

/-- What the next step does. -/
inductive NextMove where
  /-- A legal command word is accepted in the state. -/
  | run (i : Instr) (s : State)
  /-- The engine makes its next access. -/
  | access (s : State)
  /-- The engine runs while the host waits. -/
  | runOn (s : State)
  /-- The step is over, with this state. -/
  | settled (s : State)

/-- A CMD write: dropped while BUSY (10_state.md R25), else its word is accepted (R24), the illegal ones too
(30_encoding.md R92). -/
def cmdWrite (w : Word) (s : State) : NextMove :=
  if s.busy then .settled (s.regWrite w .cmd)
  else
    match decode w with
    | .ok i => .run i s
    | .error _ => .settled (illegalWord w s)

/-- The engine may go on: one access, if it is BUSY. -/
def passMove (s : State) : NextMove := if s.busy then .access s else .settled s

/-- `WAIT` with `rest` after it: over when the engine is IDLE, with STATUS as the last value read (30_encoding.md
R101). -/
def waitMove (s : State) (rest : List HostOp) : NextMove :=
  if s.busy then .runOn s else .settled ({ s with host := rest }.give s.statusWord)

/-- A write to the register window. While reset is asserted every register keeps its reset value and the engine stays
IDLE, so no write and no command word is taken (70_reset_and_hazards.md R240). -/
def writeMove (s : State) (off : BitVec 8) (width : AccessWidth) (v : Word) : NextMove :=
  if s.inReset then .settled s
  else if isCmdWrite off width then cmdWrite v s
  else .settled (s.hostAct (.write off width v))

/-- One operation of the host, `s` being the state without it. -/
def hostMove (s : State) : HostOp → NextMove
  | .write off width v => writeMove s off width v
  | .read off width => .settled (s.hostAct (.read off width))
  | .memWrite a v => .settled (s.hostAct (.memWrite a v))
  | .memRead a => .settled (s.hostAct (.memRead a))
  | .answer a r w => .settled (s.hostAct (.answer a r w))
  | .reset => .settled s.applyReset
  | .release => .settled s.releaseReset
  | .pass => passMove s
  | .wait => waitMove { s with host := .wait :: s.host } s.host

/-- The next move: the host's first operation. With none left a running command goes on, and an IDLE block waits for a
CMD write (70_reset_and_hazards.md R242). -/
def nextMove (s : State) : NextMove :=
  match s.host with
  | [] => if s.busy then .runOn s else .settled s
  | op :: rest => hostMove { s with host := rest } op

/-- The bus write that starts a command with the word of `nbits` bits `w` (10_state.md R28, 30_encoding.md R90). -/
def fetchOp (nbits w : Nat) : HostOp := .write 0x04#8 .bits32 (BitVec.ofNat 32 (w % 2 ^ nbits))

end Sys2Proof.Machine
end

