-- ==== Sys2Proof/Machine/Step.lean ====
section
/-! DEFINITION. One step: the host's next operation, or the engine's next access (00_scope.md R7), or, while the host
waits, all of the engine's accesses up to completion (log 1, log 2). -/

namespace Sys2Proof.Machine

/-- One step. -/
def step (s : State) : Host.Outcome State Fault Refusal :=
  match nextMove s with
  | .run i t => exec i t
  | .access t => t.oneAccess
  | .runOn t => t.runOn
  | .settled t => .next t

/-- The state whose next step runs the command of the word `w`: reset is released, the engine is IDLE, the host's next
operation writes the word to CMD, and then it waits for completion (log 2). -/
def State.withFetchWord (s : State) (nbits w : Nat) : State :=
  { s with busy := false, inReset := false, host := fetchOp nbits w :: .wait :: s.host }

end Sys2Proof.Machine
end

