-- ==== Sys2Proof/Safety.lean ====
section
/-! DEFINITION. The terms claims are stated in: when a command runs undisturbed and its ranges answer, what a completion
leaves in the status registers, what a command leaves alone, and the invariants of the machine between steps. -/

namespace Sys2Proof.Machine

/-- The bytes of the source range (10_state.md R36). -/
def State.srcBytes (s : State) : List Byte := Memory.bytes s.mem s.srcAddr.toNat s.srcLen.toNat

/-- Every byte of the source range is in range, outside the register window, and answers a DMA read (20_memory.md R71,
R88; 70_reset_and_hazards.md R249). -/
structure State.SourceReady (s : State) : Prop where
  inRange : inRange s.srcAddr s.srcLen = true
  offWindow : touchesWindow s.mmioBase s.srcAddr s.srcLen = false
  answers : ∀ k, k < s.srcLen.toNat → (s.busAt (s.srcAddr.toNat + k)).onRead = .completes

/-- Every byte of the destination range is in range, outside the register window, and answers a DMA write (20_memory.md
R71, R88; 70_reset_and_hazards.md R249). -/
structure State.DestReady (s : State) : Prop where
  inRange : inRange s.dstAddr s.dstCap = true
  offWindow : touchesWindow s.mmioBase s.dstAddr s.dstCap = false
  answers : ∀ k, k < s.dstCap.toNat → (s.busAt (s.dstAddr.toNat + k)).onWrite = .completes

/-- The ranges command `i` uses pass its range checks and lie outside the register window (20_memory.md R71, R73;
70_reset_and_hazards.md R249). -/
structure State.RangesOk (s : State) (i : Instr) : Prop where
  source : i.readsSource = true →
    inRange s.srcAddr s.srcLen = true ∧ touchesWindow s.mmioBase s.srcAddr s.srcLen = false
  dest : i.writesDest = true →
    inRange s.dstAddr s.dstCap = true ∧ touchesWindow s.mmioBase s.dstAddr s.dstCap = false
  apart : i.readsSource = true → i.writesDest = true → overlaps s = false

/-- How host memory answers a DMA read of source byte `k` (20_memory.md R88). -/
def State.srcReply (s : State) (k : Nat) : BusReply := (s.busAt (s.srcAddr.toNat + k)).onRead

/-- How host memory answers a DMA write of destination byte `k` (20_memory.md R88). -/
def State.dstReply (s : State) (k : Nat) : BusReply := (s.busAt (s.dstAddr.toNat + k)).onWrite

/-- STAGE from the acceptance of a command until a stage begins: the opcode of a stage command, 0 of a composite
(10_state.md R33). -/
def startStage : Instr → BitVec 4
  | .clear => 0x1#4
  | .count => 0x2#4
  | .build => 0x3#4
  | .derive => 0x4#4
  | .serialize => 0x5#4
  | .encodePayload => 0x6#4
  | .parse => 0x7#4
  | .decodePayload => 0x8#4
  | .compress => 0x0#4
  | .decompress => 0x0#4
  | .encode => 0x0#4

/-- What a normal completion of command `i` leaves in the status registers, `stage` being the stage that ran last
(10_state.md R30 to R33, R35, R39; 60_exceptions.md R213); no state inside the command is left (10_state.md R53 to
R55). -/
structure State.Completed (t : State) (i : Instr) (stage : BitVec 4) : Prop where
  idle : t.busy = false
  done : t.done = true
  noErr : t.err = false
  errCode : t.errCode = .none
  errInfo : t.errInfo = 0#32
  notDropped : t.cmdDropped = false
  pending : t.donePend = true
  cmd : t.cmd = i.opcode
  stage : t.stage = stage
  todo : t.todo = []
  queue : t.queue = []
  acc : t.acc = []
  walk : t.walk = Walk.atRest
  srcTouched : t.srcTouched = []
  dstTouched : t.dstTouched = []
  undo : t.undo = []

/-- What a completion of command `i` by an error leaves in the status registers (60_exceptions.md R212); no
state inside the command is left (10_state.md R53 to R55). -/
structure State.Failed (t : State) (i : Instr) (stage : BitVec 4) (code : ErrCode) (info : Word) : Prop where
  idle : t.busy = false
  done : t.done = true
  err : t.err = true
  errCode : t.errCode = code
  errInfo : t.errInfo = info
  notDropped : t.cmdDropped = false
  noExtra : t.extraInput = false
  pending : t.donePend = true
  cmd : t.cmd = i.opcode
  stage : t.stage = stage
  todo : t.todo = []
  queue : t.queue = []
  acc : t.acc = []
  walk : t.walk = Walk.atRest
  srcTouched : t.srcTouched = []
  dstTouched : t.dstTouched = []
  undo : t.undo = []

/-- The registers and the environment no command writes are the same: SRC_ADDR, SRC_LEN, DST_ADDR, DST_CAP, INT_EN and
the SEL registers (10_state.md R34, R36, R38, R42, R46, R50), the reset input, the host's operations and data, host
memory's answers, the free values drawn, the strap. -/
structure State.SameSetup (s t : State) : Prop where
  doneIE : t.doneIE = s.doneIE
  srcAddr : t.srcAddr = s.srcAddr
  srcLen : t.srcLen = s.srcLen
  dstAddr : t.dstAddr = s.dstAddr
  dstCap : t.dstCap = s.dstCap
  freqSel : t.freqSel = s.freqSel
  codeSym : t.codeSym = s.codeSym
  codeChunk : t.codeChunk = s.codeChunk
  nodeSel : t.nodeSel = s.nodeSel
  inReset : t.inReset = s.inReset
  host : t.host = s.host
  hostData : t.hostData = s.hostData
  bus : t.bus = s.bus
  draws : t.draws = s.draws
  mmioBase : t.mmioBase = s.mmioBase

/-- The session is the same (10_state.md R40). -/
structure State.SameSession (s t : State) : Prop where
  phase : t.phase = s.phase
  freq : t.freq = s.freq
  node : t.node = s.node
  tree : t.tree = s.tree
  code : t.code = s.code

/-- Every byte of host memory reads the same, but for the `n` bytes from address `a` on. -/
def sameMemoryBut (a n : Nat) (s t : State) : Prop :=
  ∀ x, x < a ∨ a + n ≤ x → Memory.read t.mem x = Memory.read s.mem x

/-- Every byte of host memory reads the same. -/
def sameMemory (s t : State) : Prop := ∀ x, Memory.read t.mem x = Memory.read s.mem x

/-- The command wrote the bytes `bs` from destination offset `off` on, counted them in DST_LEN, and wrote no other byte of
host memory (44_table_serializer.md R151). -/
structure State.Emitted (s t : State) (off : Nat) (bs : List Byte) : Prop where
  dstLen : t.dstLen.toNat = off + bs.length
  bytes : Memory.bytes t.mem (s.dstAddr.toNat + off) bs.length = bs
  others : sameMemoryBut (s.dstAddr.toNat + off) bs.length s t

/-- The session is EMPTY and every field of FREQ, NODE, TREE and CODE is 0 (10_state.md R40; 46_session_ops.md R190). -/
structure State.SessionEmpty (t : State) : Prop where
  phase : t.phase = .empty
  freq : ∀ i, t.freqAt i = FreqEntry.absent
  node : ∀ n, t.nodeAt n = NodeEntry.absent
  tree : t.tree = TreeReg.absent
  code : ∀ i, t.codeAt i = CodeEntry.absent

/-- What the host can see of the block is as 70_reset_and_hazards.md R240 says: every register at its table value, the
session EMPTY, the engine IDLE, `irq` 0. -/
structure State.AtReset (t : State) : Prop where
  regs : ∀ r, t.regIdle r = State.reset.regIdle r
  session : t.SessionEmpty
  idle : t.busy = false
  irq : t.irq = false

/-- The first job fills FREQ while PHASE is still EMPTY (41_frequency_counter.md R120, 44_table_serializer.md R156). -/
def filling : List Job → Bool
  | .count _ _ :: _ => true
  | .endCount :: _ => true
  | .parseKey _ _ _ :: _ => true
  | .parseCount _ _ _ _ _ :: _ => true
  | .endParse _ :: _ => true
  | _ => false

/-- PHASE says which parts of the session are valid, and from COUNTED on END_OF_TEXT has an entry (10_state.md R40,
R41). -/
structure State.SessionOk (s : State) : Prop where
  emptyFreq : s.phase = .empty → filling s.todo = false → ∀ i, (s.freqAt i).valid = false
  endOfText : s.phase ≠ .empty → (s.freqAt Config.endOfText).valid = true
  noTree : s.phase = .empty ∨ s.phase = .counted → (∀ n, (s.nodeAt n).valid = false) ∧ s.tree = TreeReg.absent
  noCodes : s.phase ≠ .coded → ∀ i, (s.codeAt i).valid = false

/-- The status flags agree: an error has a code and is a completion, ERR_INFO is an error's, EXTRA_INPUT is that of a
DECODE_PAYLOAD with nothing left to do, STAGE shows a stage's opcode or 0 (10_state.md R30 to R33, R39). IDLE, no state
inside a command is left (R23, R53 to R55); BUSY, the command has not completed (R30). -/
structure State.StatusOk (s : State) : Prop where
  errIff : s.err = true ↔ s.errCode ≠ .none
  errDone : s.err = true → s.done = true
  errInfo : s.err = false → s.errInfo = 0#32
  extra : s.extraInput = true → s.todo = [] ∧ s.err = false
  stage : s.stage.toNat ≤ 8
  queue : s.queue = []
  busy : s.busy = true → s.done = false
  idle : s.busy = false → s.todo = [] ∧ s.acc = [] ∧ s.walk = Walk.atRest ∧ s.srcTouched = [] ∧ s.dstTouched = [] ∧
    s.undo = []

/-- The symbols present in FREQ, in increasing symbol index (10_state.md R41). -/
def State.presentSyms (s : State) : List Nat := (List.range 257).filter (fun i => (s.freqAt i).valid)

/-- Node `p` has node `c` as a child (10_state.md R45). -/
def State.IsChild (s : State) (p c : Nat) : Prop :=
  (s.nodeAt p).valid = true ∧ (s.nodeAt p).leaf = false ∧
    ((s.nodeAt p).left.toNat = c ∨ (s.nodeAt p).right.toNat = c)

/-- The arena holds the tree of FREQ in the layout of 42_tree_builder.md R132, with weights that are sums (R133). -/
structure State.TreeOk (s : State) : Prop where
  some : s.presentSyms ≠ []
  nodes : s.tree.nodes.toNat = 2 * s.presentSyms.length - 1
  root : s.tree.root.toNat = 2 * s.presentSyms.length - 2
  leaves : ∀ k, (h : k < s.presentSyms.length) →
    s.nodeAt k = leafOf s.presentSyms[k] (s.freqAt s.presentSyms[k])
  inner : ∀ n, s.presentSyms.length ≤ n → n < 2 * s.presentSyms.length - 1 →
    (s.nodeAt n).valid = true ∧ (s.nodeAt n).leaf = false ∧
    (s.nodeAt n).left.toNat < n ∧ (s.nodeAt n).right.toNat < n ∧
    (s.nodeAt n).left ≠ (s.nodeAt n).right ∧
    (s.nodeAt n).weight.toNat =
      (s.nodeAt (s.nodeAt n).left.toNat).weight.toNat + (s.nodeAt (s.nodeAt n).right.toNat).weight.toNat
  parent : ∀ c, c < 2 * s.presentSyms.length - 2 → ∃! p, s.IsChild p c
  beyond : ∀ n, 2 * s.presentSyms.length - 1 ≤ n → s.nodeAt n = NodeEntry.absent

/-- When internal node `n` is made, node `i` is in the priority structure: it was made before, and no node made before
`n` has it as a child (42_tree_builder.md R130). -/
def State.Waiting (s : State) (n i : Nat) : Prop := i < n ∧ ∀ m, m < n → ¬ s.IsChild m i

/-- The node a digit leads to: LEFT for "0", RIGHT for "1" (43_code_deriver.md R141). -/
def State.childOf (s : State) (n : Nat) (d : Bool) : Nat :=
  if d then (s.nodeAt n).right.toNat else (s.nodeAt n).left.toNat

/-- The digits lead from node `n` through internal nodes to the leaf of symbol `i` (43_code_deriver.md R141). -/
def State.LeadsTo (s : State) (i : Nat) : (n : Nat) → List Bool → Prop
  | n, [] => (s.nodeAt n).leaf = true ∧ (s.nodeAt n).sym.toNat = i
  | n, d :: ds => (s.nodeAt n).leaf = false ∧ s.LeadsTo i (s.childOf n d) ds

/-- The code table is that of the tree: exactly the present symbols have a code; it is `"0"` on a one-leaf tree
(43_code_deriver.md R142) and else the path to the symbol's leaf (R140, R141), of 1 to 256 digits (R144); BITS holds 0 at
and past LEN (10_state.md R49). -/
structure State.CodesOk (s : State) : Prop where
  present : ∀ i, (s.codeAt i).valid = (s.freqAt i).valid
  length : ∀ i, (s.codeAt i).valid = true → 1 ≤ (s.codeAt i).len.toNat ∧ (s.codeAt i).len.toNat ≤ Config.maxCode
  oneLeaf : ∀ i, (s.codeAt i).valid = true → (s.nodeAt s.tree.root.toNat).leaf = true → (s.codeAt i).digits = [false]
  paths : ∀ i, (s.codeAt i).valid = true → (s.nodeAt s.tree.root.toNat).leaf = false →
    s.LeadsTo i s.tree.root.toNat (s.codeAt i).digits
  beyond : ∀ i j, (s.codeAt i).len.toNat ≤ j → (s.codeAt i).bits.getLsbD j = false

/-- The session phase is below what the command needs (30_encoding.md R91). -/
def phaseTooLow : Instr → Phase → Bool
  | .clear, _ => false
  | .count, _ => false
  | .build, p => p == .empty
  | .derive, p => p == .empty || p == .counted
  | .serialize, p => p == .empty
  | .encodePayload, p => p != .coded
  | .parse, _ => false
  | .decodePayload, p => p == .empty || p == .counted
  | .compress, _ => false
  | .decompress, _ => false
  | .encode, _ => false

/-- The jobs `l` can be done one after another from phase `p` on: each finds the phase it needs and leaves the one the
next needs (46_session_ops.md R194, 10_state.md R40), and STAGE takes the opcodes of stage commands only (R33). `seen` says that FREQ has the entry of END_OF_TEXT. -/
def jobsFit (seen : Bool) : List Job → Phase → Prop
  | [], _ => True
  | .check i :: l, p => phaseTooLow i p = false → jobsFit seen l p
  | .stage i :: l, p => i.opcode.toNat ≤ 8 ∧ jobsFit seen l p
  | .clear :: l, _ => jobsFit false l .empty
  | .count _ _ :: l, p => p = .empty ∧ filling l = true ∧ jobsFit seen l p
  | .endCount :: l, p => p = .empty ∧ jobsFit true l .counted
  | .build :: l, p => p ≠ .empty ∧ jobsFit seen l .built
  | .derive :: l, p => (p = .built ∨ p = .coded) ∧ jobsFit seen l .coded
  | .serialize :: l, p => jobsFit seen l p
  | .emit _ :: l, p => jobsFit seen l p
  | .parseKey _ _ eot :: l, p => p = .empty ∧ (eot = true → seen = true) ∧ jobsFit true l .counted
  | .parseCount _ sym _ _ eot :: l, p =>
    p = .empty ∧ (eot = true → seen = true ∨ sym = Config.endOfText) ∧ jobsFit true l .counted
  | .endParse _ :: l, p => p = .empty ∧ seen = true ∧ jobsFit true l .counted
  | .startEncode :: l, p => jobsFit seen l p
  | .encode _ _ :: l, p => jobsFit seen l p
  | .put _ :: l, p => jobsFit seen l p
  | .endOfText :: l, p => jobsFit seen l p
  | .pad :: l, p => jobsFit seen l p
  | .startDecode :: l, _ => l = []
  | .decode _ :: l, _ => l = []
  | .bits _ _ :: l, _ => l = []
  | .toRoot :: l, p => jobsFit seen l p

/-- What holds of the machine between steps, IDLE or BUSY: its flags agree, PHASE says what of the session is valid, the
tree is FREQ's and the codes are the tree's, and the running command's jobs find the phases they need. While reset is asserted everything of the block is at its reset
value (70_reset_and_hazards.md R240). -/
structure State.Inv (s : State) : Prop where
  status : s.StatusOk
  session : s.SessionOk
  tree : s.phase = .built ∨ s.phase = .coded → s.TreeOk
  codes : s.phase = .coded → s.CodesOk
  jobs : jobsFit (s.freqAt Config.endOfText).valid s.todo s.phase
  held : s.inReset = true → s.resetKeeping = s

/-! ### The table section of a source, read pair by pair (44_table_serializer.md R155, R156) -/

/-- The key byte of pair `j`: pairs are five bytes each (30_encoding.md R96). -/
def keyByte (src : List Byte) (j : Nat) : Byte := src.getD (5 * j) 0#8

/-- The count of pair `j`, most significant byte first (30_encoding.md R96). -/
def countAt (src : List Byte) (j : Nat) : Word :=
  src.getD (5 * j + 1) 0#8 ++ src.getD (5 * j + 2) 0#8 ++ src.getD (5 * j + 3) 0#8 ++ src.getD (5 * j + 4) 0#8

/-- The END_OF_TEXT pair stands before pair `j`: it is the first pair, or the second after a literal-3 pair
(44_table_serializer.md R155). -/
def seenAt (src : List Byte) (j : Nat) : Bool := decide (2 ≤ j) || (j == 1 && keyByte src 0 == Config.eotKey)

/-- What the key byte of pair `j` means (44_table_serializer.md R155). -/
def classAt (src : List Byte) (j : Nat) : KeyClass := classify j (seenAt src j) (keyByte src j)

/-- The symbol of pair `j`; none where its key byte begins no pair (44_table_serializer.md R155, R156). -/
def symAt (src : List Byte) (j : Nat) : Option Nat :=
  match classAt src j with
  | .pair sym => some sym
  | .endOfTextPair => some Config.endOfText
  | .terminator => none
  | .malformed => none

/-- Pair `j` lies in the source, and its symbol is new (44_table_serializer.md R156). -/
structure PairAt (src : List Byte) (j : Nat) : Prop where
  inside : 5 * j + 5 ≤ src.length
  isPair : symAt src j ≠ none
  fresh : ∀ i, i < j → symAt src i ≠ symAt src j

/-- The table section goes wrong at pair `n`: its key byte is malformed, or its symbol has been read before
(44_table_serializer.md R155, R156). -/
def MalformedAt (src : List Byte) (n : Nat) : Prop :=
  (∀ j, j < n → PairAt src j) ∧ 5 * n < src.length ∧
    (classAt src n = .malformed ∨
      5 * n + 5 ≤ src.length ∧ symAt src n ≠ none ∧ ∃ i, i < n ∧ symAt src i = symAt src n)

/-- The source ends at pair `n`, before its key byte or inside the pair (44_table_serializer.md R156). -/
def TruncatedAt (src : List Byte) (n : Nat) : Prop :=
  (∀ j, j < n → PairAt src j) ∧ (src.length ≤ 5 * n ∨ symAt src n ≠ none ∧ src.length < 5 * n + 5)

/-- The table section has `n` pairs and then its terminator (44_table_serializer.md R156). -/
def TableAt (src : List Byte) (n : Nat) : Prop :=
  (∀ j, j < n → PairAt src j) ∧ 5 * n < src.length ∧ classAt src n = .terminator

/-- FREQ holds exactly the `n` pairs of the table section of a source (44_table_serializer.md R156). -/
structure State.FreqOfTable (t : State) (src : List Byte) (n : Nat) : Prop where
  table : TableAt src n
  present : ∀ sym, (t.freqAt sym).valid = true ↔ ∃ j, j < n ∧ symAt src j = some sym
  count : ∀ j sym, j < n → symAt src j = some sym → (t.freqAt sym).count = countAt src j

/-- The symbols of a session's pairs, in the order of 44_table_serializer.md R150: the literal 3 if present, END_OF_TEXT,
and the other literals present in increasing order. -/
def State.sectionSyms (s : State) : List Nat :=
  (if (s.freqAt 3).valid then [3] else []) ++ Config.endOfText ::
    (List.range 256).filter (fun b => b != 3 && (s.freqAt b).valid)

/-- The key byte of a symbol's pair (30_encoding.md R96). -/
def keyOf (sym : Nat) : Byte := if sym = Config.endOfText then 0x04#8 else BitVec.ofNat 8 sym

/-! ### The payload, the session and the container of a source, as values -/

/-- The payload of a list of symbols under a code table: their codes, then END_OF_TEXT's, then "0" digits up to a whole
number of bytes (30_encoding.md R98). -/
def State.payloadDigits (s : State) (src : List Byte) : List Bool :=
  src.flatMap (fun b => (s.codeAt b.toNat).digits) ++ (s.codeAt Config.endOfText).digits

/-- Digits as bytes, the last one filled with "0" digits (30_encoding.md R98, 45_bitstream.md R171, R172). -/
def packDigits : (fuel : Nat) → List Bool → List Byte
  | 0, _ => []
  | _ + 1, [] => []
  | fuel + 1, d :: ds =>
    byteOfDigits ((d :: ds).take 8 ++ List.replicate (8 - (d :: ds).length) false) :: packDigits fuel ((d :: ds).drop 8)

/-- The payload bytes (30_encoding.md R98). -/
def State.payload (s : State) (src : List Byte) : List Byte :=
  packDigits (s.payloadDigits src).length (s.payloadDigits src)

/-- The codes of some source bytes, one after another (45_bitstream.md R170). -/
def State.codeDigits (s : State) (src : List Byte) : List Bool := src.flatMap (fun b => (s.codeAt b.toNat).digits)

/-- The whole bytes of some digits; the digits left over are pending in the bit buffer (45_bitstream.md R171). -/
def wholeBytes (ds : List Bool) : List Byte := packDigits ds.length (ds.take (8 * (ds.length / 8)))

/-- COUNT's FREQ of some bytes (41_frequency_counter.md R120, R121). -/
def State.countedFrom (s : State) (src : List Byte) : State := (src.foldl State.tally s).endCount

/-- The session of a source: its counts, their tree and its codes (46_session_ops.md R193), in a state that is otherwise
at reset. -/
def sessionOf (src : List Byte) : State :=
  let grown := (State.reset.countedFrom src).growTree
  (grown.setRoot (grown.queue.headD 0)).dropCodes.deriveCodes.endDerive

/-- The container of a source (30_encoding.md R95). -/
def containerOf (src : List Byte) : List Byte := (sessionOf src).tableSection ++ (sessionOf src).payload src

/-! ### The cause of an error -/

/-- The bits of a payload byte, bit 7 first (45_bitstream.md R175). -/
def bitsOfByte (b : Byte) : List Bool := (List.range 8).map (fun i => b.getLsbD (7 - i))

/-- The digits of payload bytes. -/
def bitsOfBytes (bs : List Byte) : List Bool := bs.flatMap bitsOfByte

/-- The walk on some digits from node `n`, back at the root after each literal, comes to END_OF_TEXT's leaf; on a one-leaf
tree every digit is at the root (45_bitstream.md R176, R177). -/
def State.reachesEnd (s : State) : (n : Nat) → List Bool → Bool
  | _, [] => false
  | n, d :: ds =>
    let c := if (s.nodeAt s.tree.root.toNat).leaf then s.tree.root.toNat else s.childOf n d
    if (s.nodeAt c).leaf then
      decide ((s.nodeAt c).sym.toNat = Config.endOfText) || s.reachesEnd s.tree.root.toNat ds
    else s.reachesEnd c ds

/-- A command that failed its start checks, or never ran, left the session, the registers commands write, and host
memory as they were (60_exceptions.md R214). -/
structure State.Untouched (s t : State) : Prop where
  setup : s.SameSetup t
  session : s.SameSession t
  srcPos : t.srcPos = s.srcPos
  dstLen : t.dstLen = s.dstLen
  mem : t.mem = s.mem

/-- The error of a command that went from `s` to `t`, with its cause and its ERR_INFO (60_exceptions.md R211). BAD_CODE's
byte is the first with a 1 bit from the payload's start on (45_bitstream.md R177); a truncated payload is one whose bits,
from there to the source's end, never come to END_OF_TEXT (R179). -/
def State.ErrorFits (s t : State) (i : Instr) : Prop :=
  match t.errCode with
  | .none => False
  | .illegalCmd => False
  | .sequence => phaseTooLow i s.phase = true ∧ t.errInfo = 0#30 ++ s.phase.code
  | .range =>
    (i.readsSource = true ∧ 2 ^ 32 < s.srcAddr.toNat + s.srcLen.toNat ∧ t.errInfo = 0#32) ∨
      (i.writesDest = true ∧ 2 ^ 32 < s.dstAddr.toNat + s.dstCap.toNat ∧ t.errInfo = 1#32)
  | .overlap =>
    i.readsSource = true ∧ i.writesDest = true ∧ t.errInfo = 0#32 ∧
      ∃ x, rangeHas s.srcAddr s.srcLen x = true ∧ rangeHas s.dstAddr s.dstCap x = true
  | .srcBus =>
    i.readsSource = true ∧ ∃ k, k < s.srcLen.toNat ∧ t.errInfo.toNat = s.srcAddr.toNat + k ∧
      (s.busAt (s.srcAddr.toNat + k)).onRead = .busError
  | .dstBus =>
    i.writesDest = true ∧ t.dstLen.toNat < s.dstCap.toNat ∧ t.errInfo.toNat = s.dstAddr.toNat + t.dstLen.toNat ∧
      (s.busAt (s.dstAddr.toNat + t.dstLen.toNat)).onWrite = .busError
  | .dstFull => i.writesDest = true ∧ t.errInfo = t.dstLen ∧ s.dstCap.toNat ≤ t.dstLen.toNat
  | .noCode =>
    (i = .encodePayload ∨ i = .compress) ∧ t.errInfo.toNat < s.srcLen.toNat ∧
      (t.codeAt (Memory.read s.mem (s.srcAddr.toNat + t.errInfo.toNat)).toNat).valid = false ∧
      ∀ k, k < t.errInfo.toNat → (t.codeAt (Memory.read s.mem (s.srcAddr.toNat + k)).toNat).valid = true
  | .truncatedHeader => (i = .parse ∨ i = .decompress) ∧ t.errInfo = s.srcLen ∧ ∃ n, TruncatedAt s.srcBytes n
  | .malformedTable =>
    (i = .parse ∨ i = .decompress) ∧ ∃ n, MalformedAt s.srcBytes n ∧ t.errInfo.toNat = 5 * n
  | .truncatedPayload =>
    ((i = .decodePayload ∧ t.errInfo.toNat = max s.srcLen.toNat s.srcPos.toNat) ∨
        (i = .decompress ∧ t.errInfo = s.srcLen)) ∧
      t.reachesEnd t.tree.root.toNat (bitsOfBytes (s.srcBytes.drop t.srcPos.toNat)) = false
  | .badCode =>
    (i = .decodePayload ∨ i = .decompress) ∧ (t.nodeAt t.tree.root.toNat).leaf = true ∧
      t.srcPos.toNat ≤ t.errInfo.toNat ∧ t.errInfo.toNat < s.srcLen.toNat ∧
      Memory.read s.mem (s.srcAddr.toNat + t.errInfo.toNat) ≠ 0#8 ∧
      ∀ k, t.srcPos.toNat ≤ k → k < t.errInfo.toNat → Memory.read s.mem (s.srcAddr.toNat + k) = 0#8

/-- What a command that went from `s` to `t` by an error leaves. A start check leaves everything (60_exceptions.md R214).
An error of COUNT or PARSE, as a command of its own or as a stage, leaves the session EMPTY and SRC_POS unchanged
(41_frequency_counter.md R123, 44_table_serializer.md R158). SERIALIZE, ENCODE_PAYLOAD and DECODE_PAYLOAD leave the session
and SRC_POS; as a stage of COMPRESS they leave the CODED session of the source, and as the last stage of DECOMPRESS the BUILT
one of the container's table section, with SRC_POS after it (46_session_ops.md R191 to R193). STAGE names the stage
(10_state.md R33). -/
def State.ErrorLeaves (s t : State) (i : Instr) : Prop :=
  s.SameSetup t ∧
    if t.errCode = .sequence ∨ t.errCode = .range ∨ t.errCode = .overlap then
      s.Untouched t ∧ t.stage = startStage i
    else
      match i with
      | .clear => False
      | .count => t.SessionEmpty ∧ t.stage = 0x2#4 ∧ t.srcPos = s.srcPos
      | .build => False
      | .derive => False
      | .serialize => s.SameSession t ∧ t.stage = 0x5#4 ∧ t.srcPos = s.srcPos
      | .encodePayload => s.SameSession t ∧ t.stage = 0x6#4 ∧ t.srcPos = s.srcPos
      | .parse => t.SessionEmpty ∧ t.stage = 0x7#4 ∧ t.srcPos = s.srcPos
      | .decodePayload => s.SameSession t ∧ t.stage = 0x8#4 ∧ t.srcPos = s.srcPos
      | .compress =>
        t.srcPos = s.srcPos ∧
          ((t.stage = 0x2#4 ∧ t.SessionEmpty) ∨
            ((t.stage = 0x5#4 ∨ t.stage = 0x6#4) ∧ t.phase = .coded ∧ (sessionOf s.srcBytes).SameSession t))
      | .decompress =>
        (t.stage = 0x7#4 ∧ t.SessionEmpty ∧ t.srcPos = s.srcPos) ∨
          (t.stage = 0x8#4 ∧ t.phase = .built ∧ t.TreeOk ∧ (∀ k, (t.codeAt k).valid = false) ∧
            ∃ n, t.FreqOfTable s.srcBytes n ∧ t.srcPos.toNat = 5 * n + 1)
      | .encode => t.SessionEmpty ∧ t.stage = 0x2#4 ∧ t.srcPos = s.srcPos

/-- No access of the command waits for ever: host memory answers at every address, and the host does not change that
while the command runs (93_implementation_defined.md item 9). -/
structure State.BusAnswers (s : State) : Prop where
  now : ∀ e ∈ s.bus, e.onRead ≠ .never ∧ e.onWrite ≠ .never
  later : ∀ a r w, HostOp.answer a r w ∈ s.host → r ≠ .never ∧ w ≠ .never

/-- The walk on some digits from node `n` meets no leaf (45_bitstream.md R176). -/
def State.StaysInside (s : State) : (n : Nat) → List Bool → Prop
  | _, [] => True
  | n, d :: ds =>
    (s.nodeAt n).leaf = false ∧ (s.nodeAt (s.childOf n d)).leaf = false ∧ s.StaysInside (s.childOf n d) ds

/-! ### Running on -/

/-- `n` steps. -/
def State.steps : (n : Nat) → State → Host.Outcome State Fault Refusal
  | 0, s => .next s
  | n + 1, s =>
    match step s with
    | .next t => State.steps n t
    | .fault r => .fault r
    | .refused r => .refused r

/-- Steps until the engine is IDLE, at most `n`; BUSY, each makes the host's next operation, or the command's run to
completion. -/
def State.untilIdle : (n : Nat) → State → Host.Outcome State Fault Refusal
  | 0, s => .next s
  | n + 1, s =>
    if s.busy then
      match step s with
      | .next t => State.untilIdle n t
      | .fault r => .fault r
      | .refused r => .refused r
    else .next s

/-- The commands `l` one after another, each from the state the one before it left, up to the first that completes by an
error (30_encoding.md R94, 46_session_ops.md R194). -/
def runStages : (l : List Instr) → State → Host.Outcome State Fault Refusal
  | [], s => .next s
  | i :: l, s =>
    match exec i s with
    | .next t => if t.err then .next t else runStages l t
    | .fault r => .fault r
    | .refused r => .refused r

/-- The command `i` from acceptance on, with the host's operations while it runs, until the engine is IDLE. -/
def runToIdle (i : Instr) (s : State) : Host.Outcome State Fault Refusal :=
  match exec i s with
  | .next t => t.untilIdle (s.host.length + 1)
  | .fault r => .fault r
  | .refused r => .refused r

end Sys2Proof.Machine
end

