-- ==== Sys2Proof/Certificates/Slice0/Obligations.lean ====
section
/-! DEFINITION. The statements for the provers. Unless a statement says otherwise it is about a command that runs while
the host waits (`hostWaits`); where a statement holds for every behaviour of the host, it does not assume it. -/

open Sys2Proof Sys2Proof.Machine

/-! ### The command word -/

/-- 30_encoding.md R90, R91: the word of each command, written out from the opcode map, decodes to it; its encoding is its
opcode with the reserved bits 0. -/
def Obligations.OpcodeMapWordsDecode : Prop :=
  decode 0x00000001#32 = .ok .clear ∧ decode 0x00000002#32 = .ok .count ∧ decode 0x00000003#32 = .ok .build ∧
  decode 0x00000004#32 = .ok .derive ∧ decode 0x00000005#32 = .ok .serialize ∧
  decode 0x00000006#32 = .ok .encodePayload ∧ decode 0x00000007#32 = .ok .parse ∧
  decode 0x00000008#32 = .ok .decodePayload ∧ decode 0x00000009#32 = .ok .compress ∧
  decode 0x0000000A#32 = .ok .decompress ∧ decode 0x0000000B#32 = .ok .encode ∧
  ∀ i : Instr, encode i = 0#28 ++ i.opcode

/-- 30_encoding.md R91: a word decodes to a command exactly when it is that command's word; so decoding what is encoded
gives it back, and no two words stand for one command. -/
def Obligations.DecodeAndEncodeAgree : Prop :=
  ∀ (w : Word) (i : Instr), decode w = .ok i ↔ w = encode i

/-- 30_encoding.md R92: a word is illegal exactly when OPCODE is 0x0 or 0xC to 0xF or a reserved bit is set. -/
def Obligations.IllegalWordsAreExactlyTheReservedOnes : Prop :=
  ∀ w : Word, (∃ e, decode w = .error e) ↔
    w.extractLsb' 4 28 ≠ 0#28 ∨ (w.extractLsb' 0 4).toNat = 0 ∨ 12 ≤ (w.extractLsb' 0 4).toNat

/-- 10_state.md R24: a CMD write of a legal word while IDLE runs its command; the step adds nothing but taking the host's
operation. While BUSY a step lets the engine make its next access (00_scope.md R7), or, while the host waits, run on to
completion. The command accepted, and so the state BUSY begins with, does not depend on what the host goes on to do. (How
the host is held, and that the engine's steps are made at once for a host that waits, is the model's choice, log 1 and
log 2.) Every other operation of the host is one step, that of `hostAct`: a read, a write of another register, a byte of
host memory, an answer. A CMD write while BUSY only sets CMD_DROPPED (R25, R31), and a write while reset is asserted does
nothing (70_reset_and_hazards.md R240; log 21). An IDLE block whose host does nothing keeps all its state (R242,
60_exceptions.md R224), and a pass while IDLE does nothing (log 2). -/
def Obligations.StepRunsTheAcceptedCommand : Prop :=
  ∀ s : State,
    (∀ (w : Word) (rest : List HostOp) (i : Instr),
      s.host = .write 0x04#8 .bits32 w :: rest → s.inReset = false → s.busy = false → decode w = .ok i →
      step s = exec i { s with host := rest }) ∧
    (∀ rest : List HostOp, s.host = .pass :: rest → s.busy = true → step s = { s with host := rest }.oneAccess) ∧
    (s.hostWaits = true → s.busy = true → step s = s.runOn) ∧
    (∀ i : Instr, ∃ u : State, u.busy = true ∧ ∀ h : List HostOp, exec i { s with host := h } =
      if { s with host := h }.hostWaits then { u with host := h }.runOn else .next { u with host := h }) ∧
    (∀ (w : Word) (rest : List HostOp), s.host = .write 0x04#8 .bits32 w :: rest → s.inReset = false → s.busy = true →
      step s = .next { s with host := rest, cmdDropped := true }) ∧
    (∀ (off : BitVec 8) (width : AccessWidth) (v : Word) (rest : List HostOp), s.host = .write off width v :: rest →
      (s.inReset = false → off ≠ 0x04#8 ∨ width ≠ .bits32 →
        step s = .next ({ s with host := rest }.hostAct (.write off width v))) ∧
      (s.inReset = true → step s = .next { s with host := rest })) ∧
    (∀ (op : HostOp) (rest : List HostOp), s.host = op :: rest →
      (∃ off width, op = .read off width) ∨ (∃ a b, op = .memWrite a b) ∨ (∃ a, op = .memRead a) ∨
        (∃ a r w, op = .answer a r w) →
      step s = .next ({ s with host := rest }.hostAct op)) ∧
    (s.host = [] → s.busy = false → step s = .next s) ∧
    (∀ rest : List HostOp, s.host = .pass :: rest → s.busy = false → step s = .next { s with host := rest })

/-- 30_encoding.md R92: a word with OPCODE 0x0 or 0xC to 0xF, or with a reserved bit set, is accepted and completes at
once by ILLEGAL_CMD with ERR_INFO the word; nothing else changes. -/
def Obligations.IllegalWordFailsAtOnce : Prop :=
  ∀ (s : State) (w : Word) (rest : List HostOp),
    s.host = .write 0x04#8 .bits32 w :: rest → s.inReset = false → s.busy = false →
    w.extractLsb' 4 28 ≠ 0#28 ∨ (w.extractLsb' 0 4).toNat = 0 ∨ 12 ≤ (w.extractLsb' 0 4).toNat →
    ∃ t, step s = .next t ∧
      t.busy = false ∧ t.done = true ∧ t.err = true ∧ t.errCode = .illegalCmd ∧ t.errInfo = w ∧
      t.cmd = w.extractLsb' 0 4 ∧ t.stage = 0#4 ∧ t.donePend = true ∧ t.cmdDropped = false ∧ t.extraInput = false ∧
      State.Untouched { s with host := rest } t

/-! ### Reset -/

/-- 10_state.md R20, 70_reset_and_hazards.md R240: after reset ID reads its constant and every other register 0, the
session is EMPTY, the engine IDLE and `irq` 0. -/
def Obligations.ResetRegistersReadTheirTableValues : Prop :=
  State.reset.regIdle .id = 0x48554631#32 ∧ (∀ r, r ≠ .id → State.reset.regIdle r = 0#32) ∧
  State.reset.busy = false ∧ State.reset.irq = false ∧ State.reset.SessionEmpty

/-- 70_reset_and_hazards.md R240: when reset is asserted, here while IDLE, every register takes its reset value, the
session is EMPTY, the engine IDLE and `irq` 0, and host memory stays. That holds at every step while reset is asserted,
whatever the host does: its writes of registers, of CMD among them, are not taken (log 21), and memory changes only at a
byte the host itself writes, not at one it reads (log 23). It holds when reset is released, which changes nothing else;
releasing an input that is not asserted changes nothing (log 21). A reset while BUSY, which may have old values of bytes to
put back, is ResetAbandonsTheCommand and ResetLeavesOldOrWrittenBytes. -/
def Obligations.ResetInputKeepsHostMemory : Prop :=
  (∀ (s : State) (rest : List HostOp), s.host = .reset :: rest → s.undo = [] →
    ∃ t, step s = .next t ∧ t.inReset = true ∧ t.AtReset ∧ t.mem = s.mem ∧ t.host = rest ∧ t.undo = []) ∧
  (∀ (s : State) (op : HostOp) (rest : List HostOp), s.host = op :: rest → s.inReset = true → s.AtReset → s.undo = [] →
    op ≠ .release →
    ∃ t, step s = .next t ∧ t.inReset = true ∧ t.AtReset ∧ t.host = rest ∧ t.undo = [] ∧
      ∀ x, (∀ a b, op = .memWrite a b → a.toNat ≠ x) → Memory.read t.mem x = Memory.read s.mem x) ∧
  (∀ (s : State) (rest : List HostOp), s.host = .release :: rest →
    step s = .next { s with host := rest, inReset := false }) ∧
  (∀ s : State, s.AtReset → { s with inReset := false }.AtReset)

/-- 70_reset_and_hazards.md R241: a reset while BUSY, here after `k` accesses of the engine, abandons the command: the
registers, the session and the engine are as after reset, DONE_PEND is not set, every byte outside the destination is as
before the command, and every byte is its old value or the value it had when the reset came (how the bytes are chosen is
the model's choice, log 11; the accesses come by the host's list, log 1). -/
def Obligations.ResetAbandonsTheCommand : Prop :=
  ∀ (i : Instr) (s : State) (k : Nat) (rest : List HostOp), s.host = List.replicate k .pass ++ .reset :: rest →
    ∃ u, exec i s = .next u ∧ u.busy = true ∧ u.host = s.host ∧
      ∀ w, u.steps k = .next w → ∃ t, step w = .next t ∧
        t.inReset = true ∧ t.AtReset ∧ t.donePend = false ∧ t.host = rest ∧
        (∀ x, (i.writesDest = true → rangeHas s.dstAddr s.dstCap x = false) →
          Memory.read t.mem x = Memory.read s.mem x) ∧
        ∀ x, Memory.read t.mem x = Memory.read s.mem x ∨ Memory.read t.mem x = Memory.read w.mem x

/-- 70_reset_and_hazards.md R241: after a reset each byte the abandoned command wrote is its old value or the value
written, and every other byte is as it was. The bytes are those the model keeps in `undo` (log 11): none at acceptance,
and each write of the engine puts its address there with the value the byte had. -/
def Obligations.ResetLeavesOldOrWrittenBytes : Prop :=
  (∀ (s : State) (x : Nat),
    Memory.read s.applyReset.mem x = Memory.read s.mem x ∨ (x, Memory.read s.applyReset.mem x) ∈ s.undo) ∧
  (∀ (s : State) (w : Word), (s.accept w).undo = []) ∧
  (∀ (s : State) (a : Nat) (v : Byte), ∃ t, putByte a v s = .ok () t ∧
    t.undo = (a, Memory.read s.mem a) :: s.undo ∧
    (a ∉ s.dstTouched → Memory.read t.mem a = v) ∧ ∀ x, x ≠ a → Memory.read t.mem x = Memory.read s.mem x)

/-! ### The register window -/

/-- 10_state.md R20, R27 to R29, R34 to R39, R42, R46, R50: the registers stand at the offsets of the map; a read of one
while IDLE gives its value and changes nothing; ID is its constant, CMD reads 0, the operand registers, ERR_INFO, INT_EN,
INT_STATUS and the SEL registers show their fields, reserved bits 0; the fields of STATUS stand at their bits, ERRCODE with the numbers of 60_exceptions.md R211 and PHASE with
those of R40. A wait while IDLE gives STATUS (30_encoding.md R101). (That a value read joins the host's data is the model's choice, log 2.) -/
def Obligations.StatusFieldsAtTheirBits : Prop :=
  ([Reg.id, .cmd, .status, .intEn, .intStatus, .srcAddr, .srcLen, .srcPos, .dstAddr, .dstCap, .dstLen, .errInfo, .freqSel,
    .freqCount, .freqFlags, .codeSel, .codeInfo, .codeBits, .nodeSel, .nodeInfo, .nodeChild, .nodeWeightLo,
    .nodeWeightHi, .treeInfo].map Reg.offset =
    [0x00#8, 0x04#8, 0x08#8, 0x0C#8, 0x10#8, 0x14#8, 0x18#8, 0x1C#8, 0x20#8, 0x24#8, 0x28#8, 0x2C#8, 0x30#8,
      0x34#8, 0x38#8, 0x3C#8, 0x40#8, 0x44#8, 0x48#8, 0x4C#8, 0x50#8, 0x54#8, 0x58#8, 0x5C#8]) ∧
  ([ErrCode.none, .illegalCmd, .sequence, .range, .overlap, .srcBus, .dstBus, .dstFull, .noCode, .truncatedHeader,
    .malformedTable, .truncatedPayload, .badCode].map ErrCode.code =
    [0x00#8, 0x01#8, 0x02#8, 0x03#8, 0x04#8, 0x05#8, 0x06#8, 0x07#8, 0x08#8, 0x09#8, 0x0A#8, 0x0B#8, 0x0C#8]) ∧
  ([Phase.empty, .counted, .built, .coded].map Phase.code = [0#2, 1#2, 2#2, 3#2]) ∧
  ∀ s : State, s.busy = false →
    (∀ r : Reg, s.hostAct (.read r.offset .bits32) = { s with hostData := s.regIdle r :: s.hostData }) ∧
    (∀ rest : List HostOp, step { s with host := .wait :: rest } =
      .next { s with host := rest, hostData := s.regIdle .status :: s.hostData }) ∧
    s.regIdle .id = 0x48554631#32 ∧ s.regIdle .cmd = 0#32 ∧
    s.regIdle .srcAddr = s.srcAddr ∧ s.regIdle .srcLen = s.srcLen ∧ s.regIdle .srcPos = s.srcPos ∧
    s.regIdle .dstAddr = s.dstAddr ∧ s.regIdle .dstCap = s.dstCap ∧ s.regIdle .dstLen = s.dstLen ∧
    s.regIdle .errInfo = s.errInfo ∧
    (s.regIdle .intEn).getLsbD 0 = s.doneIE ∧ (s.regIdle .intEn).extractLsb' 1 31 = 0#31 ∧
    (s.regIdle .intStatus).getLsbD 0 = s.donePend ∧ (s.regIdle .intStatus).extractLsb' 1 31 = 0#31 ∧
    (s.regIdle .freqSel).extractLsb' 0 9 = s.freqSel ∧ (s.regIdle .freqSel).extractLsb' 9 23 = 0#23 ∧
    (s.regIdle .codeSel).extractLsb' 0 9 = s.codeSym ∧ (s.regIdle .codeSel).extractLsb' 9 7 = 0#7 ∧
    (s.regIdle .codeSel).extractLsb' 16 3 = s.codeChunk ∧ (s.regIdle .codeSel).extractLsb' 19 13 = 0#13 ∧
    (s.regIdle .nodeSel).extractLsb' 0 10 = s.nodeSel ∧ (s.regIdle .nodeSel).extractLsb' 10 22 = 0#22 ∧
    (s.regIdle .status).getLsbD 0 = false ∧ (s.regIdle .status).getLsbD 1 = s.done ∧
    (s.regIdle .status).getLsbD 2 = s.err ∧ (s.regIdle .status).getLsbD 3 = s.cmdDropped ∧
    (s.regIdle .status).extractLsb' 4 2 = s.phase.code ∧ (s.regIdle .status).getLsbD 6 = s.extraInput ∧
    (s.regIdle .status).getLsbD 7 = false ∧ (s.regIdle .status).extractLsb' 8 8 = s.errCode.code ∧
    (s.regIdle .status).extractLsb' 16 4 = s.cmd ∧ (s.regIdle .status).extractLsb' 20 4 = s.stage ∧
    (s.regIdle .status).extractLsb' 24 8 = 0#8

/-- 10_state.md R26: whatever the free value, STATUS reads while BUSY with BUSY 1, DONE, ERR, ERRCODE and EXTRA_INPUT 0,
CMD and CMD_DROPPED exact; ID, CMD, INT_EN, INT_STATUS, SRC_ADDR, SRC_LEN, DST_ADDR, DST_CAP and the SEL registers read
what they read while IDLE; a read changes nothing but the host's data and the count of free values, which are the model's
own (log 2, log 13). -/
def Obligations.StatusReadsWhileBusy : Prop :=
  ∀ (s : State), s.busy = true →
    (∃ v : Word,
      s.hostAct (.read 0x08#8 .bits32) = { s with hostData := v :: s.hostData, draws := s.draws + 1 } ∧
      v.getLsbD 0 = true ∧ v.getLsbD 1 = false ∧ v.getLsbD 2 = false ∧ v.getLsbD 3 = s.cmdDropped ∧
      v.getLsbD 6 = false ∧ v.getLsbD 7 = false ∧ v.extractLsb' 8 8 = 0#8 ∧ v.extractLsb' 16 4 = s.cmd ∧
      v.extractLsb' 24 8 = 0#8) ∧
    (∀ r : Reg, r ∈ [Reg.id, .cmd, .intEn, .intStatus, .srcAddr, .srcLen, .dstAddr, .dstCap, .freqSel, .codeSel,
        .nodeSel] →
      s.hostAct (.read r.offset .bits32) =
        { s with hostData := s.regIdle r :: s.hostData, draws := s.draws + 1 }) ∧
    (∀ r : Reg, ∃ v : Word,
      s.hostAct (.read r.offset .bits32) = { s with hostData := v :: s.hostData, draws := s.draws + 1 })

/-- 10_state.md R21: a read of a reserved offset, or of another width, or not aligned, returns 0; a write of that kind is
ignored. (For the width and the alignment R21 leaves a choice, and this is the model's, log 10.) A write to a read-only
register is ignored, while IDLE and while BUSY. -/
def Obligations.AccessesOutsideTheMapReadZero : Prop :=
  ∀ (s : State) (off : BitVec 8) (width : AccessWidth) (v : Word),
    ((width ≠ .bits32 ∨ off.extractLsb' 0 2 ≠ 0#2 ∨ 0x60 ≤ off.toNat) →
      s.hostAct (.read off width) = { s with hostData := 0#32 :: s.hostData } ∧
      s.hostAct (.write off width v) = s) ∧
    (off ∈ [0x00#8, 0x08#8, 0x2C#8, 0x34#8, 0x38#8, 0x40#8, 0x44#8, 0x4C#8, 0x50#8, 0x54#8, 0x58#8, 0x5C#8] →
      s.hostAct (.write off width v) = s)

/-- 10_state.md R25, R31: while BUSY a CMD write only sets CMD_DROPPED, and writes to the six operand registers are
dropped. 70_reset_and_hazards.md R247: a byte of the running command's source the host writes is written, and each later
engine read of it is any value; a byte of its destination the host reads gives any value, and one it writes takes any
value, now and at each later engine write; a byte outside the destination reads as while IDLE, one of the source too, and one of
neither range is written so. (The marks that say so, and the
free values, are log 12 and log 4; that a read changes no byte is the model's choice, log 23.) -/
def Obligations.WritesAreDroppedWhileBusy : Prop :=
  ∀ (s : State) (v : Word), s.busy = true →
    s.hostAct (.write 0x04#8 .bits32 v) = { s with cmdDropped := true } ∧
    s.hostAct (.write 0x14#8 .bits32 v) = s ∧ s.hostAct (.write 0x18#8 .bits32 v) = s ∧
    s.hostAct (.write 0x1C#8 .bits32 v) = s ∧ s.hostAct (.write 0x20#8 .bits32 v) = s ∧
    s.hostAct (.write 0x24#8 .bits32 v) = s ∧ s.hostAct (.write 0x28#8 .bits32 v) = s ∧
    (∀ (a : Word) (b : Byte), s.inSource a.toNat = true → s.inDest a.toNat = false →
      s.hostAct (.memWrite a b) =
        { s with mem := Memory.write s.mem a.toNat b, srcTouched := a.toNat :: s.srcTouched }) ∧
    (∀ a : Nat, a ∈ s.srcTouched →
      fetchByte a s = .ok ((Config.freeWord s.draws).extractLsb' 0 8) { s with draws := s.draws + 1 }) ∧
    (∀ a : Word, s.inDest a.toNat = true →
      (∀ b : Byte, ∃ marks : List Nat, s.hostAct (.memWrite a b) =
        { s with
          mem := Memory.write s.mem a.toNat ((Config.freeWord s.draws).extractLsb' 0 8)
          dstTouched := a.toNat :: s.dstTouched
          srcTouched := marks
          draws := s.draws + 1 }) ∧
      s.hostAct (.memRead a) =
        { s with
          hostData := (0#24 ++ (Config.freeWord s.draws).extractLsb' 0 8) :: s.hostData
          draws := s.draws + 1 }) ∧
    (∀ (a : Nat) (b : Byte), a ∈ s.dstTouched → ∃ t, putByte a b s = .ok () t ∧
      t.mem = Memory.write s.mem a ((Config.freeWord s.draws).extractLsb' 0 8)) ∧
    (∀ a : Word, s.inSource a.toNat = false → s.inDest a.toNat = false →
      ∀ b : Byte, s.hostAct (.memWrite a b) = { s with mem := Memory.write s.mem a.toNat b }) ∧
    (∀ a : Word, s.inDest a.toNat = false →
      s.hostAct (.memRead a) = { s with hostData := (0#24 ++ Memory.read s.mem a.toNat) :: s.hostData })

/-- 10_state.md R36 to R38, R22: while IDLE the host writes the operand registers, all 32 bits, and nothing else. 20_memory.md
R70: while IDLE the host writes a byte of host memory, after which that byte reads as written and every other as before,
and reads one. (That a read changes no byte is the model's choice, log 23; the host's data is the model's own, log 2.) -/
def Obligations.OperandWritesWhileIdle : Prop :=
  ∀ (s : State) (v : Word), s.busy = false →
    s.hostAct (.write 0x14#8 .bits32 v) = { s with srcAddr := v } ∧
    s.hostAct (.write 0x18#8 .bits32 v) = { s with srcLen := v } ∧
    s.hostAct (.write 0x1C#8 .bits32 v) = { s with srcPos := v } ∧
    s.hostAct (.write 0x20#8 .bits32 v) = { s with dstAddr := v } ∧
    s.hostAct (.write 0x24#8 .bits32 v) = { s with dstCap := v } ∧
    s.hostAct (.write 0x28#8 .bits32 v) = { s with dstLen := v } ∧
    (∀ (a : Word) (b : Byte), ∃ m, s.hostAct (.memWrite a b) = { s with mem := m } ∧ Memory.read m a.toNat = b ∧
      ∀ x, x ≠ a.toNat → Memory.read m x = Memory.read s.mem x) ∧
    (∀ a : Word, s.hostAct (.memRead a) =
      { s with hostData := (0#24 ++ Memory.read s.mem a.toNat) :: s.hostData })

/-- 10_state.md R34, R35, R42, R46, R50: INT_EN, INT_STATUS and the SEL registers take writes at any time; bit 0 of an
INT_STATUS write clears DONE_PEND. -/
def Obligations.WritableAtAnyTime : Prop :=
  ∀ (s : State) (v : Word),
    s.hostAct (.write 0x0C#8 .bits32 v) = { s with doneIE := v.getLsbD 0 } ∧
    s.hostAct (.write 0x10#8 .bits32 v) = { s with donePend := s.donePend && !v.getLsbD 0 } ∧
    s.hostAct (.write 0x30#8 .bits32 v) = { s with freqSel := v.extractLsb' 0 9 } ∧
    s.hostAct (.write 0x3C#8 .bits32 v) =
      { s with codeSym := v.extractLsb' 0 9, codeChunk := v.extractLsb' 16 3 } ∧
    s.hostAct (.write 0x48#8 .bits32 v) = { s with nodeSel := v.extractLsb' 0 10 }

/-- 10_state.md R43, R44, R51, R52: what the frequency and code registers show of the selected entries, and 0 where
the phase or the entry is not valid; bit 31 − i of CODE_BITS is digit 32·CHUNK + i. -/
def Obligations.TableRegistersShowTheEntries : Prop :=
  ∀ s : State,
    (s.phase = .empty ∨ (s.freqAt s.freqSel.toNat).valid = false →
      s.regIdle .freqCount = 0#32 ∧ s.regIdle .freqFlags = 0#32) ∧
    (s.phase ≠ .empty → (s.freqAt s.freqSel.toNat).valid = true →
      s.regIdle .freqCount = (s.freqAt s.freqSel.toNat).count ∧ s.regIdle .freqFlags = 1#32) ∧
    (s.phase ≠ .coded ∨ (s.codeAt s.codeSym.toNat).valid = false →
      s.regIdle .codeInfo = 0#32 ∧ s.regIdle .codeBits = 0#32) ∧
    (s.phase = .coded → (s.codeAt s.codeSym.toNat).valid = true →
      (s.regIdle .codeInfo).getLsbD 31 = true ∧ (s.regIdle .codeInfo).extractLsb' 9 22 = 0#22 ∧
      (s.regIdle .codeInfo).extractLsb' 0 9 = (s.codeAt s.codeSym.toNat).len ∧
      ∀ i, i < 32 → (s.regIdle .codeBits).getLsbD (31 - i) =
        (s.codeAt s.codeSym.toNat).bits.getLsbD (32 * s.codeChunk.toNat + i))

/-- 10_state.md R46, R47, R48: what TREE_INFO shows of the tree, what the four node registers show of the selected node,
and 0 where the phase or the node is not valid. -/
def Obligations.TreeRegistersShowTheTree : Prop :=
  ∀ (s : State),
    (s.phase = .empty ∨ s.phase = .counted → s.regIdle .treeInfo = 0#32 ∧ s.nodeShown = false) ∧
    (s.phase = .built ∨ s.phase = .coded →
      (s.regIdle .treeInfo).getLsbD 31 = true ∧ (s.regIdle .treeInfo).extractLsb' 0 10 = s.tree.root ∧
      (s.regIdle .treeInfo).extractLsb' 10 6 = 0#6 ∧ (s.regIdle .treeInfo).extractLsb' 16 10 = s.tree.nodes ∧
      (s.regIdle .treeInfo).extractLsb' 26 5 = 0#5 ∧ s.nodeShown = decide (s.nodeSel.toNat < s.tree.nodes.toNat)) ∧
    (s.nodeShown = false → s.regIdle .nodeInfo = 0#32 ∧ s.regIdle .nodeChild = 0#32 ∧ s.regIdle .nodeWeightLo = 0#32 ∧
      s.regIdle .nodeWeightHi = 0#32) ∧
    (s.nodeShown = true →
      s.regIdle .nodeWeightHi ++ s.regIdle .nodeWeightLo = (s.nodeAt s.nodeSel.toNat).weight ∧
      (s.regIdle .nodeInfo).getLsbD 31 = true ∧ (s.regIdle .nodeInfo).getLsbD 30 = (s.nodeAt s.nodeSel.toNat).leaf ∧
      (s.regIdle .nodeInfo).extractLsb' 9 21 = 0#21 ∧
      ((s.nodeAt s.nodeSel.toNat).leaf = true →
        (s.regIdle .nodeInfo).extractLsb' 0 9 = (s.nodeAt s.nodeSel.toNat).sym ∧ s.regIdle .nodeChild = 0#32) ∧
      ((s.nodeAt s.nodeSel.toNat).leaf = false →
        (s.regIdle .nodeInfo).extractLsb' 0 9 = 0#9 ∧
        (s.regIdle .nodeChild).extractLsb' 0 10 = (s.nodeAt s.nodeSel.toNat).left ∧
        (s.regIdle .nodeChild).extractLsb' 16 10 = (s.nodeAt s.nodeSel.toNat).right ∧
        (s.regIdle .nodeChild).extractLsb' 10 6 = 0#6 ∧ (s.regIdle .nodeChild).extractLsb' 26 6 = 0#6))

/-! ### Host memory and the start checks -/

/-- 60_exceptions.md R214 (2): a command in a phase below its need fails with SEQUENCE, ERR_INFO the phase, before any
other check and any effect. -/
def Obligations.SequenceErrorComesFirst : Prop :=
  ∀ (i : Instr) (s : State), s.hostWaits = true → phaseTooLow i s.phase = true →
    ∃ t, exec i s = .next t ∧ t.Failed i (startStage i) .sequence (0#30 ++ s.phase.code) ∧ s.Untouched t

/-- 60_exceptions.md R214 (3), 20_memory.md R71: a source range that passes 2^32 fails with RANGE, ERR_INFO 0, before
any effect. -/
def Obligations.SourceRangeErrorComesNext : Prop :=
  ∀ (i : Instr) (s : State), s.hostWaits = true → phaseTooLow i s.phase = false → i.readsSource = true →
    2 ^ 32 < s.srcAddr.toNat + s.srcLen.toNat →
    ∃ t, exec i s = .next t ∧ t.Failed i (startStage i) .range 0#32 ∧ s.Untouched t

/-- 60_exceptions.md R214 (4), 20_memory.md R71: then a destination range that passes 2^32 fails with RANGE,
ERR_INFO 1. -/
def Obligations.DestRangeErrorComesAfterTheSource : Prop :=
  ∀ (i : Instr) (s : State), s.hostWaits = true → phaseTooLow i s.phase = false → i.writesDest = true →
    (i.readsSource = true → s.srcAddr.toNat + s.srcLen.toNat ≤ 2 ^ 32) →
    2 ^ 32 < s.dstAddr.toNat + s.dstCap.toNat →
    ∃ t, exec i s = .next t ∧ t.Failed i (startStage i) .range 1#32 ∧ s.Untouched t

/-- 60_exceptions.md R214 (5), 20_memory.md R73: then ranges that share an address fail with OVERLAP. -/
def Obligations.OverlapErrorComesLast : Prop :=
  ∀ (i : Instr) (s : State), s.hostWaits = true → phaseTooLow i s.phase = false → i.readsSource = true →
    i.writesDest = true → s.srcAddr.toNat + s.srcLen.toNat ≤ 2 ^ 32 → s.dstAddr.toNat + s.dstCap.toNat ≤ 2 ^ 32 →
    (∃ x, rangeHas s.srcAddr s.srcLen x = true ∧ rangeHas s.dstAddr s.dstCap x = true) →
    ∃ t, exec i s = .next t ∧ t.Failed i (startStage i) .overlap 0#32 ∧ s.Untouched t

/-- 70_reset_and_hazards.md R249 (the point of the refusal is the model's choice, log 7): a command that passes its
start checks is refused where a range it uses includes a byte of the register window. -/
def Obligations.RangeInTheWindowIsRefused : Prop :=
  ∀ (i : Instr) (s : State), s.hostWaits = true → phaseTooLow i s.phase = false →
    (i.readsSource = true → s.srcAddr.toNat + s.srcLen.toNat ≤ 2 ^ 32) →
    (i.writesDest = true → s.dstAddr.toNat + s.dstCap.toNat ≤ 2 ^ 32) →
    (i.readsSource = true → i.writesDest = true → overlaps s = false) →
    (∃ x, s.mmioBase ≤ x ∧ x < s.mmioBase + 256 ∧
      ((i.readsSource = true ∧ rangeHas s.srcAddr s.srcLen x = true) ∨
        (i.writesDest = true ∧ rangeHas s.dstAddr s.dstCap x = true))) →
    exec i s = .refused .dmaIntoWindow

/-! ### CLEAR, COUNT -/

/-- 46_session_ops.md R190: CLEAR completes and leaves the session EMPTY and every entry invalid; operand registers, SEL
registers, INT_EN and host memory are as before. (ERR_INFO is 0 from acceptance on by R39; log 9.) -/
def Obligations.ClearEmptiesTheSession : Prop :=
  ∀ s : State, s.hostWaits = true →
    ∃ t, exec .clear s = .next t ∧ t.Completed .clear 0x1#4 ∧ t.extraInput = false ∧ t.SessionEmpty ∧
      s.SameSetup t ∧ t.srcPos = s.srcPos ∧ t.dstLen = s.dstLen ∧ t.mem = s.mem

/-- 41_frequency_counter.md R120, R121, R122: COUNT completes; every byte value of the source has an entry with its
number of occurrences, no other literal has one, END_OF_TEXT has count 1, PHASE is COUNTED. -/
def Obligations.CountTalliesTheSource : Prop :=
  ∀ s : State, s.hostWaits = true → s.SourceReady →
    ∃ t, exec .count s = .next t ∧ t.Completed .count 0x2#4 ∧ t.extraInput = false ∧ t.phase = .counted ∧
      (∀ b : Byte, (t.freqAt b.toNat).valid = s.srcBytes.contains b ∧
        (t.freqAt b.toNat).count.toNat = s.srcBytes.count b) ∧
      t.freqAt Config.endOfText = ⟨true, 1#32⟩ ∧
      (∀ n, (t.nodeAt n).valid = false) ∧ t.tree = TreeReg.absent ∧ (∀ i, (t.codeAt i).valid = false) ∧
      s.SameSetup t ∧ t.srcPos = s.srcPos ∧ t.dstLen = s.dstLen ∧ t.mem = s.mem

/-- 41_frequency_counter.md R123, 20_memory.md R87: at the first source byte whose read gets a bus error COUNT fails with
SRC_BUS and that address, and the session is left EMPTY; COMPRESS and ENCODE fail so in their stage COUNT
(46_session_ops.md R191, R193, R194). -/
def Obligations.CountBusErrorLeavesTheSessionEmpty : Prop :=
  ∀ (i : Instr) (s : State) (k : Nat), i ∈ [Instr.count, .compress, .encode] → s.hostWaits = true → s.RangesOk i →
    k < s.srcLen.toNat → (∀ j, j < k → s.srcReply j = .completes) → s.srcReply k = .busError →
    ∃ t, exec i s = .next t ∧ t.Failed i 0x2#4 .srcBus (s.srcAddr + BitVec.ofNat 32 k) ∧ t.SessionEmpty ∧
      s.SameSetup t ∧ t.srcPos = s.srcPos ∧ t.dstLen = s.dstLen ∧ t.mem = s.mem

/-! ### BUILD -/

/-- 42_tree_builder.md R130, R132, R133: BUILD completes in every phase from COUNTED on, leaves FREQ alone, discards the
codes, and leaves the tree in the layout of R132 with weights that are exact sums. -/
def Obligations.BuildLaysOutTheTree : Prop :=
  ∀ s : State, s.hostWaits = true → s.phase ≠ .empty → (s.freqAt Config.endOfText).valid = true →
    ∃ t, exec .build s = .next t ∧ t.Completed .build 0x3#4 ∧ t.extraInput = false ∧ t.phase = .built ∧
      t.freq = s.freq ∧ t.TreeOk ∧ (∀ i, (t.codeAt i).valid = false) ∧
      s.SameSetup t ∧ t.srcPos = s.srcPos ∧ t.dstLen = s.dstLen ∧ t.mem = s.mem

/-- 42_tree_builder.md R131: each internal node has as its left child the node of least (WEIGHT, index) that waited when
it was made, and as its right child the least of the others. -/
def Obligations.BuildCombinesTheTwoLeast : Prop :=
  ∀ s t : State, s.hostWaits = true → s.phase ≠ .empty → (s.freqAt Config.endOfText).valid = true →
    exec .build s = .next t →
    ∀ n, t.presentSyms.length ≤ n → n < t.tree.nodes.toNat →
      let l := (t.nodeAt n).left.toNat
      let r := (t.nodeAt n).right.toNat
      t.Waiting n l ∧ t.Waiting n r ∧ l ≠ r ∧
      (∀ i, t.Waiting n i → i ≠ l → t.keyLess l i = true) ∧
      (∀ i, t.Waiting n i → i ≠ l → i ≠ r → t.keyLess r i = true)

/-- 42_tree_builder.md R136 (2): the root's weight is the sum of all counts, END_OF_TEXT's among them. -/
def Obligations.BuildConservesFrequency : Prop :=
  ∀ s t : State, s.hostWaits = true → s.phase ≠ .empty → (s.freqAt Config.endOfText).valid = true →
    exec .build s = .next t →
    (t.nodeAt t.tree.root.toNat).weight.toNat = (s.presentSyms.map (fun i => (s.freqAt i).count.toNat)).sum

/-- 42_tree_builder.md R136 (4): the same FREQ gives the same NODE and TREE, whatever else the states hold. -/
def Obligations.BuildIsDeterminedByFreq : Prop :=
  ∀ s s' t t' : State, s.hostWaits = true → s'.hostWaits = true → s.phase ≠ .empty → s'.phase ≠ .empty →
    s.freq = s'.freq → exec .build s = .next t → exec .build s' = .next t' → t.node = t'.node ∧ t.tree = t'.tree

/-- 42_tree_builder.md R135: on a table with no entry, which no run reaches, BUILD faults. -/
def Obligations.BuildOfAnEmptyTableFaults : Prop :=
  ∀ s : State, s.hostWaits = true → s.phase ≠ .empty → s.presentSyms = [] → exec .build s = .fault .emptyQueue

/-! ### DERIVE -/

/-- 43_code_deriver.md R140 to R144: DERIVE completes in BUILT and CODED and gives exactly the present symbols codes,
their paths (`"0"` on a one-leaf tree), of 1 to 256 digits, BITS being 0 at and past LEN (10_state.md R49); FREQ and the
tree stay. -/
def Obligations.DeriveGivesEachLeafItsPath : Prop :=
  ∀ s : State, s.hostWaits = true → s.phase = .built ∨ s.phase = .coded → s.TreeOk →
    ∃ t, exec .derive s = .next t ∧ t.Completed .derive 0x4#4 ∧ t.extraInput = false ∧ t.phase = .coded ∧ t.CodesOk ∧
      t.freq = s.freq ∧ t.node = s.node ∧ t.tree = s.tree ∧
      s.SameSetup t ∧ t.srcPos = s.srcPos ∧ t.dstLen = s.dstLen ∧ t.mem = s.mem

/-- 43_code_deriver.md R143: no code is a prefix of another symbol's. -/
def Obligations.CodesArePrefixFree : Prop :=
  ∀ s : State, s.TreeOk → s.CodesOk → ∀ a b, (s.codeAt a).valid = true → (s.codeAt b).valid = true → a ≠ b →
    ¬ (s.codeAt a).digits <+: (s.codeAt b).digits

/-- 43_code_deriver.md R143: with two symbols or more the codes fill the tree: the sum of 2^(256 − LEN) over the present
symbols is 2^256. -/
def Obligations.CodeLengthsFillTheTree : Prop :=
  ∀ s : State, s.TreeOk → s.CodesOk → 2 ≤ s.presentSyms.length →
    (s.presentSyms.map (fun i => 2 ^ (256 - (s.codeAt i).len.toNat))).sum = 2 ^ 256

/-! ### SERIALIZE, PARSE -/

/-- 44_table_serializer.md R150: the table section is the pairs of R150 in order (`sectionSyms`), five bytes each, the key
byte and the count with its most significant byte first (30_encoding.md R96), and then the terminator. R152: SERIALIZE completes in every phase from COUNTED on when the table section fits, writes
it from destination offset 0 and counts it in DST_LEN; the session and every other byte stay. -/
def Obligations.SerializeWritesTheTableSection : Prop :=
  (∀ s : State,
    s.tableSection.length = 5 * s.sectionSyms.length + 1 ∧
    s.tableSection[5 * s.sectionSyms.length]? = some 0x03#8 ∧
    ∀ (j : Nat) (sym : Nat), s.sectionSyms[j]? = some sym →
      keyByte s.tableSection j = keyOf sym ∧ countAt s.tableSection j = (s.freqAt sym).count) ∧
  (∀ s : State, s.hostWaits = true → s.phase ≠ .empty → s.DestReady → s.tableSection.length ≤ s.dstCap.toNat →
    ∃ t, exec .serialize s = .next t ∧ t.Completed .serialize 0x5#4 ∧ t.extraInput = false ∧
      t.dstLen.toNat = s.tableSection.length ∧
      Memory.bytes t.mem s.dstAddr.toNat s.tableSection.length = s.tableSection ∧
      sameMemoryBut s.dstAddr.toNat s.tableSection.length s t ∧
      s.SameSession t ∧ s.SameSetup t ∧ t.srcPos = s.srcPos)

/-- 44_table_serializer.md R151, R152: when the section does not fit SERIALIZE fails with DST_FULL, ERR_INFO and DST_LEN
the capacity, its bytes up to there written. -/
def Obligations.SerializeStopsWhenTheDestIsFull : Prop :=
  ∀ s : State, s.hostWaits = true → s.phase ≠ .empty → s.DestReady → s.dstCap.toNat < s.tableSection.length →
    ∃ t, exec .serialize s = .next t ∧ t.Failed .serialize 0x5#4 .dstFull s.dstCap ∧ t.dstLen = s.dstCap ∧
      Memory.bytes t.mem s.dstAddr.toNat s.dstCap.toNat = s.tableSection.take s.dstCap.toNat ∧
      sameMemoryBut s.dstAddr.toNat s.dstCap.toNat s t ∧ s.SameSession t ∧ s.SameSetup t ∧ t.srcPos = s.srcPos

/-- 20_memory.md R87, 60_exceptions.md R212: at the first byte whose write gets a bus error SERIALIZE fails with DST_BUS
and that address; the bytes before it are written and counted. -/
def Obligations.SerializeBusErrorIsPrecise : Prop :=
  ∀ (s : State) (k : Nat), s.hostWaits = true → s.phase ≠ .empty → s.dstAddr.toNat + s.dstCap.toNat ≤ 2 ^ 32 →
    touchesWindow s.mmioBase s.dstAddr s.dstCap = false → k < s.tableSection.length → k < s.dstCap.toNat →
    (∀ j, j < k → (s.busAt (s.dstAddr.toNat + j)).onWrite = .completes) →
    (s.busAt (s.dstAddr.toNat + k)).onWrite = .busError →
    ∃ t, exec .serialize s = .next t ∧
      t.Failed .serialize 0x5#4 .dstBus (s.dstAddr + BitVec.ofNat 32 k) ∧ t.dstLen.toNat = k ∧
      Memory.bytes t.mem s.dstAddr.toNat k = s.tableSection.take k ∧ sameMemoryBut s.dstAddr.toNat k s t ∧
      s.SameSession t ∧ s.SameSetup t ∧ t.srcPos = s.srcPos

/-- 30_encoding.md R97: with P literals present the table section has 5·(P + 1) + 1 bytes, at least 6 and at most
1286. -/
def Obligations.TableSectionLength : Prop :=
  ∀ s : State,
    s.tableSection.length = 5 * (((List.range 256).filter (fun b => (s.freqAt b).valid)).length + 1) + 1 ∧
    6 ≤ s.tableSection.length ∧ s.tableSection.length ≤ 1286

/-- 44_table_serializer.md R159: PARSE of what SERIALIZE writes, followed by any bytes, completes, gives the same FREQ
back and sets SRC_POS to the length of the table section; the tree and the codes are invalid. -/
def Obligations.ParseInvertsTheTableSection : Prop :=
  ∀ (s u : State) (rest : List Byte), (s.freqAt Config.endOfText).valid = true →
    u.hostWaits = true → u.RangesOk .parse → (∀ k, k < s.tableSection.length → u.srcReply k = .completes) →
    u.srcBytes = s.tableSection ++ rest →
    ∃ t, exec .parse u = .next t ∧ t.Completed .parse 0x7#4 ∧ t.extraInput = false ∧ t.phase = .counted ∧
      (∀ i, (t.freqAt i).valid = (s.freqAt i).valid ∧
        ((s.freqAt i).valid = true → (t.freqAt i).count = (s.freqAt i).count)) ∧
      (∀ n, (t.nodeAt n).valid = false) ∧ t.tree = TreeReg.absent ∧ (∀ i, (t.codeAt i).valid = false) ∧
      t.srcPos.toNat = s.tableSection.length ∧ u.SameSetup t ∧ t.dstLen = u.dstLen ∧ t.mem = u.mem

/-- 44_table_serializer.md R155 to R158: key bytes mean what R155's table says. PARSE of a source whose first `n` pairs are
pairs with new symbols, in any order of literals and with any counts, and whose next key byte is the terminator, completes:
FREQ holds exactly those pairs, SRC_POS is the offset after the terminator, PHASE is COUNTED. If the next key byte is
malformed or its whole pair repeats a symbol, it is MALFORMED_TABLE with the offset of that key byte; if the source ends
there or inside the pair, it is TRUNCATED_HEADER with SRC_LEN; if the read of that key byte or of a count byte of its pair is
the first to get a bus error, it is SRC_BUS with its address (20_memory.md R87). Each of the three leaves the session EMPTY
and SRC_POS unchanged, and DECOMPRESS fails so in its stage PARSE (46_session_ops.md R192, R194). Nothing is asked of the
bytes after the last one read: PARSE reads nothing after the terminator (R156). (That the count bytes of a pair that
repeats a symbol are read first, so that one cut off is TRUNCATED_HEADER or SRC_BUS, is log 24.) -/
def Obligations.ParseRefusesABadStart : Prop :=
  (∀ k, classify 0 false k =
    if k = 0x03#8 then .pair 3 else if k = 0x04#8 then .endOfTextPair else .malformed) ∧
  (∀ idx k, 0 < idx → classify idx false k = if k = 0x04#8 then .endOfTextPair else .malformed) ∧
  (∀ idx k, 0 < idx → classify idx true k = if k = 0x03#8 then .terminator else .pair k.toNat) ∧
  ∀ (s : State) (n : Nat), s.hostWaits = true →
    (s.RangesOk .parse → TableAt s.srcBytes n → (∀ k, k ≤ 5 * n → s.srcReply k = .completes) →
      ∃ t, exec .parse s = .next t ∧ t.Completed .parse 0x7#4 ∧ t.extraInput = false ∧ t.phase = .counted ∧
        t.srcPos.toNat = 5 * n + 1 ∧ t.FreqOfTable s.srcBytes n ∧
        (∀ n, (t.nodeAt n).valid = false) ∧ t.tree = TreeReg.absent ∧ (∀ i, (t.codeAt i).valid = false) ∧
        s.SameSetup t ∧ t.dstLen = s.dstLen ∧ t.mem = s.mem) ∧
    ∀ i : Instr, i ∈ [Instr.parse, .decompress] → s.RangesOk i →
      let failsWith := fun (code : ErrCode) (info : Word) => ∃ t, exec i s = .next t ∧ t.Failed i 0x7#4 code info ∧
        t.SessionEmpty ∧ s.SameSetup t ∧ t.srcPos = s.srcPos ∧ t.dstLen = s.dstLen ∧ t.mem = s.mem
      (MalformedAt s.srcBytes n → (∀ k, k ≤ 5 * n → s.srcReply k = .completes) →
        (classAt s.srcBytes n ≠ .malformed → ∀ k, k < 5 * n + 5 → s.srcReply k = .completes) →
        failsWith .malformedTable (BitVec.ofNat 32 (5 * n))) ∧
      (TruncatedAt s.srcBytes n → (∀ k, k < s.srcLen.toNat → s.srcReply k = .completes) →
        failsWith .truncatedHeader s.srcLen) ∧
      (∀ e, (∀ j, j < n → PairAt s.srcBytes j) → (e = 5 * n ∨ 5 * n < e ∧ e < 5 * n + 5 ∧ symAt s.srcBytes n ≠ none) →
        e < s.srcLen.toNat → (∀ k, k < e → s.srcReply k = .completes) → s.srcReply e = .busError →
        failsWith .srcBus (s.srcAddr + BitVec.ofNat 32 e))

/-- 44_table_serializer.md R156, R158: PARSE of any source whose reads are answered completes, normally with END_OF_TEXT
present and SRC_POS inside the source, or by TRUNCATED_HEADER, MALFORMED_TABLE or SRC_BUS with the session EMPTY and SRC_POS
unchanged; by SRC_BUS only where a read gets a bus error (20_memory.md R87). -/
def Obligations.ParseSucceedsOrLeavesTheSessionEmpty : Prop :=
  ∀ s : State, s.hostWaits = true → s.RangesOk .parse → (∀ k, k < s.srcLen.toNat → s.srcReply k ≠ .never) →
    ∃ t, exec .parse s = .next t ∧ s.SameSetup t ∧ t.dstLen = s.dstLen ∧ t.mem = s.mem ∧
      ((t.Completed .parse 0x7#4 ∧ t.phase = .counted ∧ (t.freqAt Config.endOfText).valid = true ∧
          6 ≤ t.srcPos.toNat ∧ t.srcPos.toNat ≤ s.srcLen.toNat) ∨
        (∃ info, (t.Failed .parse 0x7#4 .truncatedHeader info ∨ t.Failed .parse 0x7#4 .malformedTable info ∨
            t.Failed .parse 0x7#4 .srcBus info ∧ ∃ k, k < s.srcLen.toNat ∧ s.srcReply k = .busError) ∧
          t.SessionEmpty ∧ t.srcPos = s.srcPos))

/-! ### ENCODE_PAYLOAD, DECODE_PAYLOAD -/

/-- 30_encoding.md R98, 45_bitstream.md R170 to R172: with every source byte coded, ENCODE_PAYLOAD completes when the
payload fits, and appends it at DST_LEN; if the room from DST_LEN to DST_CAP is less it fails with DST_FULL where the room
ends (with DST_LEN at or past DST_CAP, at once), and at the first byte whose write gets a bus error with DST_BUS and that
address (44_table_serializer.md R151, 20_memory.md R87); the bytes before are written and counted, the session and every
other byte stay. -/
def Obligations.EncodePayloadAppendsThePayload : Prop :=
  ∀ s : State, s.hostWaits = true → s.phase = .coded → s.SourceReady →
    s.dstAddr.toNat + s.dstCap.toNat ≤ 2 ^ 32 → touchesWindow s.mmioBase s.dstAddr s.dstCap = false →
    overlaps s = false → (∀ b, b ∈ s.srcBytes → (s.codeAt b.toNat).valid = true) →
    let room := s.dstCap.toNat - s.dstLen.toNat
    let answers := fun j => (s.busAt (s.dstAddr.toNat + s.dstLen.toNat + j)).onWrite
    ((s.payload s.srcBytes).length ≤ room → (∀ j, j < (s.payload s.srcBytes).length → answers j = .completes) →
      ∃ t, exec .encodePayload s = .next t ∧ t.Completed .encodePayload 0x6#4 ∧ t.extraInput = false ∧
        s.Emitted t s.dstLen.toNat (s.payload s.srcBytes) ∧ s.SameSession t ∧ s.SameSetup t ∧ t.srcPos = s.srcPos) ∧
    (room < (s.payload s.srcBytes).length → (∀ j, j < room → answers j = .completes) →
      ∃ t, exec .encodePayload s = .next t ∧
        t.Failed .encodePayload 0x6#4 .dstFull (BitVec.ofNat 32 (s.dstLen.toNat + room)) ∧
        s.Emitted t s.dstLen.toNat ((s.payload s.srcBytes).take room) ∧
        s.SameSession t ∧ s.SameSetup t ∧ t.srcPos = s.srcPos) ∧
    (∀ k, k < (s.payload s.srcBytes).length → k < room → (∀ j, j < k → answers j = .completes) →
      answers k = .busError →
      ∃ t, exec .encodePayload s = .next t ∧
        t.Failed .encodePayload 0x6#4 .dstBus (s.dstAddr + s.dstLen + BitVec.ofNat 32 k) ∧
        s.Emitted t s.dstLen.toNat ((s.payload s.srcBytes).take k) ∧
        s.SameSession t ∧ s.SameSetup t ∧ t.srcPos = s.srcPos)

/-- 45_bitstream.md R173, 20_memory.md R87: the first source byte with no code fails the command with NO_CODE and its
offset, the first one whose read gets a bus error with SRC_BUS and its address; the whole bytes of the codes before it are
written, the digits left in the bit buffer are lost. -/
def Obligations.EncodePayloadStopsAtAByteWithNoCode : Prop :=
  ∀ (s : State) (k : Nat), s.hostWaits = true → s.phase = .coded → s.srcAddr.toNat + s.srcLen.toNat ≤ 2 ^ 32 →
    touchesWindow s.mmioBase s.srcAddr s.srcLen = false → s.DestReady → overlaps s = false → k < s.srcLen.toNat →
    (∀ j, j < k → (s.busAt (s.srcAddr.toNat + j)).onRead = .completes) →
    (∀ b, b ∈ s.srcBytes.take k → (s.codeAt b.toNat).valid = true) →
    (s.codeDigits (s.srcBytes.take k)).length / 8 ≤ s.dstCap.toNat - s.dstLen.toNat →
    ((s.busAt (s.srcAddr.toNat + k)).onRead = .completes →
      (s.codeAt (Memory.read s.mem (s.srcAddr.toNat + k)).toNat).valid = false →
      ∃ t, exec .encodePayload s = .next t ∧ t.Failed .encodePayload 0x6#4 .noCode (BitVec.ofNat 32 k) ∧
        s.Emitted t s.dstLen.toNat (wholeBytes (s.codeDigits (s.srcBytes.take k))) ∧
        s.SameSession t ∧ s.SameSetup t ∧ t.srcPos = s.srcPos) ∧
    ((s.busAt (s.srcAddr.toNat + k)).onRead = .busError →
      ∃ t, exec .encodePayload s = .next t ∧ t.Failed .encodePayload 0x6#4 .srcBus (s.srcAddr + BitVec.ofNat 32 k) ∧
        s.Emitted t s.dstLen.toNat (wholeBytes (s.codeDigits (s.srcBytes.take k))) ∧
        s.SameSession t ∧ s.SameSetup t ∧ t.srcPos = s.srcPos)

/-- 45_bitstream.md R175 to R178: DECODE_PAYLOAD, started at a payload made with the codes of its own tree (those of
session `c`), completes when the encoded bytes fit, writes exactly them, leaves SRC_POS after the payload, and sets
EXTRA_INPUT exactly when source bytes follow it; nothing is asked of the answers to reads past the payload (R178). With too
small a capacity it fails with DST_FULL there, and at the first
byte whose write gets a bus error with DST_BUS and that address (44_table_serializer.md R151, 20_memory.md R87); the bytes
before are written and counted, SRC_POS and the session stay. -/
def Obligations.DecodePayloadInvertsThePayload : Prop :=
  ∀ (c s : State) (src rest : List Byte), c.TreeOk → c.CodesOk → (c.freqAt Config.endOfText).valid = true →
    s.node = c.node → s.tree = c.tree →
    (∀ b, b ∈ src → (c.codeAt b.toNat).valid = true) →
    s.hostWaits = true → s.phase = .built ∨ s.phase = .coded → s.RangesOk .decodePayload →
    s.srcBytes.drop s.srcPos.toNat = c.payload src ++ rest →
    (∀ k, k < (c.payload src).length → s.srcReply (s.srcPos.toNat + k) = .completes) →
    (src.length ≤ s.dstCap.toNat → (∀ j, j < src.length → s.dstReply j = .completes) →
      ∃ t, exec .decodePayload s = .next t ∧ t.Completed .decodePayload 0x8#4 ∧
        t.extraInput = decide (rest ≠ []) ∧ s.Emitted t 0 src ∧
        t.srcPos.toNat = s.srcPos.toNat + (c.payload src).length ∧ s.SameSession t ∧ s.SameSetup t) ∧
    (s.dstCap.toNat < src.length → (∀ j, j < s.dstCap.toNat → s.dstReply j = .completes) →
      ∃ t, exec .decodePayload s = .next t ∧ t.Failed .decodePayload 0x8#4 .dstFull s.dstCap ∧
        s.Emitted t 0 (src.take s.dstCap.toNat) ∧ t.srcPos = s.srcPos ∧ s.SameSession t ∧ s.SameSetup t) ∧
    (∀ k, k < src.length → k < s.dstCap.toNat → (∀ j, j < k → s.dstReply j = .completes) → s.dstReply k = .busError →
      ∃ t, exec .decodePayload s = .next t ∧
        t.Failed .decodePayload 0x8#4 .dstBus (s.dstAddr + BitVec.ofNat 32 k) ∧
        s.Emitted t 0 (src.take k) ∧ t.srcPos = s.srcPos ∧ s.SameSession t ∧ s.SameSetup t)

/-- 45_bitstream.md R179: a decode started at or past the end of the source fails with TRUNCATED_PAYLOAD and that
offset, with nothing written. Where the source ends after the codes of some bytes and some digits that lead to no leaf
(none, or the beginning of a code), it fails with TRUNCATED_PAYLOAD and SRC_LEN; where instead the read of the next byte
gets a bus error, with SRC_BUS and its address (20_memory.md R87). The bytes decoded before stay written and counted,
SRC_POS and the session stay. -/
def Obligations.DecodePayloadOfNothingIsTruncated : Prop :=
  (∀ s : State, s.hostWaits = true → s.phase = .built ∨ s.phase = .coded → s.RangesOk .decodePayload →
    s.srcLen.toNat ≤ s.srcPos.toNat →
    ∃ t, exec .decodePayload s = .next t ∧ t.Failed .decodePayload 0x8#4 .truncatedPayload s.srcPos ∧
      t.dstLen = 0#32 ∧ t.mem = s.mem ∧ t.srcPos = s.srcPos ∧ s.SameSession t ∧ s.SameSetup t) ∧
  (∀ (c s : State) (src : List Byte) (p : List Bool) (e : Nat),
    c.TreeOk → c.CodesOk → (c.freqAt Config.endOfText).valid = true → s.node = c.node → s.tree = c.tree →
    (∀ b, b ∈ src → (c.codeAt b.toNat).valid = true) → c.StaysInside c.tree.root.toNat p →
    s.hostWaits = true → s.phase = .built ∨ s.phase = .coded → s.RangesOk .decodePayload →
    s.srcPos.toNat ≤ e → e ≤ s.srcLen.toNat → (∀ j, s.srcPos.toNat ≤ j → j < e → s.srcReply j = .completes) →
    bitsOfBytes ((s.srcBytes.take e).drop s.srcPos.toNat) = c.codeDigits src ++ p → src.length ≤ s.dstCap.toNat →
    (∀ j, j < src.length → s.dstReply j = .completes) →
    (e = s.srcLen.toNat →
      ∃ t, exec .decodePayload s = .next t ∧ t.Failed .decodePayload 0x8#4 .truncatedPayload s.srcLen ∧
        s.Emitted t 0 src ∧ t.srcPos = s.srcPos ∧ s.SameSession t ∧ s.SameSetup t) ∧
    (e < s.srcLen.toNat → s.srcReply e = .busError →
      ∃ t, exec .decodePayload s = .next t ∧
        t.Failed .decodePayload 0x8#4 .srcBus (s.srcAddr + BitVec.ofNat 32 e) ∧
        s.Emitted t 0 src ∧ t.srcPos = s.srcPos ∧ s.SameSession t ∧ s.SameSetup t))

/-- 45_bitstream.md R177: on a one-leaf tree a first bit 0 stops the decode with nothing written, and a first bit 1 is
BAD_CODE with the offset of its byte; no other byte is read and none is written. -/
def Obligations.OneLeafTreeDecodesOneBit : Prop :=
  ∀ s : State, s.hostWaits = true → s.phase = .built ∨ s.phase = .coded → s.RangesOk .decodePayload →
    s.srcPos.toNat < s.srcLen.toNat → s.srcReply s.srcPos.toNat = .completes →
    (s.nodeAt s.tree.root.toNat).leaf = true → (s.nodeAt s.tree.root.toNat).sym.toNat = Config.endOfText →
    ((Memory.read s.mem (s.srcAddr.toNat + s.srcPos.toNat)).getLsbD 7 = false →
      ∃ t, exec .decodePayload s = .next t ∧ t.Completed .decodePayload 0x8#4 ∧ t.dstLen = 0#32 ∧
        t.mem = s.mem ∧ t.srcPos = s.srcPos + 1#32 ∧
        t.extraInput = decide (s.srcPos.toNat + 1 < s.srcLen.toNat) ∧ s.SameSession t ∧ s.SameSetup t) ∧
    ((Memory.read s.mem (s.srcAddr.toNat + s.srcPos.toNat)).getLsbD 7 = true →
      ∃ t, exec .decodePayload s = .next t ∧ t.Failed .decodePayload 0x8#4 .badCode s.srcPos ∧ t.dstLen = 0#32 ∧
        t.mem = s.mem ∧ t.srcPos = s.srcPos ∧ s.SameSession t ∧ s.SameSetup t)

/-! ### The composites -/

/-- 46_session_ops.md R193: ENCODE completes and leaves the counts of the source, their tree and its codes, which depend
on the source bytes alone; it writes no host memory and neither reads nor checks the destination registers. -/
def Obligations.EncodeLeavesTheCodeTable : Prop :=
  ∀ s : State, s.hostWaits = true → s.SourceReady →
    ∃ t, exec .encode s = .next t ∧ t.Completed .encode 0x4#4 ∧ t.extraInput = false ∧ t.phase = .coded ∧
      (∀ b : Byte, (t.freqAt b.toNat).valid = s.srcBytes.contains b ∧
        (t.freqAt b.toNat).count.toNat = s.srcBytes.count b) ∧
      t.freqAt Config.endOfText = ⟨true, 1#32⟩ ∧ t.TreeOk ∧ t.CodesOk ∧ (sessionOf s.srcBytes).SameSession t ∧
      s.SameSetup t ∧ t.srcPos = s.srcPos ∧ t.dstLen = s.dstLen ∧ t.mem = s.mem

/-- 30_encoding.md R94, 46_session_ops.md R194: COMPRESS, DECOMPRESS and ENCODE are their stages one after another, each from
the state the one before it left, up to the first that fails: where the composite's ranges are in range, apart and off the
register window and host memory answers, running the stages as commands of their own comes to a next state, and the composite
to the same one in every register, the session and host memory, but for STATUS.CMD, which shows the composite. So a
composite fails whenever a stage of it does, in that stage, with its error and what it leaves (R191 to R193). -/
def Obligations.EncodeIsItsFourStages : Prop :=
  (∀ (s : State) (i : Instr) (l : List Instr),
    (i, l) ∈ [(Instr.compress, [Instr.clear, .count, .build, .derive, .serialize, .encodePayload]),
      (.decompress, [.clear, .parse, .build, .decodePayload]), (.encode, [.clear, .count, .build, .derive])] →
    s.hostWaits = true → s.RangesOk i → (∀ k, k < s.srcLen.toNat → s.srcReply k ≠ .never) →
    (i.writesDest = true → ∀ k, k < s.dstCap.toNat → s.dstReply k ≠ .never) →
    ∃ t, runStages l s = .next t ∧ exec i s = .next { t with cmd := i.opcode }) ∧
  (∀ s a b c d : State, s.hostWaits = true → s.SourceReady → exec .clear s = .next a → exec .count a = .next b →
    exec .build b = .next c → exec .derive c = .next d →
    ∃ t, exec .encode s = .next t ∧ d.SameSession t ∧ d.SameSetup t ∧ t.srcPos = d.srcPos ∧ t.dstLen = d.dstLen ∧
      t.mem = d.mem)

/-- 46_session_ops.md R191, 30_encoding.md R95: COMPRESS completes when the container of the source fits, and writes it:
the table section and then the payload of the source under the codes ENCODE derives; the session is the one ENCODE
leaves. -/
def Obligations.CompressWritesTheContainer : Prop :=
  ∀ s : State, s.hostWaits = true → s.SourceReady → s.DestReady → overlaps s = false →
    (containerOf s.srcBytes).length ≤ s.dstCap.toNat →
    ∃ t u, exec .compress s = .next t ∧ t.Completed .compress 0x6#4 ∧ t.extraInput = false ∧
      exec .encode s = .next u ∧ containerOf s.srcBytes = u.tableSection ++ u.payload s.srcBytes ∧
      s.Emitted t 0 (containerOf s.srcBytes) ∧ u.SameSession t ∧ s.SameSetup t ∧ t.srcPos = s.srcPos

/-- 46_session_ops.md R196: with P distinct source bytes and payload bit string B the container has 5·(P + 1) + 1 +
ceil(len(B) / 8) bytes; COMPRESS completes with that DST_LEN when DST_CAP is at least that, else fails with DST_FULL at
DST_CAP, in SERIALIZE or in ENCODE_PAYLOAD, with that much of the container written and the session CODED (R191);
1286 + 32·(SRC_LEN + 1) bytes always suffice. -/
def Obligations.CompressHasItsLengthOrFills : Prop :=
  ∀ s : State, s.hostWaits = true → s.SourceReady → s.DestReady → overlaps s = false →
    let p := ((List.range 256).filter (fun b => s.srcBytes.contains (BitVec.ofNat 8 b))).length
    let n := 5 * (p + 1) + 1 + (((sessionOf s.srcBytes).payloadDigits s.srcBytes).length + 7) / 8
    (n ≤ s.dstCap.toNat →
      ∃ t, exec .compress s = .next t ∧ t.Completed .compress 0x6#4 ∧ t.dstLen.toNat = n) ∧
    (s.dstCap.toNat < n →
      ∃ t, exec .compress s = .next t ∧
        t.Failed .compress (if s.dstCap.toNat < 5 * (p + 1) + 1 then 0x5#4 else 0x6#4) .dstFull s.dstCap ∧
        s.Emitted t 0 ((containerOf s.srcBytes).take s.dstCap.toNat) ∧ t.phase = .coded ∧
        (sessionOf s.srcBytes).SameSession t ∧ s.SameSetup t ∧ t.srcPos = s.srcPos) ∧
    n ≤ 1286 + 32 * (s.srcLen.toNat + 1)

/-- 46_session_ops.md R197: two COMPRESS commands over the same source bytes write byte-identical containers, whatever
the sessions before them. -/
def Obligations.CompressIsDeterministic : Prop :=
  ∀ s s' t t' : State, s.hostWaits = true → s'.hostWaits = true → s.SourceReady → s'.SourceReady →
    s.DestReady → s'.DestReady → overlaps s = false → overlaps s' = false → s.srcBytes = s'.srcBytes →
    exec .compress s = .next t → exec .compress s' = .next t' → t.err = false → t'.err = false →
    t.dstLen = t'.dstLen ∧
    Memory.bytes t.mem s.dstAddr.toNat t.dstLen.toNat = Memory.bytes t'.mem s'.dstAddr.toNat t'.dstLen.toNat

/-- 46_session_ops.md R192: DECOMPRESS of the container of some bytes, followed by any bytes, completes when those bytes
fit, and writes exactly them; PHASE is BUILT, FREQ and the tree are those of the session the container was made with (the
one ENCODE and COMPRESS leave of those bytes), no code is valid. If they do not fit it fails with DST_FULL in its stage
DECODE_PAYLOAD, with as many of them written and that session left. Nothing is asked of the answers to reads past the container
(45_bitstream.md R178). -/
def Obligations.DecompressInvertsTheContainer : Prop :=
  ∀ (s : State) (src rest : List Byte),
    s.hostWaits = true → s.RangesOk .decompress → s.srcBytes = containerOf src ++ rest →
    (∀ k, k < (containerOf src).length → s.srcReply k = .completes) →
    (∀ j, j < src.length → j < s.dstCap.toNat → s.dstReply j = .completes) →
    (src.length ≤ s.dstCap.toNat →
      ∃ t, exec .decompress s = .next t ∧ t.Completed .decompress 0x8#4 ∧ t.extraInput = decide (rest ≠ []) ∧
        t.phase = .built ∧ s.Emitted t 0 src ∧ t.srcPos.toNat = (containerOf src).length ∧
        t.freq = (sessionOf src).freq ∧ t.node = (sessionOf src).node ∧ t.tree = (sessionOf src).tree ∧
        (∀ i, (t.codeAt i).valid = false) ∧ s.SameSetup t) ∧
    (s.dstCap.toNat < src.length →
      ∃ t, exec .decompress s = .next t ∧ t.Failed .decompress 0x8#4 .dstFull s.dstCap ∧
        t.phase = .built ∧ s.Emitted t 0 (src.take s.dstCap.toNat) ∧
        t.srcPos.toNat = (sessionOf src).tableSection.length ∧
        t.freq = (sessionOf src).freq ∧ t.node = (sessionOf src).node ∧ t.tree = (sessionOf src).tree ∧
        (∀ i, (t.codeAt i).valid = false) ∧ s.SameSetup t)

/-- 45_bitstream.md R180: for every source, COMPRESS followed by DECOMPRESS of the container it wrote, into any other
range that is large enough, completes and writes exactly the source. -/
def Obligations.CompressThenDecompressIsIdentity : Prop :=
  ∀ (s t u : State) (a c : Word), s.hostWaits = true → s.SourceReady → s.DestReady → overlaps s = false →
    exec .compress s = .next t → t.err = false →
    u = { t with srcAddr := t.dstAddr, srcLen := t.dstLen, dstAddr := a, dstCap := c } →
    u.SourceReady → u.DestReady → overlaps u = false → s.srcLen.toNat ≤ c.toNat →
    ∃ v, exec .decompress u = .next v ∧ v.Completed .decompress 0x8#4 ∧ v.extraInput = false ∧
      v.dstLen = s.srcLen ∧ Memory.bytes v.mem a.toNat s.srcLen.toNat = s.srcBytes

/-! ### The whole machine -/

/-- 10_state.md R24, 20_memory.md R72: whatever the session, the operands and the host do, a command that host memory
answers and that no reset abandons (70_reset_and_hazards.md R241) completes; the only other end is the refusal of
70_reset_and_hazards.md R249 (its point is the model's, log 7). Made one access at a time or all at once, the engine's
steps come to the same (log 1): where an access leaves the command running, the run from there is the run from before it;
where it ends the command or stops, so does the run, in the same way; neither depends on the host's operations left; and a
command let through by any number of passes and then a wait ends as with the wait alone. -/
def Obligations.CommandsAlwaysComplete : Prop :=
  (∀ (i : Instr) (s : State), s.SessionOk → s.BusAnswers →
    (∃ t, runToIdle i s = .next t ∧ t.busy = false ∧ (t.done = true ∨ HostOp.reset ∈ s.host)) ∨
      runToIdle i s = .refused .dmaIntoWindow) ∧
  (∀ s t : State, s.oneAccess = .next t → t.busy = true → t.runOn = s.runOn) ∧
  (∀ s t : State, s.busy = true → s.oneAccess = .next t → t.busy = false → s.runOn = .next t) ∧
  (∀ (s : State) (r : Fault), s.oneAccess = .fault r → s.runOn = .fault r) ∧
  (∀ (s : State) (r : Refusal), s.oneAccess = .refused r → s.runOn = .refused r) ∧
  (∀ (s t : State) (h : List HostOp),
    (s.oneAccess = .next t → { s with host := h }.oneAccess = .next { t with host := h }) ∧
    (s.runOn = .next t → { s with host := h }.runOn = .next { t with host := h })) ∧
  (∀ (i : Instr) (s : State) (k : Nat),
    let passed := runToIdle i { s with host := List.replicate k .pass ++ [.wait] }
    (∀ v, exec i { s with host := [.wait] } = .next v → ∃ t, passed = .next t ∧ { t with host := [.wait] } = v) ∧
    (∀ r, exec i { s with host := [.wait] } = .fault r → passed = .fault r) ∧
    (∀ r, exec i { s with host := [.wait] } = .refused r → passed = .refused r))

/-- 10_state.md R25, R36 to R38: whatever the host does while a command runs, short of a reset, SRC_ADDR, SRC_LEN, DST_ADDR
and DST_CAP are what they were at acceptance, at every step up to completion, and so are SRC_POS and DST_LEN where the
command does not write them (what the host can do between the engine's accesses is log 1). -/
def Obligations.OperandsHoldWhileACommandRuns : Prop :=
  ∀ (i : Instr) (s u t : State) (n : Nat), HostOp.reset ∉ s.host → exec i s = .next u → u.untilIdle n = .next t →
    t.srcAddr = s.srcAddr ∧ t.srcLen = s.srcLen ∧ t.dstAddr = s.dstAddr ∧ t.dstCap = s.dstCap ∧
    (i ∉ [Instr.parse, .decodePayload, .decompress] → t.srcPos = s.srcPos) ∧
    (i.writesDest = false → t.dstLen = s.dstLen)

/-- 20_memory.md R70, R72, R82: a command changes no byte of host memory outside its destination range, and none at all
if it writes no destination; one step of the engine changes no byte but the one DST_LEN then counts last, and none where
it writes none: where it ends the command, or adds nothing to the old values kept of the bytes written (log 11). Of the
jobs (log 1) only one that has a byte to emit writes, and only that byte; a read (log 23), and an access that is refused or
not answered (log 6), leave all of memory as it was. -/
def Obligations.CommandsWriteOnlyTheirDestination : Prop :=
  (∀ (i : Instr) (s t : State), s.hostWaits = true → exec i s = .next t →
    ∀ x, (i.writesDest = true → rangeHas s.dstAddr s.dstCap x = false) →
      Memory.read t.mem x = Memory.read s.mem x) ∧
  (∀ s t : State, s.oneAccess = .next t → ∀ x, x + 1 ≠ t.dstByte → Memory.read t.mem x = Memory.read s.mem x) ∧
  (∀ s t : State, s.busy = true → s.oneAccess = .next t → t.busy = false ∨ t.undo = s.undo → t.mem = s.mem) ∧
  (∀ (j : Job) (s t : State),
    (∀ l, j.run s = .ok l t → (∀ b bs, j ≠ .emit (b :: bs)) → t.mem = s.mem) ∧
    (∀ l b bs, j = .emit (b :: bs) → j.run s = .ok l t → ∀ x, x ≠ s.dstByte → Memory.read t.mem x = Memory.read s.mem x) ∧
    (∀ e, j.run s = .error e t → t.mem = s.mem))

/-- 60_exceptions.md R216, R217: in every state `irq` is INT_STATUS.DONE_PEND AND INT_EN.DONE_IE, so an INT_STATUS write
lowers it exactly when its bit 0 is 1; after a command completes, normally or by an error, DONE_PEND is 1 (10_state.md R35)
and `irq` is INT_EN.DONE_IE, whether it completes for a host that waits from the start, by an access let through (log 1), or
for a host that waits after it has acted. -/
def Obligations.CompletionRaisesTheInterruptIfEnabled : Prop :=
  (∀ s : State, s.irq = (s.donePend && s.doneIE)) ∧
  (∀ (s : State) (v : Word), (s.hostAct (.write 0x10#8 .bits32 v)).irq = (s.irq && !v.getLsbD 0)) ∧
  (∀ (i : Instr) (s t : State), s.hostWaits = true → exec i s = .next t → t.busy = false →
    t.donePend = true ∧ t.irq = s.doneIE) ∧
  (∀ s t : State, s.busy = true → s.oneAccess = .next t ∨ s.runOn = .next t → t.busy = false →
    t.donePend = true ∧ t.irq = s.doneIE)

/-- 60_exceptions.md R211: a command that completes by an error completes by one the table gives it, for the cause and
with the ERR_INFO the table says: MALFORMED_TABLE at the first key byte that R155 of 44_table_serializer.md makes malformed
or whose pair repeats a symbol (the count bytes of such a pair being read first, so that one cut off is TRUNCATED_HEADER: log
24), TRUNCATED_PAYLOAD for a payload whose bits never come to END_OF_TEXT, BAD_CODE at the byte
that holds the first 1 bit. It leaves the session and SRC_POS as the rule of the stage that failed says
(41_frequency_counter.md R123, 44_table_serializer.md R158, 46_session_ops.md R191 to R193). -/
def Obligations.ErrorsHaveTheirCauseAndInfo : Prop :=
  ∀ (i : Instr) (s t : State), s.hostWaits = true → exec i s = .next t → t.err = true →
    s.ErrorFits t i ∧ s.ErrorLeaves t i

/-- Every step keeps host memory (20_memory.md R70) in its canonical form, which is the model's own (log 3), whatever the
host does. -/
def Obligations.StepKeepsMemoryCanonical : Prop :=
  ∀ s t : State, Memory.wf s.mem → step s = .next t → Memory.wf t.mem

/-- 10_state.md R24, R30, R40, R41, 42_tree_builder.md R132, 43_code_deriver.md R143: every step, IDLE or BUSY, whatever
the host does, keeps the machine's invariant: the flags in agreement, PHASE true to the session, END_OF_TEXT in every
table, the tree FREQ's and the codes the tree's. The clauses about the jobs left while BUSY, and about what is at rest
while IDLE (the state inside a command, the marks, the old values), are the model's own: log 1, log 15, log 12, log 11; BUSY
between steps is log 18. While reset is asserted the block is at its reset values (70_reset_and_hazards.md R240). -/
def Obligations.StepKeepsTheInvariant : Prop :=
  ∀ s t : State, s.Inv → step s = .next t → t.Inv

/-- 70_reset_and_hazards.md R240: the registers, the session and the engine after reset meet the invariant. That host
memory at reset lists nothing, and so is in canonical form, is the model's choice (log 3): R240 says only that reset has
no effect on host memory. -/
def Obligations.ResetMeetsTheInvariant : Prop :=
  State.reset.Inv ∧ Memory.wf State.reset.mem
end

