-- ==== Sys2Proof/Laws/Memory.lean ====
section
/-! SUPPORT. The laws of host memory: a write is read back, leaves every other byte alone, and keeps the canonical
form. -/

namespace Sys2Proof.Machine

theorem Memory.read_filter (m : List Host.Cell) (a x : Nat) :
    Memory.read (Memory.erase m a) x = if x = a then Memory.unlisted else Memory.read m x := by
  induction m with
  | nil => simp [Memory.erase, Memory.read]
  | cons c m ih =>
    obtain ⟨b, v⟩ := c
    simp only [Memory.erase] at ih ⊢
    by_cases hb : b = a
    · subst hb
      simp only [List.filter_cons, bne_self_eq_false, Bool.false_eq_true, if_false, ih, Memory.read]
      by_cases hx : x = b
      · simp [hx]
      · have hx' : b ≠ x := fun h => hx h.symm
        simp [hx, hx']
    · simp only [List.filter_cons, bne_iff_ne, ne_eq, hb, not_false_eq_true, if_true, Memory.read, ih]
      by_cases hx : b = x
      · subst hx; simp [hb]
      · simp [hx]

theorem Memory.read_insert (m : List Host.Cell) (a : Nat) (v : Byte) (h : ∀ c ∈ m, c.1 ≠ a) (x : Nat) :
    Memory.read (Memory.insert m a v) x = if x = a then v else Memory.read m x := by
  induction m with
  | nil =>
    simp only [Memory.insert, Memory.read]
    by_cases hx : x = a
    · rw [if_pos hx, if_pos hx.symm]
    · rw [if_neg hx, if_neg (fun h => hx h.symm)]
  | cons c m ih =>
    obtain ⟨b, w⟩ := c
    have hb : b ≠ a := h (b, w) (by simp)
    have hm : ∀ c ∈ m, c.1 ≠ a := fun c hc => h c (by simp [hc])
    simp only [Memory.insert]
    split
    · simp only [Memory.read, ih hm]
      by_cases hx : b = x
      · subst hx; simp [hb]
      · simp [hx]
    · simp only [Memory.read]
      by_cases hx : x = a
      · subst hx; simp
      · have hx' : a ≠ x := fun h => hx h.symm
        simp [hx, hx']

theorem Memory.erase_no_entry (m : List Host.Cell) (a : Nat) : ∀ c ∈ Memory.erase m a, c.1 ≠ a := by
  intro c hc
  simp only [Memory.erase, List.mem_filter, bne_iff_ne] at hc
  exact hc.2

/-- A read after a write: the byte written there, every other byte as before. -/
theorem Memory.read_write (m : List Host.Cell) (a : Nat) (v : Byte) (x : Nat) :
    Memory.read (Memory.write m a v) x = if x = a then v else Memory.read m x := by
  unfold Memory.write
  split
  · rename_i hv
    rw [Memory.read_filter, hv]
  · rw [Memory.read_insert _ _ _ (Memory.erase_no_entry m a), Memory.read_filter]
    split <;> rfl

theorem Memory.read_write_same (m : List Host.Cell) (a : Nat) (v : Byte) :
    Memory.read (Memory.write m a v) a = v := by
  simp [Memory.read_write]

theorem Memory.read_write_other (m : List Host.Cell) (a : Nat) (v : Byte) {x : Nat} (h : x ≠ a) :
    Memory.read (Memory.write m a v) x = Memory.read m x := by
  simp [Memory.read_write, h]

theorem Memory.erase_wf {m : List Host.Cell} (h : Memory.wf m) (a : Nat) : Memory.wf (Memory.erase m a) :=
  ⟨h.1.filter _, fun c hc => h.2 c (List.mem_of_mem_filter hc)⟩

theorem Memory.mem_insert (m : List Host.Cell) (a : Nat) (v : Byte) (c : Host.Cell) :
    c ∈ Memory.insert m a v ↔ c = (a, v) ∨ c ∈ m := by
  induction m with
  | nil => simp [Memory.insert]
  | cons d m ih =>
    obtain ⟨b, w⟩ := d
    simp only [Memory.insert]
    split
    · simp only [List.mem_cons, ih]; tauto
    · simp

theorem Memory.insert_wf {m : List Host.Cell} (h : Memory.wf m) (a : Nat) (v : Byte) (ha : ∀ c ∈ m, c.1 ≠ a)
    (hv : v ≠ Memory.unlisted) : Memory.wf (Memory.insert m a v) := by
  refine ⟨?_, fun c hc => ?_⟩
  · obtain ⟨hp, hd⟩ := h
    induction m with
    | nil => simp [Memory.insert]
    | cons d m ih =>
      obtain ⟨b, w⟩ := d
      rw [List.pairwise_cons] at hp
      have hb : b ≠ a := ha (b, w) (by simp)
      simp only [Memory.insert]
      split
      · rename_i hlt
        rw [List.pairwise_cons]
        refine ⟨fun c hc => ?_, ih (fun c hc => ha c (by simp [hc])) hp.2 (fun c hc => hd c (by simp [hc]))⟩
        rcases (Memory.mem_insert m a v c).1 hc with rfl | hc
        · exact hlt
        · exact hp.1 c hc
      · rename_i hge
        rw [List.pairwise_cons, List.pairwise_cons]
        refine ⟨fun c hc => ?_, hp⟩
        have hab : a < b := by omega
        rcases List.mem_cons.1 hc with rfl | hc
        · exact hab
        · exact Nat.lt_trans hab (hp.1 c hc)
  · rcases (Memory.mem_insert m a v c).1 hc with rfl | hc
    · exact hv
    · exact h.2 c hc

/-- A write keeps the canonical form. -/
theorem Memory.write_wf {m : List Host.Cell} (h : Memory.wf m) (a : Nat) (v : Byte) :
    Memory.wf (Memory.write m a v) := by
  unfold Memory.write
  split
  · exact Memory.erase_wf h a
  · rename_i hv
    exact Memory.insert_wf (Memory.erase_wf h a) a v (Memory.erase_no_entry m a) hv

theorem Memory.reset_wf : Memory.wf State.reset.mem := by
  simp [State.reset, Memory.wf]

@[simp] theorem Memory.bytes_length (m : List Host.Cell) (a n : Nat) : (Memory.bytes m a n).length = n := by
  simp [Memory.bytes]

theorem Memory.bytes_getElem (m : List Host.Cell) (a n k : Nat) (h : k < (Memory.bytes m a n).length) :
    (Memory.bytes m a n)[k] = Memory.read m (a + k) := by
  simp [Memory.bytes]

theorem Memory.bytes_succ (m : List Host.Cell) (a n : Nat) :
    Memory.bytes m a (n + 1) = Memory.read m a :: Memory.bytes m (a + 1) n := by
  simp only [Memory.bytes, List.range_succ_eq_map, List.map_cons, List.map_map, Nat.add_zero]
  congr 1
  apply List.map_congr_left
  intro k _
  simp [Nat.add_comm, Nat.add_left_comm]

theorem Memory.bytes_congr {m m' : List Host.Cell} {a n : Nat}
    (h : ∀ k, k < n → Memory.read m' (a + k) = Memory.read m (a + k)) :
    Memory.bytes m' a n = Memory.bytes m a n := by
  simp only [Memory.bytes]
  apply List.map_congr_left
  intro k hk
  exact h k (List.mem_range.1 hk)

end Sys2Proof.Machine
end

