-- ==== Sys2Proof/Laws/State.lean ====
section
/-! SUPPORT. One lemma per field of State and named update, true by rfl, so that no later proof unfolds a record
update. -/

namespace Sys2Proof.Machine.State

variable (s : State)

@[simp] theorem draw_busy : s.draw.2.busy = s.busy := rfl
@[simp] theorem draw_done : s.draw.2.done = s.done := rfl
@[simp] theorem draw_err : s.draw.2.err = s.err := rfl
@[simp] theorem draw_cmdDropped : s.draw.2.cmdDropped = s.cmdDropped := rfl
@[simp] theorem draw_phase : s.draw.2.phase = s.phase := rfl
@[simp] theorem draw_extraInput : s.draw.2.extraInput = s.extraInput := rfl
@[simp] theorem draw_errCode : s.draw.2.errCode = s.errCode := rfl
@[simp] theorem draw_cmd : s.draw.2.cmd = s.cmd := rfl
@[simp] theorem draw_stage : s.draw.2.stage = s.stage := rfl
@[simp] theorem draw_doneIE : s.draw.2.doneIE = s.doneIE := rfl
@[simp] theorem draw_donePend : s.draw.2.donePend = s.donePend := rfl
@[simp] theorem draw_srcAddr : s.draw.2.srcAddr = s.srcAddr := rfl
@[simp] theorem draw_srcLen : s.draw.2.srcLen = s.srcLen := rfl
@[simp] theorem draw_srcPos : s.draw.2.srcPos = s.srcPos := rfl
@[simp] theorem draw_dstAddr : s.draw.2.dstAddr = s.dstAddr := rfl
@[simp] theorem draw_dstCap : s.draw.2.dstCap = s.dstCap := rfl
@[simp] theorem draw_dstLen : s.draw.2.dstLen = s.dstLen := rfl
@[simp] theorem draw_errInfo : s.draw.2.errInfo = s.errInfo := rfl
@[simp] theorem draw_freqSel : s.draw.2.freqSel = s.freqSel := rfl
@[simp] theorem draw_codeSym : s.draw.2.codeSym = s.codeSym := rfl
@[simp] theorem draw_codeChunk : s.draw.2.codeChunk = s.codeChunk := rfl
@[simp] theorem draw_nodeSel : s.draw.2.nodeSel = s.nodeSel := rfl
@[simp] theorem draw_inReset : s.draw.2.inReset = s.inReset := rfl
@[simp] theorem draw_freq : s.draw.2.freq = s.freq := rfl
@[simp] theorem draw_node : s.draw.2.node = s.node := rfl
@[simp] theorem draw_tree : s.draw.2.tree = s.tree := rfl
@[simp] theorem draw_code : s.draw.2.code = s.code := rfl
@[simp] theorem draw_todo : s.draw.2.todo = s.todo := rfl
@[simp] theorem draw_queue : s.draw.2.queue = s.queue := rfl
@[simp] theorem draw_acc : s.draw.2.acc = s.acc := rfl
@[simp] theorem draw_walk : s.draw.2.walk = s.walk := rfl
@[simp] theorem draw_mem : s.draw.2.mem = s.mem := rfl
@[simp] theorem draw_host : s.draw.2.host = s.host := rfl
@[simp] theorem draw_hostData : s.draw.2.hostData = s.hostData := rfl
@[simp] theorem draw_bus : s.draw.2.bus = s.bus := rfl
@[simp] theorem draw_draws : s.draw.2.draws = s.draws + 1 := rfl
@[simp] theorem draw_srcTouched : s.draw.2.srcTouched = s.srcTouched := rfl
@[simp] theorem draw_dstTouched : s.draw.2.dstTouched = s.dstTouched := rfl
@[simp] theorem draw_undo : s.draw.2.undo = s.undo := rfl
@[simp] theorem draw_mmioBase : s.draw.2.mmioBase = s.mmioBase := rfl

@[simp] theorem store_busy (a : Nat) (v : Byte) : (s.store a v).busy = s.busy := rfl
@[simp] theorem store_done (a : Nat) (v : Byte) : (s.store a v).done = s.done := rfl
@[simp] theorem store_err (a : Nat) (v : Byte) : (s.store a v).err = s.err := rfl
@[simp] theorem store_cmdDropped (a : Nat) (v : Byte) : (s.store a v).cmdDropped = s.cmdDropped := rfl
@[simp] theorem store_phase (a : Nat) (v : Byte) : (s.store a v).phase = s.phase := rfl
@[simp] theorem store_extraInput (a : Nat) (v : Byte) : (s.store a v).extraInput = s.extraInput := rfl
@[simp] theorem store_errCode (a : Nat) (v : Byte) : (s.store a v).errCode = s.errCode := rfl
@[simp] theorem store_cmd (a : Nat) (v : Byte) : (s.store a v).cmd = s.cmd := rfl
@[simp] theorem store_stage (a : Nat) (v : Byte) : (s.store a v).stage = s.stage := rfl
@[simp] theorem store_doneIE (a : Nat) (v : Byte) : (s.store a v).doneIE = s.doneIE := rfl
@[simp] theorem store_donePend (a : Nat) (v : Byte) : (s.store a v).donePend = s.donePend := rfl
@[simp] theorem store_srcAddr (a : Nat) (v : Byte) : (s.store a v).srcAddr = s.srcAddr := rfl
@[simp] theorem store_srcLen (a : Nat) (v : Byte) : (s.store a v).srcLen = s.srcLen := rfl
@[simp] theorem store_srcPos (a : Nat) (v : Byte) : (s.store a v).srcPos = s.srcPos := rfl
@[simp] theorem store_dstAddr (a : Nat) (v : Byte) : (s.store a v).dstAddr = s.dstAddr := rfl
@[simp] theorem store_dstCap (a : Nat) (v : Byte) : (s.store a v).dstCap = s.dstCap := rfl
@[simp] theorem store_dstLen (a : Nat) (v : Byte) : (s.store a v).dstLen = s.dstLen := rfl
@[simp] theorem store_errInfo (a : Nat) (v : Byte) : (s.store a v).errInfo = s.errInfo := rfl
@[simp] theorem store_freqSel (a : Nat) (v : Byte) : (s.store a v).freqSel = s.freqSel := rfl
@[simp] theorem store_codeSym (a : Nat) (v : Byte) : (s.store a v).codeSym = s.codeSym := rfl
@[simp] theorem store_codeChunk (a : Nat) (v : Byte) : (s.store a v).codeChunk = s.codeChunk := rfl
@[simp] theorem store_nodeSel (a : Nat) (v : Byte) : (s.store a v).nodeSel = s.nodeSel := rfl
@[simp] theorem store_inReset (a : Nat) (v : Byte) : (s.store a v).inReset = s.inReset := rfl
@[simp] theorem store_freq (a : Nat) (v : Byte) : (s.store a v).freq = s.freq := rfl
@[simp] theorem store_node (a : Nat) (v : Byte) : (s.store a v).node = s.node := rfl
@[simp] theorem store_tree (a : Nat) (v : Byte) : (s.store a v).tree = s.tree := rfl
@[simp] theorem store_code (a : Nat) (v : Byte) : (s.store a v).code = s.code := rfl
@[simp] theorem store_todo (a : Nat) (v : Byte) : (s.store a v).todo = s.todo := rfl
@[simp] theorem store_queue (a : Nat) (v : Byte) : (s.store a v).queue = s.queue := rfl
@[simp] theorem store_acc (a : Nat) (v : Byte) : (s.store a v).acc = s.acc := rfl
@[simp] theorem store_walk (a : Nat) (v : Byte) : (s.store a v).walk = s.walk := rfl
@[simp] theorem store_mem (a : Nat) (v : Byte) : (s.store a v).mem = Memory.write s.mem a v := rfl
@[simp] theorem store_host (a : Nat) (v : Byte) : (s.store a v).host = s.host := rfl
@[simp] theorem store_hostData (a : Nat) (v : Byte) : (s.store a v).hostData = s.hostData := rfl
@[simp] theorem store_bus (a : Nat) (v : Byte) : (s.store a v).bus = s.bus := rfl
@[simp] theorem store_draws (a : Nat) (v : Byte) : (s.store a v).draws = s.draws := rfl
@[simp] theorem store_srcTouched (a : Nat) (v : Byte) : (s.store a v).srcTouched = s.srcTouched := rfl
@[simp] theorem store_dstTouched (a : Nat) (v : Byte) : (s.store a v).dstTouched = s.dstTouched := rfl
@[simp] theorem store_undo (a : Nat) (v : Byte) : (s.store a v).undo = s.undo := rfl
@[simp] theorem store_mmioBase (a : Nat) (v : Byte) : (s.store a v).mmioBase = s.mmioBase := rfl

@[simp] theorem setFreq_busy (i : Nat) (e : FreqEntry) : (s.setFreq i e).busy = s.busy := rfl
@[simp] theorem setFreq_done (i : Nat) (e : FreqEntry) : (s.setFreq i e).done = s.done := rfl
@[simp] theorem setFreq_err (i : Nat) (e : FreqEntry) : (s.setFreq i e).err = s.err := rfl
@[simp] theorem setFreq_cmdDropped (i : Nat) (e : FreqEntry) : (s.setFreq i e).cmdDropped = s.cmdDropped := rfl
@[simp] theorem setFreq_phase (i : Nat) (e : FreqEntry) : (s.setFreq i e).phase = s.phase := rfl
@[simp] theorem setFreq_extraInput (i : Nat) (e : FreqEntry) : (s.setFreq i e).extraInput = s.extraInput := rfl
@[simp] theorem setFreq_errCode (i : Nat) (e : FreqEntry) : (s.setFreq i e).errCode = s.errCode := rfl
@[simp] theorem setFreq_cmd (i : Nat) (e : FreqEntry) : (s.setFreq i e).cmd = s.cmd := rfl
@[simp] theorem setFreq_stage (i : Nat) (e : FreqEntry) : (s.setFreq i e).stage = s.stage := rfl
@[simp] theorem setFreq_doneIE (i : Nat) (e : FreqEntry) : (s.setFreq i e).doneIE = s.doneIE := rfl
@[simp] theorem setFreq_donePend (i : Nat) (e : FreqEntry) : (s.setFreq i e).donePend = s.donePend := rfl
@[simp] theorem setFreq_srcAddr (i : Nat) (e : FreqEntry) : (s.setFreq i e).srcAddr = s.srcAddr := rfl
@[simp] theorem setFreq_srcLen (i : Nat) (e : FreqEntry) : (s.setFreq i e).srcLen = s.srcLen := rfl
@[simp] theorem setFreq_srcPos (i : Nat) (e : FreqEntry) : (s.setFreq i e).srcPos = s.srcPos := rfl
@[simp] theorem setFreq_dstAddr (i : Nat) (e : FreqEntry) : (s.setFreq i e).dstAddr = s.dstAddr := rfl
@[simp] theorem setFreq_dstCap (i : Nat) (e : FreqEntry) : (s.setFreq i e).dstCap = s.dstCap := rfl
@[simp] theorem setFreq_dstLen (i : Nat) (e : FreqEntry) : (s.setFreq i e).dstLen = s.dstLen := rfl
@[simp] theorem setFreq_errInfo (i : Nat) (e : FreqEntry) : (s.setFreq i e).errInfo = s.errInfo := rfl
@[simp] theorem setFreq_freqSel (i : Nat) (e : FreqEntry) : (s.setFreq i e).freqSel = s.freqSel := rfl
@[simp] theorem setFreq_codeSym (i : Nat) (e : FreqEntry) : (s.setFreq i e).codeSym = s.codeSym := rfl
@[simp] theorem setFreq_codeChunk (i : Nat) (e : FreqEntry) : (s.setFreq i e).codeChunk = s.codeChunk := rfl
@[simp] theorem setFreq_nodeSel (i : Nat) (e : FreqEntry) : (s.setFreq i e).nodeSel = s.nodeSel := rfl
@[simp] theorem setFreq_inReset (i : Nat) (e : FreqEntry) : (s.setFreq i e).inReset = s.inReset := rfl
@[simp] theorem setFreq_freq (i : Nat) (e : FreqEntry) : (s.setFreq i e).freq = s.freq.setIfInBounds i e := rfl
@[simp] theorem setFreq_node (i : Nat) (e : FreqEntry) : (s.setFreq i e).node = s.node := rfl
@[simp] theorem setFreq_tree (i : Nat) (e : FreqEntry) : (s.setFreq i e).tree = s.tree := rfl
@[simp] theorem setFreq_code (i : Nat) (e : FreqEntry) : (s.setFreq i e).code = s.code := rfl
@[simp] theorem setFreq_todo (i : Nat) (e : FreqEntry) : (s.setFreq i e).todo = s.todo := rfl
@[simp] theorem setFreq_queue (i : Nat) (e : FreqEntry) : (s.setFreq i e).queue = s.queue := rfl
@[simp] theorem setFreq_acc (i : Nat) (e : FreqEntry) : (s.setFreq i e).acc = s.acc := rfl
@[simp] theorem setFreq_walk (i : Nat) (e : FreqEntry) : (s.setFreq i e).walk = s.walk := rfl
@[simp] theorem setFreq_mem (i : Nat) (e : FreqEntry) : (s.setFreq i e).mem = s.mem := rfl
@[simp] theorem setFreq_host (i : Nat) (e : FreqEntry) : (s.setFreq i e).host = s.host := rfl
@[simp] theorem setFreq_hostData (i : Nat) (e : FreqEntry) : (s.setFreq i e).hostData = s.hostData := rfl
@[simp] theorem setFreq_bus (i : Nat) (e : FreqEntry) : (s.setFreq i e).bus = s.bus := rfl
@[simp] theorem setFreq_draws (i : Nat) (e : FreqEntry) : (s.setFreq i e).draws = s.draws := rfl
@[simp] theorem setFreq_srcTouched (i : Nat) (e : FreqEntry) : (s.setFreq i e).srcTouched = s.srcTouched := rfl
@[simp] theorem setFreq_dstTouched (i : Nat) (e : FreqEntry) : (s.setFreq i e).dstTouched = s.dstTouched := rfl
@[simp] theorem setFreq_undo (i : Nat) (e : FreqEntry) : (s.setFreq i e).undo = s.undo := rfl
@[simp] theorem setFreq_mmioBase (i : Nat) (e : FreqEntry) : (s.setFreq i e).mmioBase = s.mmioBase := rfl

@[simp] theorem setNode_busy (n : Nat) (e : NodeEntry) : (s.setNode n e).busy = s.busy := rfl
@[simp] theorem setNode_done (n : Nat) (e : NodeEntry) : (s.setNode n e).done = s.done := rfl
@[simp] theorem setNode_err (n : Nat) (e : NodeEntry) : (s.setNode n e).err = s.err := rfl
@[simp] theorem setNode_cmdDropped (n : Nat) (e : NodeEntry) : (s.setNode n e).cmdDropped = s.cmdDropped := rfl
@[simp] theorem setNode_phase (n : Nat) (e : NodeEntry) : (s.setNode n e).phase = s.phase := rfl
@[simp] theorem setNode_extraInput (n : Nat) (e : NodeEntry) : (s.setNode n e).extraInput = s.extraInput := rfl
@[simp] theorem setNode_errCode (n : Nat) (e : NodeEntry) : (s.setNode n e).errCode = s.errCode := rfl
@[simp] theorem setNode_cmd (n : Nat) (e : NodeEntry) : (s.setNode n e).cmd = s.cmd := rfl
@[simp] theorem setNode_stage (n : Nat) (e : NodeEntry) : (s.setNode n e).stage = s.stage := rfl
@[simp] theorem setNode_doneIE (n : Nat) (e : NodeEntry) : (s.setNode n e).doneIE = s.doneIE := rfl
@[simp] theorem setNode_donePend (n : Nat) (e : NodeEntry) : (s.setNode n e).donePend = s.donePend := rfl
@[simp] theorem setNode_srcAddr (n : Nat) (e : NodeEntry) : (s.setNode n e).srcAddr = s.srcAddr := rfl
@[simp] theorem setNode_srcLen (n : Nat) (e : NodeEntry) : (s.setNode n e).srcLen = s.srcLen := rfl
@[simp] theorem setNode_srcPos (n : Nat) (e : NodeEntry) : (s.setNode n e).srcPos = s.srcPos := rfl
@[simp] theorem setNode_dstAddr (n : Nat) (e : NodeEntry) : (s.setNode n e).dstAddr = s.dstAddr := rfl
@[simp] theorem setNode_dstCap (n : Nat) (e : NodeEntry) : (s.setNode n e).dstCap = s.dstCap := rfl
@[simp] theorem setNode_dstLen (n : Nat) (e : NodeEntry) : (s.setNode n e).dstLen = s.dstLen := rfl
@[simp] theorem setNode_errInfo (n : Nat) (e : NodeEntry) : (s.setNode n e).errInfo = s.errInfo := rfl
@[simp] theorem setNode_freqSel (n : Nat) (e : NodeEntry) : (s.setNode n e).freqSel = s.freqSel := rfl
@[simp] theorem setNode_codeSym (n : Nat) (e : NodeEntry) : (s.setNode n e).codeSym = s.codeSym := rfl
@[simp] theorem setNode_codeChunk (n : Nat) (e : NodeEntry) : (s.setNode n e).codeChunk = s.codeChunk := rfl
@[simp] theorem setNode_nodeSel (n : Nat) (e : NodeEntry) : (s.setNode n e).nodeSel = s.nodeSel := rfl
@[simp] theorem setNode_inReset (n : Nat) (e : NodeEntry) : (s.setNode n e).inReset = s.inReset := rfl
@[simp] theorem setNode_freq (n : Nat) (e : NodeEntry) : (s.setNode n e).freq = s.freq := rfl
@[simp] theorem setNode_node (n : Nat) (e : NodeEntry) : (s.setNode n e).node = s.node.setIfInBounds n e := rfl
@[simp] theorem setNode_tree (n : Nat) (e : NodeEntry) : (s.setNode n e).tree = s.tree := rfl
@[simp] theorem setNode_code (n : Nat) (e : NodeEntry) : (s.setNode n e).code = s.code := rfl
@[simp] theorem setNode_todo (n : Nat) (e : NodeEntry) : (s.setNode n e).todo = s.todo := rfl
@[simp] theorem setNode_queue (n : Nat) (e : NodeEntry) : (s.setNode n e).queue = s.queue := rfl
@[simp] theorem setNode_acc (n : Nat) (e : NodeEntry) : (s.setNode n e).acc = s.acc := rfl
@[simp] theorem setNode_walk (n : Nat) (e : NodeEntry) : (s.setNode n e).walk = s.walk := rfl
@[simp] theorem setNode_mem (n : Nat) (e : NodeEntry) : (s.setNode n e).mem = s.mem := rfl
@[simp] theorem setNode_host (n : Nat) (e : NodeEntry) : (s.setNode n e).host = s.host := rfl
@[simp] theorem setNode_hostData (n : Nat) (e : NodeEntry) : (s.setNode n e).hostData = s.hostData := rfl
@[simp] theorem setNode_bus (n : Nat) (e : NodeEntry) : (s.setNode n e).bus = s.bus := rfl
@[simp] theorem setNode_draws (n : Nat) (e : NodeEntry) : (s.setNode n e).draws = s.draws := rfl
@[simp] theorem setNode_srcTouched (n : Nat) (e : NodeEntry) : (s.setNode n e).srcTouched = s.srcTouched := rfl
@[simp] theorem setNode_dstTouched (n : Nat) (e : NodeEntry) : (s.setNode n e).dstTouched = s.dstTouched := rfl
@[simp] theorem setNode_undo (n : Nat) (e : NodeEntry) : (s.setNode n e).undo = s.undo := rfl
@[simp] theorem setNode_mmioBase (n : Nat) (e : NodeEntry) : (s.setNode n e).mmioBase = s.mmioBase := rfl

@[simp] theorem setCode_busy (i : Nat) (e : CodeEntry) : (s.setCode i e).busy = s.busy := rfl
@[simp] theorem setCode_done (i : Nat) (e : CodeEntry) : (s.setCode i e).done = s.done := rfl
@[simp] theorem setCode_err (i : Nat) (e : CodeEntry) : (s.setCode i e).err = s.err := rfl
@[simp] theorem setCode_cmdDropped (i : Nat) (e : CodeEntry) : (s.setCode i e).cmdDropped = s.cmdDropped := rfl
@[simp] theorem setCode_phase (i : Nat) (e : CodeEntry) : (s.setCode i e).phase = s.phase := rfl
@[simp] theorem setCode_extraInput (i : Nat) (e : CodeEntry) : (s.setCode i e).extraInput = s.extraInput := rfl
@[simp] theorem setCode_errCode (i : Nat) (e : CodeEntry) : (s.setCode i e).errCode = s.errCode := rfl
@[simp] theorem setCode_cmd (i : Nat) (e : CodeEntry) : (s.setCode i e).cmd = s.cmd := rfl
@[simp] theorem setCode_stage (i : Nat) (e : CodeEntry) : (s.setCode i e).stage = s.stage := rfl
@[simp] theorem setCode_doneIE (i : Nat) (e : CodeEntry) : (s.setCode i e).doneIE = s.doneIE := rfl
@[simp] theorem setCode_donePend (i : Nat) (e : CodeEntry) : (s.setCode i e).donePend = s.donePend := rfl
@[simp] theorem setCode_srcAddr (i : Nat) (e : CodeEntry) : (s.setCode i e).srcAddr = s.srcAddr := rfl
@[simp] theorem setCode_srcLen (i : Nat) (e : CodeEntry) : (s.setCode i e).srcLen = s.srcLen := rfl
@[simp] theorem setCode_srcPos (i : Nat) (e : CodeEntry) : (s.setCode i e).srcPos = s.srcPos := rfl
@[simp] theorem setCode_dstAddr (i : Nat) (e : CodeEntry) : (s.setCode i e).dstAddr = s.dstAddr := rfl
@[simp] theorem setCode_dstCap (i : Nat) (e : CodeEntry) : (s.setCode i e).dstCap = s.dstCap := rfl
@[simp] theorem setCode_dstLen (i : Nat) (e : CodeEntry) : (s.setCode i e).dstLen = s.dstLen := rfl
@[simp] theorem setCode_errInfo (i : Nat) (e : CodeEntry) : (s.setCode i e).errInfo = s.errInfo := rfl
@[simp] theorem setCode_freqSel (i : Nat) (e : CodeEntry) : (s.setCode i e).freqSel = s.freqSel := rfl
@[simp] theorem setCode_codeSym (i : Nat) (e : CodeEntry) : (s.setCode i e).codeSym = s.codeSym := rfl
@[simp] theorem setCode_codeChunk (i : Nat) (e : CodeEntry) : (s.setCode i e).codeChunk = s.codeChunk := rfl
@[simp] theorem setCode_nodeSel (i : Nat) (e : CodeEntry) : (s.setCode i e).nodeSel = s.nodeSel := rfl
@[simp] theorem setCode_inReset (i : Nat) (e : CodeEntry) : (s.setCode i e).inReset = s.inReset := rfl
@[simp] theorem setCode_freq (i : Nat) (e : CodeEntry) : (s.setCode i e).freq = s.freq := rfl
@[simp] theorem setCode_node (i : Nat) (e : CodeEntry) : (s.setCode i e).node = s.node := rfl
@[simp] theorem setCode_tree (i : Nat) (e : CodeEntry) : (s.setCode i e).tree = s.tree := rfl
@[simp] theorem setCode_code (i : Nat) (e : CodeEntry) : (s.setCode i e).code = s.code.setIfInBounds i e := rfl
@[simp] theorem setCode_todo (i : Nat) (e : CodeEntry) : (s.setCode i e).todo = s.todo := rfl
@[simp] theorem setCode_queue (i : Nat) (e : CodeEntry) : (s.setCode i e).queue = s.queue := rfl
@[simp] theorem setCode_acc (i : Nat) (e : CodeEntry) : (s.setCode i e).acc = s.acc := rfl
@[simp] theorem setCode_walk (i : Nat) (e : CodeEntry) : (s.setCode i e).walk = s.walk := rfl
@[simp] theorem setCode_mem (i : Nat) (e : CodeEntry) : (s.setCode i e).mem = s.mem := rfl
@[simp] theorem setCode_host (i : Nat) (e : CodeEntry) : (s.setCode i e).host = s.host := rfl
@[simp] theorem setCode_hostData (i : Nat) (e : CodeEntry) : (s.setCode i e).hostData = s.hostData := rfl
@[simp] theorem setCode_bus (i : Nat) (e : CodeEntry) : (s.setCode i e).bus = s.bus := rfl
@[simp] theorem setCode_draws (i : Nat) (e : CodeEntry) : (s.setCode i e).draws = s.draws := rfl
@[simp] theorem setCode_srcTouched (i : Nat) (e : CodeEntry) : (s.setCode i e).srcTouched = s.srcTouched := rfl
@[simp] theorem setCode_dstTouched (i : Nat) (e : CodeEntry) : (s.setCode i e).dstTouched = s.dstTouched := rfl
@[simp] theorem setCode_undo (i : Nat) (e : CodeEntry) : (s.setCode i e).undo = s.undo := rfl
@[simp] theorem setCode_mmioBase (i : Nat) (e : CodeEntry) : (s.setCode i e).mmioBase = s.mmioBase := rfl

@[simp] theorem sessionClear_busy : s.sessionClear.busy = s.busy := rfl
@[simp] theorem sessionClear_done : s.sessionClear.done = s.done := rfl
@[simp] theorem sessionClear_err : s.sessionClear.err = s.err := rfl
@[simp] theorem sessionClear_cmdDropped : s.sessionClear.cmdDropped = s.cmdDropped := rfl
@[simp] theorem sessionClear_phase : s.sessionClear.phase = .empty := rfl
@[simp] theorem sessionClear_extraInput : s.sessionClear.extraInput = s.extraInput := rfl
@[simp] theorem sessionClear_errCode : s.sessionClear.errCode = s.errCode := rfl
@[simp] theorem sessionClear_cmd : s.sessionClear.cmd = s.cmd := rfl
@[simp] theorem sessionClear_stage : s.sessionClear.stage = s.stage := rfl
@[simp] theorem sessionClear_doneIE : s.sessionClear.doneIE = s.doneIE := rfl
@[simp] theorem sessionClear_donePend : s.sessionClear.donePend = s.donePend := rfl
@[simp] theorem sessionClear_srcAddr : s.sessionClear.srcAddr = s.srcAddr := rfl
@[simp] theorem sessionClear_srcLen : s.sessionClear.srcLen = s.srcLen := rfl
@[simp] theorem sessionClear_srcPos : s.sessionClear.srcPos = s.srcPos := rfl
@[simp] theorem sessionClear_dstAddr : s.sessionClear.dstAddr = s.dstAddr := rfl
@[simp] theorem sessionClear_dstCap : s.sessionClear.dstCap = s.dstCap := rfl
@[simp] theorem sessionClear_dstLen : s.sessionClear.dstLen = s.dstLen := rfl
@[simp] theorem sessionClear_errInfo : s.sessionClear.errInfo = s.errInfo := rfl
@[simp] theorem sessionClear_freqSel : s.sessionClear.freqSel = s.freqSel := rfl
@[simp] theorem sessionClear_codeSym : s.sessionClear.codeSym = s.codeSym := rfl
@[simp] theorem sessionClear_codeChunk : s.sessionClear.codeChunk = s.codeChunk := rfl
@[simp] theorem sessionClear_nodeSel : s.sessionClear.nodeSel = s.nodeSel := rfl
@[simp] theorem sessionClear_inReset : s.sessionClear.inReset = s.inReset := rfl
@[simp] theorem sessionClear_freq : s.sessionClear.freq = Vector.replicate 257 FreqEntry.absent := rfl
@[simp] theorem sessionClear_node : s.sessionClear.node = Vector.replicate 513 NodeEntry.absent := rfl
@[simp] theorem sessionClear_tree : s.sessionClear.tree = TreeReg.absent := rfl
@[simp] theorem sessionClear_code : s.sessionClear.code = Vector.replicate 257 CodeEntry.absent := rfl
@[simp] theorem sessionClear_todo : s.sessionClear.todo = s.todo := rfl
@[simp] theorem sessionClear_queue : s.sessionClear.queue = s.queue := rfl
@[simp] theorem sessionClear_acc : s.sessionClear.acc = s.acc := rfl
@[simp] theorem sessionClear_walk : s.sessionClear.walk = s.walk := rfl
@[simp] theorem sessionClear_mem : s.sessionClear.mem = s.mem := rfl
@[simp] theorem sessionClear_host : s.sessionClear.host = s.host := rfl
@[simp] theorem sessionClear_hostData : s.sessionClear.hostData = s.hostData := rfl
@[simp] theorem sessionClear_bus : s.sessionClear.bus = s.bus := rfl
@[simp] theorem sessionClear_draws : s.sessionClear.draws = s.draws := rfl
@[simp] theorem sessionClear_srcTouched : s.sessionClear.srcTouched = s.srcTouched := rfl
@[simp] theorem sessionClear_dstTouched : s.sessionClear.dstTouched = s.dstTouched := rfl
@[simp] theorem sessionClear_undo : s.sessionClear.undo = s.undo := rfl
@[simp] theorem sessionClear_mmioBase : s.sessionClear.mmioBase = s.mmioBase := rfl

@[simp] theorem accept_busy (w : Word) : (s.accept w).busy = true := rfl
@[simp] theorem accept_done (w : Word) : (s.accept w).done = false := rfl
@[simp] theorem accept_err (w : Word) : (s.accept w).err = false := rfl
@[simp] theorem accept_cmdDropped (w : Word) : (s.accept w).cmdDropped = false := rfl
@[simp] theorem accept_phase (w : Word) : (s.accept w).phase = s.phase := rfl
@[simp] theorem accept_extraInput (w : Word) : (s.accept w).extraInput = false := rfl
@[simp] theorem accept_errCode (w : Word) : (s.accept w).errCode = .none := rfl
@[simp] theorem accept_cmd (w : Word) : (s.accept w).cmd = w.extractLsb' 0 4 := rfl
@[simp] theorem accept_stage (w : Word) : (s.accept w).stage = stageOfWord w := rfl
@[simp] theorem accept_doneIE (w : Word) : (s.accept w).doneIE = s.doneIE := rfl
@[simp] theorem accept_donePend (w : Word) : (s.accept w).donePend = s.donePend := rfl
@[simp] theorem accept_srcAddr (w : Word) : (s.accept w).srcAddr = s.srcAddr := rfl
@[simp] theorem accept_srcLen (w : Word) : (s.accept w).srcLen = s.srcLen := rfl
@[simp] theorem accept_srcPos (w : Word) : (s.accept w).srcPos = s.srcPos := rfl
@[simp] theorem accept_dstAddr (w : Word) : (s.accept w).dstAddr = s.dstAddr := rfl
@[simp] theorem accept_dstCap (w : Word) : (s.accept w).dstCap = s.dstCap := rfl
@[simp] theorem accept_dstLen (w : Word) : (s.accept w).dstLen = s.dstLen := rfl
@[simp] theorem accept_errInfo (w : Word) : (s.accept w).errInfo = 0#32 := rfl
@[simp] theorem accept_freqSel (w : Word) : (s.accept w).freqSel = s.freqSel := rfl
@[simp] theorem accept_codeSym (w : Word) : (s.accept w).codeSym = s.codeSym := rfl
@[simp] theorem accept_codeChunk (w : Word) : (s.accept w).codeChunk = s.codeChunk := rfl
@[simp] theorem accept_nodeSel (w : Word) : (s.accept w).nodeSel = s.nodeSel := rfl
@[simp] theorem accept_inReset (w : Word) : (s.accept w).inReset = s.inReset := rfl
@[simp] theorem accept_freq (w : Word) : (s.accept w).freq = s.freq := rfl
@[simp] theorem accept_node (w : Word) : (s.accept w).node = s.node := rfl
@[simp] theorem accept_tree (w : Word) : (s.accept w).tree = s.tree := rfl
@[simp] theorem accept_code (w : Word) : (s.accept w).code = s.code := rfl
@[simp] theorem accept_todo (w : Word) : (s.accept w).todo = [] := rfl
@[simp] theorem accept_queue (w : Word) : (s.accept w).queue = [] := rfl
@[simp] theorem accept_acc (w : Word) : (s.accept w).acc = [] := rfl
@[simp] theorem accept_walk (w : Word) : (s.accept w).walk = Walk.atRest := rfl
@[simp] theorem accept_mem (w : Word) : (s.accept w).mem = s.mem := rfl
@[simp] theorem accept_host (w : Word) : (s.accept w).host = s.host := rfl
@[simp] theorem accept_hostData (w : Word) : (s.accept w).hostData = s.hostData := rfl
@[simp] theorem accept_bus (w : Word) : (s.accept w).bus = s.bus := rfl
@[simp] theorem accept_draws (w : Word) : (s.accept w).draws = s.draws := rfl
@[simp] theorem accept_srcTouched (w : Word) : (s.accept w).srcTouched = [] := rfl
@[simp] theorem accept_dstTouched (w : Word) : (s.accept w).dstTouched = [] := rfl
@[simp] theorem accept_undo (w : Word) : (s.accept w).undo = [] := rfl
@[simp] theorem accept_mmioBase (w : Word) : (s.accept w).mmioBase = s.mmioBase := rfl

@[simp] theorem finish_busy : s.finish.busy = false := rfl
@[simp] theorem finish_done : s.finish.done = true := rfl
@[simp] theorem finish_err : s.finish.err = s.err := rfl
@[simp] theorem finish_cmdDropped : s.finish.cmdDropped = s.cmdDropped := rfl
@[simp] theorem finish_phase : s.finish.phase = s.phase := rfl
@[simp] theorem finish_extraInput : s.finish.extraInput = s.extraInput := rfl
@[simp] theorem finish_errCode : s.finish.errCode = s.errCode := rfl
@[simp] theorem finish_cmd : s.finish.cmd = s.cmd := rfl
@[simp] theorem finish_stage : s.finish.stage = s.stage := rfl
@[simp] theorem finish_doneIE : s.finish.doneIE = s.doneIE := rfl
@[simp] theorem finish_donePend : s.finish.donePend = true := rfl
@[simp] theorem finish_srcAddr : s.finish.srcAddr = s.srcAddr := rfl
@[simp] theorem finish_srcLen : s.finish.srcLen = s.srcLen := rfl
@[simp] theorem finish_srcPos : s.finish.srcPos = s.srcPos := rfl
@[simp] theorem finish_dstAddr : s.finish.dstAddr = s.dstAddr := rfl
@[simp] theorem finish_dstCap : s.finish.dstCap = s.dstCap := rfl
@[simp] theorem finish_dstLen : s.finish.dstLen = s.dstLen := rfl
@[simp] theorem finish_errInfo : s.finish.errInfo = s.errInfo := rfl
@[simp] theorem finish_freqSel : s.finish.freqSel = s.freqSel := rfl
@[simp] theorem finish_codeSym : s.finish.codeSym = s.codeSym := rfl
@[simp] theorem finish_codeChunk : s.finish.codeChunk = s.codeChunk := rfl
@[simp] theorem finish_nodeSel : s.finish.nodeSel = s.nodeSel := rfl
@[simp] theorem finish_inReset : s.finish.inReset = s.inReset := rfl
@[simp] theorem finish_freq : s.finish.freq = s.freq := rfl
@[simp] theorem finish_node : s.finish.node = s.node := rfl
@[simp] theorem finish_tree : s.finish.tree = s.tree := rfl
@[simp] theorem finish_code : s.finish.code = s.code := rfl
@[simp] theorem finish_todo : s.finish.todo = [] := rfl
@[simp] theorem finish_queue : s.finish.queue = [] := rfl
@[simp] theorem finish_acc : s.finish.acc = [] := rfl
@[simp] theorem finish_walk : s.finish.walk = Walk.atRest := rfl
@[simp] theorem finish_mem : s.finish.mem = s.mem := rfl
@[simp] theorem finish_host : s.finish.host = s.host := rfl
@[simp] theorem finish_hostData : s.finish.hostData = s.hostData := rfl
@[simp] theorem finish_bus : s.finish.bus = s.bus := rfl
@[simp] theorem finish_draws : s.finish.draws = s.draws := rfl
@[simp] theorem finish_srcTouched : s.finish.srcTouched = [] := rfl
@[simp] theorem finish_dstTouched : s.finish.dstTouched = [] := rfl
@[simp] theorem finish_undo : s.finish.undo = [] := rfl
@[simp] theorem finish_mmioBase : s.finish.mmioBase = s.mmioBase := rfl

@[simp] theorem finishError_busy (c : ErrCode) (info : Word) : (s.finishError c info).busy = false := rfl
@[simp] theorem finishError_done (c : ErrCode) (info : Word) : (s.finishError c info).done = true := rfl
@[simp] theorem finishError_err (c : ErrCode) (info : Word) : (s.finishError c info).err = true := rfl
@[simp] theorem finishError_cmdDropped (c : ErrCode) (info : Word) : (s.finishError c info).cmdDropped = s.cmdDropped := rfl
@[simp] theorem finishError_phase (c : ErrCode) (info : Word) : (s.finishError c info).phase = s.phase := rfl
@[simp] theorem finishError_extraInput (c : ErrCode) (info : Word) : (s.finishError c info).extraInput = s.extraInput := rfl
@[simp] theorem finishError_errCode (c : ErrCode) (info : Word) : (s.finishError c info).errCode = c := rfl
@[simp] theorem finishError_cmd (c : ErrCode) (info : Word) : (s.finishError c info).cmd = s.cmd := rfl
@[simp] theorem finishError_stage (c : ErrCode) (info : Word) : (s.finishError c info).stage = s.stage := rfl
@[simp] theorem finishError_doneIE (c : ErrCode) (info : Word) : (s.finishError c info).doneIE = s.doneIE := rfl
@[simp] theorem finishError_donePend (c : ErrCode) (info : Word) : (s.finishError c info).donePend = true := rfl
@[simp] theorem finishError_srcAddr (c : ErrCode) (info : Word) : (s.finishError c info).srcAddr = s.srcAddr := rfl
@[simp] theorem finishError_srcLen (c : ErrCode) (info : Word) : (s.finishError c info).srcLen = s.srcLen := rfl
@[simp] theorem finishError_srcPos (c : ErrCode) (info : Word) : (s.finishError c info).srcPos = s.srcPos := rfl
@[simp] theorem finishError_dstAddr (c : ErrCode) (info : Word) : (s.finishError c info).dstAddr = s.dstAddr := rfl
@[simp] theorem finishError_dstCap (c : ErrCode) (info : Word) : (s.finishError c info).dstCap = s.dstCap := rfl
@[simp] theorem finishError_dstLen (c : ErrCode) (info : Word) : (s.finishError c info).dstLen = s.dstLen := rfl
@[simp] theorem finishError_errInfo (c : ErrCode) (info : Word) : (s.finishError c info).errInfo = info := rfl
@[simp] theorem finishError_freqSel (c : ErrCode) (info : Word) : (s.finishError c info).freqSel = s.freqSel := rfl
@[simp] theorem finishError_codeSym (c : ErrCode) (info : Word) : (s.finishError c info).codeSym = s.codeSym := rfl
@[simp] theorem finishError_codeChunk (c : ErrCode) (info : Word) : (s.finishError c info).codeChunk = s.codeChunk := rfl
@[simp] theorem finishError_nodeSel (c : ErrCode) (info : Word) : (s.finishError c info).nodeSel = s.nodeSel := rfl
@[simp] theorem finishError_inReset (c : ErrCode) (info : Word) : (s.finishError c info).inReset = s.inReset := rfl
@[simp] theorem finishError_freq (c : ErrCode) (info : Word) : (s.finishError c info).freq = s.freq := rfl
@[simp] theorem finishError_node (c : ErrCode) (info : Word) : (s.finishError c info).node = s.node := rfl
@[simp] theorem finishError_tree (c : ErrCode) (info : Word) : (s.finishError c info).tree = s.tree := rfl
@[simp] theorem finishError_code (c : ErrCode) (info : Word) : (s.finishError c info).code = s.code := rfl
@[simp] theorem finishError_todo (c : ErrCode) (info : Word) : (s.finishError c info).todo = [] := rfl
@[simp] theorem finishError_queue (c : ErrCode) (info : Word) : (s.finishError c info).queue = [] := rfl
@[simp] theorem finishError_acc (c : ErrCode) (info : Word) : (s.finishError c info).acc = [] := rfl
@[simp] theorem finishError_walk (c : ErrCode) (info : Word) : (s.finishError c info).walk = Walk.atRest := rfl
@[simp] theorem finishError_mem (c : ErrCode) (info : Word) : (s.finishError c info).mem = s.mem := rfl
@[simp] theorem finishError_host (c : ErrCode) (info : Word) : (s.finishError c info).host = s.host := rfl
@[simp] theorem finishError_hostData (c : ErrCode) (info : Word) : (s.finishError c info).hostData = s.hostData := rfl
@[simp] theorem finishError_bus (c : ErrCode) (info : Word) : (s.finishError c info).bus = s.bus := rfl
@[simp] theorem finishError_draws (c : ErrCode) (info : Word) : (s.finishError c info).draws = s.draws := rfl
@[simp] theorem finishError_srcTouched (c : ErrCode) (info : Word) : (s.finishError c info).srcTouched = [] := rfl
@[simp] theorem finishError_dstTouched (c : ErrCode) (info : Word) : (s.finishError c info).dstTouched = [] := rfl
@[simp] theorem finishError_undo (c : ErrCode) (info : Word) : (s.finishError c info).undo = [] := rfl
@[simp] theorem finishError_mmioBase (c : ErrCode) (info : Word) : (s.finishError c info).mmioBase = s.mmioBase := rfl

@[simp] theorem setStage_busy (i : Instr) : (s.setStage i).busy = s.busy := rfl
@[simp] theorem setStage_done (i : Instr) : (s.setStage i).done = s.done := rfl
@[simp] theorem setStage_err (i : Instr) : (s.setStage i).err = s.err := rfl
@[simp] theorem setStage_cmdDropped (i : Instr) : (s.setStage i).cmdDropped = s.cmdDropped := rfl
@[simp] theorem setStage_phase (i : Instr) : (s.setStage i).phase = s.phase := rfl
@[simp] theorem setStage_extraInput (i : Instr) : (s.setStage i).extraInput = s.extraInput := rfl
@[simp] theorem setStage_errCode (i : Instr) : (s.setStage i).errCode = s.errCode := rfl
@[simp] theorem setStage_cmd (i : Instr) : (s.setStage i).cmd = s.cmd := rfl
@[simp] theorem setStage_stage (i : Instr) : (s.setStage i).stage = i.opcode := rfl
@[simp] theorem setStage_doneIE (i : Instr) : (s.setStage i).doneIE = s.doneIE := rfl
@[simp] theorem setStage_donePend (i : Instr) : (s.setStage i).donePend = s.donePend := rfl
@[simp] theorem setStage_srcAddr (i : Instr) : (s.setStage i).srcAddr = s.srcAddr := rfl
@[simp] theorem setStage_srcLen (i : Instr) : (s.setStage i).srcLen = s.srcLen := rfl
@[simp] theorem setStage_srcPos (i : Instr) : (s.setStage i).srcPos = s.srcPos := rfl
@[simp] theorem setStage_dstAddr (i : Instr) : (s.setStage i).dstAddr = s.dstAddr := rfl
@[simp] theorem setStage_dstCap (i : Instr) : (s.setStage i).dstCap = s.dstCap := rfl
@[simp] theorem setStage_dstLen (i : Instr) : (s.setStage i).dstLen = s.dstLen := rfl
@[simp] theorem setStage_errInfo (i : Instr) : (s.setStage i).errInfo = s.errInfo := rfl
@[simp] theorem setStage_freqSel (i : Instr) : (s.setStage i).freqSel = s.freqSel := rfl
@[simp] theorem setStage_codeSym (i : Instr) : (s.setStage i).codeSym = s.codeSym := rfl
@[simp] theorem setStage_codeChunk (i : Instr) : (s.setStage i).codeChunk = s.codeChunk := rfl
@[simp] theorem setStage_nodeSel (i : Instr) : (s.setStage i).nodeSel = s.nodeSel := rfl
@[simp] theorem setStage_inReset (i : Instr) : (s.setStage i).inReset = s.inReset := rfl
@[simp] theorem setStage_freq (i : Instr) : (s.setStage i).freq = s.freq := rfl
@[simp] theorem setStage_node (i : Instr) : (s.setStage i).node = s.node := rfl
@[simp] theorem setStage_tree (i : Instr) : (s.setStage i).tree = s.tree := rfl
@[simp] theorem setStage_code (i : Instr) : (s.setStage i).code = s.code := rfl
@[simp] theorem setStage_todo (i : Instr) : (s.setStage i).todo = s.todo := rfl
@[simp] theorem setStage_queue (i : Instr) : (s.setStage i).queue = s.queue := rfl
@[simp] theorem setStage_acc (i : Instr) : (s.setStage i).acc = s.acc := rfl
@[simp] theorem setStage_walk (i : Instr) : (s.setStage i).walk = s.walk := rfl
@[simp] theorem setStage_mem (i : Instr) : (s.setStage i).mem = s.mem := rfl
@[simp] theorem setStage_host (i : Instr) : (s.setStage i).host = s.host := rfl
@[simp] theorem setStage_hostData (i : Instr) : (s.setStage i).hostData = s.hostData := rfl
@[simp] theorem setStage_bus (i : Instr) : (s.setStage i).bus = s.bus := rfl
@[simp] theorem setStage_draws (i : Instr) : (s.setStage i).draws = s.draws := rfl
@[simp] theorem setStage_srcTouched (i : Instr) : (s.setStage i).srcTouched = s.srcTouched := rfl
@[simp] theorem setStage_dstTouched (i : Instr) : (s.setStage i).dstTouched = s.dstTouched := rfl
@[simp] theorem setStage_undo (i : Instr) : (s.setStage i).undo = s.undo := rfl
@[simp] theorem setStage_mmioBase (i : Instr) : (s.setStage i).mmioBase = s.mmioBase := rfl

@[simp] theorem give_busy (v : Word) : (s.give v).busy = s.busy := rfl
@[simp] theorem give_done (v : Word) : (s.give v).done = s.done := rfl
@[simp] theorem give_err (v : Word) : (s.give v).err = s.err := rfl
@[simp] theorem give_cmdDropped (v : Word) : (s.give v).cmdDropped = s.cmdDropped := rfl
@[simp] theorem give_phase (v : Word) : (s.give v).phase = s.phase := rfl
@[simp] theorem give_extraInput (v : Word) : (s.give v).extraInput = s.extraInput := rfl
@[simp] theorem give_errCode (v : Word) : (s.give v).errCode = s.errCode := rfl
@[simp] theorem give_cmd (v : Word) : (s.give v).cmd = s.cmd := rfl
@[simp] theorem give_stage (v : Word) : (s.give v).stage = s.stage := rfl
@[simp] theorem give_doneIE (v : Word) : (s.give v).doneIE = s.doneIE := rfl
@[simp] theorem give_donePend (v : Word) : (s.give v).donePend = s.donePend := rfl
@[simp] theorem give_srcAddr (v : Word) : (s.give v).srcAddr = s.srcAddr := rfl
@[simp] theorem give_srcLen (v : Word) : (s.give v).srcLen = s.srcLen := rfl
@[simp] theorem give_srcPos (v : Word) : (s.give v).srcPos = s.srcPos := rfl
@[simp] theorem give_dstAddr (v : Word) : (s.give v).dstAddr = s.dstAddr := rfl
@[simp] theorem give_dstCap (v : Word) : (s.give v).dstCap = s.dstCap := rfl
@[simp] theorem give_dstLen (v : Word) : (s.give v).dstLen = s.dstLen := rfl
@[simp] theorem give_errInfo (v : Word) : (s.give v).errInfo = s.errInfo := rfl
@[simp] theorem give_freqSel (v : Word) : (s.give v).freqSel = s.freqSel := rfl
@[simp] theorem give_codeSym (v : Word) : (s.give v).codeSym = s.codeSym := rfl
@[simp] theorem give_codeChunk (v : Word) : (s.give v).codeChunk = s.codeChunk := rfl
@[simp] theorem give_nodeSel (v : Word) : (s.give v).nodeSel = s.nodeSel := rfl
@[simp] theorem give_inReset (v : Word) : (s.give v).inReset = s.inReset := rfl
@[simp] theorem give_freq (v : Word) : (s.give v).freq = s.freq := rfl
@[simp] theorem give_node (v : Word) : (s.give v).node = s.node := rfl
@[simp] theorem give_tree (v : Word) : (s.give v).tree = s.tree := rfl
@[simp] theorem give_code (v : Word) : (s.give v).code = s.code := rfl
@[simp] theorem give_todo (v : Word) : (s.give v).todo = s.todo := rfl
@[simp] theorem give_queue (v : Word) : (s.give v).queue = s.queue := rfl
@[simp] theorem give_acc (v : Word) : (s.give v).acc = s.acc := rfl
@[simp] theorem give_walk (v : Word) : (s.give v).walk = s.walk := rfl
@[simp] theorem give_mem (v : Word) : (s.give v).mem = s.mem := rfl
@[simp] theorem give_host (v : Word) : (s.give v).host = s.host := rfl
@[simp] theorem give_hostData (v : Word) : (s.give v).hostData = v :: s.hostData := rfl
@[simp] theorem give_bus (v : Word) : (s.give v).bus = s.bus := rfl
@[simp] theorem give_draws (v : Word) : (s.give v).draws = s.draws := rfl
@[simp] theorem give_srcTouched (v : Word) : (s.give v).srcTouched = s.srcTouched := rfl
@[simp] theorem give_dstTouched (v : Word) : (s.give v).dstTouched = s.dstTouched := rfl
@[simp] theorem give_undo (v : Word) : (s.give v).undo = s.undo := rfl
@[simp] theorem give_mmioBase (v : Word) : (s.give v).mmioBase = s.mmioBase := rfl

@[simp] theorem setAnswer_busy (a : Nat) (r w : BusReply) : (s.setAnswer a r w).busy = s.busy := rfl
@[simp] theorem setAnswer_done (a : Nat) (r w : BusReply) : (s.setAnswer a r w).done = s.done := rfl
@[simp] theorem setAnswer_err (a : Nat) (r w : BusReply) : (s.setAnswer a r w).err = s.err := rfl
@[simp] theorem setAnswer_cmdDropped (a : Nat) (r w : BusReply) : (s.setAnswer a r w).cmdDropped = s.cmdDropped := rfl
@[simp] theorem setAnswer_phase (a : Nat) (r w : BusReply) : (s.setAnswer a r w).phase = s.phase := rfl
@[simp] theorem setAnswer_extraInput (a : Nat) (r w : BusReply) : (s.setAnswer a r w).extraInput = s.extraInput := rfl
@[simp] theorem setAnswer_errCode (a : Nat) (r w : BusReply) : (s.setAnswer a r w).errCode = s.errCode := rfl
@[simp] theorem setAnswer_cmd (a : Nat) (r w : BusReply) : (s.setAnswer a r w).cmd = s.cmd := rfl
@[simp] theorem setAnswer_stage (a : Nat) (r w : BusReply) : (s.setAnswer a r w).stage = s.stage := rfl
@[simp] theorem setAnswer_doneIE (a : Nat) (r w : BusReply) : (s.setAnswer a r w).doneIE = s.doneIE := rfl
@[simp] theorem setAnswer_donePend (a : Nat) (r w : BusReply) : (s.setAnswer a r w).donePend = s.donePend := rfl
@[simp] theorem setAnswer_srcAddr (a : Nat) (r w : BusReply) : (s.setAnswer a r w).srcAddr = s.srcAddr := rfl
@[simp] theorem setAnswer_srcLen (a : Nat) (r w : BusReply) : (s.setAnswer a r w).srcLen = s.srcLen := rfl
@[simp] theorem setAnswer_srcPos (a : Nat) (r w : BusReply) : (s.setAnswer a r w).srcPos = s.srcPos := rfl
@[simp] theorem setAnswer_dstAddr (a : Nat) (r w : BusReply) : (s.setAnswer a r w).dstAddr = s.dstAddr := rfl
@[simp] theorem setAnswer_dstCap (a : Nat) (r w : BusReply) : (s.setAnswer a r w).dstCap = s.dstCap := rfl
@[simp] theorem setAnswer_dstLen (a : Nat) (r w : BusReply) : (s.setAnswer a r w).dstLen = s.dstLen := rfl
@[simp] theorem setAnswer_errInfo (a : Nat) (r w : BusReply) : (s.setAnswer a r w).errInfo = s.errInfo := rfl
@[simp] theorem setAnswer_freqSel (a : Nat) (r w : BusReply) : (s.setAnswer a r w).freqSel = s.freqSel := rfl
@[simp] theorem setAnswer_codeSym (a : Nat) (r w : BusReply) : (s.setAnswer a r w).codeSym = s.codeSym := rfl
@[simp] theorem setAnswer_codeChunk (a : Nat) (r w : BusReply) : (s.setAnswer a r w).codeChunk = s.codeChunk := rfl
@[simp] theorem setAnswer_nodeSel (a : Nat) (r w : BusReply) : (s.setAnswer a r w).nodeSel = s.nodeSel := rfl
@[simp] theorem setAnswer_inReset (a : Nat) (r w : BusReply) : (s.setAnswer a r w).inReset = s.inReset := rfl
@[simp] theorem setAnswer_freq (a : Nat) (r w : BusReply) : (s.setAnswer a r w).freq = s.freq := rfl
@[simp] theorem setAnswer_node (a : Nat) (r w : BusReply) : (s.setAnswer a r w).node = s.node := rfl
@[simp] theorem setAnswer_tree (a : Nat) (r w : BusReply) : (s.setAnswer a r w).tree = s.tree := rfl
@[simp] theorem setAnswer_code (a : Nat) (r w : BusReply) : (s.setAnswer a r w).code = s.code := rfl
@[simp] theorem setAnswer_todo (a : Nat) (r w : BusReply) : (s.setAnswer a r w).todo = s.todo := rfl
@[simp] theorem setAnswer_queue (a : Nat) (r w : BusReply) : (s.setAnswer a r w).queue = s.queue := rfl
@[simp] theorem setAnswer_acc (a : Nat) (r w : BusReply) : (s.setAnswer a r w).acc = s.acc := rfl
@[simp] theorem setAnswer_walk (a : Nat) (r w : BusReply) : (s.setAnswer a r w).walk = s.walk := rfl
@[simp] theorem setAnswer_mem (a : Nat) (r w : BusReply) : (s.setAnswer a r w).mem = s.mem := rfl
@[simp] theorem setAnswer_host (a : Nat) (r w : BusReply) : (s.setAnswer a r w).host = s.host := rfl
@[simp] theorem setAnswer_hostData (a : Nat) (r w : BusReply) : (s.setAnswer a r w).hostData = s.hostData := rfl
@[simp] theorem setAnswer_bus (a : Nat) (r w : BusReply) : (s.setAnswer a r w).bus = ⟨a, r, w⟩ :: s.bus.filter (fun e => e.addr != a) := rfl
@[simp] theorem setAnswer_draws (a : Nat) (r w : BusReply) : (s.setAnswer a r w).draws = s.draws := rfl
@[simp] theorem setAnswer_srcTouched (a : Nat) (r w : BusReply) : (s.setAnswer a r w).srcTouched = s.srcTouched := rfl
@[simp] theorem setAnswer_dstTouched (a : Nat) (r w : BusReply) : (s.setAnswer a r w).dstTouched = s.dstTouched := rfl
@[simp] theorem setAnswer_undo (a : Nat) (r w : BusReply) : (s.setAnswer a r w).undo = s.undo := rfl
@[simp] theorem setAnswer_mmioBase (a : Nat) (r w : BusReply) : (s.setAnswer a r w).mmioBase = s.mmioBase := rfl

@[simp] theorem resetKeeping_busy : s.resetKeeping.busy = false := rfl
@[simp] theorem resetKeeping_done : s.resetKeeping.done = false := rfl
@[simp] theorem resetKeeping_err : s.resetKeeping.err = false := rfl
@[simp] theorem resetKeeping_cmdDropped : s.resetKeeping.cmdDropped = false := rfl
@[simp] theorem resetKeeping_phase : s.resetKeeping.phase = .empty := rfl
@[simp] theorem resetKeeping_extraInput : s.resetKeeping.extraInput = false := rfl
@[simp] theorem resetKeeping_errCode : s.resetKeeping.errCode = .none := rfl
@[simp] theorem resetKeeping_cmd : s.resetKeeping.cmd = 0#4 := rfl
@[simp] theorem resetKeeping_stage : s.resetKeeping.stage = 0#4 := rfl
@[simp] theorem resetKeeping_doneIE : s.resetKeeping.doneIE = false := rfl
@[simp] theorem resetKeeping_donePend : s.resetKeeping.donePend = false := rfl
@[simp] theorem resetKeeping_srcAddr : s.resetKeeping.srcAddr = 0#32 := rfl
@[simp] theorem resetKeeping_srcLen : s.resetKeeping.srcLen = 0#32 := rfl
@[simp] theorem resetKeeping_srcPos : s.resetKeeping.srcPos = 0#32 := rfl
@[simp] theorem resetKeeping_dstAddr : s.resetKeeping.dstAddr = 0#32 := rfl
@[simp] theorem resetKeeping_dstCap : s.resetKeeping.dstCap = 0#32 := rfl
@[simp] theorem resetKeeping_dstLen : s.resetKeeping.dstLen = 0#32 := rfl
@[simp] theorem resetKeeping_errInfo : s.resetKeeping.errInfo = 0#32 := rfl
@[simp] theorem resetKeeping_freqSel : s.resetKeeping.freqSel = 0#9 := rfl
@[simp] theorem resetKeeping_codeSym : s.resetKeeping.codeSym = 0#9 := rfl
@[simp] theorem resetKeeping_codeChunk : s.resetKeeping.codeChunk = 0#3 := rfl
@[simp] theorem resetKeeping_nodeSel : s.resetKeeping.nodeSel = 0#10 := rfl
@[simp] theorem resetKeeping_inReset : s.resetKeeping.inReset = true := rfl
@[simp] theorem resetKeeping_freq : s.resetKeeping.freq = Vector.replicate 257 FreqEntry.absent := rfl
@[simp] theorem resetKeeping_node : s.resetKeeping.node = Vector.replicate 513 NodeEntry.absent := rfl
@[simp] theorem resetKeeping_tree : s.resetKeeping.tree = TreeReg.absent := rfl
@[simp] theorem resetKeeping_code : s.resetKeeping.code = Vector.replicate 257 CodeEntry.absent := rfl
@[simp] theorem resetKeeping_todo : s.resetKeeping.todo = [] := rfl
@[simp] theorem resetKeeping_queue : s.resetKeeping.queue = [] := rfl
@[simp] theorem resetKeeping_acc : s.resetKeeping.acc = [] := rfl
@[simp] theorem resetKeeping_walk : s.resetKeeping.walk = Walk.atRest := rfl
@[simp] theorem resetKeeping_mem : s.resetKeeping.mem = s.mem := rfl
@[simp] theorem resetKeeping_host : s.resetKeeping.host = s.host := rfl
@[simp] theorem resetKeeping_hostData : s.resetKeeping.hostData = s.hostData := rfl
@[simp] theorem resetKeeping_bus : s.resetKeeping.bus = s.bus := rfl
@[simp] theorem resetKeeping_draws : s.resetKeeping.draws = s.draws := rfl
@[simp] theorem resetKeeping_srcTouched : s.resetKeeping.srcTouched = [] := rfl
@[simp] theorem resetKeeping_dstTouched : s.resetKeeping.dstTouched = [] := rfl
@[simp] theorem resetKeeping_undo : s.resetKeeping.undo = [] := rfl
@[simp] theorem resetKeeping_mmioBase : s.resetKeeping.mmioBase = s.mmioBase := rfl

@[simp] theorem releaseReset_busy : s.releaseReset.busy = s.busy := rfl
@[simp] theorem releaseReset_done : s.releaseReset.done = s.done := rfl
@[simp] theorem releaseReset_err : s.releaseReset.err = s.err := rfl
@[simp] theorem releaseReset_cmdDropped : s.releaseReset.cmdDropped = s.cmdDropped := rfl
@[simp] theorem releaseReset_phase : s.releaseReset.phase = s.phase := rfl
@[simp] theorem releaseReset_extraInput : s.releaseReset.extraInput = s.extraInput := rfl
@[simp] theorem releaseReset_errCode : s.releaseReset.errCode = s.errCode := rfl
@[simp] theorem releaseReset_cmd : s.releaseReset.cmd = s.cmd := rfl
@[simp] theorem releaseReset_stage : s.releaseReset.stage = s.stage := rfl
@[simp] theorem releaseReset_doneIE : s.releaseReset.doneIE = s.doneIE := rfl
@[simp] theorem releaseReset_donePend : s.releaseReset.donePend = s.donePend := rfl
@[simp] theorem releaseReset_srcAddr : s.releaseReset.srcAddr = s.srcAddr := rfl
@[simp] theorem releaseReset_srcLen : s.releaseReset.srcLen = s.srcLen := rfl
@[simp] theorem releaseReset_srcPos : s.releaseReset.srcPos = s.srcPos := rfl
@[simp] theorem releaseReset_dstAddr : s.releaseReset.dstAddr = s.dstAddr := rfl
@[simp] theorem releaseReset_dstCap : s.releaseReset.dstCap = s.dstCap := rfl
@[simp] theorem releaseReset_dstLen : s.releaseReset.dstLen = s.dstLen := rfl
@[simp] theorem releaseReset_errInfo : s.releaseReset.errInfo = s.errInfo := rfl
@[simp] theorem releaseReset_freqSel : s.releaseReset.freqSel = s.freqSel := rfl
@[simp] theorem releaseReset_codeSym : s.releaseReset.codeSym = s.codeSym := rfl
@[simp] theorem releaseReset_codeChunk : s.releaseReset.codeChunk = s.codeChunk := rfl
@[simp] theorem releaseReset_nodeSel : s.releaseReset.nodeSel = s.nodeSel := rfl
@[simp] theorem releaseReset_inReset : s.releaseReset.inReset = false := rfl
@[simp] theorem releaseReset_freq : s.releaseReset.freq = s.freq := rfl
@[simp] theorem releaseReset_node : s.releaseReset.node = s.node := rfl
@[simp] theorem releaseReset_tree : s.releaseReset.tree = s.tree := rfl
@[simp] theorem releaseReset_code : s.releaseReset.code = s.code := rfl
@[simp] theorem releaseReset_todo : s.releaseReset.todo = s.todo := rfl
@[simp] theorem releaseReset_queue : s.releaseReset.queue = s.queue := rfl
@[simp] theorem releaseReset_acc : s.releaseReset.acc = s.acc := rfl
@[simp] theorem releaseReset_walk : s.releaseReset.walk = s.walk := rfl
@[simp] theorem releaseReset_mem : s.releaseReset.mem = s.mem := rfl
@[simp] theorem releaseReset_host : s.releaseReset.host = s.host := rfl
@[simp] theorem releaseReset_hostData : s.releaseReset.hostData = s.hostData := rfl
@[simp] theorem releaseReset_bus : s.releaseReset.bus = s.bus := rfl
@[simp] theorem releaseReset_draws : s.releaseReset.draws = s.draws := rfl
@[simp] theorem releaseReset_srcTouched : s.releaseReset.srcTouched = s.srcTouched := rfl
@[simp] theorem releaseReset_dstTouched : s.releaseReset.dstTouched = s.dstTouched := rfl
@[simp] theorem releaseReset_undo : s.releaseReset.undo = s.undo := rfl
@[simp] theorem releaseReset_mmioBase : s.releaseReset.mmioBase = s.mmioBase := rfl

@[simp] theorem bumpDstLen_busy : s.bumpDstLen.busy = s.busy := rfl
@[simp] theorem bumpDstLen_done : s.bumpDstLen.done = s.done := rfl
@[simp] theorem bumpDstLen_err : s.bumpDstLen.err = s.err := rfl
@[simp] theorem bumpDstLen_cmdDropped : s.bumpDstLen.cmdDropped = s.cmdDropped := rfl
@[simp] theorem bumpDstLen_phase : s.bumpDstLen.phase = s.phase := rfl
@[simp] theorem bumpDstLen_extraInput : s.bumpDstLen.extraInput = s.extraInput := rfl
@[simp] theorem bumpDstLen_errCode : s.bumpDstLen.errCode = s.errCode := rfl
@[simp] theorem bumpDstLen_cmd : s.bumpDstLen.cmd = s.cmd := rfl
@[simp] theorem bumpDstLen_stage : s.bumpDstLen.stage = s.stage := rfl
@[simp] theorem bumpDstLen_doneIE : s.bumpDstLen.doneIE = s.doneIE := rfl
@[simp] theorem bumpDstLen_donePend : s.bumpDstLen.donePend = s.donePend := rfl
@[simp] theorem bumpDstLen_srcAddr : s.bumpDstLen.srcAddr = s.srcAddr := rfl
@[simp] theorem bumpDstLen_srcLen : s.bumpDstLen.srcLen = s.srcLen := rfl
@[simp] theorem bumpDstLen_srcPos : s.bumpDstLen.srcPos = s.srcPos := rfl
@[simp] theorem bumpDstLen_dstAddr : s.bumpDstLen.dstAddr = s.dstAddr := rfl
@[simp] theorem bumpDstLen_dstCap : s.bumpDstLen.dstCap = s.dstCap := rfl
@[simp] theorem bumpDstLen_dstLen : s.bumpDstLen.dstLen = s.dstLen + 1#32 := rfl
@[simp] theorem bumpDstLen_errInfo : s.bumpDstLen.errInfo = s.errInfo := rfl
@[simp] theorem bumpDstLen_freqSel : s.bumpDstLen.freqSel = s.freqSel := rfl
@[simp] theorem bumpDstLen_codeSym : s.bumpDstLen.codeSym = s.codeSym := rfl
@[simp] theorem bumpDstLen_codeChunk : s.bumpDstLen.codeChunk = s.codeChunk := rfl
@[simp] theorem bumpDstLen_nodeSel : s.bumpDstLen.nodeSel = s.nodeSel := rfl
@[simp] theorem bumpDstLen_inReset : s.bumpDstLen.inReset = s.inReset := rfl
@[simp] theorem bumpDstLen_freq : s.bumpDstLen.freq = s.freq := rfl
@[simp] theorem bumpDstLen_node : s.bumpDstLen.node = s.node := rfl
@[simp] theorem bumpDstLen_tree : s.bumpDstLen.tree = s.tree := rfl
@[simp] theorem bumpDstLen_code : s.bumpDstLen.code = s.code := rfl
@[simp] theorem bumpDstLen_todo : s.bumpDstLen.todo = s.todo := rfl
@[simp] theorem bumpDstLen_queue : s.bumpDstLen.queue = s.queue := rfl
@[simp] theorem bumpDstLen_acc : s.bumpDstLen.acc = s.acc := rfl
@[simp] theorem bumpDstLen_walk : s.bumpDstLen.walk = s.walk := rfl
@[simp] theorem bumpDstLen_mem : s.bumpDstLen.mem = s.mem := rfl
@[simp] theorem bumpDstLen_host : s.bumpDstLen.host = s.host := rfl
@[simp] theorem bumpDstLen_hostData : s.bumpDstLen.hostData = s.hostData := rfl
@[simp] theorem bumpDstLen_bus : s.bumpDstLen.bus = s.bus := rfl
@[simp] theorem bumpDstLen_draws : s.bumpDstLen.draws = s.draws := rfl
@[simp] theorem bumpDstLen_srcTouched : s.bumpDstLen.srcTouched = s.srcTouched := rfl
@[simp] theorem bumpDstLen_dstTouched : s.bumpDstLen.dstTouched = s.dstTouched := rfl
@[simp] theorem bumpDstLen_undo : s.bumpDstLen.undo = s.undo := rfl
@[simp] theorem bumpDstLen_mmioBase : s.bumpDstLen.mmioBase = s.mmioBase := rfl

@[simp] theorem startDst_busy : s.startDst.busy = s.busy := rfl
@[simp] theorem startDst_done : s.startDst.done = s.done := rfl
@[simp] theorem startDst_err : s.startDst.err = s.err := rfl
@[simp] theorem startDst_cmdDropped : s.startDst.cmdDropped = s.cmdDropped := rfl
@[simp] theorem startDst_phase : s.startDst.phase = s.phase := rfl
@[simp] theorem startDst_extraInput : s.startDst.extraInput = s.extraInput := rfl
@[simp] theorem startDst_errCode : s.startDst.errCode = s.errCode := rfl
@[simp] theorem startDst_cmd : s.startDst.cmd = s.cmd := rfl
@[simp] theorem startDst_stage : s.startDst.stage = s.stage := rfl
@[simp] theorem startDst_doneIE : s.startDst.doneIE = s.doneIE := rfl
@[simp] theorem startDst_donePend : s.startDst.donePend = s.donePend := rfl
@[simp] theorem startDst_srcAddr : s.startDst.srcAddr = s.srcAddr := rfl
@[simp] theorem startDst_srcLen : s.startDst.srcLen = s.srcLen := rfl
@[simp] theorem startDst_srcPos : s.startDst.srcPos = s.srcPos := rfl
@[simp] theorem startDst_dstAddr : s.startDst.dstAddr = s.dstAddr := rfl
@[simp] theorem startDst_dstCap : s.startDst.dstCap = s.dstCap := rfl
@[simp] theorem startDst_dstLen : s.startDst.dstLen = 0#32 := rfl
@[simp] theorem startDst_errInfo : s.startDst.errInfo = s.errInfo := rfl
@[simp] theorem startDst_freqSel : s.startDst.freqSel = s.freqSel := rfl
@[simp] theorem startDst_codeSym : s.startDst.codeSym = s.codeSym := rfl
@[simp] theorem startDst_codeChunk : s.startDst.codeChunk = s.codeChunk := rfl
@[simp] theorem startDst_nodeSel : s.startDst.nodeSel = s.nodeSel := rfl
@[simp] theorem startDst_inReset : s.startDst.inReset = s.inReset := rfl
@[simp] theorem startDst_freq : s.startDst.freq = s.freq := rfl
@[simp] theorem startDst_node : s.startDst.node = s.node := rfl
@[simp] theorem startDst_tree : s.startDst.tree = s.tree := rfl
@[simp] theorem startDst_code : s.startDst.code = s.code := rfl
@[simp] theorem startDst_todo : s.startDst.todo = s.todo := rfl
@[simp] theorem startDst_queue : s.startDst.queue = s.queue := rfl
@[simp] theorem startDst_acc : s.startDst.acc = s.acc := rfl
@[simp] theorem startDst_walk : s.startDst.walk = s.walk := rfl
@[simp] theorem startDst_mem : s.startDst.mem = s.mem := rfl
@[simp] theorem startDst_host : s.startDst.host = s.host := rfl
@[simp] theorem startDst_hostData : s.startDst.hostData = s.hostData := rfl
@[simp] theorem startDst_bus : s.startDst.bus = s.bus := rfl
@[simp] theorem startDst_draws : s.startDst.draws = s.draws := rfl
@[simp] theorem startDst_srcTouched : s.startDst.srcTouched = s.srcTouched := rfl
@[simp] theorem startDst_dstTouched : s.startDst.dstTouched = s.dstTouched := rfl
@[simp] theorem startDst_undo : s.startDst.undo = s.undo := rfl
@[simp] theorem startDst_mmioBase : s.startDst.mmioBase = s.mmioBase := rfl

@[simp] theorem tally_busy (b : Byte) : (s.tally b).busy = s.busy := rfl
@[simp] theorem tally_done (b : Byte) : (s.tally b).done = s.done := rfl
@[simp] theorem tally_err (b : Byte) : (s.tally b).err = s.err := rfl
@[simp] theorem tally_cmdDropped (b : Byte) : (s.tally b).cmdDropped = s.cmdDropped := rfl
@[simp] theorem tally_phase (b : Byte) : (s.tally b).phase = s.phase := rfl
@[simp] theorem tally_extraInput (b : Byte) : (s.tally b).extraInput = s.extraInput := rfl
@[simp] theorem tally_errCode (b : Byte) : (s.tally b).errCode = s.errCode := rfl
@[simp] theorem tally_cmd (b : Byte) : (s.tally b).cmd = s.cmd := rfl
@[simp] theorem tally_stage (b : Byte) : (s.tally b).stage = s.stage := rfl
@[simp] theorem tally_doneIE (b : Byte) : (s.tally b).doneIE = s.doneIE := rfl
@[simp] theorem tally_donePend (b : Byte) : (s.tally b).donePend = s.donePend := rfl
@[simp] theorem tally_srcAddr (b : Byte) : (s.tally b).srcAddr = s.srcAddr := rfl
@[simp] theorem tally_srcLen (b : Byte) : (s.tally b).srcLen = s.srcLen := rfl
@[simp] theorem tally_srcPos (b : Byte) : (s.tally b).srcPos = s.srcPos := rfl
@[simp] theorem tally_dstAddr (b : Byte) : (s.tally b).dstAddr = s.dstAddr := rfl
@[simp] theorem tally_dstCap (b : Byte) : (s.tally b).dstCap = s.dstCap := rfl
@[simp] theorem tally_dstLen (b : Byte) : (s.tally b).dstLen = s.dstLen := rfl
@[simp] theorem tally_errInfo (b : Byte) : (s.tally b).errInfo = s.errInfo := rfl
@[simp] theorem tally_freqSel (b : Byte) : (s.tally b).freqSel = s.freqSel := rfl
@[simp] theorem tally_codeSym (b : Byte) : (s.tally b).codeSym = s.codeSym := rfl
@[simp] theorem tally_codeChunk (b : Byte) : (s.tally b).codeChunk = s.codeChunk := rfl
@[simp] theorem tally_nodeSel (b : Byte) : (s.tally b).nodeSel = s.nodeSel := rfl
@[simp] theorem tally_inReset (b : Byte) : (s.tally b).inReset = s.inReset := rfl
@[simp] theorem tally_freq (b : Byte) : (s.tally b).freq = s.freq.setIfInBounds b.toNat ⟨true, (s.freqAt b.toNat).count + 1#32⟩ := rfl
@[simp] theorem tally_node (b : Byte) : (s.tally b).node = s.node := rfl
@[simp] theorem tally_tree (b : Byte) : (s.tally b).tree = s.tree := rfl
@[simp] theorem tally_code (b : Byte) : (s.tally b).code = s.code := rfl
@[simp] theorem tally_todo (b : Byte) : (s.tally b).todo = s.todo := rfl
@[simp] theorem tally_queue (b : Byte) : (s.tally b).queue = s.queue := rfl
@[simp] theorem tally_acc (b : Byte) : (s.tally b).acc = s.acc := rfl
@[simp] theorem tally_walk (b : Byte) : (s.tally b).walk = s.walk := rfl
@[simp] theorem tally_mem (b : Byte) : (s.tally b).mem = s.mem := rfl
@[simp] theorem tally_host (b : Byte) : (s.tally b).host = s.host := rfl
@[simp] theorem tally_hostData (b : Byte) : (s.tally b).hostData = s.hostData := rfl
@[simp] theorem tally_bus (b : Byte) : (s.tally b).bus = s.bus := rfl
@[simp] theorem tally_draws (b : Byte) : (s.tally b).draws = s.draws := rfl
@[simp] theorem tally_srcTouched (b : Byte) : (s.tally b).srcTouched = s.srcTouched := rfl
@[simp] theorem tally_dstTouched (b : Byte) : (s.tally b).dstTouched = s.dstTouched := rfl
@[simp] theorem tally_undo (b : Byte) : (s.tally b).undo = s.undo := rfl
@[simp] theorem tally_mmioBase (b : Byte) : (s.tally b).mmioBase = s.mmioBase := rfl

@[simp] theorem endCount_busy : s.endCount.busy = s.busy := rfl
@[simp] theorem endCount_done : s.endCount.done = s.done := rfl
@[simp] theorem endCount_err : s.endCount.err = s.err := rfl
@[simp] theorem endCount_cmdDropped : s.endCount.cmdDropped = s.cmdDropped := rfl
@[simp] theorem endCount_phase : s.endCount.phase = .counted := rfl
@[simp] theorem endCount_extraInput : s.endCount.extraInput = s.extraInput := rfl
@[simp] theorem endCount_errCode : s.endCount.errCode = s.errCode := rfl
@[simp] theorem endCount_cmd : s.endCount.cmd = s.cmd := rfl
@[simp] theorem endCount_stage : s.endCount.stage = s.stage := rfl
@[simp] theorem endCount_doneIE : s.endCount.doneIE = s.doneIE := rfl
@[simp] theorem endCount_donePend : s.endCount.donePend = s.donePend := rfl
@[simp] theorem endCount_srcAddr : s.endCount.srcAddr = s.srcAddr := rfl
@[simp] theorem endCount_srcLen : s.endCount.srcLen = s.srcLen := rfl
@[simp] theorem endCount_srcPos : s.endCount.srcPos = s.srcPos := rfl
@[simp] theorem endCount_dstAddr : s.endCount.dstAddr = s.dstAddr := rfl
@[simp] theorem endCount_dstCap : s.endCount.dstCap = s.dstCap := rfl
@[simp] theorem endCount_dstLen : s.endCount.dstLen = s.dstLen := rfl
@[simp] theorem endCount_errInfo : s.endCount.errInfo = s.errInfo := rfl
@[simp] theorem endCount_freqSel : s.endCount.freqSel = s.freqSel := rfl
@[simp] theorem endCount_codeSym : s.endCount.codeSym = s.codeSym := rfl
@[simp] theorem endCount_codeChunk : s.endCount.codeChunk = s.codeChunk := rfl
@[simp] theorem endCount_nodeSel : s.endCount.nodeSel = s.nodeSel := rfl
@[simp] theorem endCount_inReset : s.endCount.inReset = s.inReset := rfl
@[simp] theorem endCount_freq : s.endCount.freq = s.freq.setIfInBounds 256 ⟨true, 1#32⟩ := rfl
@[simp] theorem endCount_node : s.endCount.node = s.node := rfl
@[simp] theorem endCount_tree : s.endCount.tree = s.tree := rfl
@[simp] theorem endCount_code : s.endCount.code = s.code := rfl
@[simp] theorem endCount_todo : s.endCount.todo = s.todo := rfl
@[simp] theorem endCount_queue : s.endCount.queue = s.queue := rfl
@[simp] theorem endCount_acc : s.endCount.acc = s.acc := rfl
@[simp] theorem endCount_walk : s.endCount.walk = s.walk := rfl
@[simp] theorem endCount_mem : s.endCount.mem = s.mem := rfl
@[simp] theorem endCount_host : s.endCount.host = s.host := rfl
@[simp] theorem endCount_hostData : s.endCount.hostData = s.hostData := rfl
@[simp] theorem endCount_bus : s.endCount.bus = s.bus := rfl
@[simp] theorem endCount_draws : s.endCount.draws = s.draws := rfl
@[simp] theorem endCount_srcTouched : s.endCount.srcTouched = s.srcTouched := rfl
@[simp] theorem endCount_dstTouched : s.endCount.dstTouched = s.dstTouched := rfl
@[simp] theorem endCount_undo : s.endCount.undo = s.undo := rfl
@[simp] theorem endCount_mmioBase : s.endCount.mmioBase = s.mmioBase := rfl

@[simp] theorem dropTree_busy : s.dropTree.busy = s.busy := rfl
@[simp] theorem dropTree_done : s.dropTree.done = s.done := rfl
@[simp] theorem dropTree_err : s.dropTree.err = s.err := rfl
@[simp] theorem dropTree_cmdDropped : s.dropTree.cmdDropped = s.cmdDropped := rfl
@[simp] theorem dropTree_phase : s.dropTree.phase = .counted := rfl
@[simp] theorem dropTree_extraInput : s.dropTree.extraInput = s.extraInput := rfl
@[simp] theorem dropTree_errCode : s.dropTree.errCode = s.errCode := rfl
@[simp] theorem dropTree_cmd : s.dropTree.cmd = s.cmd := rfl
@[simp] theorem dropTree_stage : s.dropTree.stage = s.stage := rfl
@[simp] theorem dropTree_doneIE : s.dropTree.doneIE = s.doneIE := rfl
@[simp] theorem dropTree_donePend : s.dropTree.donePend = s.donePend := rfl
@[simp] theorem dropTree_srcAddr : s.dropTree.srcAddr = s.srcAddr := rfl
@[simp] theorem dropTree_srcLen : s.dropTree.srcLen = s.srcLen := rfl
@[simp] theorem dropTree_srcPos : s.dropTree.srcPos = s.srcPos := rfl
@[simp] theorem dropTree_dstAddr : s.dropTree.dstAddr = s.dstAddr := rfl
@[simp] theorem dropTree_dstCap : s.dropTree.dstCap = s.dstCap := rfl
@[simp] theorem dropTree_dstLen : s.dropTree.dstLen = s.dstLen := rfl
@[simp] theorem dropTree_errInfo : s.dropTree.errInfo = s.errInfo := rfl
@[simp] theorem dropTree_freqSel : s.dropTree.freqSel = s.freqSel := rfl
@[simp] theorem dropTree_codeSym : s.dropTree.codeSym = s.codeSym := rfl
@[simp] theorem dropTree_codeChunk : s.dropTree.codeChunk = s.codeChunk := rfl
@[simp] theorem dropTree_nodeSel : s.dropTree.nodeSel = s.nodeSel := rfl
@[simp] theorem dropTree_inReset : s.dropTree.inReset = s.inReset := rfl
@[simp] theorem dropTree_freq : s.dropTree.freq = s.freq := rfl
@[simp] theorem dropTree_node : s.dropTree.node = Vector.replicate 513 NodeEntry.absent := rfl
@[simp] theorem dropTree_tree : s.dropTree.tree = TreeReg.absent := rfl
@[simp] theorem dropTree_code : s.dropTree.code = Vector.replicate 257 CodeEntry.absent := rfl
@[simp] theorem dropTree_todo : s.dropTree.todo = s.todo := rfl
@[simp] theorem dropTree_queue : s.dropTree.queue = s.queue := rfl
@[simp] theorem dropTree_acc : s.dropTree.acc = s.acc := rfl
@[simp] theorem dropTree_walk : s.dropTree.walk = s.walk := rfl
@[simp] theorem dropTree_mem : s.dropTree.mem = s.mem := rfl
@[simp] theorem dropTree_host : s.dropTree.host = s.host := rfl
@[simp] theorem dropTree_hostData : s.dropTree.hostData = s.hostData := rfl
@[simp] theorem dropTree_bus : s.dropTree.bus = s.bus := rfl
@[simp] theorem dropTree_draws : s.dropTree.draws = s.draws := rfl
@[simp] theorem dropTree_srcTouched : s.dropTree.srcTouched = s.srcTouched := rfl
@[simp] theorem dropTree_dstTouched : s.dropTree.dstTouched = s.dstTouched := rfl
@[simp] theorem dropTree_undo : s.dropTree.undo = s.undo := rfl
@[simp] theorem dropTree_mmioBase : s.dropTree.mmioBase = s.mmioBase := rfl

@[simp] theorem addNode_busy (e : NodeEntry) : (s.addNode e).busy = s.busy := rfl
@[simp] theorem addNode_done (e : NodeEntry) : (s.addNode e).done = s.done := rfl
@[simp] theorem addNode_err (e : NodeEntry) : (s.addNode e).err = s.err := rfl
@[simp] theorem addNode_cmdDropped (e : NodeEntry) : (s.addNode e).cmdDropped = s.cmdDropped := rfl
@[simp] theorem addNode_phase (e : NodeEntry) : (s.addNode e).phase = s.phase := rfl
@[simp] theorem addNode_extraInput (e : NodeEntry) : (s.addNode e).extraInput = s.extraInput := rfl
@[simp] theorem addNode_errCode (e : NodeEntry) : (s.addNode e).errCode = s.errCode := rfl
@[simp] theorem addNode_cmd (e : NodeEntry) : (s.addNode e).cmd = s.cmd := rfl
@[simp] theorem addNode_stage (e : NodeEntry) : (s.addNode e).stage = s.stage := rfl
@[simp] theorem addNode_doneIE (e : NodeEntry) : (s.addNode e).doneIE = s.doneIE := rfl
@[simp] theorem addNode_donePend (e : NodeEntry) : (s.addNode e).donePend = s.donePend := rfl
@[simp] theorem addNode_srcAddr (e : NodeEntry) : (s.addNode e).srcAddr = s.srcAddr := rfl
@[simp] theorem addNode_srcLen (e : NodeEntry) : (s.addNode e).srcLen = s.srcLen := rfl
@[simp] theorem addNode_srcPos (e : NodeEntry) : (s.addNode e).srcPos = s.srcPos := rfl
@[simp] theorem addNode_dstAddr (e : NodeEntry) : (s.addNode e).dstAddr = s.dstAddr := rfl
@[simp] theorem addNode_dstCap (e : NodeEntry) : (s.addNode e).dstCap = s.dstCap := rfl
@[simp] theorem addNode_dstLen (e : NodeEntry) : (s.addNode e).dstLen = s.dstLen := rfl
@[simp] theorem addNode_errInfo (e : NodeEntry) : (s.addNode e).errInfo = s.errInfo := rfl
@[simp] theorem addNode_freqSel (e : NodeEntry) : (s.addNode e).freqSel = s.freqSel := rfl
@[simp] theorem addNode_codeSym (e : NodeEntry) : (s.addNode e).codeSym = s.codeSym := rfl
@[simp] theorem addNode_codeChunk (e : NodeEntry) : (s.addNode e).codeChunk = s.codeChunk := rfl
@[simp] theorem addNode_nodeSel (e : NodeEntry) : (s.addNode e).nodeSel = s.nodeSel := rfl
@[simp] theorem addNode_inReset (e : NodeEntry) : (s.addNode e).inReset = s.inReset := rfl
@[simp] theorem addNode_freq (e : NodeEntry) : (s.addNode e).freq = s.freq := rfl
@[simp] theorem addNode_node (e : NodeEntry) : (s.addNode e).node = s.node.setIfInBounds s.tree.nodes.toNat e := rfl
@[simp] theorem addNode_tree (e : NodeEntry) : (s.addNode e).tree = ⟨s.tree.root, s.tree.nodes + 1#10⟩ := rfl
@[simp] theorem addNode_code (e : NodeEntry) : (s.addNode e).code = s.code := rfl
@[simp] theorem addNode_todo (e : NodeEntry) : (s.addNode e).todo = s.todo := rfl
@[simp] theorem addNode_queue (e : NodeEntry) : (s.addNode e).queue = s.queue ++ [s.tree.nodes.toNat] := rfl
@[simp] theorem addNode_acc (e : NodeEntry) : (s.addNode e).acc = s.acc := rfl
@[simp] theorem addNode_walk (e : NodeEntry) : (s.addNode e).walk = s.walk := rfl
@[simp] theorem addNode_mem (e : NodeEntry) : (s.addNode e).mem = s.mem := rfl
@[simp] theorem addNode_host (e : NodeEntry) : (s.addNode e).host = s.host := rfl
@[simp] theorem addNode_hostData (e : NodeEntry) : (s.addNode e).hostData = s.hostData := rfl
@[simp] theorem addNode_bus (e : NodeEntry) : (s.addNode e).bus = s.bus := rfl
@[simp] theorem addNode_draws (e : NodeEntry) : (s.addNode e).draws = s.draws := rfl
@[simp] theorem addNode_srcTouched (e : NodeEntry) : (s.addNode e).srcTouched = s.srcTouched := rfl
@[simp] theorem addNode_dstTouched (e : NodeEntry) : (s.addNode e).dstTouched = s.dstTouched := rfl
@[simp] theorem addNode_undo (e : NodeEntry) : (s.addNode e).undo = s.undo := rfl
@[simp] theorem addNode_mmioBase (e : NodeEntry) : (s.addNode e).mmioBase = s.mmioBase := rfl

@[simp] theorem setRoot_busy (r : Nat) : (s.setRoot r).busy = s.busy := rfl
@[simp] theorem setRoot_done (r : Nat) : (s.setRoot r).done = s.done := rfl
@[simp] theorem setRoot_err (r : Nat) : (s.setRoot r).err = s.err := rfl
@[simp] theorem setRoot_cmdDropped (r : Nat) : (s.setRoot r).cmdDropped = s.cmdDropped := rfl
@[simp] theorem setRoot_phase (r : Nat) : (s.setRoot r).phase = .built := rfl
@[simp] theorem setRoot_extraInput (r : Nat) : (s.setRoot r).extraInput = s.extraInput := rfl
@[simp] theorem setRoot_errCode (r : Nat) : (s.setRoot r).errCode = s.errCode := rfl
@[simp] theorem setRoot_cmd (r : Nat) : (s.setRoot r).cmd = s.cmd := rfl
@[simp] theorem setRoot_stage (r : Nat) : (s.setRoot r).stage = s.stage := rfl
@[simp] theorem setRoot_doneIE (r : Nat) : (s.setRoot r).doneIE = s.doneIE := rfl
@[simp] theorem setRoot_donePend (r : Nat) : (s.setRoot r).donePend = s.donePend := rfl
@[simp] theorem setRoot_srcAddr (r : Nat) : (s.setRoot r).srcAddr = s.srcAddr := rfl
@[simp] theorem setRoot_srcLen (r : Nat) : (s.setRoot r).srcLen = s.srcLen := rfl
@[simp] theorem setRoot_srcPos (r : Nat) : (s.setRoot r).srcPos = s.srcPos := rfl
@[simp] theorem setRoot_dstAddr (r : Nat) : (s.setRoot r).dstAddr = s.dstAddr := rfl
@[simp] theorem setRoot_dstCap (r : Nat) : (s.setRoot r).dstCap = s.dstCap := rfl
@[simp] theorem setRoot_dstLen (r : Nat) : (s.setRoot r).dstLen = s.dstLen := rfl
@[simp] theorem setRoot_errInfo (r : Nat) : (s.setRoot r).errInfo = s.errInfo := rfl
@[simp] theorem setRoot_freqSel (r : Nat) : (s.setRoot r).freqSel = s.freqSel := rfl
@[simp] theorem setRoot_codeSym (r : Nat) : (s.setRoot r).codeSym = s.codeSym := rfl
@[simp] theorem setRoot_codeChunk (r : Nat) : (s.setRoot r).codeChunk = s.codeChunk := rfl
@[simp] theorem setRoot_nodeSel (r : Nat) : (s.setRoot r).nodeSel = s.nodeSel := rfl
@[simp] theorem setRoot_inReset (r : Nat) : (s.setRoot r).inReset = s.inReset := rfl
@[simp] theorem setRoot_freq (r : Nat) : (s.setRoot r).freq = s.freq := rfl
@[simp] theorem setRoot_node (r : Nat) : (s.setRoot r).node = s.node := rfl
@[simp] theorem setRoot_tree (r : Nat) : (s.setRoot r).tree = ⟨BitVec.ofNat 10 r, s.tree.nodes⟩ := rfl
@[simp] theorem setRoot_code (r : Nat) : (s.setRoot r).code = s.code := rfl
@[simp] theorem setRoot_todo (r : Nat) : (s.setRoot r).todo = s.todo := rfl
@[simp] theorem setRoot_queue (r : Nat) : (s.setRoot r).queue = [] := rfl
@[simp] theorem setRoot_acc (r : Nat) : (s.setRoot r).acc = s.acc := rfl
@[simp] theorem setRoot_walk (r : Nat) : (s.setRoot r).walk = s.walk := rfl
@[simp] theorem setRoot_mem (r : Nat) : (s.setRoot r).mem = s.mem := rfl
@[simp] theorem setRoot_host (r : Nat) : (s.setRoot r).host = s.host := rfl
@[simp] theorem setRoot_hostData (r : Nat) : (s.setRoot r).hostData = s.hostData := rfl
@[simp] theorem setRoot_bus (r : Nat) : (s.setRoot r).bus = s.bus := rfl
@[simp] theorem setRoot_draws (r : Nat) : (s.setRoot r).draws = s.draws := rfl
@[simp] theorem setRoot_srcTouched (r : Nat) : (s.setRoot r).srcTouched = s.srcTouched := rfl
@[simp] theorem setRoot_dstTouched (r : Nat) : (s.setRoot r).dstTouched = s.dstTouched := rfl
@[simp] theorem setRoot_undo (r : Nat) : (s.setRoot r).undo = s.undo := rfl
@[simp] theorem setRoot_mmioBase (r : Nat) : (s.setRoot r).mmioBase = s.mmioBase := rfl

@[simp] theorem dropCodes_busy : s.dropCodes.busy = s.busy := rfl
@[simp] theorem dropCodes_done : s.dropCodes.done = s.done := rfl
@[simp] theorem dropCodes_err : s.dropCodes.err = s.err := rfl
@[simp] theorem dropCodes_cmdDropped : s.dropCodes.cmdDropped = s.cmdDropped := rfl
@[simp] theorem dropCodes_phase : s.dropCodes.phase = .built := rfl
@[simp] theorem dropCodes_extraInput : s.dropCodes.extraInput = s.extraInput := rfl
@[simp] theorem dropCodes_errCode : s.dropCodes.errCode = s.errCode := rfl
@[simp] theorem dropCodes_cmd : s.dropCodes.cmd = s.cmd := rfl
@[simp] theorem dropCodes_stage : s.dropCodes.stage = s.stage := rfl
@[simp] theorem dropCodes_doneIE : s.dropCodes.doneIE = s.doneIE := rfl
@[simp] theorem dropCodes_donePend : s.dropCodes.donePend = s.donePend := rfl
@[simp] theorem dropCodes_srcAddr : s.dropCodes.srcAddr = s.srcAddr := rfl
@[simp] theorem dropCodes_srcLen : s.dropCodes.srcLen = s.srcLen := rfl
@[simp] theorem dropCodes_srcPos : s.dropCodes.srcPos = s.srcPos := rfl
@[simp] theorem dropCodes_dstAddr : s.dropCodes.dstAddr = s.dstAddr := rfl
@[simp] theorem dropCodes_dstCap : s.dropCodes.dstCap = s.dstCap := rfl
@[simp] theorem dropCodes_dstLen : s.dropCodes.dstLen = s.dstLen := rfl
@[simp] theorem dropCodes_errInfo : s.dropCodes.errInfo = s.errInfo := rfl
@[simp] theorem dropCodes_freqSel : s.dropCodes.freqSel = s.freqSel := rfl
@[simp] theorem dropCodes_codeSym : s.dropCodes.codeSym = s.codeSym := rfl
@[simp] theorem dropCodes_codeChunk : s.dropCodes.codeChunk = s.codeChunk := rfl
@[simp] theorem dropCodes_nodeSel : s.dropCodes.nodeSel = s.nodeSel := rfl
@[simp] theorem dropCodes_inReset : s.dropCodes.inReset = s.inReset := rfl
@[simp] theorem dropCodes_freq : s.dropCodes.freq = s.freq := rfl
@[simp] theorem dropCodes_node : s.dropCodes.node = s.node := rfl
@[simp] theorem dropCodes_tree : s.dropCodes.tree = s.tree := rfl
@[simp] theorem dropCodes_code : s.dropCodes.code = Vector.replicate 257 CodeEntry.absent := rfl
@[simp] theorem dropCodes_todo : s.dropCodes.todo = s.todo := rfl
@[simp] theorem dropCodes_queue : s.dropCodes.queue = s.queue := rfl
@[simp] theorem dropCodes_acc : s.dropCodes.acc = s.acc := rfl
@[simp] theorem dropCodes_walk : s.dropCodes.walk = s.walk := rfl
@[simp] theorem dropCodes_mem : s.dropCodes.mem = s.mem := rfl
@[simp] theorem dropCodes_host : s.dropCodes.host = s.host := rfl
@[simp] theorem dropCodes_hostData : s.dropCodes.hostData = s.hostData := rfl
@[simp] theorem dropCodes_bus : s.dropCodes.bus = s.bus := rfl
@[simp] theorem dropCodes_draws : s.dropCodes.draws = s.draws := rfl
@[simp] theorem dropCodes_srcTouched : s.dropCodes.srcTouched = s.srcTouched := rfl
@[simp] theorem dropCodes_dstTouched : s.dropCodes.dstTouched = s.dstTouched := rfl
@[simp] theorem dropCodes_undo : s.dropCodes.undo = s.undo := rfl
@[simp] theorem dropCodes_mmioBase : s.dropCodes.mmioBase = s.mmioBase := rfl

@[simp] theorem endDerive_busy : s.endDerive.busy = s.busy := rfl
@[simp] theorem endDerive_done : s.endDerive.done = s.done := rfl
@[simp] theorem endDerive_err : s.endDerive.err = s.err := rfl
@[simp] theorem endDerive_cmdDropped : s.endDerive.cmdDropped = s.cmdDropped := rfl
@[simp] theorem endDerive_phase : s.endDerive.phase = .coded := rfl
@[simp] theorem endDerive_extraInput : s.endDerive.extraInput = s.extraInput := rfl
@[simp] theorem endDerive_errCode : s.endDerive.errCode = s.errCode := rfl
@[simp] theorem endDerive_cmd : s.endDerive.cmd = s.cmd := rfl
@[simp] theorem endDerive_stage : s.endDerive.stage = s.stage := rfl
@[simp] theorem endDerive_doneIE : s.endDerive.doneIE = s.doneIE := rfl
@[simp] theorem endDerive_donePend : s.endDerive.donePend = s.donePend := rfl
@[simp] theorem endDerive_srcAddr : s.endDerive.srcAddr = s.srcAddr := rfl
@[simp] theorem endDerive_srcLen : s.endDerive.srcLen = s.srcLen := rfl
@[simp] theorem endDerive_srcPos : s.endDerive.srcPos = s.srcPos := rfl
@[simp] theorem endDerive_dstAddr : s.endDerive.dstAddr = s.dstAddr := rfl
@[simp] theorem endDerive_dstCap : s.endDerive.dstCap = s.dstCap := rfl
@[simp] theorem endDerive_dstLen : s.endDerive.dstLen = s.dstLen := rfl
@[simp] theorem endDerive_errInfo : s.endDerive.errInfo = s.errInfo := rfl
@[simp] theorem endDerive_freqSel : s.endDerive.freqSel = s.freqSel := rfl
@[simp] theorem endDerive_codeSym : s.endDerive.codeSym = s.codeSym := rfl
@[simp] theorem endDerive_codeChunk : s.endDerive.codeChunk = s.codeChunk := rfl
@[simp] theorem endDerive_nodeSel : s.endDerive.nodeSel = s.nodeSel := rfl
@[simp] theorem endDerive_inReset : s.endDerive.inReset = s.inReset := rfl
@[simp] theorem endDerive_freq : s.endDerive.freq = s.freq := rfl
@[simp] theorem endDerive_node : s.endDerive.node = s.node := rfl
@[simp] theorem endDerive_tree : s.endDerive.tree = s.tree := rfl
@[simp] theorem endDerive_code : s.endDerive.code = s.code := rfl
@[simp] theorem endDerive_todo : s.endDerive.todo = s.todo := rfl
@[simp] theorem endDerive_queue : s.endDerive.queue = s.queue := rfl
@[simp] theorem endDerive_acc : s.endDerive.acc = s.acc := rfl
@[simp] theorem endDerive_walk : s.endDerive.walk = s.walk := rfl
@[simp] theorem endDerive_mem : s.endDerive.mem = s.mem := rfl
@[simp] theorem endDerive_host : s.endDerive.host = s.host := rfl
@[simp] theorem endDerive_hostData : s.endDerive.hostData = s.hostData := rfl
@[simp] theorem endDerive_bus : s.endDerive.bus = s.bus := rfl
@[simp] theorem endDerive_draws : s.endDerive.draws = s.draws := rfl
@[simp] theorem endDerive_srcTouched : s.endDerive.srcTouched = s.srcTouched := rfl
@[simp] theorem endDerive_dstTouched : s.endDerive.dstTouched = s.dstTouched := rfl
@[simp] theorem endDerive_undo : s.endDerive.undo = s.undo := rfl
@[simp] theorem endDerive_mmioBase : s.endDerive.mmioBase = s.mmioBase := rfl

@[simp] theorem endParse_busy (pos : Nat) : (s.endParse pos).busy = s.busy := rfl
@[simp] theorem endParse_done (pos : Nat) : (s.endParse pos).done = s.done := rfl
@[simp] theorem endParse_err (pos : Nat) : (s.endParse pos).err = s.err := rfl
@[simp] theorem endParse_cmdDropped (pos : Nat) : (s.endParse pos).cmdDropped = s.cmdDropped := rfl
@[simp] theorem endParse_phase (pos : Nat) : (s.endParse pos).phase = .counted := rfl
@[simp] theorem endParse_extraInput (pos : Nat) : (s.endParse pos).extraInput = s.extraInput := rfl
@[simp] theorem endParse_errCode (pos : Nat) : (s.endParse pos).errCode = s.errCode := rfl
@[simp] theorem endParse_cmd (pos : Nat) : (s.endParse pos).cmd = s.cmd := rfl
@[simp] theorem endParse_stage (pos : Nat) : (s.endParse pos).stage = s.stage := rfl
@[simp] theorem endParse_doneIE (pos : Nat) : (s.endParse pos).doneIE = s.doneIE := rfl
@[simp] theorem endParse_donePend (pos : Nat) : (s.endParse pos).donePend = s.donePend := rfl
@[simp] theorem endParse_srcAddr (pos : Nat) : (s.endParse pos).srcAddr = s.srcAddr := rfl
@[simp] theorem endParse_srcLen (pos : Nat) : (s.endParse pos).srcLen = s.srcLen := rfl
@[simp] theorem endParse_srcPos (pos : Nat) : (s.endParse pos).srcPos = BitVec.ofNat 32 pos := rfl
@[simp] theorem endParse_dstAddr (pos : Nat) : (s.endParse pos).dstAddr = s.dstAddr := rfl
@[simp] theorem endParse_dstCap (pos : Nat) : (s.endParse pos).dstCap = s.dstCap := rfl
@[simp] theorem endParse_dstLen (pos : Nat) : (s.endParse pos).dstLen = s.dstLen := rfl
@[simp] theorem endParse_errInfo (pos : Nat) : (s.endParse pos).errInfo = s.errInfo := rfl
@[simp] theorem endParse_freqSel (pos : Nat) : (s.endParse pos).freqSel = s.freqSel := rfl
@[simp] theorem endParse_codeSym (pos : Nat) : (s.endParse pos).codeSym = s.codeSym := rfl
@[simp] theorem endParse_codeChunk (pos : Nat) : (s.endParse pos).codeChunk = s.codeChunk := rfl
@[simp] theorem endParse_nodeSel (pos : Nat) : (s.endParse pos).nodeSel = s.nodeSel := rfl
@[simp] theorem endParse_inReset (pos : Nat) : (s.endParse pos).inReset = s.inReset := rfl
@[simp] theorem endParse_freq (pos : Nat) : (s.endParse pos).freq = s.freq := rfl
@[simp] theorem endParse_node (pos : Nat) : (s.endParse pos).node = s.node := rfl
@[simp] theorem endParse_tree (pos : Nat) : (s.endParse pos).tree = s.tree := rfl
@[simp] theorem endParse_code (pos : Nat) : (s.endParse pos).code = s.code := rfl
@[simp] theorem endParse_todo (pos : Nat) : (s.endParse pos).todo = s.todo := rfl
@[simp] theorem endParse_queue (pos : Nat) : (s.endParse pos).queue = s.queue := rfl
@[simp] theorem endParse_acc (pos : Nat) : (s.endParse pos).acc = s.acc := rfl
@[simp] theorem endParse_walk (pos : Nat) : (s.endParse pos).walk = s.walk := rfl
@[simp] theorem endParse_mem (pos : Nat) : (s.endParse pos).mem = s.mem := rfl
@[simp] theorem endParse_host (pos : Nat) : (s.endParse pos).host = s.host := rfl
@[simp] theorem endParse_hostData (pos : Nat) : (s.endParse pos).hostData = s.hostData := rfl
@[simp] theorem endParse_bus (pos : Nat) : (s.endParse pos).bus = s.bus := rfl
@[simp] theorem endParse_draws (pos : Nat) : (s.endParse pos).draws = s.draws := rfl
@[simp] theorem endParse_srcTouched (pos : Nat) : (s.endParse pos).srcTouched = s.srcTouched := rfl
@[simp] theorem endParse_dstTouched (pos : Nat) : (s.endParse pos).dstTouched = s.dstTouched := rfl
@[simp] theorem endParse_undo (pos : Nat) : (s.endParse pos).undo = s.undo := rfl
@[simp] theorem endParse_mmioBase (pos : Nat) : (s.endParse pos).mmioBase = s.mmioBase := rfl

@[simp] theorem pushDigit_busy (d : Bool) : (s.pushDigit d).busy = s.busy := rfl
@[simp] theorem pushDigit_done (d : Bool) : (s.pushDigit d).done = s.done := rfl
@[simp] theorem pushDigit_err (d : Bool) : (s.pushDigit d).err = s.err := rfl
@[simp] theorem pushDigit_cmdDropped (d : Bool) : (s.pushDigit d).cmdDropped = s.cmdDropped := rfl
@[simp] theorem pushDigit_phase (d : Bool) : (s.pushDigit d).phase = s.phase := rfl
@[simp] theorem pushDigit_extraInput (d : Bool) : (s.pushDigit d).extraInput = s.extraInput := rfl
@[simp] theorem pushDigit_errCode (d : Bool) : (s.pushDigit d).errCode = s.errCode := rfl
@[simp] theorem pushDigit_cmd (d : Bool) : (s.pushDigit d).cmd = s.cmd := rfl
@[simp] theorem pushDigit_stage (d : Bool) : (s.pushDigit d).stage = s.stage := rfl
@[simp] theorem pushDigit_doneIE (d : Bool) : (s.pushDigit d).doneIE = s.doneIE := rfl
@[simp] theorem pushDigit_donePend (d : Bool) : (s.pushDigit d).donePend = s.donePend := rfl
@[simp] theorem pushDigit_srcAddr (d : Bool) : (s.pushDigit d).srcAddr = s.srcAddr := rfl
@[simp] theorem pushDigit_srcLen (d : Bool) : (s.pushDigit d).srcLen = s.srcLen := rfl
@[simp] theorem pushDigit_srcPos (d : Bool) : (s.pushDigit d).srcPos = s.srcPos := rfl
@[simp] theorem pushDigit_dstAddr (d : Bool) : (s.pushDigit d).dstAddr = s.dstAddr := rfl
@[simp] theorem pushDigit_dstCap (d : Bool) : (s.pushDigit d).dstCap = s.dstCap := rfl
@[simp] theorem pushDigit_dstLen (d : Bool) : (s.pushDigit d).dstLen = s.dstLen := rfl
@[simp] theorem pushDigit_errInfo (d : Bool) : (s.pushDigit d).errInfo = s.errInfo := rfl
@[simp] theorem pushDigit_freqSel (d : Bool) : (s.pushDigit d).freqSel = s.freqSel := rfl
@[simp] theorem pushDigit_codeSym (d : Bool) : (s.pushDigit d).codeSym = s.codeSym := rfl
@[simp] theorem pushDigit_codeChunk (d : Bool) : (s.pushDigit d).codeChunk = s.codeChunk := rfl
@[simp] theorem pushDigit_nodeSel (d : Bool) : (s.pushDigit d).nodeSel = s.nodeSel := rfl
@[simp] theorem pushDigit_inReset (d : Bool) : (s.pushDigit d).inReset = s.inReset := rfl
@[simp] theorem pushDigit_freq (d : Bool) : (s.pushDigit d).freq = s.freq := rfl
@[simp] theorem pushDigit_node (d : Bool) : (s.pushDigit d).node = s.node := rfl
@[simp] theorem pushDigit_tree (d : Bool) : (s.pushDigit d).tree = s.tree := rfl
@[simp] theorem pushDigit_code (d : Bool) : (s.pushDigit d).code = s.code := rfl
@[simp] theorem pushDigit_todo (d : Bool) : (s.pushDigit d).todo = s.todo := rfl
@[simp] theorem pushDigit_queue (d : Bool) : (s.pushDigit d).queue = s.queue := rfl
@[simp] theorem pushDigit_acc (d : Bool) : (s.pushDigit d).acc = s.acc ++ [d] := rfl
@[simp] theorem pushDigit_walk (d : Bool) : (s.pushDigit d).walk = s.walk := rfl
@[simp] theorem pushDigit_mem (d : Bool) : (s.pushDigit d).mem = s.mem := rfl
@[simp] theorem pushDigit_host (d : Bool) : (s.pushDigit d).host = s.host := rfl
@[simp] theorem pushDigit_hostData (d : Bool) : (s.pushDigit d).hostData = s.hostData := rfl
@[simp] theorem pushDigit_bus (d : Bool) : (s.pushDigit d).bus = s.bus := rfl
@[simp] theorem pushDigit_draws (d : Bool) : (s.pushDigit d).draws = s.draws := rfl
@[simp] theorem pushDigit_srcTouched (d : Bool) : (s.pushDigit d).srcTouched = s.srcTouched := rfl
@[simp] theorem pushDigit_dstTouched (d : Bool) : (s.pushDigit d).dstTouched = s.dstTouched := rfl
@[simp] theorem pushDigit_undo (d : Bool) : (s.pushDigit d).undo = s.undo := rfl
@[simp] theorem pushDigit_mmioBase (d : Bool) : (s.pushDigit d).mmioBase = s.mmioBase := rfl

@[simp] theorem emptyAcc_busy : s.emptyAcc.busy = s.busy := rfl
@[simp] theorem emptyAcc_done : s.emptyAcc.done = s.done := rfl
@[simp] theorem emptyAcc_err : s.emptyAcc.err = s.err := rfl
@[simp] theorem emptyAcc_cmdDropped : s.emptyAcc.cmdDropped = s.cmdDropped := rfl
@[simp] theorem emptyAcc_phase : s.emptyAcc.phase = s.phase := rfl
@[simp] theorem emptyAcc_extraInput : s.emptyAcc.extraInput = s.extraInput := rfl
@[simp] theorem emptyAcc_errCode : s.emptyAcc.errCode = s.errCode := rfl
@[simp] theorem emptyAcc_cmd : s.emptyAcc.cmd = s.cmd := rfl
@[simp] theorem emptyAcc_stage : s.emptyAcc.stage = s.stage := rfl
@[simp] theorem emptyAcc_doneIE : s.emptyAcc.doneIE = s.doneIE := rfl
@[simp] theorem emptyAcc_donePend : s.emptyAcc.donePend = s.donePend := rfl
@[simp] theorem emptyAcc_srcAddr : s.emptyAcc.srcAddr = s.srcAddr := rfl
@[simp] theorem emptyAcc_srcLen : s.emptyAcc.srcLen = s.srcLen := rfl
@[simp] theorem emptyAcc_srcPos : s.emptyAcc.srcPos = s.srcPos := rfl
@[simp] theorem emptyAcc_dstAddr : s.emptyAcc.dstAddr = s.dstAddr := rfl
@[simp] theorem emptyAcc_dstCap : s.emptyAcc.dstCap = s.dstCap := rfl
@[simp] theorem emptyAcc_dstLen : s.emptyAcc.dstLen = s.dstLen := rfl
@[simp] theorem emptyAcc_errInfo : s.emptyAcc.errInfo = s.errInfo := rfl
@[simp] theorem emptyAcc_freqSel : s.emptyAcc.freqSel = s.freqSel := rfl
@[simp] theorem emptyAcc_codeSym : s.emptyAcc.codeSym = s.codeSym := rfl
@[simp] theorem emptyAcc_codeChunk : s.emptyAcc.codeChunk = s.codeChunk := rfl
@[simp] theorem emptyAcc_nodeSel : s.emptyAcc.nodeSel = s.nodeSel := rfl
@[simp] theorem emptyAcc_inReset : s.emptyAcc.inReset = s.inReset := rfl
@[simp] theorem emptyAcc_freq : s.emptyAcc.freq = s.freq := rfl
@[simp] theorem emptyAcc_node : s.emptyAcc.node = s.node := rfl
@[simp] theorem emptyAcc_tree : s.emptyAcc.tree = s.tree := rfl
@[simp] theorem emptyAcc_code : s.emptyAcc.code = s.code := rfl
@[simp] theorem emptyAcc_todo : s.emptyAcc.todo = s.todo := rfl
@[simp] theorem emptyAcc_queue : s.emptyAcc.queue = s.queue := rfl
@[simp] theorem emptyAcc_acc : s.emptyAcc.acc = [] := rfl
@[simp] theorem emptyAcc_walk : s.emptyAcc.walk = s.walk := rfl
@[simp] theorem emptyAcc_mem : s.emptyAcc.mem = s.mem := rfl
@[simp] theorem emptyAcc_host : s.emptyAcc.host = s.host := rfl
@[simp] theorem emptyAcc_hostData : s.emptyAcc.hostData = s.hostData := rfl
@[simp] theorem emptyAcc_bus : s.emptyAcc.bus = s.bus := rfl
@[simp] theorem emptyAcc_draws : s.emptyAcc.draws = s.draws := rfl
@[simp] theorem emptyAcc_srcTouched : s.emptyAcc.srcTouched = s.srcTouched := rfl
@[simp] theorem emptyAcc_dstTouched : s.emptyAcc.dstTouched = s.dstTouched := rfl
@[simp] theorem emptyAcc_undo : s.emptyAcc.undo = s.undo := rfl
@[simp] theorem emptyAcc_mmioBase : s.emptyAcc.mmioBase = s.mmioBase := rfl

@[simp] theorem walkTo_busy (n : BitVec 10) : (s.walkTo n).busy = s.busy := rfl
@[simp] theorem walkTo_done (n : BitVec 10) : (s.walkTo n).done = s.done := rfl
@[simp] theorem walkTo_err (n : BitVec 10) : (s.walkTo n).err = s.err := rfl
@[simp] theorem walkTo_cmdDropped (n : BitVec 10) : (s.walkTo n).cmdDropped = s.cmdDropped := rfl
@[simp] theorem walkTo_phase (n : BitVec 10) : (s.walkTo n).phase = s.phase := rfl
@[simp] theorem walkTo_extraInput (n : BitVec 10) : (s.walkTo n).extraInput = s.extraInput := rfl
@[simp] theorem walkTo_errCode (n : BitVec 10) : (s.walkTo n).errCode = s.errCode := rfl
@[simp] theorem walkTo_cmd (n : BitVec 10) : (s.walkTo n).cmd = s.cmd := rfl
@[simp] theorem walkTo_stage (n : BitVec 10) : (s.walkTo n).stage = s.stage := rfl
@[simp] theorem walkTo_doneIE (n : BitVec 10) : (s.walkTo n).doneIE = s.doneIE := rfl
@[simp] theorem walkTo_donePend (n : BitVec 10) : (s.walkTo n).donePend = s.donePend := rfl
@[simp] theorem walkTo_srcAddr (n : BitVec 10) : (s.walkTo n).srcAddr = s.srcAddr := rfl
@[simp] theorem walkTo_srcLen (n : BitVec 10) : (s.walkTo n).srcLen = s.srcLen := rfl
@[simp] theorem walkTo_srcPos (n : BitVec 10) : (s.walkTo n).srcPos = s.srcPos := rfl
@[simp] theorem walkTo_dstAddr (n : BitVec 10) : (s.walkTo n).dstAddr = s.dstAddr := rfl
@[simp] theorem walkTo_dstCap (n : BitVec 10) : (s.walkTo n).dstCap = s.dstCap := rfl
@[simp] theorem walkTo_dstLen (n : BitVec 10) : (s.walkTo n).dstLen = s.dstLen := rfl
@[simp] theorem walkTo_errInfo (n : BitVec 10) : (s.walkTo n).errInfo = s.errInfo := rfl
@[simp] theorem walkTo_freqSel (n : BitVec 10) : (s.walkTo n).freqSel = s.freqSel := rfl
@[simp] theorem walkTo_codeSym (n : BitVec 10) : (s.walkTo n).codeSym = s.codeSym := rfl
@[simp] theorem walkTo_codeChunk (n : BitVec 10) : (s.walkTo n).codeChunk = s.codeChunk := rfl
@[simp] theorem walkTo_nodeSel (n : BitVec 10) : (s.walkTo n).nodeSel = s.nodeSel := rfl
@[simp] theorem walkTo_inReset (n : BitVec 10) : (s.walkTo n).inReset = s.inReset := rfl
@[simp] theorem walkTo_freq (n : BitVec 10) : (s.walkTo n).freq = s.freq := rfl
@[simp] theorem walkTo_node (n : BitVec 10) : (s.walkTo n).node = s.node := rfl
@[simp] theorem walkTo_tree (n : BitVec 10) : (s.walkTo n).tree = s.tree := rfl
@[simp] theorem walkTo_code (n : BitVec 10) : (s.walkTo n).code = s.code := rfl
@[simp] theorem walkTo_todo (n : BitVec 10) : (s.walkTo n).todo = s.todo := rfl
@[simp] theorem walkTo_queue (n : BitVec 10) : (s.walkTo n).queue = s.queue := rfl
@[simp] theorem walkTo_acc (n : BitVec 10) : (s.walkTo n).acc = s.acc := rfl
@[simp] theorem walkTo_walk (n : BitVec 10) : (s.walkTo n).walk = ⟨n, s.walk.byte, s.walk.bit⟩ := rfl
@[simp] theorem walkTo_mem (n : BitVec 10) : (s.walkTo n).mem = s.mem := rfl
@[simp] theorem walkTo_host (n : BitVec 10) : (s.walkTo n).host = s.host := rfl
@[simp] theorem walkTo_hostData (n : BitVec 10) : (s.walkTo n).hostData = s.hostData := rfl
@[simp] theorem walkTo_bus (n : BitVec 10) : (s.walkTo n).bus = s.bus := rfl
@[simp] theorem walkTo_draws (n : BitVec 10) : (s.walkTo n).draws = s.draws := rfl
@[simp] theorem walkTo_srcTouched (n : BitVec 10) : (s.walkTo n).srcTouched = s.srcTouched := rfl
@[simp] theorem walkTo_dstTouched (n : BitVec 10) : (s.walkTo n).dstTouched = s.dstTouched := rfl
@[simp] theorem walkTo_undo (n : BitVec 10) : (s.walkTo n).undo = s.undo := rfl
@[simp] theorem walkTo_mmioBase (n : BitVec 10) : (s.walkTo n).mmioBase = s.mmioBase := rfl

@[simp] theorem walkByte_busy (b : Byte) : (s.walkByte b).busy = s.busy := rfl
@[simp] theorem walkByte_done (b : Byte) : (s.walkByte b).done = s.done := rfl
@[simp] theorem walkByte_err (b : Byte) : (s.walkByte b).err = s.err := rfl
@[simp] theorem walkByte_cmdDropped (b : Byte) : (s.walkByte b).cmdDropped = s.cmdDropped := rfl
@[simp] theorem walkByte_phase (b : Byte) : (s.walkByte b).phase = s.phase := rfl
@[simp] theorem walkByte_extraInput (b : Byte) : (s.walkByte b).extraInput = s.extraInput := rfl
@[simp] theorem walkByte_errCode (b : Byte) : (s.walkByte b).errCode = s.errCode := rfl
@[simp] theorem walkByte_cmd (b : Byte) : (s.walkByte b).cmd = s.cmd := rfl
@[simp] theorem walkByte_stage (b : Byte) : (s.walkByte b).stage = s.stage := rfl
@[simp] theorem walkByte_doneIE (b : Byte) : (s.walkByte b).doneIE = s.doneIE := rfl
@[simp] theorem walkByte_donePend (b : Byte) : (s.walkByte b).donePend = s.donePend := rfl
@[simp] theorem walkByte_srcAddr (b : Byte) : (s.walkByte b).srcAddr = s.srcAddr := rfl
@[simp] theorem walkByte_srcLen (b : Byte) : (s.walkByte b).srcLen = s.srcLen := rfl
@[simp] theorem walkByte_srcPos (b : Byte) : (s.walkByte b).srcPos = s.srcPos := rfl
@[simp] theorem walkByte_dstAddr (b : Byte) : (s.walkByte b).dstAddr = s.dstAddr := rfl
@[simp] theorem walkByte_dstCap (b : Byte) : (s.walkByte b).dstCap = s.dstCap := rfl
@[simp] theorem walkByte_dstLen (b : Byte) : (s.walkByte b).dstLen = s.dstLen := rfl
@[simp] theorem walkByte_errInfo (b : Byte) : (s.walkByte b).errInfo = s.errInfo := rfl
@[simp] theorem walkByte_freqSel (b : Byte) : (s.walkByte b).freqSel = s.freqSel := rfl
@[simp] theorem walkByte_codeSym (b : Byte) : (s.walkByte b).codeSym = s.codeSym := rfl
@[simp] theorem walkByte_codeChunk (b : Byte) : (s.walkByte b).codeChunk = s.codeChunk := rfl
@[simp] theorem walkByte_nodeSel (b : Byte) : (s.walkByte b).nodeSel = s.nodeSel := rfl
@[simp] theorem walkByte_inReset (b : Byte) : (s.walkByte b).inReset = s.inReset := rfl
@[simp] theorem walkByte_freq (b : Byte) : (s.walkByte b).freq = s.freq := rfl
@[simp] theorem walkByte_node (b : Byte) : (s.walkByte b).node = s.node := rfl
@[simp] theorem walkByte_tree (b : Byte) : (s.walkByte b).tree = s.tree := rfl
@[simp] theorem walkByte_code (b : Byte) : (s.walkByte b).code = s.code := rfl
@[simp] theorem walkByte_todo (b : Byte) : (s.walkByte b).todo = s.todo := rfl
@[simp] theorem walkByte_queue (b : Byte) : (s.walkByte b).queue = s.queue := rfl
@[simp] theorem walkByte_acc (b : Byte) : (s.walkByte b).acc = s.acc := rfl
@[simp] theorem walkByte_walk (b : Byte) : (s.walkByte b).walk = ⟨s.walk.node, b, 7#3⟩ := rfl
@[simp] theorem walkByte_mem (b : Byte) : (s.walkByte b).mem = s.mem := rfl
@[simp] theorem walkByte_host (b : Byte) : (s.walkByte b).host = s.host := rfl
@[simp] theorem walkByte_hostData (b : Byte) : (s.walkByte b).hostData = s.hostData := rfl
@[simp] theorem walkByte_bus (b : Byte) : (s.walkByte b).bus = s.bus := rfl
@[simp] theorem walkByte_draws (b : Byte) : (s.walkByte b).draws = s.draws := rfl
@[simp] theorem walkByte_srcTouched (b : Byte) : (s.walkByte b).srcTouched = s.srcTouched := rfl
@[simp] theorem walkByte_dstTouched (b : Byte) : (s.walkByte b).dstTouched = s.dstTouched := rfl
@[simp] theorem walkByte_undo (b : Byte) : (s.walkByte b).undo = s.undo := rfl
@[simp] theorem walkByte_mmioBase (b : Byte) : (s.walkByte b).mmioBase = s.mmioBase := rfl

@[simp] theorem nextBit_busy : s.nextBit.busy = s.busy := rfl
@[simp] theorem nextBit_done : s.nextBit.done = s.done := rfl
@[simp] theorem nextBit_err : s.nextBit.err = s.err := rfl
@[simp] theorem nextBit_cmdDropped : s.nextBit.cmdDropped = s.cmdDropped := rfl
@[simp] theorem nextBit_phase : s.nextBit.phase = s.phase := rfl
@[simp] theorem nextBit_extraInput : s.nextBit.extraInput = s.extraInput := rfl
@[simp] theorem nextBit_errCode : s.nextBit.errCode = s.errCode := rfl
@[simp] theorem nextBit_cmd : s.nextBit.cmd = s.cmd := rfl
@[simp] theorem nextBit_stage : s.nextBit.stage = s.stage := rfl
@[simp] theorem nextBit_doneIE : s.nextBit.doneIE = s.doneIE := rfl
@[simp] theorem nextBit_donePend : s.nextBit.donePend = s.donePend := rfl
@[simp] theorem nextBit_srcAddr : s.nextBit.srcAddr = s.srcAddr := rfl
@[simp] theorem nextBit_srcLen : s.nextBit.srcLen = s.srcLen := rfl
@[simp] theorem nextBit_srcPos : s.nextBit.srcPos = s.srcPos := rfl
@[simp] theorem nextBit_dstAddr : s.nextBit.dstAddr = s.dstAddr := rfl
@[simp] theorem nextBit_dstCap : s.nextBit.dstCap = s.dstCap := rfl
@[simp] theorem nextBit_dstLen : s.nextBit.dstLen = s.dstLen := rfl
@[simp] theorem nextBit_errInfo : s.nextBit.errInfo = s.errInfo := rfl
@[simp] theorem nextBit_freqSel : s.nextBit.freqSel = s.freqSel := rfl
@[simp] theorem nextBit_codeSym : s.nextBit.codeSym = s.codeSym := rfl
@[simp] theorem nextBit_codeChunk : s.nextBit.codeChunk = s.codeChunk := rfl
@[simp] theorem nextBit_nodeSel : s.nextBit.nodeSel = s.nodeSel := rfl
@[simp] theorem nextBit_inReset : s.nextBit.inReset = s.inReset := rfl
@[simp] theorem nextBit_freq : s.nextBit.freq = s.freq := rfl
@[simp] theorem nextBit_node : s.nextBit.node = s.node := rfl
@[simp] theorem nextBit_tree : s.nextBit.tree = s.tree := rfl
@[simp] theorem nextBit_code : s.nextBit.code = s.code := rfl
@[simp] theorem nextBit_todo : s.nextBit.todo = s.todo := rfl
@[simp] theorem nextBit_queue : s.nextBit.queue = s.queue := rfl
@[simp] theorem nextBit_acc : s.nextBit.acc = s.acc := rfl
@[simp] theorem nextBit_walk : s.nextBit.walk = ⟨s.walk.node, s.walk.byte, s.walk.bit - 1#3⟩ := rfl
@[simp] theorem nextBit_mem : s.nextBit.mem = s.mem := rfl
@[simp] theorem nextBit_host : s.nextBit.host = s.host := rfl
@[simp] theorem nextBit_hostData : s.nextBit.hostData = s.hostData := rfl
@[simp] theorem nextBit_bus : s.nextBit.bus = s.bus := rfl
@[simp] theorem nextBit_draws : s.nextBit.draws = s.draws := rfl
@[simp] theorem nextBit_srcTouched : s.nextBit.srcTouched = s.srcTouched := rfl
@[simp] theorem nextBit_dstTouched : s.nextBit.dstTouched = s.dstTouched := rfl
@[simp] theorem nextBit_undo : s.nextBit.undo = s.undo := rfl
@[simp] theorem nextBit_mmioBase : s.nextBit.mmioBase = s.mmioBase := rfl

@[simp] theorem stopDecode_busy (pos : Nat) : (s.stopDecode pos).busy = s.busy := rfl
@[simp] theorem stopDecode_done (pos : Nat) : (s.stopDecode pos).done = s.done := rfl
@[simp] theorem stopDecode_err (pos : Nat) : (s.stopDecode pos).err = s.err := rfl
@[simp] theorem stopDecode_cmdDropped (pos : Nat) : (s.stopDecode pos).cmdDropped = s.cmdDropped := rfl
@[simp] theorem stopDecode_phase (pos : Nat) : (s.stopDecode pos).phase = s.phase := rfl
@[simp] theorem stopDecode_extraInput (pos : Nat) : (s.stopDecode pos).extraInput = decide (pos < s.srcLen.toNat) := rfl
@[simp] theorem stopDecode_errCode (pos : Nat) : (s.stopDecode pos).errCode = s.errCode := rfl
@[simp] theorem stopDecode_cmd (pos : Nat) : (s.stopDecode pos).cmd = s.cmd := rfl
@[simp] theorem stopDecode_stage (pos : Nat) : (s.stopDecode pos).stage = s.stage := rfl
@[simp] theorem stopDecode_doneIE (pos : Nat) : (s.stopDecode pos).doneIE = s.doneIE := rfl
@[simp] theorem stopDecode_donePend (pos : Nat) : (s.stopDecode pos).donePend = s.donePend := rfl
@[simp] theorem stopDecode_srcAddr (pos : Nat) : (s.stopDecode pos).srcAddr = s.srcAddr := rfl
@[simp] theorem stopDecode_srcLen (pos : Nat) : (s.stopDecode pos).srcLen = s.srcLen := rfl
@[simp] theorem stopDecode_srcPos (pos : Nat) : (s.stopDecode pos).srcPos = BitVec.ofNat 32 pos := rfl
@[simp] theorem stopDecode_dstAddr (pos : Nat) : (s.stopDecode pos).dstAddr = s.dstAddr := rfl
@[simp] theorem stopDecode_dstCap (pos : Nat) : (s.stopDecode pos).dstCap = s.dstCap := rfl
@[simp] theorem stopDecode_dstLen (pos : Nat) : (s.stopDecode pos).dstLen = s.dstLen := rfl
@[simp] theorem stopDecode_errInfo (pos : Nat) : (s.stopDecode pos).errInfo = s.errInfo := rfl
@[simp] theorem stopDecode_freqSel (pos : Nat) : (s.stopDecode pos).freqSel = s.freqSel := rfl
@[simp] theorem stopDecode_codeSym (pos : Nat) : (s.stopDecode pos).codeSym = s.codeSym := rfl
@[simp] theorem stopDecode_codeChunk (pos : Nat) : (s.stopDecode pos).codeChunk = s.codeChunk := rfl
@[simp] theorem stopDecode_nodeSel (pos : Nat) : (s.stopDecode pos).nodeSel = s.nodeSel := rfl
@[simp] theorem stopDecode_inReset (pos : Nat) : (s.stopDecode pos).inReset = s.inReset := rfl
@[simp] theorem stopDecode_freq (pos : Nat) : (s.stopDecode pos).freq = s.freq := rfl
@[simp] theorem stopDecode_node (pos : Nat) : (s.stopDecode pos).node = s.node := rfl
@[simp] theorem stopDecode_tree (pos : Nat) : (s.stopDecode pos).tree = s.tree := rfl
@[simp] theorem stopDecode_code (pos : Nat) : (s.stopDecode pos).code = s.code := rfl
@[simp] theorem stopDecode_todo (pos : Nat) : (s.stopDecode pos).todo = s.todo := rfl
@[simp] theorem stopDecode_queue (pos : Nat) : (s.stopDecode pos).queue = s.queue := rfl
@[simp] theorem stopDecode_acc (pos : Nat) : (s.stopDecode pos).acc = s.acc := rfl
@[simp] theorem stopDecode_walk (pos : Nat) : (s.stopDecode pos).walk = s.walk := rfl
@[simp] theorem stopDecode_mem (pos : Nat) : (s.stopDecode pos).mem = s.mem := rfl
@[simp] theorem stopDecode_host (pos : Nat) : (s.stopDecode pos).host = s.host := rfl
@[simp] theorem stopDecode_hostData (pos : Nat) : (s.stopDecode pos).hostData = s.hostData := rfl
@[simp] theorem stopDecode_bus (pos : Nat) : (s.stopDecode pos).bus = s.bus := rfl
@[simp] theorem stopDecode_draws (pos : Nat) : (s.stopDecode pos).draws = s.draws := rfl
@[simp] theorem stopDecode_srcTouched (pos : Nat) : (s.stopDecode pos).srcTouched = s.srcTouched := rfl
@[simp] theorem stopDecode_dstTouched (pos : Nat) : (s.stopDecode pos).dstTouched = s.dstTouched := rfl
@[simp] theorem stopDecode_undo (pos : Nat) : (s.stopDecode pos).undo = s.undo := rfl
@[simp] theorem stopDecode_mmioBase (pos : Nat) : (s.stopDecode pos).mmioBase = s.mmioBase := rfl

@[simp] theorem reset_busy : State.reset.busy = false := rfl
@[simp] theorem reset_done : State.reset.done = false := rfl
@[simp] theorem reset_err : State.reset.err = false := rfl
@[simp] theorem reset_cmdDropped : State.reset.cmdDropped = false := rfl
@[simp] theorem reset_phase : State.reset.phase = .empty := rfl
@[simp] theorem reset_extraInput : State.reset.extraInput = false := rfl
@[simp] theorem reset_errCode : State.reset.errCode = .none := rfl
@[simp] theorem reset_cmd : State.reset.cmd = 0#4 := rfl
@[simp] theorem reset_stage : State.reset.stage = 0#4 := rfl
@[simp] theorem reset_doneIE : State.reset.doneIE = false := rfl
@[simp] theorem reset_donePend : State.reset.donePend = false := rfl
@[simp] theorem reset_srcAddr : State.reset.srcAddr = 0#32 := rfl
@[simp] theorem reset_srcLen : State.reset.srcLen = 0#32 := rfl
@[simp] theorem reset_srcPos : State.reset.srcPos = 0#32 := rfl
@[simp] theorem reset_dstAddr : State.reset.dstAddr = 0#32 := rfl
@[simp] theorem reset_dstCap : State.reset.dstCap = 0#32 := rfl
@[simp] theorem reset_dstLen : State.reset.dstLen = 0#32 := rfl
@[simp] theorem reset_errInfo : State.reset.errInfo = 0#32 := rfl
@[simp] theorem reset_freqSel : State.reset.freqSel = 0#9 := rfl
@[simp] theorem reset_codeSym : State.reset.codeSym = 0#9 := rfl
@[simp] theorem reset_codeChunk : State.reset.codeChunk = 0#3 := rfl
@[simp] theorem reset_nodeSel : State.reset.nodeSel = 0#10 := rfl
@[simp] theorem reset_inReset : State.reset.inReset = false := rfl
@[simp] theorem reset_freq : State.reset.freq = Vector.replicate 257 FreqEntry.absent := rfl
@[simp] theorem reset_node : State.reset.node = Vector.replicate 513 NodeEntry.absent := rfl
@[simp] theorem reset_tree : State.reset.tree = TreeReg.absent := rfl
@[simp] theorem reset_code : State.reset.code = Vector.replicate 257 CodeEntry.absent := rfl
@[simp] theorem reset_todo : State.reset.todo = [] := rfl
@[simp] theorem reset_queue : State.reset.queue = [] := rfl
@[simp] theorem reset_acc : State.reset.acc = [] := rfl
@[simp] theorem reset_walk : State.reset.walk = Walk.atRest := rfl
@[simp] theorem reset_mem : State.reset.mem = [] := rfl
@[simp] theorem reset_host : State.reset.host = [] := rfl
@[simp] theorem reset_hostData : State.reset.hostData = [] := rfl
@[simp] theorem reset_bus : State.reset.bus = [] := rfl
@[simp] theorem reset_draws : State.reset.draws = 0 := rfl
@[simp] theorem reset_srcTouched : State.reset.srcTouched = [] := rfl
@[simp] theorem reset_dstTouched : State.reset.dstTouched = [] := rfl
@[simp] theorem reset_undo : State.reset.undo = [] := rfl
@[simp] theorem reset_mmioBase : State.reset.mmioBase = Config.mmioBase := rfl

end Sys2Proof.Machine.State
end

