-- ==== Sys2Proof/Laws/Cmd.lean ====
section
/-! SUPPORT. What each shared operation of the engine can do, said once: the sequencing of `Cmd`, what it keeps, DMA accesses,
`emit`. -/

namespace Sys2Proof.Machine

variable {α β : Type}

/-! ### Sequencing -/

theorem Cmd.bind_eq (x : Cmd α) (f : α → Cmd β) (s : State) :
    (x >>= f) s = (match x s with
      | .ok a t => f a t
      | .error e t => .error e t) := by
  change EStateM.bind x f s = _
  unfold EStateM.bind
  cases x s <;> rfl

theorem Cmd.bind_of_ok {x : Cmd α} {f : α → Cmd β} {s t : State} {a : α} (h : x s = .ok a t) :
    (x >>= f) s = f a t := by
  rw [Cmd.bind_eq, h]

theorem Cmd.bind_of_error {x : Cmd α} {f : α → Cmd β} {s t : State} {e : Stop} (h : x s = .error e t) :
    (x >>= f) s = .error e t := by
  rw [Cmd.bind_eq, h]

/-- A sequence that goes on went on in both parts. -/
theorem Cmd.bind_ok_iff {x : Cmd α} {f : α → Cmd β} {s u : State} {b : β} :
    (x >>= f) s = .ok b u ↔ ∃ a t, x s = .ok a t ∧ f a t = .ok b u := by
  rw [Cmd.bind_eq]
  constructor
  · intro h
    split at h
    · rename_i a t hx; exact ⟨a, t, hx, h⟩
    · cases h
  · rintro ⟨a, t, hx, hf⟩
    rw [hx]; exact hf

/-- A sequence that stops stopped in its first part or in its second. -/
theorem Cmd.bind_error_iff {x : Cmd α} {f : α → Cmd β} {s u : State} {e : Stop} :
    (x >>= f) s = .error e u ↔ x s = .error e u ∨ ∃ a t, x s = .ok a t ∧ f a t = .error e u := by
  rw [Cmd.bind_eq]
  constructor
  · intro h
    split at h
    · rename_i a t hx; exact .inr ⟨a, t, hx, h⟩
    · rename_i e' t hx; cases h; exact .inl hx
  · rintro (hx | ⟨a, t, hx, hf⟩)
    · rw [hx]
    · rw [hx]; exact hf

@[simp] theorem Cmd.pure_run (a : α) (s : State) : (pure a : Cmd α) s = .ok a s := rfl

@[simp] theorem Cmd.get_run (s : State) : (get : Cmd State) s = .ok s s := rfl

@[simp] theorem Cmd.get_bind (f : State → Cmd β) (s : State) : ((get : Cmd State) >>= f) s = f s s := rfl

@[simp] theorem Cmd.pure_bind (a : α) (f : α → Cmd β) (s : State) : ((pure a : Cmd α) >>= f) s = f a s := rfl

@[simp] theorem Cmd.raise_run (c : ErrCode) (i : Word) (s : State) : (raise c i : Cmd α) s = .error (.error c i) s := rfl

@[simp] theorem Cmd.throw_run (e : Stop) (s : State) : (throw e : Cmd α) s = .error e s := rfl

@[simp] theorem Cmd.update_run (f : State → State) (s : State) : update f s = .ok () (f s) := rfl

@[simp] theorem Cmd.update_bind (g : State → State) (f : Unit → Cmd β) (s : State) :
    (update g >>= f) s = f () (g s) := rfl

/-! ### What an operation keeps -/

/-- `c` run in `s` ends in a state with `P`, however it ends. -/
def Cmd.Ends (P : State → Prop) (c : Cmd α) (s : State) : Prop :=
  match c s with
  | .ok _ t => P t
  | .error _ t => P t

/-- `c` keeps `P`, however it ends. -/
def Cmd.Keeps (P : State → Prop) (c : Cmd α) : Prop := ∀ s, P s → Cmd.Ends P c s

theorem Cmd.Keeps.ok {P : State → Prop} {c : Cmd α} (h : Cmd.Keeps P c) {s t : State} {a : α} (hs : P s)
    (hc : c s = .ok a t) : P t := by
  have := h s hs
  unfold Cmd.Ends at this
  rw [hc] at this
  exact this

theorem Cmd.Keeps.error {P : State → Prop} {c : Cmd α} (h : Cmd.Keeps P c) {s t : State} {e : Stop} (hs : P s)
    (hc : c s = .error e t) : P t := by
  have := h s hs
  unfold Cmd.Ends at this
  rw [hc] at this
  exact this

theorem Cmd.Keeps.bind {P : State → Prop} {x : Cmd α} {f : α → Cmd β} (hx : Cmd.Keeps P x)
    (hf : ∀ a, Cmd.Keeps P (f a)) : Cmd.Keeps P (x >>= f) := by
  intro s hs
  have h := hx s hs
  unfold Cmd.Ends at h ⊢
  rw [Cmd.bind_eq]
  cases hxs : x s with
  | ok a t => rw [hxs] at h; exact hf a t h
  | error e t => rw [hxs] at h; exact h

theorem Cmd.Keeps.pure {P : State → Prop} (a : α) : Cmd.Keeps P (pure a : Cmd α) := fun _ h => h

theorem Cmd.Keeps.raise {P : State → Prop} (c : ErrCode) (i : Word) : Cmd.Keeps P (raise c i : Cmd α) := fun _ h => h

theorem Cmd.Keeps.throw {P : State → Prop} (e : Stop) : Cmd.Keeps P (throw e : Cmd α) := fun _ h => h

theorem Cmd.Keeps.get {P : State → Prop} : Cmd.Keeps P (get : Cmd State) := fun _ h => h

theorem Cmd.Keeps.update {P : State → Prop} {f : State → State} (h : ∀ s, P s → P (f s)) :
    Cmd.Keeps P (update f) := fun s hs => h s hs

/-- Reading the state first: what follows may use what is known of it. -/
theorem Cmd.Keeps.get_bind {P : State → Prop} {f : State → Cmd β}
    (h : ∀ s, P s → Cmd.Ends P (f s) s) : Cmd.Keeps P ((MonadState.get : Cmd State) >>= f) := fun s hs => h s hs

theorem Cmd.Keeps.ite {P : State → Prop} {p : Prop} [Decidable p] {x y : Cmd α} (hx : Cmd.Keeps P x)
    (hy : Cmd.Keeps P y) : Cmd.Keeps P (if p then x else y) := by
  split
  · exact hx
  · exact hy

/-! ### What the host and host memory decide -/

theorem hostWaits_congr {s t : State} (h : t.host = s.host) : t.hostWaits = s.hostWaits := by
  simp only [State.hostWaits, h]

theorem busAt_congr {s t : State} (h : t.bus = s.bus) (a : Nat) : t.busAt a = s.busAt a := by
  simp only [State.busAt, h]

/-! ### DMA accesses -/

/-- A DMA read that goes through: host memory answers, and the byte is the one it holds, or any value where the host
wrote it while the command ran (20_memory.md R88, 70_reset_and_hazards.md R247). -/
theorem memRead_ok_iff {s t : State} {a : Nat} {b : Byte} :
    memRead a s = .ok b t ↔ a < Config.addrSpace ∧ (s.busAt a).onRead = .completes ∧ fetchByte a s = .ok b t := by
  unfold memRead
  split
  · constructor
    · intro h; cases h
    · omega
  · have ha : a < Config.addrSpace := by omega
    cases (s.busAt a).onRead <;> simp [ha]

/-- A DMA read that is answered gives the byte and changes nothing. -/
theorem memRead_ok {s : State} {a : Nat} (ha : a < Config.addrSpace) (hb : (s.busAt a).onRead = .completes)
    (ht : s.srcTouched = []) : memRead a s = .ok (Memory.read s.mem a) s := by
  unfold memRead fetchByte
  rw [if_neg (by omega), hb]
  simp [ht]

/-- A DMA read answered with a bus error raises SRC_BUS with the address (20_memory.md R87). -/
theorem memRead_busError {s : State} {a : Nat} (ha : a < Config.addrSpace) (hb : (s.busAt a).onRead = .busError) :
    memRead a s = .error (.error .srcBus (BitVec.ofNat 32 a)) s := by
  unfold memRead
  rw [if_neg (by omega), hb]

/-- A DMA read that is not answered leaves the command waiting (60_exceptions.md R220). -/
theorem memRead_waits {s : State} {a : Nat} (ha : a < Config.addrSpace) (hb : (s.busAt a).onRead = .never) :
    memRead a s = .error .waits s := by
  unfold memRead
  rw [if_neg (by omega), hb]

/-- The state after a destination byte is written (44_table_serializer.md R151). -/
def State.wrote (s : State) (v : Byte) : State :=
  { s with
    mem := Memory.write s.mem s.dstByte v
    undo := (s.dstByte, Memory.read s.mem s.dstByte) :: s.undo
    dstLen := s.dstLen + 1#32 }

/-- `emit` with room and an answering memory writes and counts one byte (44_table_serializer.md R151). -/
theorem emit_ok {s : State} {v : Byte} (hr : s.dstLen.toNat < s.dstCap.toNat) (ha : s.dstByte < Config.addrSpace)
    (hb : (s.busAt s.dstByte).onWrite = .completes) (ht : s.dstTouched = []) : emit v s = .ok () (s.wrote v) := by
  unfold emit
  rw [Cmd.get_bind, if_pos hr, Cmd.bind_eq]
  unfold memWrite putByte
  rw [if_neg (by omega), hb]
  simp [ht, State.wrote, State.bumpDstLen, State.store]

/-- `emit` without room raises DST_FULL and writes nothing (44_table_serializer.md R151). -/
theorem emit_full {s : State} {v : Byte} (hr : s.dstCap.toNat ≤ s.dstLen.toNat) :
    emit v s = .error (.error .dstFull s.dstLen) s := by
  unfold emit
  rw [Cmd.get_bind, if_neg (by omega)]
  rfl

/-- `emit` whose write gets a bus error raises DST_BUS with the address and writes nothing (20_memory.md R87). -/
theorem emit_busError {s : State} {v : Byte} (hr : s.dstLen.toNat < s.dstCap.toNat) (ha : s.dstByte < Config.addrSpace)
    (hb : (s.busAt s.dstByte).onWrite = .busError) :
    emit v s = .error (.error .dstBus (BitVec.ofNat 32 s.dstByte)) s := by
  unfold emit
  rw [Cmd.get_bind, if_pos hr, Cmd.bind_eq]
  unfold memWrite
  rw [if_neg (by omega), hb]

end Sys2Proof.Machine
end

