-- ==== Sys2Proof/Laws/Ops.lean ====
section
/-! SUPPORT. What holds whatever the host does: what its operations leave alone while a command runs, what the engine's accesses
keep, the start checks, and how an error is taken (Machine/HostBus.lean, Machine/Ops.lean). -/

namespace Sys2Proof.Machine

/-! ### What the host cannot reach while a command runs -/

/-- The two states hold the same command, operands, session and state inside the command; they differ in what the host
may change while BUSY only (10_state.md R25, 20_memory.md R88): INT_EN, INT_STATUS, the SEL registers, CMD_DROPPED, host
memory, its answers, the marks of 70_reset_and_hazards.md R247, and the host's own data. -/
structure State.SameEngine (s t : State) : Prop where
  busy : t.busy = s.busy
  done : t.done = s.done
  err : t.err = s.err
  phase : t.phase = s.phase
  extraInput : t.extraInput = s.extraInput
  errCode : t.errCode = s.errCode
  cmd : t.cmd = s.cmd
  stage : t.stage = s.stage
  srcAddr : t.srcAddr = s.srcAddr
  srcLen : t.srcLen = s.srcLen
  srcPos : t.srcPos = s.srcPos
  dstAddr : t.dstAddr = s.dstAddr
  dstCap : t.dstCap = s.dstCap
  dstLen : t.dstLen = s.dstLen
  errInfo : t.errInfo = s.errInfo
  freq : t.freq = s.freq
  node : t.node = s.node
  tree : t.tree = s.tree
  code : t.code = s.code
  todo : t.todo = s.todo
  queue : t.queue = s.queue
  acc : t.acc = s.acc
  walk : t.walk = s.walk
  host : t.host = s.host
  undo : t.undo = s.undo
  inReset : t.inReset = s.inReset
  mmioBase : t.mmioBase = s.mmioBase

theorem State.SameEngine.refl (s : State) : s.SameEngine s := by constructor <;> rfl

theorem State.SameEngine.trans {s t u : State} (h : s.SameEngine t) (h' : t.SameEngine u) : s.SameEngine u where
  busy := h'.busy.trans h.busy
  done := h'.done.trans h.done
  err := h'.err.trans h.err
  phase := h'.phase.trans h.phase
  extraInput := h'.extraInput.trans h.extraInput
  errCode := h'.errCode.trans h.errCode
  cmd := h'.cmd.trans h.cmd
  stage := h'.stage.trans h.stage
  srcAddr := h'.srcAddr.trans h.srcAddr
  srcLen := h'.srcLen.trans h.srcLen
  srcPos := h'.srcPos.trans h.srcPos
  dstAddr := h'.dstAddr.trans h.dstAddr
  dstCap := h'.dstCap.trans h.dstCap
  dstLen := h'.dstLen.trans h.dstLen
  errInfo := h'.errInfo.trans h.errInfo
  freq := h'.freq.trans h.freq
  node := h'.node.trans h.node
  tree := h'.tree.trans h.tree
  code := h'.code.trans h.code
  todo := h'.todo.trans h.todo
  queue := h'.queue.trans h.queue
  acc := h'.acc.trans h.acc
  walk := h'.walk.trans h.walk
  host := h'.host.trans h.host
  undo := h'.undo.trans h.undo
  inReset := h'.inReset.trans h.inReset
  mmioBase := h'.mmioBase.trans h.mmioBase

/-- A register write while BUSY (10_state.md R25). -/
theorem regWrite_sameEngine (s : State) (v : Word) (r : Reg) (hb : s.busy = true) :
    s.SameEngine (s.regWrite v r) := by
  cases r
  case intStatus => simp only [State.regWrite]; split <;> constructor <;> rfl
  all_goals dsimp only [State.regWrite]
  all_goals first
    | exact State.SameEngine.refl s
    | (rw [if_pos hb]; exact State.SameEngine.refl s)
    | (rw [if_pos hb]; constructor <;> rfl)
    | (constructor <;> rfl)

/-- No operation of the host reaches the running command, its operands or the session (10_state.md R25, R26; 20_memory.md
R88). -/
theorem hostAct_sameEngine (s : State) (op : HostOp) (hb : s.busy = true) : s.SameEngine (s.hostAct op) := by
  cases op with
  | write off width v =>
    simp only [State.hostAct, State.windowWrite]
    split
    · split
      · exact State.SameEngine.refl s
      · exact regWrite_sameEngine s v _ hb
    · exact State.SameEngine.refl s
  | read off width =>
    simp only [State.hostAct, State.windowRead]
    split
    · split
      · constructor <;> rfl
      · constructor <;> rfl
    · constructor <;> rfl
  | memWrite a v =>
    simp only [State.hostAct, State.hostStore]
    split
    · constructor <;> rfl
    · split <;> constructor <;> rfl
  | memRead a =>
    simp only [State.hostAct, State.hostLoad]
    split <;> constructor <;> rfl
  | answer a r w => constructor <;> rfl
  | reset => exact State.SameEngine.refl s
  | release => exact State.SameEngine.refl s
  | pass => exact State.SameEngine.refl s
  | wait => exact State.SameEngine.refl s

/-! ### The reset input -/

/-- The choices of 70_reset_and_hazards.md R241 change host memory and the count of free values only. -/
theorem restoreSome_eq (s : State) (l : List Host.Cell) :
    s.restoreSome l = { s with mem := (s.restoreSome l).mem, draws := (s.restoreSome l).draws } := by
  induction l generalizing s with
  | nil => rfl
  | cons c l ih =>
    simp only [State.restoreSome]
    rw [ih]
    split <;> rfl

@[simp] theorem resetKeeping_resetKeeping (s : State) : s.resetKeeping.resetKeeping = s.resetKeeping := rfl

/-- While reset is asserted every register reads its table value (70_reset_and_hazards.md R240). -/
theorem resetKeeping_regIdle (s : State) (r : Reg) : s.resetKeeping.regIdle r = State.reset.regIdle r := by
  cases r <;> rfl

/-- While reset is asserted no register write and no command word is taken (70_reset_and_hazards.md R240). -/
theorem writeMove_inReset {s : State} (h : s.inReset = true) (off : BitVec 8) (width : AccessWidth) (v : Word) :
    writeMove s off width v = .settled s := if_pos h

/-- With reset released a write of another register than CMD is that of the window. -/
theorem writeMove_act {s : State} (h : s.inReset = false) {off : BitVec 8} {width : AccessWidth} (v : Word)
    (hc : isCmdWrite off width = false) : writeMove s off width v = .settled (s.hostAct (.write off width v)) := by
  simp [writeMove, h, hc]

/-! ### What the engine's accesses keep -/

/-- A property that the engine's accesses keep, whatever they are. -/
structure Closed (P : State → Prop) : Prop where
  draw : ∀ s, P s → P s.draw.2
  put : ∀ s a v u, P s → P { s.store a v with undo := u }
  bump : ∀ s, P s → P s.bumpDstLen

theorem Closed.and {P Q : State → Prop} (hp : Closed P) (hq : Closed Q) : Closed (fun s => P s ∧ Q s) where
  draw s h := ⟨hp.draw s h.1, hq.draw s h.2⟩
  put s a v u h := ⟨hp.put s a v u h.1, hq.put s a v u h.2⟩
  bump s h := ⟨hp.bump s h.1, hq.bump s h.2⟩

variable {P : State → Prop}

/-- Where a command stops, it stops in a state with `P` whenever its parts do. -/
theorem Cmd.Keeps.of {α : Type} {c : Cmd α} (hok : ∀ s t a, P s → c s = .ok a t → P t)
    (herr : ∀ s t e, P s → c s = .error e t → P t) : Cmd.Keeps P c := by
  intro s hs
  unfold Cmd.Ends
  split
  · rename_i h; exact hok _ _ _ hs h
  · rename_i h; exact herr _ _ _ hs h

/-- A DMA read keeps what is closed. -/
theorem Closed.memRead (hp : Closed P) (a : Nat) : Cmd.Keeps P (memRead a) := by
  refine Cmd.Keeps.of (fun s t b hs h => ?_) (fun s t e hs h => ?_) <;> unfold Machine.memRead fetchByte at h
  · split at h
    · cases h
    · cases hb : (s.busAt a).onRead <;> rw [hb] at h
      · dsimp only at h
        split at h <;> cases h
        · exact hp.draw s hs
        · exact hs
      all_goals cases h
  · split at h
    · cases h; exact hs
    · cases hb : (s.busAt a).onRead <;> rw [hb] at h
      · dsimp only at h; split at h <;> cases h
      all_goals cases h; exact hs

/-- A DMA write keeps what is closed. -/
theorem Closed.memWrite (hp : Closed P) (a : Nat) (v : Byte) : Cmd.Keeps P (memWrite a v) := by
  refine Cmd.Keeps.of (fun s t b hs h => ?_) (fun s t e hs h => ?_) <;> unfold Machine.memWrite putByte at h
  · split at h
    · cases h
    · cases hb : (s.busAt a).onWrite <;> rw [hb] at h
      · dsimp only at h
        split at h <;> cases h
        · exact hp.put _ a _ ((a, Memory.read s.mem a) :: s.undo) (hp.draw s hs)
        · exact hp.put s a v ((a, Memory.read s.mem a) :: s.undo) hs
      all_goals cases h
  · split at h
    · cases h; exact hs
    · cases hb : (s.busAt a).onWrite <;> rw [hb] at h
      · dsimp only at h; split at h <;> cases h
      all_goals cases h; exact hs

/-- `emit` keeps what is closed. -/
theorem Closed.emit (hp : Closed P) (v : Byte) : Cmd.Keeps P (emit v) := by
  refine Cmd.Keeps.get_bind fun s hs => ?_
  split
  · exact (Cmd.Keeps.bind (hp.memWrite _ v) fun _ => Cmd.Keeps.update hp.bump) s hs
  · exact hs

/-! ### The start checks change nothing -/

theorem Cmd.Keeps.needPhase (ok : Phase → Bool) : Cmd.Keeps P (needPhase ok) := by
  refine Cmd.Keeps.get_bind fun s hs => ?_
  split <;> exact hs

theorem Cmd.Keeps.checkSource : Cmd.Keeps P checkSource := by
  refine Cmd.Keeps.get_bind fun s hs => ?_
  split <;> exact hs

theorem Cmd.Keeps.checkDest : Cmd.Keeps P checkDest := by
  refine Cmd.Keeps.get_bind fun s hs => ?_
  split <;> exact hs

theorem Cmd.Keeps.checkOverlap : Cmd.Keeps P checkOverlap := by
  refine Cmd.Keeps.get_bind fun s hs => ?_
  split <;> exact hs

theorem Cmd.Keeps.refuseWindowSource : Cmd.Keeps P refuseWindowSource := by
  refine Cmd.Keeps.get_bind fun s hs => ?_
  split <;> exact hs

theorem Cmd.Keeps.refuseWindowDest : Cmd.Keeps P refuseWindowDest := by
  refine Cmd.Keeps.get_bind fun s hs => ?_
  split <;> exact hs

theorem Cmd.Keeps.startSource : Cmd.Keeps P startSource :=
  Cmd.Keeps.bind Cmd.Keeps.checkSource fun _ => Cmd.Keeps.refuseWindowSource

theorem Cmd.Keeps.startDest : Cmd.Keeps P startDest :=
  Cmd.Keeps.bind Cmd.Keeps.checkDest fun _ => Cmd.Keeps.refuseWindowDest

theorem Cmd.Keeps.startBoth : Cmd.Keeps P startBoth :=
  Cmd.Keeps.bind Cmd.Keeps.checkSource fun _ =>
    Cmd.Keeps.bind Cmd.Keeps.checkDest fun _ =>
      Cmd.Keeps.bind Cmd.Keeps.checkOverlap fun _ =>
        Cmd.Keeps.bind Cmd.Keeps.refuseWindowSource fun _ => Cmd.Keeps.refuseWindowDest

theorem Cmd.Keeps.startChecks (i : Instr) : Cmd.Keeps P (startChecks i) := by
  cases i with
  | clear => exact Cmd.Keeps.pure ()
  | count => exact Cmd.Keeps.startSource
  | build => exact Cmd.Keeps.needPhase (fun p => p.atLeast .counted)
  | derive => exact Cmd.Keeps.needPhase (fun p => p.atLeast .built)
  | serialize => exact Cmd.Keeps.bind (Cmd.Keeps.needPhase _) fun _ => Cmd.Keeps.startDest
  | encodePayload => exact Cmd.Keeps.bind (Cmd.Keeps.needPhase _) fun _ => Cmd.Keeps.startBoth
  | parse => exact Cmd.Keeps.startSource
  | decodePayload => exact Cmd.Keeps.bind (Cmd.Keeps.needPhase _) fun _ => Cmd.Keeps.startBoth
  | compress => exact Cmd.Keeps.startBoth
  | decompress => exact Cmd.Keeps.startBoth
  | encode => exact Cmd.Keeps.startSource

/-- What each start check does, in one equation (60_exceptions.md R214). -/
theorem needPhase_run (ok : Phase → Bool) (s : State) :
    needPhase ok s = if ok s.phase then .ok () s else .error (.error .sequence (0#30 ++ s.phase.code)) s := by
  simp only [needPhase, Cmd.get_bind]
  split <;> rfl

theorem checkSource_run (s : State) :
    checkSource s = if inRange s.srcAddr s.srcLen then .ok () s else .error (.error .range 0#32) s := by
  simp only [checkSource, Cmd.get_bind]
  split <;> rfl

theorem checkDest_run (s : State) :
    checkDest s = if inRange s.dstAddr s.dstCap then .ok () s else .error (.error .range 1#32) s := by
  simp only [checkDest, Cmd.get_bind]
  split <;> rfl

theorem checkOverlap_run (s : State) :
    checkOverlap s = if overlaps s then .error (.error .overlap 0#32) s else .ok () s := by
  simp only [checkOverlap, Cmd.get_bind]
  split <;> rfl

theorem refuseWindowSource_run (s : State) :
    refuseWindowSource s =
      if touchesWindow s.mmioBase s.srcAddr s.srcLen then .error (.refuse .dmaIntoWindow) s else .ok () s := by
  simp only [refuseWindowSource, Cmd.get_bind]
  split <;> rfl

theorem refuseWindowDest_run (s : State) :
    refuseWindowDest s =
      if touchesWindow s.mmioBase s.dstAddr s.dstCap then .error (.refuse .dmaIntoWindow) s else .ok () s := by
  simp only [refuseWindowDest, Cmd.get_bind]
  split <;> rfl

theorem startSource_ok {s : State} (hr : inRange s.srcAddr s.srcLen = true)
    (hw : touchesWindow s.mmioBase s.srcAddr s.srcLen = false) : startSource s = .ok () s := by
  unfold startSource
  rw [Cmd.bind_of_ok (a := ()) (t := s) (by rw [checkSource_run, if_pos hr]), refuseWindowSource_run, hw]
  rfl

theorem startDest_ok {s : State} (hr : inRange s.dstAddr s.dstCap = true)
    (hw : touchesWindow s.mmioBase s.dstAddr s.dstCap = false) : startDest s = .ok () s := by
  unfold startDest
  rw [Cmd.bind_of_ok (a := ()) (t := s) (by rw [checkDest_run, if_pos hr]), refuseWindowDest_run, hw]
  rfl

theorem startBoth_ok {s : State} (hr : inRange s.srcAddr s.srcLen = true)
    (hw : touchesWindow s.mmioBase s.srcAddr s.srcLen = false) (hr' : inRange s.dstAddr s.dstCap = true)
    (hw' : touchesWindow s.mmioBase s.dstAddr s.dstCap = false) (ho : overlaps s = false) :
    startBoth s = .ok () s := by
  unfold startBoth
  rw [Cmd.bind_of_ok (a := ()) (t := s) (by rw [checkSource_run, if_pos hr]),
    Cmd.bind_of_ok (a := ()) (t := s) (by rw [checkDest_run, if_pos hr']),
    Cmd.bind_of_ok (a := ()) (t := s) (by rw [checkOverlap_run, ho]; rfl),
    Cmd.bind_of_ok (a := ()) (t := s) (by rw [refuseWindowSource_run, hw]; rfl), refuseWindowDest_run, hw']
  rfl

/-- What `takeError` leaves in the status registers and the state inside the command (60_exceptions.md R212). -/
theorem takeError_eq (s : State) (clears : Bool) (c : ErrCode) (info : Word) :
    s.takeError clears c info = (if clears then s.sessionClear else s).finishError c info := rfl

/-- An error other than COUNT's and PARSE's leaves the session as it is. -/
theorem takeError_keep (s : State) (c : ErrCode) (info : Word) : s.takeError false c info = s.finishError c info := rfl

/-- An error of COUNT or PARSE leaves the session EMPTY (41_frequency_counter.md R123, 44_table_serializer.md R158). -/
theorem takeError_clear (s : State) (c : ErrCode) (info : Word) :
    s.takeError true c info = s.sessionClear.finishError c info := rfl

end Sys2Proof.Machine
end

