-- ==== Sys2Proof/Laws/Engine.lean ====
section
/-! SUPPORT. What every job of the engine keeps, what it leaves to do, and how the engine runs on: its fuel is never used up,
so a run is a chain of jobs, and accesses made one at a time come to what they come to at once. -/

namespace Sys2Proof.Machine

/-- The two states differ in the session, STAGE, EXTRA_INPUT, SRC_POS, DST_LEN and the state inside a command only. -/
structure State.SameOutside (s t : State) : Prop where
  busy : t.busy = s.busy
  done : t.done = s.done
  err : t.err = s.err
  cmdDropped : t.cmdDropped = s.cmdDropped
  errCode : t.errCode = s.errCode
  cmd : t.cmd = s.cmd
  doneIE : t.doneIE = s.doneIE
  donePend : t.donePend = s.donePend
  srcAddr : t.srcAddr = s.srcAddr
  srcLen : t.srcLen = s.srcLen
  dstAddr : t.dstAddr = s.dstAddr
  dstCap : t.dstCap = s.dstCap
  errInfo : t.errInfo = s.errInfo
  freqSel : t.freqSel = s.freqSel
  codeSym : t.codeSym = s.codeSym
  codeChunk : t.codeChunk = s.codeChunk
  nodeSel : t.nodeSel = s.nodeSel
  mem : t.mem = s.mem
  host : t.host = s.host
  hostData : t.hostData = s.hostData
  bus : t.bus = s.bus
  draws : t.draws = s.draws
  srcTouched : t.srcTouched = s.srcTouched
  dstTouched : t.dstTouched = s.dstTouched
  undo : t.undo = s.undo
  mmioBase : t.mmioBase = s.mmioBase

theorem State.SameOutside.refl (s : State) : s.SameOutside s := by constructor <;> rfl

theorem State.SameOutside.trans {s t u : State} (h : s.SameOutside t) (h' : t.SameOutside u) : s.SameOutside u where
  busy := h'.busy.trans h.busy
  done := h'.done.trans h.done
  err := h'.err.trans h.err
  cmdDropped := h'.cmdDropped.trans h.cmdDropped
  errCode := h'.errCode.trans h.errCode
  cmd := h'.cmd.trans h.cmd
  doneIE := h'.doneIE.trans h.doneIE
  donePend := h'.donePend.trans h.donePend
  srcAddr := h'.srcAddr.trans h.srcAddr
  srcLen := h'.srcLen.trans h.srcLen
  dstAddr := h'.dstAddr.trans h.dstAddr
  dstCap := h'.dstCap.trans h.dstCap
  errInfo := h'.errInfo.trans h.errInfo
  freqSel := h'.freqSel.trans h.freqSel
  codeSym := h'.codeSym.trans h.codeSym
  codeChunk := h'.codeChunk.trans h.codeChunk
  nodeSel := h'.nodeSel.trans h.nodeSel
  mem := h'.mem.trans h.mem
  host := h'.host.trans h.host
  hostData := h'.hostData.trans h.hostData
  bus := h'.bus.trans h.bus
  draws := h'.draws.trans h.draws
  srcTouched := h'.srcTouched.trans h.srcTouched
  dstTouched := h'.dstTouched.trans h.dstTouched
  undo := h'.undo.trans h.undo
  mmioBase := h'.mmioBase.trans h.mmioBase

/-! ### The functions of the stages -/

theorem addNode_sameOutside (s : State) (e : NodeEntry) : s.SameOutside (s.addNode e) := by constructor <;> rfl

theorem placeLeaves_sameOutside : ∀ (es : List FreqEntry) (s : State) (sym : Nat), s.SameOutside (s.placeLeaves es sym)
  | [], s, _ => State.SameOutside.refl s
  | e :: es, s, sym => by
    refine State.SameOutside.trans ?_ (placeLeaves_sameOutside es _ (sym + 1))
    split
    · exact addNode_sameOutside s _
    · exact State.SameOutside.refl s

theorem combine_sameOutside (s : State) : s.SameOutside s.combine := by
  unfold State.combine
  split
  · exact State.SameOutside.refl s
  · dsimp only
    split
    · exact State.SameOutside.refl s
    · constructor <;> rfl

theorem combineAll_sameOutside : ∀ (n : Nat) (s : State), s.SameOutside (s.combineAll n)
  | 0, s => State.SameOutside.refl s
  | n + 1, s => by
    unfold State.combineAll
    split
    · exact (combine_sameOutside s).trans (combineAll_sameOutside n _)
    · exact State.SameOutside.refl s

theorem growTree_sameOutside (s : State) : s.SameOutside s.growTree := by
  refine State.SameOutside.trans (t := s.dropTree) (by constructor <;> rfl) ?_
  exact (placeLeaves_sameOutside _ _ _).trans (combineAll_sameOutside _ _)

theorem codeLeaf_sameOutside (s : State) (n : Nat) : s.SameOutside (s.codeLeaf n) := by
  unfold State.codeLeaf
  split
  · split
    · constructor <;> rfl
    · exact State.SameOutside.refl s
  · exact State.SameOutside.refl s

theorem codeLeaves_sameOutside : ∀ (k : Nat) (s : State) (n : Nat), s.SameOutside (s.codeLeaves n k)
  | 0, s, _ => State.SameOutside.refl s
  | k + 1, s, n => (codeLeaf_sameOutside s n).trans (codeLeaves_sameOutside k _ (n + 1))

theorem deriveCodes_sameOutside (s : State) : s.SameOutside s.deriveCodes := by
  unfold State.deriveCodes
  split
  · constructor <;> rfl
  · exact codeLeaves_sameOutside _ s _

/-! ### What every job keeps -/

/-- A property of the state outside the session and the engine that the engine's accesses keep. -/
structure Outer (P : State → Prop) : Prop where
  closed : Closed P
  inner : ∀ s t, s.SameOutside t → P s → P t

variable {P : State → Prop}

/-- An update of the session or the engine keeps what is outer. -/
theorem Outer.update (hp : Outer P) {f : State → State} (h : ∀ s : State, s.SameOutside (f s)) : Cmd.Keeps P (update f) :=
  Cmd.Keeps.update fun s hs => hp.inner s (f s) (h s) hs

theorem Outer.countByte (hp : Outer P) (k n : Nat) : Cmd.Keeps P (countByte k n) :=
  Cmd.Keeps.bind Cmd.Keeps.get fun _ => Cmd.Keeps.bind (hp.closed.memRead _) fun _ =>
    Cmd.Keeps.bind (hp.update fun s => by constructor <;> rfl) fun _ => Cmd.Keeps.pure _

theorem Outer.buildStage (hp : Outer P) : Cmd.Keeps P buildStage := by
  refine Cmd.Keeps.bind (hp.update growTree_sameOutside) fun _ => ?_
  intro s hs
  unfold Cmd.Ends endBuild
  split
  · rename_i h; split at h <;> cases h
    exact hp.inner s _ (by constructor <;> rfl) hs
  · rename_i h; split at h <;> cases h
    exact hs

theorem Outer.deriveStage (hp : Outer P) : Cmd.Keeps P deriveStage :=
  hp.update fun s => State.SameOutside.trans (t := s.dropCodes) (by constructor <;> rfl)
    (State.SameOutside.trans (deriveCodes_sameOutside _) (by constructor <;> rfl))

theorem Outer.startSerialize (hp : Outer P) : Cmd.Keeps P startSerialize :=
  Cmd.Keeps.bind (hp.update fun s => by constructor <;> rfl) fun _ =>
    Cmd.Keeps.bind Cmd.Keeps.get fun _ => Cmd.Keeps.pure _

theorem Outer.emitNext (hp : Outer P) (b : Byte) (bs : List Byte) : Cmd.Keeps P (emitNext b bs) :=
  Cmd.Keeps.bind (hp.closed.emit b) fun _ => Cmd.Keeps.pure _

theorem Outer.nextByte (hp : Outer P) (pos : Nat) : Cmd.Keeps P (nextByte pos) :=
  Cmd.Keeps.bind Cmd.Keeps.get fun _ => Cmd.Keeps.ite (hp.closed.memRead _) (Cmd.Keeps.raise _ _)

theorem Outer.parseKeyByte (hp : Outer P) (pos idx : Nat) (seen : Bool) : Cmd.Keeps P (parseKeyByte pos idx seen) := by
  refine Cmd.Keeps.bind (hp.nextByte pos) fun k => ?_
  cases classify idx seen k with
  | pair sym => exact Cmd.Keeps.pure _
  | endOfTextPair => exact Cmd.Keeps.pure _
  | terminator => exact Cmd.Keeps.pure _
  | malformed => exact Cmd.Keeps.raise _ _

theorem Outer.parseCountByte (hp : Outer P) (kpos sym : Nat) (got : List Byte) (idx : Nat) (seen : Bool) :
    Cmd.Keeps P (parseCountByte kpos sym got idx seen) :=
  Cmd.Keeps.bind (hp.nextByte _) fun _ => Cmd.Keeps.pure _

theorem Outer.enterPair (hp : Outer P) (kpos sym : Nat) (got : List Byte) (idx : Nat) (seen : Bool) :
    Cmd.Keeps P (enterPair kpos sym got idx seen) :=
  Cmd.Keeps.bind Cmd.Keeps.get fun _ => Cmd.Keeps.ite (Cmd.Keeps.raise _ _)
    (Cmd.Keeps.bind (hp.update fun s => by constructor <;> rfl) fun _ => Cmd.Keeps.pure _)

theorem Outer.encodeByte (hp : Outer P) (k n : Nat) : Cmd.Keeps P (encodeByte k n) :=
  Cmd.Keeps.bind Cmd.Keeps.get fun _ => Cmd.Keeps.bind (hp.closed.memRead _) fun _ =>
    Cmd.Keeps.bind Cmd.Keeps.get fun _ => Cmd.Keeps.ite (Cmd.Keeps.pure _) (Cmd.Keeps.raise _ _)

theorem Outer.putDigit (hp : Outer P) (d : Bool) (ds : List Bool) : Cmd.Keeps P (putDigit d ds) :=
  Cmd.Keeps.bind (hp.update fun s => by constructor <;> rfl) fun _ => Cmd.Keeps.bind Cmd.Keeps.get fun _ =>
    Cmd.Keeps.ite (Cmd.Keeps.bind (hp.update fun s => by constructor <;> rfl) fun _ => Cmd.Keeps.pure _)
      (Cmd.Keeps.pure _)

theorem Outer.putEndOfText (_ : Outer P) : Cmd.Keeps P putEndOfText :=
  Cmd.Keeps.bind Cmd.Keeps.get fun _ => Cmd.Keeps.pure _

theorem Outer.padAcc (_ : Outer P) : Cmd.Keeps P padAcc :=
  Cmd.Keeps.bind Cmd.Keeps.get fun _ => Cmd.Keeps.ite (Cmd.Keeps.pure _) (Cmd.Keeps.pure _)

theorem Outer.walkOn (hp : Outer P) (bpos : Nat) (d : Bool) : Cmd.Keeps P (walkOn bpos d) :=
  Cmd.Keeps.bind Cmd.Keeps.get fun _ => Cmd.Keeps.ite
    (Cmd.Keeps.ite (Cmd.Keeps.raise _ _) (hp.update fun s => by constructor <;> rfl))
    (hp.update fun s => by constructor <;> rfl)

theorem Outer.atNode (hp : Outer P) (bpos n : Nat) : Cmd.Keeps P (atNode bpos n) :=
  Cmd.Keeps.bind Cmd.Keeps.get fun _ => Cmd.Keeps.ite
    (Cmd.Keeps.ite (Cmd.Keeps.bind (hp.update fun s => by constructor <;> rfl) fun _ => Cmd.Keeps.pure _)
      (Cmd.Keeps.pure _))
    (Cmd.Keeps.pure _)

theorem Outer.decodeBit (hp : Outer P) (bpos n : Nat) : Cmd.Keeps P (decodeBit bpos n) :=
  Cmd.Keeps.bind Cmd.Keeps.get fun _ => Cmd.Keeps.bind (hp.walkOn _ _) fun _ =>
    Cmd.Keeps.bind (hp.update fun s => by constructor <;> rfl) fun _ => hp.atNode _ _

theorem Outer.decodeByte (hp : Outer P) (pos : Nat) : Cmd.Keeps P (decodeByte pos) :=
  Cmd.Keeps.bind Cmd.Keeps.get fun _ => Cmd.Keeps.ite
    (Cmd.Keeps.bind (hp.closed.memRead _) fun _ => Cmd.Keeps.bind (hp.update fun s => by constructor <;> rfl) fun _ =>
      Cmd.Keeps.pure _)
    (Cmd.Keeps.raise _ _)

theorem Outer.beginDecode (hp : Outer P) : Cmd.Keeps P beginDecode :=
  Cmd.Keeps.bind (hp.update fun s => by constructor <;> rfl) fun _ =>
    Cmd.Keeps.bind (hp.update fun s => by constructor <;> rfl) fun _ =>
      Cmd.Keeps.bind Cmd.Keeps.get fun _ => Cmd.Keeps.pure _

/-- An update with nothing left to do after it. -/
theorem Outer.only (_ : Outer P) {c : Cmd Unit} (h : Cmd.Keeps P c) :
    Cmd.Keeps P (do c; pure ([] : List Job)) := Cmd.Keeps.bind h fun _ => Cmd.Keeps.pure _

/-- Every job keeps what is outer. -/
theorem Outer.run (hp : Outer P) (j : Job) : Cmd.Keeps P j.run := by
  cases j with
  | check i => exact hp.only (Cmd.Keeps.startChecks i)
  | stage i => exact hp.only (hp.update fun s => by constructor <;> rfl)
  | clear => exact hp.only (hp.update fun s => by constructor <;> rfl)
  | count k n =>
    cases n with
    | zero => exact Cmd.Keeps.pure _
    | succ n => exact hp.countByte k n
  | endCount => exact hp.only (hp.update fun s => by constructor <;> rfl)
  | build => exact hp.only hp.buildStage
  | derive => exact hp.only hp.deriveStage
  | serialize => exact hp.startSerialize
  | emit bs =>
    cases bs with
    | nil => exact Cmd.Keeps.pure _
    | cons b bs => exact hp.emitNext b bs
  | parseKey pos idx seen => exact hp.parseKeyByte pos idx seen
  | parseCount kpos sym got idx seen =>
    exact Cmd.Keeps.ite (hp.parseCountByte kpos sym got idx seen) (hp.enterPair kpos sym got idx seen)
  | endParse pos => exact hp.only (hp.update fun s => by constructor <;> rfl)
  | startEncode => exact hp.only (hp.update fun s => by constructor <;> rfl)
  | encode k n =>
    cases n with
    | zero => exact Cmd.Keeps.pure _
    | succ n => exact hp.encodeByte k n
  | put ds =>
    cases ds with
    | nil => exact Cmd.Keeps.pure _
    | cons d ds => exact hp.putDigit d ds
  | endOfText => exact hp.putEndOfText
  | pad => exact hp.padAcc
  | startDecode => exact hp.beginDecode
  | decode pos => exact hp.decodeByte pos
  | bits bpos n =>
    cases n with
    | zero => exact Cmd.Keeps.pure _
    | succ n => exact hp.decodeBit bpos n
  | toRoot => exact hp.only (hp.update fun s => by constructor <;> rfl)

/-- What is outer stays while the command goes on. -/
theorem Outer.goes (hp : Outer P) {s t : State} (hs : P s) (h : s.progress = .goes t) : P t := by
  unfold State.progress at h
  split at h
  · cases h
  · rename_i j rest _
    unfold State.doJob at h
    cases hr : j.run s with
    | ok new u => rw [hr] at h; cases h; exact hp.inner u _ (by constructor <;> rfl) ((hp.run j).ok hs hr)
    | error e u => rw [hr] at h; cases e <;> cases h

/-- A command that completes does so from a state with what is outer, normally or by an error (60_exceptions.md R212,
R213). -/
theorem Outer.ends (hp : Outer P) {s t : State} (hs : P s) (h : s.progress = .ends t) :
    ∃ u, P u ∧ (t = u.finish ∨ ∃ clears c info, t = u.takeError clears c info) := by
  unfold State.progress at h
  split at h
  · cases h; exact ⟨s, hs, .inl rfl⟩
  · rename_i j rest _
    unfold State.doJob at h
    cases hr : j.run s with
    | ok new u => rw [hr] at h; cases h
    | error e u =>
      rw [hr] at h
      cases e with
      | error c info => cases h; exact ⟨u, (hp.run j).error hs hr, .inr ⟨j.clearsOnError, c, info, rfl⟩⟩
      | waits => cases h
      | fault r => cases h
      | refuse r => cases h

/-- However far the engine gets, it is in a state with what is outer, or has completed from one. -/
theorem Outer.drive (hp : Outer P) : ∀ (n : Nat) {s t : State}, P s → s.drive n = .next t →
    ∃ u, P u ∧ (t = u ∨ t = u.finish ∨ ∃ clears c info, t = u.takeError clears c info)
  | 0, s, t, hs, h => by cases h; exact ⟨s, hs, .inl rfl⟩
  | n + 1, s, t, hs, h => by
    unfold State.drive at h
    cases hx : s.progress with
    | goes u => rw [hx] at h; exact hp.drive n (hp.goes hs hx) h
    | ends u =>
      rw [hx] at h; cases h
      obtain ⟨u, hu, h⟩ := hp.ends hs hx
      exact ⟨u, hu, .inr h⟩
    | waits => rw [hx] at h; cases h; exact ⟨s, hs, .inl rfl⟩
    | fault r => rw [hx] at h; cases h
    | refused r => rw [hx] at h; cases h

/-- One access of the engine, likewise. -/
theorem Outer.toAccess (hp : Outer P) : ∀ (n : Nat) {s t : State}, P s → s.toAccess n = .next t →
    ∃ u, P u ∧ (t = u ∨ t = u.finish ∨ ∃ clears c info, t = u.takeError clears c info)
  | 0, s, t, hs, h => by cases h; exact ⟨s, hs, .inl rfl⟩
  | n + 1, s, t, hs, h => by
    unfold State.toAccess at h
    cases hx : s.progress with
    | goes u =>
      rw [hx] at h
      dsimp only at h
      split at h
      · cases h; exact ⟨t, hp.goes hs hx, .inl rfl⟩
      · exact hp.toAccess n (hp.goes hs hx) h
    | ends u =>
      rw [hx] at h; cases h
      obtain ⟨u, hu, h⟩ := hp.ends hs hx
      exact ⟨u, hu, .inr h⟩
    | waits => rw [hx] at h; cases h; exact ⟨s, hs, .inl rfl⟩
    | fault r => rw [hx] at h; cases h
    | refused r => rw [hx] at h; cases h

/-- SRC_LEN is outer: no job writes it (10_state.md R36). -/
theorem outer_srcLen (n : Word) : Outer (fun s => s.srcLen = n) where
  closed := { draw := fun _ h => h, put := fun _ _ _ _ h => h, bump := fun _ h => h }
  inner := fun _ _ h hs => h.srcLen.trans hs

/-- A running command stays BUSY while it goes on (10_state.md R24). -/
theorem outer_busy (b : Bool) : Outer (fun s => s.busy = b) where
  closed := { draw := fun _ h => h, put := fun _ _ _ _ h => h, bump := fun _ h => h }
  inner := fun _ _ h hs => h.busy.trans hs

/-! ### What a job leaves to do -/

/-- COUNT's read leaves the rest of the source, with its byte counted (41_frequency_counter.md R120). -/
theorem countByte_ok {k n : Nat} {s t : State} {new : List Job} (h : countByte k n s = .ok new t) :
    ∃ b u, memRead (s.srcByte k) s = .ok b u ∧ t = u.tally b ∧ new = [.count (k + 1) n] := by
  unfold countByte at h
  rw [Cmd.get_bind, Cmd.bind_ok_iff] at h
  obtain ⟨b, u, hr, h⟩ := h
  cases h
  exact ⟨b, u, hr, rfl, rfl⟩

/-- An emitted byte leaves the others (44_table_serializer.md R151). -/
theorem emitNext_ok {b : Byte} {bs : List Byte} {s t : State} {new : List Job} (h : emitNext b bs s = .ok new t) :
    emit b s = .ok () t ∧ new = [.emit bs] := by
  unfold emitNext at h
  rw [Cmd.bind_ok_iff] at h
  obtain ⟨_, u, he, h⟩ := h
  cases h
  exact ⟨he, rfl⟩

/-- `next_byte()` reads inside the source (44_table_serializer.md R154). -/
theorem nextByte_ok {pos : Nat} {s t : State} {b : Byte} (h : nextByte pos s = .ok b t) :
    pos < s.srcLen.toNat ∧ memRead (s.srcByte pos) s = .ok b t := by
  unfold nextByte at h
  rw [Cmd.get_bind] at h
  split at h
  · exact ⟨‹_›, h⟩
  · cases h

/-- A key byte leaves its pair's count to read, or ends the section (44_table_serializer.md R155, R156). -/
theorem parseKeyByte_ok {pos idx : Nat} {seen : Bool} {s t : State} {new : List Job}
    (h : parseKeyByte pos idx seen s = .ok new t) :
    ∃ k, nextByte pos s = .ok k t ∧
      ((∃ sym, classify idx seen k = .pair sym ∧ new = [.parseCount pos sym [] idx seen]) ∨
        (classify idx seen k = .endOfTextPair ∧ new = [.parseCount pos Config.endOfText [] idx true]) ∨
        (classify idx seen k = .terminator ∧ new = [.endParse (pos + 1)])) := by
  unfold parseKeyByte at h
  rw [Cmd.bind_ok_iff] at h
  obtain ⟨k, u, hk, h⟩ := h
  cases hc : classify idx seen k with
  | pair sym => rw [hc] at h; cases h; exact ⟨k, hk, .inl ⟨sym, hc, rfl⟩⟩
  | endOfTextPair => rw [hc] at h; cases h; exact ⟨k, hk, .inr (.inl ⟨hc, rfl⟩)⟩
  | terminator => rw [hc] at h; cases h; exact ⟨k, hk, .inr (.inr ⟨hc, rfl⟩)⟩
  | malformed => rw [hc] at h; cases h

/-- A count byte joins those read (44_table_serializer.md R156). -/
theorem parseCountByte_ok {kpos sym : Nat} {got : List Byte} {idx : Nat} {seen : Bool} {s t : State} {new : List Job}
    (h : parseCountByte kpos sym got idx seen s = .ok new t) :
    ∃ b, nextByte (kpos + 1 + got.length) s = .ok b t ∧ new = [.parseCount kpos sym (got ++ [b]) idx seen] := by
  unfold parseCountByte at h
  rw [Cmd.bind_ok_iff] at h
  obtain ⟨b, u, hb, h⟩ := h
  cases h
  exact ⟨b, hb, rfl⟩

/-- A new symbol's pair enters FREQ, and the next key byte is five bytes on (44_table_serializer.md R156). -/
theorem enterPair_ok {kpos sym : Nat} {got : List Byte} {idx : Nat} {seen : Bool} {s t : State} {new : List Job}
    (h : enterPair kpos sym got idx seen s = .ok new t) :
    (s.freqAt sym).valid = false ∧ t = s.setFreq sym ⟨true, countOfBytes got⟩ ∧
      new = [.parseKey (kpos + 5) (idx + 1) seen] := by
  unfold enterPair at h
  rw [Cmd.get_bind] at h
  split at h
  · cases h
  · cases h; exact ⟨by simp_all, rfl, rfl⟩

/-- A digit leaves the others, and a byte to emit when it fills the bit buffer (45_bitstream.md R171). -/
theorem putDigit_ok {d : Bool} {ds : List Bool} {s t : State} {new : List Job} (h : putDigit d ds s = .ok new t) :
    (s.acc.length = 7 ∧ t = (s.pushDigit d).emptyAcc ∧ new = [.emit [byteOfDigits (s.acc ++ [d])], .put ds]) ∨
      (s.acc.length ≠ 7 ∧ t = s.pushDigit d ∧ new = [.put ds]) := by
  unfold putDigit at h
  rw [Cmd.update_bind, Cmd.get_bind] at h
  have hl : (s.pushDigit d).acc.length = s.acc.length + 1 := by simp
  split at h
  · cases h; exact .inl ⟨by omega, rfl, rfl⟩
  · cases h; exact .inr ⟨by omega, rfl, rfl⟩

/-- A source byte with a code leaves its digits to put (45_bitstream.md R170, R173). -/
theorem encodeByte_ok {k n : Nat} {s t : State} {new : List Job} (h : encodeByte k n s = .ok new t) :
    ∃ b, memRead (s.srcByte k) s = .ok b t ∧ (t.codeAt b.toNat).valid = true ∧
      new = [.put (t.codeAt b.toNat).digits, .encode (k + 1) n] := by
  unfold encodeByte at h
  rw [Cmd.get_bind, Cmd.bind_ok_iff] at h
  obtain ⟨b, u, hb, h⟩ := h
  rw [Cmd.get_bind] at h
  split at h
  · cases h; exact ⟨b, hb, ‹_›, rfl⟩
  · cases h

/-- A payload byte leaves its eight bits to walk (45_bitstream.md R175). -/
theorem decodeByte_ok {pos : Nat} {s t : State} {new : List Job} (h : decodeByte pos s = .ok new t) :
    pos < s.srcLen.toNat ∧ ∃ b u, memRead (s.srcByte pos) s = .ok b u ∧ t = u.walkByte b ∧ new = [.bits pos 8] := by
  unfold decodeByte at h
  rw [Cmd.get_bind] at h
  split at h
  · rw [Cmd.bind_ok_iff] at h
    obtain ⟨b, u, hb, h⟩ := h
    cases h
    exact ⟨‹_›, b, u, hb, rfl, rfl⟩
  · cases h

/-- A bit leaves the bits after it, a literal to emit first where it reached one's leaf, and nothing where it reached
END_OF_TEXT's (45_bitstream.md R176). -/
theorem decodeBit_ok {bpos n : Nat} {s t : State} {new : List Job} (h : decodeBit bpos n s = .ok new t) :
    new = [] ∨ (∃ b, new = [.emit [b], .toRoot, .bits bpos n]) ∨ new = [.bits bpos n] := by
  unfold decodeBit at h
  rw [Cmd.get_bind, Cmd.bind_ok_iff] at h
  obtain ⟨_, u, -, h⟩ := h
  rw [Cmd.update_bind] at h
  unfold atNode at h
  rw [Cmd.get_bind] at h
  split at h
  · split at h
    · cases h; exact .inl rfl
    · cases h; exact .inr (.inl ⟨_, rfl⟩)
  · cases h; exact .inr (.inr rfl)

theorem length_literalPairs : ∀ (es : List FreqEntry) (b : Nat), (literalPairs es b).length ≤ 5 * es.length
  | [], _ => Nat.le_refl 0
  | e :: es, b => by
    have := length_literalPairs es (b + 1)
    have hp : (if b = 3 then [] else literalPair b e).length ≤ 5 := by
      unfold literalPair pairBytes
      split
      · exact Nat.zero_le 5
      · split <;> simp
    simp only [literalPairs, List.length_append, List.length_cons]
    omega

/-- A bound on a table section that suffices as fuel; 30_encoding.md R97 has the exact one. -/
theorem length_tableSection_le (s : State) : s.tableSection.length ≤ 1291 := by
  have h := length_literalPairs (s.freq.toList.take 256) 0
  have h3 : (literalPair 3 (s.freqAt 3)).length ≤ 5 := by
    unfold literalPair pairBytes
    split <;> simp
  simp only [List.length_take, Vector.length_toList] at h
  simp only [State.tableSection, pairBytes, List.length_append, List.length_cons, List.length_nil]
  omega

/-- A code has at most 511 digits, LEN having 9 bits (10_state.md R49). -/
theorem length_digits_lt (e : CodeEntry) : e.digits.length < 512 := by
  have := e.len.isLt
  simp only [CodeEntry.digits, List.length_map, List.length_range]
  omega

/-- What a job leaves to do comes to less than the job. -/
theorem Job.run_work {j : Job} {s t : State} {new : List Job} (h : j.run s = .ok new t) :
    (new.map (Job.work s.srcLen.toNat)).sum < j.work s.srcLen.toNat := by
  have only : ∀ {c : Cmd Unit}, (do c; pure ([] : List Job)) s = .ok new t → new = [] := by
    intro c h
    rw [Cmd.bind_ok_iff] at h
    obtain ⟨_, u, -, h⟩ := h
    cases h; rfl
  cases j with
  | check i => rw [only h]; exact Nat.one_pos
  | stage i => rw [only h]; exact Nat.one_pos
  | clear => rw [only h]; exact Nat.one_pos
  | count k n =>
    cases n with
    | zero => cases h; exact Nat.one_pos
    | succ n => obtain ⟨_, _, -, -, rfl⟩ := countByte_ok h; simp [Job.work]
  | endCount => rw [only h]; exact Nat.one_pos
  | build => rw [only h]; exact Nat.one_pos
  | derive => rw [only h]; exact Nat.one_pos
  | serialize =>
    cases h
    have := length_tableSection_le s.startDst
    simp only [List.map_cons, List.map_nil, List.sum_cons, List.sum_nil, Job.work]
    omega
  | emit bs =>
    cases bs with
    | nil => cases h; exact Nat.one_pos
    | cons b bs => obtain ⟨-, rfl⟩ := emitNext_ok h; simp [Job.work]
  | parseKey pos idx seen =>
    obtain ⟨k, hk, h⟩ := parseKeyByte_ok h
    have := (nextByte_ok hk).1
    rcases h with ⟨sym, -, rfl⟩ | ⟨-, rfl⟩ | ⟨-, rfl⟩ <;> simp [Job.work] <;> omega
  | parseCount kpos sym got idx seen =>
    simp only [Job.run] at h
    split at h
    · obtain ⟨b, -, rfl⟩ := parseCountByte_ok h
      simp only [List.map_cons, List.map_nil, List.sum_cons, List.sum_nil, Job.work, List.length_append, List.length_cons,
        List.length_nil]
      omega
    · obtain ⟨-, -, rfl⟩ := enterPair_ok h
      simp only [List.map_cons, List.map_nil, List.sum_cons, List.sum_nil, Job.work]
      omega
  | endParse pos => rw [only h]; exact Nat.one_pos
  | startEncode => rw [only h]; exact Nat.one_pos
  | encode k n =>
    cases n with
    | zero => cases h; exact Nat.one_pos
    | succ n =>
      obtain ⟨b, -, -, rfl⟩ := encodeByte_ok h
      have := length_digits_lt (t.codeAt b.toNat)
      simp only [List.map_cons, List.map_nil, List.sum_cons, List.sum_nil, Job.work]
      omega
  | put ds =>
    cases ds with
    | nil => cases h; exact Nat.one_pos
    | cons d ds =>
      rcases putDigit_ok h with ⟨-, -, rfl⟩ | ⟨-, -, rfl⟩ <;> simp [Job.work] <;> omega
  | endOfText =>
    cases h
    have := length_digits_lt (s.codeAt Config.endOfText)
    simp only [List.map_cons, List.map_nil, List.sum_cons, List.sum_nil, Job.work]
    omega
  | pad =>
    simp only [Job.run, padAcc, Cmd.get_bind] at h
    split at h <;> cases h <;> simp [Job.work]
    omega
  | startDecode => cases h; simp [Job.work]
  | decode pos =>
    obtain ⟨hp, _, _, -, -, rfl⟩ := decodeByte_ok h
    simp only [List.map_cons, List.map_nil, List.sum_cons, List.sum_nil, Job.work]
    omega
  | bits bpos n =>
    cases n with
    | zero => cases h; simp [Job.work]
    | succ n => rcases decodeBit_ok h with rfl | ⟨b, rfl⟩ | rfl <;> simp [Job.work] <;> omega
  | toRoot => rw [only h]; exact Nat.one_pos

/-! ### How the engine runs on -/

/-- A job done leaves less to do. -/
theorem progress_work {s t : State} (h : s.progress = .goes t) : t.work < s.work := by
  have hl := (outer_srcLen s.srcLen).goes rfl h
  unfold State.progress at h
  split at h
  · cases h
  · rename_i j rest htodo
    unfold State.doJob at h
    cases hr : j.run s with
    | ok new u =>
      rw [hr] at h
      cases h
      have := Job.run_work hr
      change u.srcLen = s.srcLen at hl
      simp only [State.work, hl, htodo, List.map_append, List.sum_append, List.map_cons, List.sum_cons]
      omega
    | error e u => rw [hr] at h; cases e <;> cases h

/-- More fuel than there is work changes nothing. -/
theorem drive_fuel : ∀ (n : Nat) (s : State), s.work ≤ n → s.drive n = s.runOn := by
  have key : ∀ (n m : Nat) (s : State), s.work ≤ n → s.work ≤ m → s.drive n = s.drive m := by
    intro n
    induction n with
    | zero => intro m s hn; exact absurd hn (by unfold State.work; omega)
    | succ n ih =>
      intro m s hn hm
      cases m with
      | zero => exact absurd hm (by unfold State.work; omega)
      | succ m =>
        unfold State.drive
        cases hx : s.progress with
        | goes t =>
          have := progress_work hx
          exact ih m t (by omega) (by omega)
        | ends t => rfl
        | waits => rfl
        | fault r => rfl
        | refused r => rfl
  exact fun n s h => key n _ s h (Nat.le_refl _)

/-- The engine runs on job by job. -/
theorem runOn_eq (s : State) : s.runOn = (match s.progress with
    | .goes t => t.runOn
    | .ends t => .next t
    | .waits => .next s
    | .fault r => .fault r
    | .refused r => .refused r) := by
  conv_lhs => unfold State.runOn
  obtain ⟨n, hn⟩ : ∃ n, s.work = n + 1 := ⟨_, rfl⟩
  rw [hn]
  conv_lhs => unfold State.drive
  cases hx : s.progress with
  | goes t =>
    have := progress_work hx
    exact drive_fuel n t (by omega)
  | ends t => rfl
  | waits => rfl
  | fault r => rfl
  | refused r => rfl

theorem runOn_goes {s t : State} (h : s.progress = .goes t) : s.runOn = t.runOn := by rw [runOn_eq, h]

theorem runOn_ends {s t : State} (h : s.progress = .ends t) : s.runOn = .next t := by rw [runOn_eq, h]

theorem runOn_waits {s : State} (h : s.progress = .waits) : s.runOn = .next s := by rw [runOn_eq, h]

/-- A job that goes through, with the jobs it leaves. -/
theorem progress_of_ok {s t : State} {j : Job} {rest new : List Job} (hs : s.todo = j :: rest)
    (h : j.run s = .ok new t) : s.progress = .goes { t with todo := new ++ rest } := by
  unfold State.progress
  rw [hs]
  unfold State.doJob
  dsimp only
  rw [h]

/-- A job that raises an error ends the command by it (60_exceptions.md R212). -/
theorem progress_of_error {s t : State} {j : Job} {rest : List Job} {c : ErrCode} {info : Word} (hs : s.todo = j :: rest)
    (h : j.run s = .error (.error c info) t) : s.progress = .ends (t.takeError j.clearsOnError c info) := by
  unfold State.progress
  rw [hs]
  unfold State.doJob
  dsimp only
  rw [h]

/-- With no job left the command completes normally (60_exceptions.md R213). -/
theorem progress_of_nil {s : State} (hs : s.todo = []) : s.progress = .ends s.finish := by
  unfold State.progress
  rw [hs]

theorem takeError_busy (s : State) (b : Bool) (c : ErrCode) (info : Word) : (s.takeError b c info).busy = false := rfl

/-- A completed command is IDLE. -/
theorem ends_idle {s t : State} (h : s.progress = .ends t) : t.busy = false := by
  obtain ⟨u, -, rfl | ⟨_, _, _, rfl⟩⟩ := (outer_busy s.busy).ends rfl h
  · rfl
  · rfl

/-- Accesses made one at a time come to what they come to at once: after one, the engine has what it had to do
(00_scope.md R7). -/
theorem runOn_toAccess : ∀ (n : Nat) {s t : State}, s.toAccess n = .next t → t.busy = true → t.runOn = s.runOn
  | 0, s, t, h, _ => by cases h; rfl
  | n + 1, s, t, h, hb => by
    unfold State.toAccess at h
    cases hx : s.progress with
    | goes u =>
      rw [hx] at h
      dsimp only at h
      rw [runOn_goes hx]
      split at h
      · cases h; rfl
      · exact runOn_toAccess n h hb
    | ends u => rw [hx] at h; cases h; rw [ends_idle hx] at hb; cases hb
    | waits => rw [hx] at h; cases h; rfl
    | fault r => rw [hx] at h; cases h
    | refused r => rw [hx] at h; cases h

/-- A command accepted while the host waits runs on from its jobs (10_state.md R24; log 1). -/
theorem start_waits {s : State} (hw : s.hostWaits = true) (i : Instr) (jobs : List Job) :
    s.start i jobs = State.runOn { s.accept (encode i) with todo := jobs } := by
  unfold State.start
  exact if_pos hw

/-- A command accepted while the host has other operations to make is BUSY, with its jobs to do (10_state.md R24; log
1). -/
theorem start_busy {s : State} (hw : s.hostWaits = false) (i : Instr) (jobs : List Job) :
    s.start i jobs = .next { s.accept (encode i) with todo := jobs } := by
  unfold State.start
  exact if_neg (by rw [← Bool.not_eq_true] at hw; exact hw)

end Sys2Proof.Machine
end

