-- ==== Sys2Proof/Laws/PerInstr.lean ====
section
/-! SUPPORT. What holds of every command as syntax, one lemma per command: the shape of its word (30_encoding.md R90 to
R92). -/

namespace Sys2Proof.Laws.WordShape

/-- The command is well formed, and its word is a legal one with its opcode in bits 3:0 and bits 31:4 zero
(30_encoding.md R90, R92). -/
def Statement (i : Instr) : Prop :=
  i.wf = true ∧ commandWordOk (encode i) = true ∧ (encode i).extractLsb' 0 4 = i.opcode ∧
    (encode i).extractLsb' 4 28 = 0#28

theorem clear : Statement .clear := by unfold Statement; decide

theorem count : Statement .count := by unfold Statement; decide

theorem build : Statement .build := by unfold Statement; decide

theorem derive : Statement .derive := by unfold Statement; decide

theorem serialize : Statement .serialize := by unfold Statement; decide

theorem encodePayload : Statement .encodePayload := by unfold Statement; decide

theorem parse : Statement .parse := by unfold Statement; decide

theorem decodePayload : Statement .decodePayload := by unfold Statement; decide

theorem compress : Statement .compress := by unfold Statement; decide

theorem decompress : Statement .decompress := by unfold Statement; decide

theorem encode : Statement .encode := by unfold Statement; decide

end Sys2Proof.Laws.WordShape
end

