-- ==== Sys2Proof/Laws/Waits.lean ====
section
/-! SUPPORT. What runs of jobs come to: the bytes `emit` leaves in host memory, the counts COUNT leaves
in FREQ, and the stages of a composite. -/

namespace Sys2Proof.Machine

/-! ### Emitting bytes -/

/-- The state after bytes are emitted with room for them (44_table_serializer.md R151). -/
def State.wroteAll (s : State) : List Byte → State
  | [] => s
  | b :: bs => (s.wrote b).wroteAll bs

theorem wrote_sameSetup (s : State) (b : Byte) : s.SameSetup (s.wrote b) := by constructor <;> rfl

theorem wrote_sameSession (s : State) (b : Byte) : s.SameSession (s.wrote b) := by constructor <;> rfl

theorem State.SameSetup.refl (s : State) : s.SameSetup s := by constructor <;> rfl

theorem State.SameSetup.trans {s t u : State} (h : s.SameSetup t) (h' : t.SameSetup u) : s.SameSetup u where
  doneIE := h'.doneIE.trans h.doneIE
  srcAddr := h'.srcAddr.trans h.srcAddr
  srcLen := h'.srcLen.trans h.srcLen
  dstAddr := h'.dstAddr.trans h.dstAddr
  dstCap := h'.dstCap.trans h.dstCap
  freqSel := h'.freqSel.trans h.freqSel
  codeSym := h'.codeSym.trans h.codeSym
  codeChunk := h'.codeChunk.trans h.codeChunk
  nodeSel := h'.nodeSel.trans h.nodeSel
  inReset := h'.inReset.trans h.inReset
  host := h'.host.trans h.host
  hostData := h'.hostData.trans h.hostData
  bus := h'.bus.trans h.bus
  draws := h'.draws.trans h.draws
  mmioBase := h'.mmioBase.trans h.mmioBase

theorem State.SameSession.refl (s : State) : s.SameSession s := by constructor <;> rfl

theorem State.SameSession.trans {s t u : State} (h : s.SameSession t) (h' : t.SameSession u) : s.SameSession u where
  phase := h'.phase.trans h.phase
  freq := h'.freq.trans h.freq
  node := h'.node.trans h.node
  tree := h'.tree.trans h.tree
  code := h'.code.trans h.code

theorem wroteAll_sameSetup : ∀ (bs : List Byte) (s : State), s.SameSetup (s.wroteAll bs)
  | [], s => State.SameSetup.refl s
  | b :: bs, s => (wrote_sameSetup s b).trans (wroteAll_sameSetup bs _)

theorem wroteAll_sameSession : ∀ (bs : List Byte) (s : State), s.SameSession (s.wroteAll bs)
  | [], s => State.SameSession.refl s
  | b :: bs, s => (wrote_sameSession s b).trans (wroteAll_sameSession bs _)

/-- Every byte emitted adds one to DST_LEN; no wrap below 2^32 (44_table_serializer.md R151). -/
theorem wroteAll_dstLen : ∀ (bs : List Byte) (s : State), s.dstLen.toNat + bs.length < 2 ^ 32 →
    (s.wroteAll bs).dstLen.toNat = s.dstLen.toNat + bs.length
  | [], _, _ => rfl
  | b :: bs, s, h => by
    simp only [List.length_cons] at h
    have hd : (s.wrote b).dstLen.toNat = s.dstLen.toNat + 1 := by
      simp only [State.wrote, BitVec.toNat_add, BitVec.toNat_ofNat]
      omega
    have := wroteAll_dstLen bs (s.wrote b) (by omega)
    simp only [State.wroteAll, List.length_cons]
    omega

/-- The bytes emitted stand in order from DST_ADDR + DST_LEN on; every other byte is as before
(44_table_serializer.md R151). -/
theorem wroteAll_read : ∀ (bs : List Byte) (s : State) (x : Nat), s.dstLen.toNat + bs.length < 2 ^ 32 →
    Memory.read (s.wroteAll bs).mem x =
      if h : s.dstByte ≤ x ∧ x < s.dstByte + bs.length then bs[x - s.dstByte]'(by omega) else Memory.read s.mem x
  | [], s, x, _ => by
    rw [dif_neg (by simp only [List.length_nil]; omega)]
    rfl
  | b :: bs, s, x, h => by
    simp only [List.length_cons] at h
    have hd : (s.wrote b).dstByte = s.dstByte + 1 := by
      simp only [State.wrote, State.dstByte, BitVec.toNat_add, BitVec.toNat_ofNat]
      omega
    have hl : (s.wrote b).dstLen.toNat = s.dstLen.toNat + 1 := by
      simp only [State.wrote, BitVec.toNat_add, BitVec.toNat_ofNat]
      omega
    have ih := wroteAll_read bs (s.wrote b) x (by omega)
    simp only [State.wroteAll]
    rw [ih]
    by_cases hx : x = s.dstByte
    · subst hx
      rw [dif_neg (by omega), dif_pos (by simp only [List.length_cons]; omega)]
      simp [State.wrote, Memory.read_write_same]
    · have hm : Memory.read (s.wrote b).mem x = Memory.read s.mem x := by
        simp only [State.wrote]
        exact Memory.read_write_other _ _ _ hx
      by_cases hc : s.dstByte ≤ x ∧ x < s.dstByte + (b :: bs).length
      · have hc' := hc
        simp only [List.length_cons] at hc'
        rw [dif_pos (by omega), dif_pos hc]
        have e : x - s.dstByte = (x - (s.wrote b).dstByte) + 1 := by omega
        simp only [e, List.getElem_cons_succ]
      · have hc' := hc
        simp only [List.length_cons] at hc'
        rw [dif_neg (by omega), dif_neg hc, hm]

/-- What is left to do plays no part in emitting. -/
theorem wroteAll_todo : ∀ (bs : List Byte) (s : State) (l : List Job),
    State.wroteAll { s with todo := l } bs = { s.wroteAll bs with todo := l }
  | [], _, _ => rfl
  | b :: bs, s, l => wroteAll_todo bs (s.wrote b) l

/-- Bytes left to emit are emitted, when they fit and host memory answers (44_table_serializer.md R151). -/
theorem runOn_emit : ∀ (bs : List Byte) (s : State) (rest : List Job), s.todo = .emit bs :: rest →
    s.dstAddr.toNat + s.dstCap.toNat ≤ Config.addrSpace →
    s.dstLen.toNat + bs.length ≤ s.dstCap.toNat →
    (∀ k, s.dstLen.toNat ≤ k → k < s.dstLen.toNat + bs.length →
      (s.busAt (s.dstAddr.toNat + k)).onWrite = .completes) →
    s.dstTouched = [] → s.runOn = State.runOn { s.wroteAll bs with todo := rest }
  | [], s, rest, hs, _, _, _, _ => runOn_goes (progress_of_ok hs rfl)
  | b :: bs, s, rest, hs, hr, hl, hb, ht => by
    simp only [List.length_cons] at hl hb
    have hcap := s.dstCap.isLt
    have hd : (s.wrote b).dstLen.toNat = s.dstLen.toNat + 1 := by
      simp only [State.wrote, BitVec.toNat_add, BitVec.toNat_ofNat]
      omega
    have hrun : Job.run (.emit (b :: bs)) s = .ok [.emit bs] (s.wrote b) := by
      change emitNext b bs s = _
      unfold emitNext
      rw [Cmd.bind_of_ok (emit_ok (by omega) (by unfold State.dstByte; omega) (hb _ (by omega) (by omega)) ht)]
      rfl
    rw [runOn_goes (progress_of_ok hs hrun)]
    have ih := runOn_emit bs { s.wrote b with todo := .emit bs :: rest } rest rfl hr
      (by change (s.wrote b).dstLen.toNat + _ ≤ s.dstCap.toNat; omega)
      (fun k h1 h2 => by
        change (s.wrote b).dstLen.toNat ≤ k at h1
        change k < (s.wrote b).dstLen.toNat + _ at h2
        exact hb k (by omega) (by omega)) ht
    refine ih.trans ?_
    rw [wroteAll_todo]
    rfl

/-! ### Counting bytes -/

theorem tally_freqAt (s : State) (b : Byte) (i : Nat) :
    (s.tally b).freqAt i = if i = b.toNat then ⟨true, (s.freqAt i).count + 1#32⟩ else s.freqAt i := by
  have hb : b.toNat < 257 := by have := b.isLt; omega
  unfold State.tally State.setFreq State.freqAt
  simp only [Vector.getElem?_setIfInBounds]
  by_cases h : b.toNat = i
  · subst h; simp [hb]
  · rw [if_neg h, if_neg (fun e => h e.symm)]

/-- Each byte adds one to its own count and makes its entry valid (41_frequency_counter.md R120, R122). -/
theorem tallies_freqAt : ∀ (bs : List Byte) (s : State) (b : Byte),
    (bs.foldl State.tally s).freqAt b.toNat =
      ⟨(s.freqAt b.toNat).valid || bs.contains b, (s.freqAt b.toNat).count + BitVec.ofNat 32 (bs.count b)⟩
  | [], s, b => by simp
  | c :: bs, s, b => by
    rw [List.foldl_cons, tallies_freqAt bs (s.tally c) b, tally_freqAt]
    by_cases h : c = b
    · subst h
      simp only [if_true, List.contains_cons, beq_self_eq_true, Bool.true_or, Bool.or_true, List.count_cons_self,
        FreqEntry.mk.injEq, true_and]
      apply BitVec.eq_of_toNat_eq
      simp only [BitVec.toNat_add, BitVec.toNat_ofNat]
      omega
    · rw [if_neg (fun e => h (BitVec.eq_of_toNat_eq e.symm)), List.count_cons_of_ne h, List.contains_cons,
        beq_eq_false_iff_ne.mpr (fun e => h e.symm), Bool.false_or]

/-- No literal touches END_OF_TEXT's entry (00_scope.md R12). -/
theorem tallies_other : ∀ (bs : List Byte) (s : State) (i : Nat), 256 ≤ i → (bs.foldl State.tally s).freqAt i = s.freqAt i
  | [], _, _, _ => rfl
  | b :: bs, s, i, h => by
    rw [List.foldl_cons, tallies_other bs _ i h, tally_freqAt, if_neg]
    have := b.isLt
    omega

/-- Counting leaves everything but FREQ alone. -/
theorem tallies_eq : ∀ (bs : List Byte) (s : State), bs.foldl State.tally s = { s with freq := (bs.foldl State.tally s).freq }
  | [], _ => rfl
  | b :: bs, s => by
    rw [List.foldl_cons, tallies_eq bs (s.tally b)]
    rfl

/-- What is left to do plays no part in counting. -/
theorem tallies_todo : ∀ (bs : List Byte) (s : State) (l : List Job),
    bs.foldl State.tally { s with todo := l } = { bs.foldl State.tally s with todo := l }
  | [], _, _ => rfl
  | b :: bs, s, l => tallies_todo bs (s.tally b) l

/-- A source left to count is counted, when host memory answers (41_frequency_counter.md R120). -/
theorem runOn_count : ∀ (n k : Nat) (s : State) (rest : List Job), s.todo = .count k n :: rest → s.srcTouched = [] →
    (∀ j, k ≤ j → j < k + n → s.srcAddr.toNat + j < Config.addrSpace ∧
      (s.busAt (s.srcAddr.toNat + j)).onRead = .completes) →
    s.runOn = State.runOn
      { (Memory.bytes s.mem (s.srcAddr.toNat + k) n).foldl State.tally s with todo := rest }
  | 0, k, s, rest, hs, _, _ => runOn_goes (progress_of_ok hs rfl)
  | n + 1, k, s, rest, hs, ht, hb => by
    obtain ⟨ha, hr⟩ := hb k (by omega) (by omega)
    have hrun : Job.run (.count k (n + 1)) s =
        .ok [.count (k + 1) n] (s.tally (Memory.read s.mem (s.srcByte k))) := by
      change countByte k n s = _
      unfold countByte
      rw [Cmd.get_bind, Cmd.bind_of_ok (memRead_ok (a := s.srcByte k) ha hr ht), Cmd.update_bind]
      rfl
    rw [runOn_goes (progress_of_ok hs hrun)]
    have ih := runOn_count n (k + 1)
      { s.tally (Memory.read s.mem (s.srcByte k)) with todo := .count (k + 1) n :: rest } rest rfl ht
      (fun j h1 h2 => hb j (by omega) (by omega))
    refine ih.trans ?_
    rw [tallies_todo, Memory.bytes_succ, List.foldl_cons]
    rfl

/-! ### The stages of a composite, and the ranges of a command -/

/-- STAGE at acceptance is that of 10_state.md R33. -/
@[simp] theorem stageOfWord_encode (i : Instr) : stageOfWord (encode i) = startStage i := by cases i <;> rfl

@[simp] theorem runStages_nil (s : State) : runStages [] s = .next s := rfl

/-- A stage that completes normally hands on to the stages after it (46_session_ops.md R194). -/
theorem runStages_cons_of_done {i : Instr} {s t : State} (l : List Instr) (h : exec i s = .next t) (e : t.err = false) :
    runStages (i :: l) s = runStages l t := by simp [runStages, h, e]

/-- A stage that fails is the last (46_session_ops.md R194). -/
theorem runStages_cons_of_error {i : Instr} {s t : State} (l : List Instr) (h : exec i s = .next t) (e : t.err = true) :
    runStages (i :: l) s = .next t := by simp [runStages, h, e]

/-- Ranges that are ready pass the checks of every command. -/
theorem rangesOk_of_ready {s : State} (i : Instr) (hs : s.SourceReady) (hd : s.DestReady) (ho : overlaps s = false) :
    s.RangesOk i :=
  ⟨fun _ => ⟨hs.inRange, hs.offWindow⟩, fun _ => ⟨hd.inRange, hd.offWindow⟩, fun _ _ => ho⟩

/-- A source that is ready passes the checks of a command that writes no destination. -/
theorem rangesOk_of_sourceReady {s : State} {i : Instr} (h : i.writesDest = false) (hs : s.SourceReady) : s.RangesOk i :=
  ⟨fun _ => ⟨hs.inRange, hs.offWindow⟩, fun w => absurd (h.symm.trans w) Bool.false_ne_true,
    fun _ w => absurd (h.symm.trans w) Bool.false_ne_true⟩

end Sys2Proof.Machine
end

