-- ==== Sys2Proof/Tests/Slice0.lean ====
section
/-! SUPPORT. Tests: words written out from 30_encoding.md R90 and R91, a few end states of 95_test_vectors.md, and for
each statement with hypotheses a state that meets them. -/

namespace Sys2Proof.Tests

open Sys2Proof.Machine

set_option Elab.async false

/-! ### Words, and what well-formedness refuses (30_encoding.md R90 to R92, 10_state.md R21) -/

theorem test_decode_clear : decode 0b00000000000000000000000000000001#32 = .ok .clear := by decide
theorem test_decode_count : decode 0b00000000000000000000000000000010#32 = .ok .count := by decide
theorem test_decode_build : decode 0b00000000000000000000000000000011#32 = .ok .build := by decide
theorem test_decode_derive : decode 0b00000000000000000000000000000100#32 = .ok .derive := by decide
theorem test_decode_serialize : decode 0b00000000000000000000000000000101#32 = .ok .serialize := by decide
theorem test_decode_encodePayload : decode 0b00000000000000000000000000000110#32 = .ok .encodePayload := by decide
theorem test_decode_parse : decode 0b00000000000000000000000000000111#32 = .ok .parse := by decide
theorem test_decode_decodePayload : decode 0b00000000000000000000000000001000#32 = .ok .decodePayload := by decide
theorem test_decode_compress : decode 0b00000000000000000000000000001001#32 = .ok .compress := by decide
theorem test_decode_decompress : decode 0b00000000000000000000000000001010#32 = .ok .decompress := by decide
theorem test_decode_encode : decode 0b00000000000000000000000000001011#32 = .ok .encode := by decide

theorem test_decodeTableWord : decodeTableWord 32 0x9 = some .compress ∧ decodeTableWord 32 0x0 = none := by decide

/-- OPCODE 0x0 and 0xC to 0xF are illegal (30_encoding.md R92). -/
theorem test_wf_opcode_refused :
    commandWordOk 0x0#32 = false ∧ commandWordOk 0xC#32 = false ∧ commandWordOk 0xD#32 = false ∧
      commandWordOk 0xE#32 = false ∧ commandWordOk 0xF#32 = false ∧
      decode 0xC#32 = .error .reservedOpcode ∧ decode 0x0#32 = .error .reservedOpcode := by decide

/-- Any of bits 31:4 set is illegal (30_encoding.md R92). -/
theorem test_wf_reserved_bits_refused :
    reservedClear 0x12#32 = false ∧ commandWordOk 0x12#32 = false ∧ commandWordOk 0x80000001#32 = false ∧
      decode 0x12#32 = .error .reservedBitsSet ∧ decode 0x80000001#32 = .error .reservedBitsSet := by decide

/-- An access of another width is refused (10_state.md R21). -/
theorem test_wf_width_refused :
    HostOp.wf (.write 0x14#8 .bits8 1#32) = false ∧ HostOp.wf (.read 0x14#8 .bits16) = false ∧
      HostOp.wf (.read 0x14#8 .bits64) = false ∧ HostOp.wf (.read 0x14#8 .bits32) = true := by decide

/-- A misaligned access is refused (10_state.md R21). -/
theorem test_wf_misaligned_refused :
    HostOp.wf (.write 0x15#8 .bits32 1#32) = false ∧ HostOp.wf (.read 0x16#8 .bits32) = false ∧
      HostOp.wf (.read 0x17#8 .bits32) = false := by decide

/-- The offsets of the map (10_state.md R20). -/
theorem test_register_offsets : ∀ r ∈ [Reg.id, .cmd, .status, .intEn, .intStatus, .srcAddr, .srcLen, .srcPos, .dstAddr,
    .dstCap, .dstLen, .errInfo, .freqSel, .freqCount, .freqFlags, .codeSel, .codeInfo, .codeBits, .nodeSel, .nodeInfo,
    .nodeChild, .nodeWeightLo, .nodeWeightHi, .treeInfo], regAt r.offset = some r := by decide

/-! ### Small states, and looking at an outcome -/

/-- Bytes put into memory from an address on. -/
def put (m : List Host.Cell) (a : Nat) : List Byte → List Host.Cell
  | [] => m
  | b :: bs => put (Memory.write m a b) (a + 1) bs

/-- The state of 95_test_vectors.md's conventions: a source at 0x1000, a destination at 0x2000. -/
def sample (src : List Byte) (cap : Word) : State :=
  { State.reset with
    mem := put [] 0x1000 src
    host := [.wait]
    srcAddr := 0x1000#32
    srcLen := BitVec.ofNat 32 src.length
    dstAddr := 0x2000#32
    dstCap := cap
    mmioBase := 0xF0000000 }

/-- A session in phase CODED: FREQ, tree and codes of V-B3 and V-D3 (95_test_vectors.md 2.2, 2.3), with the host's
operations `l`, BUSY with the jobs `todo` or IDLE with none. -/
def codedBy (l : List HostOp) (busy : Bool) (todo : List Job) (src : List Byte) (cap : Word) : State :=
  { sample src cap with
    host := l
    busy := busy
    todo := todo
    phase := .coded
    freq := ((sample src cap).freq.setIfInBounds 0x5A ⟨true, 4#32⟩).setIfInBounds 256 ⟨true, 1#32⟩
    node := (((sample src cap).node.setIfInBounds 0 ⟨true, true, 0x5A#9, 0#10, 0#10, 4#64⟩).setIfInBounds 1
      ⟨true, true, 256#9, 0#10, 0#10, 1#64⟩).setIfInBounds 2 ⟨true, false, 0#9, 1#10, 0#10, 5#64⟩
    tree := ⟨2#10, 3#10⟩
    code := ((sample src cap).code.setIfInBounds 0x5A ⟨true, 1#9, 1#256⟩).setIfInBounds 256 ⟨true, 1#9, 0#256⟩ }

/-- The same IDLE, with a host that waits. -/
abbrev codedSample (src : List Byte) (cap : Word) : State := codedBy [.wait] false [] src cap

/-- The source `41 41 41 42 42` of 95_test_vectors.md 1.1. -/
def aaabb : List Byte := [0x41#8, 0x41#8, 0x41#8, 0x42#8, 0x42#8]

/-- Its container (95_test_vectors.md 1.1). -/
def aaabbContainer : List Byte :=
  [0x04#8, 0#8, 0#8, 0#8, 1#8, 0x41#8, 0#8, 0#8, 0#8, 3#8, 0x42#8, 0#8, 0#8, 0#8, 2#8, 0x03#8, 0x1F#8, 0x00#8]

/-- The state of a next, and the reset state of any other outcome. -/
def after (o : Host.Outcome State Fault Refusal) : State :=
  match o with
  | .next t => t
  | .fault _ => State.reset
  | .refused _ => State.reset

/-- The outcome is a next state. -/
def isNext (o : Host.Outcome State Fault Refusal) : Bool :=
  match o with
  | .next _ => true
  | .fault _ => false
  | .refused _ => false

/-- The outcome is a fault. -/
def isFault (o : Host.Outcome State Fault Refusal) : Bool :=
  match o with
  | .next _ => false
  | .fault _ => true
  | .refused _ => false

/-- The outcome is a refusal. -/
def isRefused (o : Host.Outcome State Fault Refusal) : Bool :=
  match o with
  | .next _ => false
  | .fault _ => false
  | .refused _ => true

theorem next_of_isNext {o : Host.Outcome State Fault Refusal} (h : isNext o = true) : o = .next (after o) := by
  cases o with
  | next t => rfl
  | fault r => cases h
  | refused r => cases h

/-- The host writes a command word and waits. -/
def issue (w : Word) (s : State) : Host.Outcome State Fault Refusal :=
  step { s with host := [.write 0x04#8 .bits32 w, .wait] }

/-- What `f` shows of the next state. -/
def look {α : Type} (f : State → α) (o : Host.Outcome State Fault Refusal) : Option α :=
  if isNext o then some (f (after o)) else none

/-! ### One step of each command, against 95_test_vectors.md -/

/-- V-C22's end: CLEAR leaves the session EMPTY, the operands as they were. -/
theorem test_clear : look (fun t => (t.statusWord, t.treeInfoReg, (t.freqAt 256).valid, t.srcAddr))
    (issue 0x1#32 (codedSample aaabb 64#32)) = some (0x00110002#32, 0#32, false, 0x1000#32) := by decide +kernel

/-- V-K1. -/
theorem test_count : look (fun t => (t.statusWord, t.freqAt 0x41, t.freqAt 0x42, t.freqAt 256, (t.freqAt 0x43).valid))
    (issue 0x2#32 (sample aaabb 64#32)) =
      some (0x00220012#32, ⟨true, 3#32⟩, ⟨true, 2#32⟩, ⟨true, 1#32⟩, false) := by decide +kernel

/-- V-K6: a range that passes 2^32. -/
theorem test_count_range : look (fun t => (t.statusWord, t.errInfo, t.phase))
    (issue 0x2#32 { sample [] 64#32 with srcAddr := 0xFFFFFFFF#32, srcLen := 2#32 }) =
      some (0x00220306#32, 0#32, .empty) := by decide +kernel

/-- V-B3, from the counts of V-B3. -/
theorem test_build : look (fun t => (t.treeInfoReg, t.nodeAt 0, t.nodeAt 2, t.phase))
    (issue 0x3#32 { codedSample [] 64#32 with node := State.reset.node, tree := TreeReg.absent, phase := .counted }) =
      some (0x80030002#32, ⟨true, true, 0x5A#9, 0#10, 0#10, 4#64⟩, ⟨true, false, 0#9, 1#10, 0#10, 5#64⟩, .built) := by
  decide +kernel

/-- V-B9. -/
theorem test_build_sequence : look (fun t => (t.statusWord, t.errInfo)) (issue 0x3#32 (sample [] 64#32)) =
    some (0x00330206#32, 0#32) := by decide +kernel

/-- V-D3: EOT "0", 5A "1". -/
theorem test_derive : look (fun t => ((t.codeAt 256).digits, (t.codeAt 0x5A).digits, (t.codeAt 0x41).valid, t.phase))
    (issue 0x4#32 { codedSample [] 64#32 with code := State.reset.code, phase := .built }) =
      some ([false], [true], false, .coded) := by decide +kernel

/-- V-D9. -/
theorem test_derive_sequence : look (fun t => (t.statusWord, t.errInfo))
    (issue 0x4#32 { sample [] 64#32 with phase := .counted }) = some (0x00440216#32, 1#32) := by decide +kernel

/-- The table section of V-B3's counts, in the order of 44_table_serializer.md R150. -/
theorem test_serialize : look (fun t => (Memory.bytes t.mem 0x2000 12, t.dstLen))
    (issue 0x5#32 (codedSample [] 64#32)) =
      some ([0x04#8, 0#8, 0#8, 0#8, 1#8, 0x5A#8, 0#8, 0#8, 0#8, 4#8, 0x03#8, 0#8], 11#32) := by decide +kernel

/-- DST_FULL as in V-S8, V-S9: DST_CAP 3 takes three bytes. -/
theorem test_serialize_full : look (fun t => (t.errCode, t.errInfo, t.dstLen, Memory.bytes t.mem 0x2000 5))
    (issue 0x5#32 (codedSample [] 3#32)) = some (.dstFull, 3#32, 3#32, [0x04#8, 0#8, 0#8, 0#8, 0#8]) := by decide +kernel

/-- Codes "1", "1", "0" and five padding digits make the byte 0xC0 (45_bitstream.md R171, R172). -/
theorem test_encodePayload : look (fun t => (Memory.bytes t.mem 0x2000 2, t.dstLen))
    (issue 0x6#32 (codedSample [0x5A#8, 0x5A#8] 64#32)) = some ([0xC0#8, 0#8], 1#32) := by decide +kernel

/-- NO_CODE with the source offset (45_bitstream.md R173). -/
theorem test_encodePayload_noCode : look (fun t => (t.errCode, t.errInfo))
    (issue 0x6#32 (codedSample [0x5A#8, 0x41#8] 64#32)) = some (.noCode, 1#32) := by decide +kernel

/-- The container of 1.1: its table, and SRC_POS after the terminator. -/
theorem test_parse : look (fun t => (t.freqAt 0x41, t.freqAt 0x42, t.freqAt 256, t.srcPos, t.phase))
    (issue 0x7#32 (sample aaabbContainer 64#32)) =
      some (⟨true, 3#32⟩, ⟨true, 2#32⟩, ⟨true, 1#32⟩, 16#32, .counted) := by decide +kernel

/-- A duplicate key is MALFORMED_TABLE at its offset, and the session is EMPTY (44_table_serializer.md R156, R158). -/
theorem test_parse_duplicate : look (fun t => (t.errCode, t.errInfo, t.phase, (t.freqAt 256).valid))
    (issue 0x7#32 (sample [0x04#8, 0#8, 0#8, 0#8, 1#8, 0x41#8, 0#8, 0#8, 0#8, 1#8, 0x41#8, 0#8, 0#8, 0#8, 1#8, 0x03#8]
      64#32)) = some (.malformedTable, 10#32, .empty, false) := by decide +kernel

/-- The byte 0xC0 of `test_encodePayload`, and a byte after it: EXTRA_INPUT (45_bitstream.md R178). -/
theorem test_decodePayload : look (fun t => (Memory.bytes t.mem 0x2000 3, t.dstLen, t.srcPos, t.extraInput))
    (issue 0x8#32 (codedSample [0xC0#8, 0x99#8] 64#32)) = some ([0x5A#8, 0x5A#8, 0#8], 2#32, 1#32, true) := by
  decide +kernel

/-- A payload that never meets END_OF_TEXT is truncated (45_bitstream.md R179). -/
theorem test_decodePayload_truncated : look (fun t => (t.errCode, t.errInfo, t.dstLen))
    (issue 0x8#32 (codedSample [0xFF#8] 64#32)) = some (.truncatedPayload, 1#32, 8#32) := by decide +kernel

/-- Codes 41 "0", EOT "10", 42 "11" (V-D1): fifteen codes of 41, and then a source that ends inside a code
(45_bitstream.md R179). -/
theorem test_decodePayload_inside : look (fun t => (t.errCode, t.errInfo, t.dstLen, t.srcPos))
    (exec .decodePayload { sessionOf aaabb with
      host := [.wait], mem := put [] 0x1000 [0x00#8, 0x01#8], srcAddr := 0x1000#32, srcLen := 2#32,
      dstAddr := 0x2000#32, dstCap := 15#32, mmioBase := 0xF0000000 }) =
      some (.truncatedPayload, 2#32, 15#32, 0#32) := by decide +kernel

/-- 95_test_vectors.md 1.1. -/
theorem test_compress : look (fun t => (Memory.bytes t.mem 0x2000 18, t.dstLen, t.statusWord))
    (issue 0x9#32 (sample aaabb 64#32)) = some (aaabbContainer, 18#32, 0x00690032#32) := by decide +kernel

/-- 95_test_vectors.md 1.2, the empty source. -/
theorem test_compress_empty : look (fun t => (Memory.bytes t.mem 0x2000 7, t.dstLen))
    (issue 0x9#32 (sample [] 64#32)) = some ([0x04#8, 0#8, 0#8, 0#8, 1#8, 0x03#8, 0#8], 7#32) := by decide +kernel

/-- 95_test_vectors.md 1.1. -/
theorem test_decompress : look (fun t => (Memory.bytes t.mem 0x2000 5, t.dstLen, t.srcPos, t.extraInput, t.phase))
    (issue 0xA#32 (sample aaabbContainer 64#32)) = some (aaabb, 5#32, 18#32, false, .built) := by decide +kernel

/-- V-D1: 41 "0", EOT "10", 42 "11". -/
theorem test_encode : look (fun t => ((t.codeAt 0x41).digits, (t.codeAt 256).digits, (t.codeAt 0x42).digits, t.dstLen))
    (issue 0xB#32 (sample aaabb 0#32)) = some ([false], [true, false], [true, true], 0#32) := by decide +kernel

/-! ### The host between and within commands -/

/-- An illegal word (30_encoding.md R92). -/
theorem test_illegal : look (fun t => (t.statusWord, t.errInfo, t.donePend)) (issue 0x12#32 (sample [] 64#32)) =
    some (0x00020106#32, 0x12#32, true) := by decide +kernel

/-- COUNT of `aaabb`, just accepted by a host that goes on with `l`. -/
def counting (l : List HostOp) : State := after (exec .count { sample aaabb 64#32 with host := l })

/-- A command accepted by a host that goes on is BUSY; then one access counts one byte (00_scope.md R7). -/
theorem test_one_access : look (fun t => (t.busy, t.done, t.phase, (t.freqAt 0x41).count, (t.freqAt 0x42).valid))
    (step (counting [.pass])) = some (true, false, .empty, 1#32, false) := by decide +kernel

/-- While BUSY a CMD write sets CMD_DROPPED (10_state.md R31). -/
theorem test_busy_cmd : look (fun t => (t.busy, t.cmdDropped, t.cmd)) (step (counting [.write 0x04#8 .bits32 1#32])) =
    some (true, true, 2#4) := by decide +kernel

/-- While BUSY an operand write is dropped and a SEL write is not (10_state.md R25). -/
theorem test_busy_operand :
    look (fun t => t.srcAddr) (step (counting [.write 0x14#8 .bits32 0#32])) = some 0x1000#32 ∧
      look (fun t => t.freqSel) (step (counting [.write 0x30#8 .bits32 0x41#32])) = some 0x41#9 := by decide +kernel

/-- A reset abandons COUNT: DONE and DONE_PEND stay 0 (70_reset_and_hazards.md R241). -/
theorem test_reset_busy : look (fun t => (t.statusWord, t.donePend, t.phase, t.todo)) (step (counting [.reset])) =
    some (0#32, false, .empty, []) := by decide +kernel

/-- While reset is asserted a CMD write starts nothing and an INT_EN write is not taken; after the release STATUS is 0
(70_reset_and_hazards.md R240, V-R12). -/
theorem test_reset_asserted :
    look (fun t => (t.busy, t.statusWord, t.inReset, t.phase))
      ({ sample aaabb 64#32 with host := [.reset, .write 0x04#8 .bits32 2#32] }.steps 2) = some (false, 0#32, true, .empty) ∧
    look (fun t => (t.doneIE, t.statusWord, t.inReset))
      ({ sample aaabb 64#32 with host := [.reset, .write 0x0C#8 .bits32 1#32, .release] }.steps 3) = some (false, 0#32, false) := by
  decide +kernel

/-- An access that host memory never answers leaves the command BUSY (60_exceptions.md R220). -/
theorem test_never_answered : look (fun t => (t.busy, t.done, (t.freqAt 0x41).valid))
    (step { counting [.pass] with bus := [⟨0x1000, .never, .never⟩] }) = some (true, false, false) := by decide +kernel

/-- A wait while IDLE gives STATUS (30_encoding.md R101). -/
theorem test_wait_idle : look (fun t => (t.hostData, t.host)) (step (sample [] 64#32)) = some ([0#32], []) := by
  decide +kernel

/-- The next step after `withFetchWord` runs the word's command. -/
theorem test_withFetchWord : look (fun t => (t.statusWord, t.phase)) (step (State.reset.withFetchWord 32 1)) =
    some (0x00110002#32, .empty) := by decide +kernel

/-! ### Witnesses: for each statement with hypotheses, a state and operands that meet all of them -/

/-- A state whose host's next operation is `op`. -/
def hostDoes (op : HostOp) : State := { codedSample aaabb 64#32 with host := [op, .wait] }

/-- The state after reset, with reset asserted and the host's next operation `op`. -/
def held (op : HostOp) : State := { State.reset with inReset := true, host := [op, .wait] }

theorem held_atReset (op : HostOp) : (held op).AtReset where
  regs := by intro r; cases r <;> rfl
  session := by
    constructor
    · rfl
    · intro i; simp only [State.freqAt, held, State.reset, Vector.getElem?_replicate]; split <;> rfl
    · intro i; simp only [State.nodeAt, held, State.reset, Vector.getElem?_replicate]; split <;> rfl
    · rfl
    · intro i; simp only [State.codeAt, held, State.reset, Vector.getElem?_replicate]; split <;> rfl
  idle := rfl
  irq := rfl

/-- IDLE before a CMD write; BUSY before a pass, and while the host waits; a CMD write while BUSY, a write of another
register and one of another width, a write while reset is asserted, a read; no operation left, and a pass, while IDLE. -/
theorem witness_StepRunsTheAcceptedCommand :
    ((hostDoes (.write 0x04#8 .bits32 0x2#32)).host = .write 0x04#8 .bits32 0x2#32 :: [.wait] ∧
      (hostDoes (.write 0x04#8 .bits32 0x2#32)).inReset = false ∧
      (hostDoes (.write 0x04#8 .bits32 0x2#32)).busy = false ∧ decode 0x2#32 = .ok .count) ∧
    ((counting [.pass]).host = .pass :: [] ∧ (counting [.pass]).busy = true) ∧
    ({ counting [.pass] with host := [.wait] }.hostWaits = true ∧ { counting [.pass] with host := [.wait] }.busy = true) ∧
    ({ counting [.pass] with host := [] }.hostWaits = true) ∧
    ((counting [.write 0x04#8 .bits32 1#32]).inReset = false ∧ (counting [.write 0x04#8 .bits32 1#32]).busy = true) ∧
    ((hostDoes (.write 0x00#8 .bits32 1#32)).inReset = false ∧ 0x00#8 ≠ 0x04#8 ∧
      AccessWidth.bits16 ≠ .bits32) ∧
    (held (.write 0x04#8 .bits32 2#32)).inReset = true ∧
    (∃ off width, HostOp.read 0x00#8 .bits32 = .read off width) ∧
    (State.reset.host = [] ∧ State.reset.busy = false) ∧
    ((hostDoes .pass).host = .pass :: [.wait] ∧ (hostDoes .pass).busy = false) := by
  refine ⟨by decide +kernel, by decide +kernel, by decide +kernel, by decide +kernel, by decide +kernel, by decide,
    by decide, ⟨_, _, rfl⟩, by decide, by decide⟩

/-- Each clause at its boundary: the lowest and the highest reserved bit, OPCODE 0x0, 0xC and 0xF. -/
theorem witness_IllegalWordFailsAtOnce :
    (hostDoes (.write 0x04#8 .bits32 0x12#32)).host = .write 0x04#8 .bits32 0x12#32 :: [.wait] ∧
      (hostDoes (.write 0x04#8 .bits32 0x12#32)).inReset = false ∧
      (hostDoes (.write 0x04#8 .bits32 0x12#32)).busy = false ∧ (0x12#32).extractLsb' 4 28 ≠ 0#28 ∧
      (0x80000001#32).extractLsb' 4 28 ≠ 0#28 ∧ ((0x0#32).extractLsb' 0 4).toNat = 0 ∧
      12 ≤ ((0xC#32).extractLsb' 0 4).toNat ∧ 12 ≤ ((0xF#32).extractLsb' 0 4).toNat := by decide

/-- Reset asserted while IDLE; while it is asserted, a CMD write and a write of host memory; its release. -/
theorem witness_ResetInputKeepsHostMemory :
    ((hostDoes .reset).host = .reset :: [.wait] ∧ (hostDoes .reset).undo = []) ∧
    (∀ op, op ∈ [HostOp.write 0x04#8 .bits32 2#32, .memWrite 0x2000#32 7#8] →
      (held op).host = op :: [.wait] ∧ (held op).inReset = true ∧ (held op).AtReset ∧ (held op).undo = [] ∧
        op ≠ .release) ∧
    (0x2000#32).toNat ≠ 0x2001 ∧ (held .release).host = .release :: [.wait] ∧ (held .release).AtReset := by
  refine ⟨by decide, fun op h => ⟨rfl, rfl, held_atReset op, rfl, ?_⟩, by decide, rfl, held_atReset _⟩
  rintro rfl
  simp at h

/-- COMPRESS of `aaabb`, with a reset after `k` accesses. -/
def abandoned (k : Nat) : State := { sample aaabb 64#32 with host := List.replicate k .pass ++ .reset :: [.wait] }

/-- A reset at once, and one after fourteen accesses, when some bytes have been written. -/
theorem witness_ResetAbandonsTheCommand :
    (∀ k, k ∈ [0, 14] → (abandoned k).host = List.replicate k .pass ++ .reset :: [.wait] ∧
      isNext ((after (exec .compress (abandoned k))).steps k) = true) ∧
    (after ((after (exec .compress (abandoned 14))).steps 14)).dstLen ≠ 0#32 ∧
    Instr.compress.writesDest = true ∧ rangeHas (abandoned 14).dstAddr (abandoned 14).dstCap 0x2040 = false := by
  decide +kernel

/-- A byte not marked, and one other than the byte written. -/
theorem witness_ResetLeavesOldOrWrittenBytes : 0x2000 ∉ (sample [] 64#32).dstTouched ∧ 0x2001 ≠ 0x2000 := by decide

theorem witness_StatusFieldsAtTheirBits : (codedSample [] 64#32).busy = false := rfl

/-- The first and the last register that reads exactly. -/
theorem witness_StatusReadsWhileBusy :
    { sample [] 64#32 with busy := true }.busy = true ∧
      Reg.id ∈ [Reg.id, .cmd, .intEn, .intStatus, .srcAddr, .srcLen, .dstAddr, .dstCap, .freqSel, .codeSel, .nodeSel] ∧
      Reg.nodeSel ∈
        [Reg.id, .cmd, .intEn, .intStatus, .srcAddr, .srcLen, .dstAddr, .dstCap, .freqSel, .codeSel, .nodeSel] := by
  decide

/-- COMPRESS runs, and the host has written one byte of each range. -/
def touched : State :=
  { after (exec .compress { sample aaabb 64#32 with host := [.pass] }) with
    srcTouched := [0x1004]
    dstTouched := [0x203F] }

/-- Both ends of the source and of the destination, their neighbours outside, and the marked bytes. -/
theorem witness_WritesAreDroppedWhileBusy :
    touched.busy = true ∧
      (touched.inSource 0x1000 = true ∧ touched.inDest 0x1000 = false) ∧
      (touched.inSource 0x1004 = true ∧ touched.inDest 0x1004 = false) ∧ 0x1004 ∈ touched.srcTouched ∧
      touched.inDest 0x2000 = true ∧ touched.inDest 0x203F = true ∧ 0x203F ∈ touched.dstTouched ∧
      (touched.inSource 0x1005 = false ∧ touched.inDest 0x1005 = false) ∧
      (touched.inSource 0x0FFF = false ∧ touched.inDest 0x0FFF = false) ∧
      (touched.inSource 0x2040 = false ∧ touched.inDest 0x2040 = false) := by decide +kernel

theorem witness_OperandWritesWhileIdle : (sample [] 64#32).busy = false ∧ 0x2001 ≠ (0x2000#32).toNat := by decide

/-- Each clause at a boundary: a width, the two misaligned neighbours of an aligned offset, the first and the last
reserved offset, the first and the last read-only register. -/
theorem witness_AccessesOutsideTheMapReadZero :
    AccessWidth.bits8 ≠ .bits32 ∧ AccessWidth.bits64 ≠ .bits32 ∧ (0x5D#8).extractLsb' 0 2 ≠ 0#2 ∧
      (0x5F#8).extractLsb' 0 2 ≠ 0#2 ∧ 0x60 ≤ (0x60#8).toNat ∧ 0x60 ≤ (0xFC#8).toNat ∧
      0x00#8 ∈ [0x00#8, 0x08#8, 0x2C#8, 0x34#8, 0x38#8, 0x40#8, 0x44#8, 0x4C#8, 0x50#8, 0x54#8, 0x58#8, 0x5C#8] ∧
      0x5C#8 ∈ [0x00#8, 0x08#8, 0x2C#8, 0x34#8, 0x38#8, 0x40#8, 0x44#8, 0x4C#8, 0x50#8, 0x54#8, 0x58#8, 0x5C#8] := by
  decide

/-- A valid entry of each table, an absent one, and a phase that shows none; both ends of the first and of the last
chunk. -/
theorem witness_TableRegistersShowTheEntries :
    (sample [] 64#32).phase = .empty ∧
      ((codedSample [] 64#32).freqAt { codedSample [] 64#32 with freqSel := 0x41#9 }.freqSel.toNat).valid = false ∧
      (codedSample [] 64#32).phase ≠ .empty ∧
      ((codedSample [] 64#32).freqAt { codedSample [] 64#32 with freqSel := 256#9 }.freqSel.toNat).valid = true ∧
      (sample [] 64#32).phase ≠ .coded ∧
      ((codedSample [] 64#32).codeAt { codedSample [] 64#32 with codeSym := 257#9 }.codeSym.toNat).valid = false ∧
      (codedSample [] 64#32).phase = .coded ∧
      ((codedSample [] 64#32).codeAt { codedSample [] 64#32 with codeSym := 256#9 }.codeSym.toNat).valid = true ∧
      0 < 32 ∧ 31 < 32 ∧ { codedSample [] 64#32 with codeChunk := 7#3 }.codeChunk.toNat = 7 := by decide +kernel

/-- Each phase; a node that is not shown (the first index past the arena's used part), a leaf, an internal node. -/
theorem witness_TreeRegistersShowTheTree :
    (sample [] 64#32).phase = .empty ∧ { sample [] 64#32 with phase := .counted }.phase = .counted ∧
      (codedSample [] 64#32).phase = .coded ∧ { codedSample [] 64#32 with phase := .built }.phase = .built ∧
      { codedSample [] 64#32 with nodeSel := 3#10 }.nodeShown = false ∧
      { codedSample [] 64#32 with nodeSel := 1#10 }.nodeShown = true ∧
      ((codedSample [] 64#32).nodeAt 1).leaf = true ∧
      { codedSample [] 64#32 with nodeSel := 2#10 }.nodeShown = true ∧
      ((codedSample [] 64#32).nodeAt 2).leaf = false := by decide +kernel

theorem witness_SequenceErrorComesFirst :
    (sample [] 64#32).hostWaits = true ∧ phaseTooLow .build (sample [] 64#32).phase = true ∧
      phaseTooLow .derive .counted = true ∧ phaseTooLow .serialize .empty = true ∧
      phaseTooLow .encodePayload .built = true ∧ phaseTooLow .decodePayload .counted = true := by decide

/-- The source ends one byte past 2^32. -/
def sourceTooFar : State := { codedSample aaabb 64#32 with srcAddr := 0xFFFFFFFF#32, srcLen := 2#32 }

theorem witness_SourceRangeErrorComesNext :
    sourceTooFar.hostWaits = true ∧ phaseTooLow .encodePayload sourceTooFar.phase = false ∧
      Instr.encodePayload.readsSource = true ∧
      2 ^ 32 < sourceTooFar.srcAddr.toNat + sourceTooFar.srcLen.toNat := by decide

/-- The destination ends one byte past 2^32; the source ends at 2^32. -/
def destTooFar : State :=
  { codedSample aaabb 64#32 with srcAddr := 0xFFFFFFFF#32, srcLen := 1#32, dstAddr := 0xFFFFFFFF#32, dstCap := 2#32 }

theorem witness_DestRangeErrorComesAfterTheSource :
    destTooFar.hostWaits = true ∧ phaseTooLow .compress destTooFar.phase = false ∧ Instr.compress.writesDest = true ∧
      (Instr.compress.readsSource = true → destTooFar.srcAddr.toNat + destTooFar.srcLen.toNat ≤ 2 ^ 32) ∧
      phaseTooLow .serialize destTooFar.phase = false ∧ Instr.serialize.readsSource = false ∧
      2 ^ 32 < destTooFar.dstAddr.toNat + destTooFar.dstCap.toNat := by decide

/-- The destination's first byte is the source's last. -/
def overlapping : State := { codedSample aaabb 64#32 with dstAddr := 0x1004#32 }

theorem witness_OverlapErrorComesLast :
    overlapping.hostWaits = true ∧ phaseTooLow .decodePayload overlapping.phase = false ∧
      Instr.decodePayload.readsSource = true ∧ Instr.decodePayload.writesDest = true ∧
      overlapping.srcAddr.toNat + overlapping.srcLen.toNat ≤ 2 ^ 32 ∧
      overlapping.dstAddr.toNat + overlapping.dstCap.toNat ≤ 2 ^ 32 ∧
      ∃ x, rangeHas overlapping.srcAddr overlapping.srcLen x = true ∧
        rangeHas overlapping.dstAddr overlapping.dstCap x = true :=
  ⟨by decide, by decide, by decide, by decide, by decide, by decide, 0x1004, by decide⟩

/-- The window's first byte is the source's last. -/
def sourceMeetsWindow : State := { codedSample aaabb 64#32 with mmioBase := 0x1004 }

/-- The window's last byte is the destination's first. -/
def destMeetsWindow : State := { codedSample aaabb 64#32 with mmioBase := 0x1F01 }

theorem witness_RangeInTheWindowIsRefused :
    (sourceMeetsWindow.hostWaits = true ∧ phaseTooLow .count sourceMeetsWindow.phase = false ∧
      (sourceMeetsWindow.srcAddr.toNat + sourceMeetsWindow.srcLen.toNat ≤ 2 ^ 32) ∧ Instr.count.writesDest = false ∧
      ∃ x, sourceMeetsWindow.mmioBase ≤ x ∧ x < sourceMeetsWindow.mmioBase + 256 ∧
        (Instr.count.readsSource = true ∧ rangeHas sourceMeetsWindow.srcAddr sourceMeetsWindow.srcLen x = true)) ∧
    (destMeetsWindow.hostWaits = true ∧ phaseTooLow .compress destMeetsWindow.phase = false ∧
      (destMeetsWindow.srcAddr.toNat + destMeetsWindow.srcLen.toNat ≤ 2 ^ 32) ∧
      (destMeetsWindow.dstAddr.toNat + destMeetsWindow.dstCap.toNat ≤ 2 ^ 32) ∧ overlaps destMeetsWindow = false ∧
      ∃ x, destMeetsWindow.mmioBase ≤ x ∧ x < destMeetsWindow.mmioBase + 256 ∧
        (Instr.compress.writesDest = true ∧ rangeHas destMeetsWindow.dstAddr destMeetsWindow.dstCap x = true)) :=
  ⟨⟨by decide, by decide, by decide, by decide, 0x1004, by decide⟩,
   ⟨by decide, by decide, by decide, by decide, by decide, 0x2000, by decide⟩⟩

theorem witness_ClearEmptiesTheSession : (codedSample aaabb 64#32).hostWaits = true := by decide

/-- A sample's source can be read. -/
theorem sample_sourceReady : (sample aaabb 64#32).SourceReady := ⟨by decide, by decide, by decide⟩

/-- A sample's destination can be written. -/
theorem sample_destReady : (sample aaabb 64#32).DestReady := ⟨by decide, by decide, by decide⟩

theorem witness_CountTalliesTheSource : (sample aaabb 64#32).hostWaits = true ∧ (sample aaabb 64#32).SourceReady :=
  ⟨by decide, sample_sourceReady⟩

/-- Host memory answers a read of source byte `k` with a bus error. -/
def badRead (k : Nat) (s : State) : State := { s with bus := [⟨0x1000 + k, .busError, .completes⟩] }

/-- A bus error at the source's third byte, as in V-K7. -/
abbrev sourceBusError : State := badRead 2 (sample aaabb 64#32)

/-- The third byte, and the last one; for each of the three commands. -/
theorem witness_CountBusErrorLeavesTheSessionEmpty :
    sourceBusError.hostWaits = true ∧ sourceBusError.RangesOk .count ∧ sourceBusError.RangesOk .compress ∧
      sourceBusError.RangesOk .encode ∧ Instr.encode ∈ [Instr.count, .compress, .encode] ∧
      (2 < sourceBusError.srcLen.toNat ∧ (∀ j, j < 2 → sourceBusError.srcReply j = .completes) ∧
        sourceBusError.srcReply 2 = .busError) ∧
      (4 < (badRead 4 (sample aaabb 64#32)).srcLen.toNat ∧
        (∀ j, j < 4 → (badRead 4 (sample aaabb 64#32)).srcReply j = .completes) ∧
        (badRead 4 (sample aaabb 64#32)).srcReply 4 = .busError) :=
  ⟨by decide, ⟨by decide, by decide, by decide⟩, ⟨by decide, by decide, by decide⟩, ⟨by decide, by decide, by decide⟩,
    by decide, by decide, by decide⟩

/-- COUNTED, with the counts of V-B3. -/
def countedSample : State :=
  { codedSample [] 64#32 with
    node := State.reset.node
    tree := TreeReg.absent
    code := State.reset.code
    phase := .counted }

theorem witness_BuildLaysOutTheTree :
    countedSample.hostWaits = true ∧ countedSample.phase ≠ .empty ∧
      (countedSample.freqAt Config.endOfText).valid = true := by decide +kernel

/-- Also the hypotheses of `BuildConservesFrequency`; the internal node is node 2. -/
theorem witness_BuildCombinesTheTwoLeast :
    countedSample.hostWaits = true ∧ countedSample.phase ≠ .empty ∧
      (countedSample.freqAt Config.endOfText).valid = true ∧
      exec .build countedSample = .next (after (exec .build countedSample)) ∧
      (after (exec .build countedSample)).presentSyms.length ≤ 2 ∧
      2 < (after (exec .build countedSample)).tree.nodes.toNat :=
  ⟨by decide, by decide, by decide +kernel, next_of_isNext (by decide +kernel), by decide +kernel, by decide +kernel⟩

/-- From COUNTED and from CODED. -/
theorem witness_BuildIsDeterminedByFreq :
    countedSample.hostWaits = true ∧ (codedSample [] 64#32).hostWaits = true ∧ countedSample.phase ≠ .empty ∧
      (codedSample [] 64#32).phase ≠ .empty ∧ countedSample.freq = (codedSample [] 64#32).freq ∧
      exec .build countedSample = .next (after (exec .build countedSample)) ∧
      exec .build (codedSample [] 64#32) = .next (after (exec .build (codedSample [] 64#32))) :=
  ⟨by decide, by decide, by decide, by decide, rfl, next_of_isNext (by decide +kernel),
    next_of_isNext (by decide +kernel)⟩

theorem witness_BuildOfAnEmptyTableFaults :
    { sample [] 64#32 with phase := .counted }.hostWaits = true ∧
      { sample [] 64#32 with phase := .counted }.phase ≠ .empty ∧
      { sample [] 64#32 with phase := .counted }.presentSyms = [] := by decide +kernel

/-! The coded sample's session is a session in the sense of the invariant. -/

variable (l : List HostOp) (busy : Bool) (todo : List Job) (src : List Byte) (cap : Word)

theorem coded_absent (n : Nat) (h : 3 ≤ n) : (codedBy l busy todo src cap).nodeAt n = NodeEntry.absent := by
  simp only [State.nodeAt, codedBy, sample, State.reset, Vector.getElem?_setIfInBounds]
  rw [if_neg (by omega), if_neg (by omega), if_neg (by omega), Vector.getElem?_replicate]
  split <;> rfl

theorem coded_node0 : (codedBy l busy todo src cap).nodeAt 0 = ⟨true, true, 0x5A#9, 0#10, 0#10, 4#64⟩ := by
  change (codedSample [] 0#32).nodeAt 0 = _
  decide +kernel

theorem coded_node1 : (codedBy l busy todo src cap).nodeAt 1 = ⟨true, true, 256#9, 0#10, 0#10, 1#64⟩ := by
  change (codedSample [] 0#32).nodeAt 1 = _
  decide +kernel

theorem coded_node2 : (codedBy l busy todo src cap).nodeAt 2 = ⟨true, false, 0#9, 1#10, 0#10, 5#64⟩ := by
  change (codedSample [] 0#32).nodeAt 2 = _
  decide +kernel

theorem coded_code5A : (codedBy l busy todo src cap).codeAt 0x5A = ⟨true, 1#9, 1#256⟩ := by
  change (codedSample [] 0#32).codeAt 0x5A = _
  decide +kernel

theorem coded_code256 : (codedBy l busy todo src cap).codeAt 256 = ⟨true, 1#9, 0#256⟩ := by
  change (codedSample [] 0#32).codeAt 256 = _
  decide +kernel

theorem coded_freq5A : (codedBy l busy todo src cap).freqAt 0x5A = ⟨true, 4#32⟩ := by
  change (codedSample [] 0#32).freqAt 0x5A = _
  decide +kernel

theorem coded_freq256 : (codedBy l busy todo src cap).freqAt 256 = ⟨true, 1#32⟩ := by
  change (codedSample [] 0#32).freqAt 256 = _
  decide +kernel

theorem coded_root : (codedBy l busy todo src cap).tree.root.toNat = 2 := by
  change (2#10).toNat = 2
  decide

theorem coded_syms : (codedBy l busy todo src cap).presentSyms = [0x5A, 256] := by
  change (codedSample [] 0#32).presentSyms = [0x5A, 256]
  decide +kernel

theorem coded_child {p c : Nat} (h : (codedBy l busy todo src cap).IsChild p c) : p = 2 := by
  obtain ⟨hv, hl, -⟩ := h
  by_cases hp : 3 ≤ p
  · rw [coded_absent l busy todo src cap p hp] at hv; cases hv
  · obtain rfl | rfl | rfl : p = 0 ∨ p = 1 ∨ p = 2 := by omega
    · rw [coded_node0] at hl; cases hl
    · rw [coded_node1] at hl; cases hl
    · rfl

theorem coded_treeOk : (codedBy l busy todo src cap).TreeOk where
  some := by rw [coded_syms]; decide
  nodes := by rw [coded_syms]; change (3#10).toNat = _; decide
  root := by rw [coded_syms, coded_root]; decide
  leaves := by
    intro k h
    simp only [coded_syms] at h ⊢
    obtain rfl | rfl : k = 0 ∨ k = 1 := by simp only [List.length_cons, List.length_nil] at h; omega
    · change _ = leafOf 0x5A ((codedBy l busy todo src cap).freqAt 0x5A)
      rw [coded_node0, coded_freq5A]; decide
    · change _ = leafOf 256 ((codedBy l busy todo src cap).freqAt 256)
      rw [coded_node1, coded_freq256]; decide
  inner := by
    intro n h h'
    rw [coded_syms] at h h'
    obtain rfl : n = 2 := by simp only [List.length_cons, List.length_nil] at h h'; omega
    rw [coded_node2]
    change _ ∧ _ ∧ _ ∧ _ ∧ _ ∧ _ = ((codedBy l busy todo src cap).nodeAt 1).weight.toNat +
      ((codedBy l busy todo src cap).nodeAt 0).weight.toNat
    rw [coded_node0, coded_node1]
    decide
  parent := by
    intro c h
    rw [coded_syms] at h
    obtain rfl | rfl : c = 0 ∨ c = 1 := by simp only [List.length_cons, List.length_nil] at h; omega
    · exact ⟨2, by simp only [State.IsChild, coded_node2]; decide, fun p hp => coded_child l busy todo src cap hp⟩
    · exact ⟨2, by simp only [State.IsChild, coded_node2]; decide, fun p hp => coded_child l busy todo src cap hp⟩
  beyond := by
    intro n h
    rw [coded_syms] at h
    exact coded_absent l busy todo src cap n h

theorem coded_code_some {i : Nat} (h : ((codedBy l busy todo src cap).codeAt i).valid = true) : i = 0x5A ∨ i = 256 := by
  by_contra hn
  rw [not_or] at hn
  simp only [State.codeAt, codedBy, sample, State.reset, Vector.getElem?_setIfInBounds] at h
  rw [if_neg (Ne.symm hn.2), if_neg (Ne.symm hn.1), Vector.getElem?_replicate] at h
  split at h <;> cases h

theorem coded_code_absent {i : Nat} (h : ¬(i = 0x5A ∨ i = 256)) :
    (codedBy l busy todo src cap).codeAt i = CodeEntry.absent := by
  rw [not_or] at h
  simp only [State.codeAt, codedBy, sample, State.reset, Vector.getElem?_setIfInBounds]
  rw [if_neg (Ne.symm h.2), if_neg (Ne.symm h.1), Vector.getElem?_replicate]
  split <;> rfl

theorem coded_freq_some {i : Nat} (h : ((codedBy l busy todo src cap).freqAt i).valid = true) : i = 0x5A ∨ i = 256 := by
  by_contra hn
  rw [not_or] at hn
  simp only [State.freqAt, codedBy, sample, State.reset, Vector.getElem?_setIfInBounds] at h
  rw [if_neg (Ne.symm hn.2), if_neg (Ne.symm hn.1), Vector.getElem?_replicate] at h
  split at h <;> cases h

theorem coded_codesOk : (codedBy l busy todo src cap).CodesOk where
  present := by
    intro i
    by_cases h : i = 0x5A ∨ i = 256
    · rcases h with rfl | rfl
      · rw [coded_code5A, coded_freq5A]
      · rw [coded_code256, coded_freq256]
    · rw [Bool.eq_false_iff.mpr fun e => h (coded_code_some l busy todo src cap e),
        Bool.eq_false_iff.mpr fun e => h (coded_freq_some l busy todo src cap e)]
  length := by
    intro i h
    rcases coded_code_some l busy todo src cap h with rfl | rfl
    · rw [coded_code5A]; decide
    · rw [coded_code256]; decide
  oneLeaf := by
    intro _ _ h
    rw [coded_root, coded_node2] at h
    cases h
  paths := by
    intro i h _
    rcases coded_code_some l busy todo src cap h with rfl | rfl
    · rw [coded_root, coded_code5A, show CodeEntry.digits ⟨true, 1#9, 1#256⟩ = [true] by decide]
      simp only [State.LeadsTo, State.childOf, coded_node2, if_true]
      change _ ∧ ((codedBy l busy todo src cap).nodeAt 0).leaf = true ∧ ((codedBy l busy todo src cap).nodeAt 0).sym.toNat = 0x5A
      rw [coded_node0]
      decide
    · rw [coded_root, coded_code256, show CodeEntry.digits ⟨true, 1#9, 0#256⟩ = [false] by decide]
      simp only [State.LeadsTo, State.childOf, coded_node2, if_neg Bool.false_ne_true]
      change _ ∧ ((codedBy l busy todo src cap).nodeAt 1).leaf = true ∧ ((codedBy l busy todo src cap).nodeAt 1).sym.toNat = 256
      rw [coded_node1]
      decide
  beyond := by
    intro i j h
    by_cases hv : i = 0x5A ∨ i = 256
    · rcases hv with rfl | rfl
      · rw [coded_code5A] at h ⊢
        obtain ⟨k, rfl⟩ : ∃ k, j = k + 1 := ⟨j - 1, by change 1 ≤ j at h; omega⟩
        simp
      · rw [coded_code256]; simp
    · rw [coded_code_absent l busy todo src cap hv]; simp [CodeEntry.absent]

theorem coded_sessionOk : (codedBy l busy todo src cap).SessionOk where
  emptyFreq := fun h => by cases h
  endOfText := fun _ => by rw [coded_freq256]
  noTree := fun h => by rcases h with h | h <;> cases h
  noCodes := fun h => absurd rfl h

theorem coded_statusOk (h : busy = false → todo = []) : (codedBy l busy todo src cap).StatusOk where
  errIff := ⟨(fun h => by cases h), fun h => absurd rfl h⟩
  errDone := fun h => by cases h
  errInfo := fun _ => rfl
  extra := fun h => by cases h
  stage := by change (0#4).toNat ≤ 8; decide
  queue := rfl
  busy := fun _ => rfl
  idle := fun hb => ⟨h hb, rfl, rfl, rfl, rfl, rfl⟩

/-- IDLE, whatever the host goes on to do. -/
theorem coded_inv : (codedBy l false [] src cap).Inv where
  status := coded_statusOk l false [] src cap fun _ => rfl
  session := coded_sessionOk l false [] src cap
  tree := fun _ => coded_treeOk l false [] src cap
  codes := fun _ => coded_codesOk l false [] src cap
  jobs := trivial
  held := fun h => by cases h

/-- BUSY, with bytes left to emit. -/
theorem coded_busy_inv (bs : List Byte) : (codedBy l true [.emit bs] src cap).Inv where
  status := coded_statusOk l true [.emit bs] src cap fun h => by cases h
  session := coded_sessionOk l true [.emit bs] src cap
  tree := fun _ => coded_treeOk l true [.emit bs] src cap
  codes := fun _ => coded_codesOk l true [.emit bs] src cap
  jobs := trivial
  held := fun h => by cases h

/-- BUSY, with a stage of a composite to begin. -/
theorem coded_stage_inv (i : Instr) (h : i.opcode.toNat ≤ 8) : (codedBy l true [.stage i] src cap).Inv where
  status := coded_statusOk l true [.stage i] src cap fun h => by cases h
  session := coded_sessionOk l true [.stage i] src cap
  tree := fun _ => coded_treeOk l true [.stage i] src cap
  codes := fun _ => coded_codesOk l true [.stage i] src cap
  jobs := ⟨h, trivial⟩
  held := fun h => by cases h

theorem witness_DeriveGivesEachLeafItsPath :
    { codedSample [] 64#32 with phase := .built }.hostWaits = true ∧
      ({ codedSample [] 64#32 with phase := .built }.phase = .built ∨
        { codedSample [] 64#32 with phase := .built }.phase = .coded) ∧ (codedSample [] 64#32).TreeOk :=
  ⟨by decide, .inl rfl, coded_treeOk _ _ _ _ _⟩

theorem witness_CodesArePrefixFree :
    (codedSample [] 64#32).TreeOk ∧ (codedSample [] 64#32).CodesOk ∧
      ((codedSample [] 64#32).codeAt 0x5A).valid = true ∧ ((codedSample [] 64#32).codeAt 256).valid = true ∧
      0x5A ≠ 256 :=
  ⟨coded_treeOk _ _ _ _ _, coded_codesOk _ _ _ _ _, by rw [coded_code5A], by rw [coded_code256], by decide⟩

theorem witness_CodeLengthsFillTheTree :
    (codedSample [] 64#32).TreeOk ∧ (codedSample [] 64#32).CodesOk ∧ 2 ≤ (codedSample [] 64#32).presentSyms.length :=
  ⟨coded_treeOk _ _ _ _ _, coded_codesOk _ _ _ _ _, by rw [coded_syms]; decide⟩

/-- A coded sample's destination can be written, whatever its small capacity. -/
theorem coded_destReady : (codedSample [0x5A#8] 11#32).DestReady := ⟨by decide, by decide, by decide⟩

/-- The section of 11 bytes just fits. -/
theorem witness_SerializeWritesTheTableSection :
    (codedSample [0x5A#8] 11#32).hostWaits = true ∧ (codedSample [0x5A#8] 11#32).phase ≠ .empty ∧
      (codedSample [0x5A#8] 11#32).DestReady ∧
      (codedSample [0x5A#8] 11#32).tableSection.length ≤ (codedSample [0x5A#8] 11#32).dstCap.toNat :=
  ⟨by decide, by decide, coded_destReady, by decide +kernel⟩

/-- One byte too few. -/
theorem witness_SerializeStopsWhenTheDestIsFull :
    (codedSample [] 10#32).hostWaits = true ∧ (codedSample [] 10#32).phase ≠ .empty ∧
      (codedSample [] 10#32).DestReady ∧
      (codedSample [] 10#32).dstCap.toNat < (codedSample [] 10#32).tableSection.length :=
  ⟨by decide, by decide, ⟨by decide, by decide, by decide⟩, by decide +kernel⟩

/-- A bus error at the last byte of the section. -/
def destBusError : State := { codedSample [] 64#32 with bus := [⟨0x200A, .completes, .busError⟩] }

theorem witness_SerializeBusErrorIsPrecise :
    destBusError.hostWaits = true ∧ destBusError.phase ≠ .empty ∧
      destBusError.dstAddr.toNat + destBusError.dstCap.toNat ≤ 2 ^ 32 ∧
      touchesWindow destBusError.mmioBase destBusError.dstAddr destBusError.dstCap = false ∧
      10 < destBusError.tableSection.length ∧ 10 < destBusError.dstCap.toNat ∧
      (∀ j, j < 10 → (destBusError.busAt (destBusError.dstAddr.toNat + j)).onWrite = .completes) ∧
      (destBusError.busAt (destBusError.dstAddr.toNat + 10)).onWrite = .busError := by decide +kernel

/-- The section of the coded sample, and two bytes after it; the read of the first of the two would get a bus error. -/
def sectionSource : State :=
  badRead 11 (sample [0x04#8, 0#8, 0#8, 0#8, 1#8, 0x5A#8, 0#8, 0#8, 0#8, 4#8, 0x03#8, 0xAA#8, 0xBB#8] 64#32)

theorem witness_ParseInvertsTheTableSection :
    ((codedSample [] 64#32).freqAt Config.endOfText).valid = true ∧ sectionSource.hostWaits = true ∧
      sectionSource.RangesOk .parse ∧ (codedSample [] 64#32).tableSection.length = 11 ∧
      (∀ k, k < 11 → sectionSource.srcReply k = .completes) ∧
      sectionSource.srcBytes = (codedSample [] 64#32).tableSection ++ [0xAA#8, 0xBB#8] :=
  ⟨by decide +kernel, by decide, ⟨by decide, by decide, by decide⟩, by decide +kernel, by decide, by decide +kernel⟩

/-- What is asked of the pairs before pair `n` of a source, computed. -/
def pairsOk (src : List Byte) (n : Nat) : Bool :=
  (List.range n).all fun j => decide (5 * j + 5 ≤ src.length) && symAt src j != none &&
    (List.range j).all fun i => symAt src i != symAt src j

theorem pairAt_of_pairsOk {src : List Byte} {n : Nat} (h : pairsOk src n = true) : ∀ j, j < n → PairAt src j := by
  intro j hj
  unfold pairsOk at h
  have := List.all_eq_true.mp h j (List.mem_range.mpr hj)
  simp only [Bool.and_eq_true, decide_eq_true_eq, bne_iff_ne, List.all_eq_true, List.mem_range] at this
  exact ⟨this.1.1, this.1.2, this.2⟩

/-- A literal-3 pair, the END_OF_TEXT pair, the literals 4 and 0 in that order. -/
def fourPairs : List Byte :=
  [0x03#8, 0#8, 0#8, 0#8, 1#8, 0x04#8, 0#8, 0#8, 0#8, 2#8, 0x04#8, 0#8, 0#8, 0#8, 0#8, 0x00#8, 0#8, 0#8, 1#8, 0#8]

/-- A source with a bus error at the read of byte `k`. -/
abbrev badSource (src : List Byte) (k : Nat) : State := badRead k (sample src 64#32)

/-- PARSE and DECOMPRESS of such a source pass their range checks, and every byte before byte `k` can be read. -/
structure ReadsBefore (src : List Byte) (k : Nat) : Prop where
  waits : (badSource src k).hostWaits = true
  parse : (badSource src k).RangesOk .parse
  decompress : (badSource src k).RangesOk .decompress
  bytes : (badSource src k).srcBytes = src
  len : (badSource src k).srcLen.toNat = src.length
  before : ∀ j, j < k → (badSource src k).srcReply j = .completes
  err : (badSource src k).srcReply k = .busError

theorem readsBefore_of {src : List Byte} {k : Nat}
    (h : (badSource src k).hostWaits = true ∧
      inRange (badSource src k).srcAddr (badSource src k).srcLen = true ∧
      touchesWindow (badSource src k).mmioBase (badSource src k).srcAddr (badSource src k).srcLen = false ∧
      overlaps (badSource src k) = false ∧ (badSource src k).srcBytes = src ∧
      (badSource src k).srcLen.toNat = src.length ∧ (∀ j, j < k → (badSource src k).srcReply j = .completes) ∧
      (badSource src k).srcReply k = .busError) : ReadsBefore src k :=
  have dest : inRange 0x2000#32 64#32 = true ∧ touchesWindow 0xF0000000 0x2000#32 64#32 = false := by decide
  ⟨h.1, ⟨fun _ => ⟨h.2.1, h.2.2.1⟩, fun w => (by cases w), fun _ w => (by cases w)⟩,
    ⟨fun _ => ⟨h.2.1, h.2.2.1⟩, fun _ => dest, fun _ _ => h.2.2.2.1⟩, h.2.2.2.2.1, h.2.2.2.2.2.1, h.2.2.2.2.2.2.1,
    h.2.2.2.2.2.2.2⟩

/-- A table in an order SERIALIZE never writes, the byte after its terminator not readable; a malformed key at the first pair
and at the second, a duplicate key whose pair just lies in the source, the byte after each not readable; a source that is
empty, that ends before the terminator, inside a pair, and inside a pair that repeats a symbol; a key byte, and the first and
the last count byte of a pair, that cannot be read. -/
theorem witness_ParseRefusesABadStart :
    (ReadsBefore (fourPairs ++ [0x03#8, 0x77#8]) 21 ∧ TableAt (fourPairs ++ [0x03#8, 0x77#8]) 4) ∧
    (ReadsBefore aaabb 1 ∧ MalformedAt aaabb 0 ∧ classAt aaabb 0 = .malformed) ∧
    (ReadsBefore (fourPairs.take 5 ++ [0x03#8]) 6 ∧ MalformedAt (fourPairs.take 5 ++ [0x03#8]) 1) ∧
    (ReadsBefore (fourPairs ++ fourPairs.drop 15) 25 ∧ MalformedAt (fourPairs ++ fourPairs.drop 15) 4) ∧
    (ReadsBefore [] 0 ∧ TruncatedAt [] 0) ∧
    (ReadsBefore fourPairs 20 ∧ TruncatedAt fourPairs 4) ∧
    (ReadsBefore (fourPairs.take 19) 19 ∧ TruncatedAt (fourPairs.take 19) 3) ∧
    (ReadsBefore (fourPairs ++ [0x00#8]) 21 ∧ TruncatedAt (fourPairs ++ [0x00#8]) 4) ∧
    (ReadsBefore fourPairs 15 ∧ ∀ j, j < 3 → PairAt fourPairs j) ∧
    (ReadsBefore fourPairs 16 ∧ symAt fourPairs 3 ≠ none) ∧
    (ReadsBefore fourPairs 19 ∧ 19 < fourPairs.length) :=
  ⟨⟨readsBefore_of (by decide), pairAt_of_pairsOk (by decide), by decide, by decide⟩,
    ⟨readsBefore_of (by decide), ⟨pairAt_of_pairsOk (by decide), by decide, .inl (by decide)⟩, by decide⟩,
    ⟨readsBefore_of (by decide), pairAt_of_pairsOk (by decide), by decide, .inl (by decide)⟩,
    ⟨readsBefore_of (by decide), pairAt_of_pairsOk (by decide), by decide,
      .inr ⟨by decide, by decide, 3, by decide, by decide⟩⟩,
    ⟨readsBefore_of (by decide), pairAt_of_pairsOk (by decide), .inl (by decide)⟩,
    ⟨readsBefore_of (by decide), pairAt_of_pairsOk (by decide), .inl (by decide)⟩,
    ⟨readsBefore_of (by decide), pairAt_of_pairsOk (by decide), .inr ⟨by decide, by decide⟩⟩,
    ⟨readsBefore_of (by decide), pairAt_of_pairsOk (by decide), .inr ⟨by decide, by decide⟩⟩,
    ⟨readsBefore_of (by decide), pairAt_of_pairsOk (by decide)⟩, ⟨readsBefore_of (by decide), by decide⟩,
    ⟨readsBefore_of (by decide), by decide⟩⟩

theorem witness_ParseSucceedsOrLeavesTheSessionEmpty :
    sectionSource.hostWaits = true ∧ sectionSource.RangesOk .parse ∧
      ∀ k, k < sectionSource.srcLen.toNat → sectionSource.srcReply k ≠ .never :=
  ⟨by decide, ⟨by decide, by decide, by decide⟩, by decide⟩

/-- A payload of one byte at destination offset 5, with capacity `cap` and host memory's answers `bus`. -/
def encodeStart (cap : Word) (bus : List BusEntry) : State :=
  { codedSample [0x5A#8, 0x5A#8] cap with dstLen := 5#32, bus := bus }

/-- The payload's one byte just fits; no byte fits; the byte's write gets a bus error. -/
theorem witness_EncodePayloadAppendsThePayload :
    (∀ e, e ∈ [encodeStart 6#32 [], encodeStart 5#32 [], encodeStart 6#32 [⟨0x2005, .completes, .busError⟩]] →
      e.hostWaits = true ∧ e.phase = .coded ∧ inRange e.srcAddr e.srcLen = true ∧
      touchesWindow e.mmioBase e.srcAddr e.srcLen = false ∧
      (∀ k, k < e.srcLen.toNat → (e.busAt (e.srcAddr.toNat + k)).onRead = .completes) ∧
      e.dstAddr.toNat + e.dstCap.toNat ≤ 2 ^ 32 ∧ touchesWindow e.mmioBase e.dstAddr e.dstCap = false ∧
      overlaps e = false) ∧
    (∀ b, b ∈ (encodeStart 6#32 []).srcBytes → ((encodeStart 6#32 []).codeAt b.toNat).valid = true) ∧
    ((encodeStart 6#32 []).payload (encodeStart 6#32 []).srcBytes).length = 1 ∧
    (1 ≤ (encodeStart 6#32 []).dstCap.toNat - (encodeStart 6#32 []).dstLen.toNat ∧
      ((encodeStart 6#32 []).busAt 0x2005).onWrite = .completes) ∧
    (encodeStart 5#32 []).dstCap.toNat - (encodeStart 5#32 []).dstLen.toNat < 1 ∧
    (0 < (encodeStart 6#32 []).dstCap.toNat - (encodeStart 6#32 []).dstLen.toNat ∧
      ((encodeStart 6#32 [⟨0x2005, .completes, .busError⟩]).busAt 0x2005).onWrite = .busError) := by decide +kernel

/-- The ninth byte has no code; the eight digits before it fill one byte, which just fits. -/
def noCodeStart : State :=
  codedSample [0x5A#8, 0x5A#8, 0x5A#8, 0x5A#8, 0x5A#8, 0x5A#8, 0x5A#8, 0x5A#8, 0x41#8] 1#32

/-- The ninth byte has no code, or its read gets a bus error. -/
theorem witness_EncodePayloadStopsAtAByteWithNoCode :
    noCodeStart.hostWaits = true ∧ noCodeStart.phase = .coded ∧
      noCodeStart.srcAddr.toNat + noCodeStart.srcLen.toNat ≤ 2 ^ 32 ∧
      touchesWindow noCodeStart.mmioBase noCodeStart.srcAddr noCodeStart.srcLen = false ∧ noCodeStart.DestReady ∧
      overlaps noCodeStart = false ∧ 8 < noCodeStart.srcLen.toNat ∧
      (∀ j, j < 8 → (noCodeStart.busAt (noCodeStart.srcAddr.toNat + j)).onRead = .completes) ∧
      (∀ b, b ∈ noCodeStart.srcBytes.take 8 → (noCodeStart.codeAt b.toNat).valid = true) ∧
      (noCodeStart.codeDigits (noCodeStart.srcBytes.take 8)).length / 8 ≤
        noCodeStart.dstCap.toNat - noCodeStart.dstLen.toNat ∧
      ((noCodeStart.busAt (noCodeStart.srcAddr.toNat + 8)).onRead = .completes ∧
        (noCodeStart.codeAt (Memory.read noCodeStart.mem (noCodeStart.srcAddr.toNat + 8)).toNat).valid = false) ∧
      ({ noCodeStart with bus := [⟨0x1008, .busError, .completes⟩] }.busAt 0x1008).onRead = .busError :=
  ⟨by decide, by decide, by decide, by decide, ⟨by decide, by decide, by decide⟩, by decide, by decide, by decide,
    by decide +kernel, by decide +kernel, by decide +kernel, by decide⟩

/-- The payload of two bytes 5A, and one byte after it that cannot be read; capacity `cap`. -/
def decodeStart (cap : Word) : State := badRead 1 (codedSample [0xC0#8, 0x99#8] cap)

/-- The two bytes just fit; only one fits; the second one's write gets a bus error. -/
theorem witness_DecodePayloadInvertsThePayload :
    (codedSample [] 64#32).TreeOk ∧ (codedSample [] 64#32).CodesOk ∧
      ((codedSample [] 64#32).freqAt Config.endOfText).valid = true ∧
      (decodeStart 2#32).node = (codedSample [] 64#32).node ∧ (decodeStart 2#32).tree = (codedSample [] 64#32).tree ∧
      (∀ b, b ∈ [0x5A#8, 0x5A#8] → ((codedSample [] 64#32).codeAt b.toNat).valid = true) ∧
      (decodeStart 2#32).hostWaits = true ∧ ((decodeStart 2#32).phase = .built ∨ (decodeStart 2#32).phase = .coded) ∧
      (decodeStart 2#32).RangesOk .decodePayload ∧
      (decodeStart 2#32).srcBytes.drop (decodeStart 2#32).srcPos.toNat =
        (codedSample [] 64#32).payload [0x5A#8, 0x5A#8] ++ [0x99#8] ∧
      (((codedSample [] 64#32).payload [0x5A#8, 0x5A#8]).length = 1 ∧ (decodeStart 2#32).srcReply 0 = .completes) ∧
      ([0x5A#8, 0x5A#8].length ≤ (decodeStart 2#32).dstCap.toNat ∧
        ∀ j, j < 2 → (decodeStart 2#32).dstReply j = .completes) ∧
      ((decodeStart 1#32).dstCap.toNat < [0x5A#8, 0x5A#8].length ∧
        ∀ j, j < 1 → (decodeStart 1#32).dstReply j = .completes) ∧
      { decodeStart 2#32 with bus := [⟨0x2001, .completes, .busError⟩] }.dstReply 0 = .completes ∧
      { decodeStart 2#32 with bus := [⟨0x2001, .completes, .busError⟩] }.dstReply 1 = .busError :=
  ⟨coded_treeOk _ _ _ _ _, coded_codesOk _ _ _ _ _, by decide +kernel, rfl, rfl, by decide +kernel, by decide, .inr rfl,
    ⟨by decide, by decide, by decide⟩, by decide +kernel, by decide +kernel, by decide, by decide, by decide, by decide⟩

/-- SRC_POS at the end of the source. -/
def atTheEnd : State := { decodeStart 2#32 with srcPos := 2#32 }

/-- A payload byte that holds eight codes of 5A and no END_OF_TEXT. -/
def cutStart : State := codedSample [0xFF#8] 8#32

/-- A decode with nothing to read; a source that ends after eight codes, and one whose first byte gets a bus error. -/
theorem witness_DecodePayloadOfNothingIsTruncated :
    (atTheEnd.hostWaits = true ∧ (atTheEnd.phase = .built ∨ atTheEnd.phase = .coded) ∧ atTheEnd.RangesOk .decodePayload ∧
      atTheEnd.srcLen.toNat ≤ atTheEnd.srcPos.toNat) ∧
    (cutStart.TreeOk ∧ cutStart.CodesOk ∧ (cutStart.freqAt Config.endOfText).valid = true ∧
      (cutStart.codeAt 0x5A).valid = true ∧ cutStart.StaysInside cutStart.tree.root.toNat [] ∧
      cutStart.hostWaits = true ∧ cutStart.phase = .coded ∧ cutStart.RangesOk .decodePayload ∧
      (∀ j, j < 1 → cutStart.srcReply j = .completes) ∧
      bitsOfBytes ((cutStart.srcBytes.take 1).drop cutStart.srcPos.toNat) =
        cutStart.codeDigits (List.replicate 8 0x5A#8) ++ [] ∧
      (List.replicate 8 0x5A#8).length ≤ cutStart.dstCap.toNat ∧ (∀ j, j < 8 → cutStart.dstReply j = .completes) ∧
      1 = cutStart.srcLen.toNat ∧
      bitsOfBytes ((cutStart.srcBytes.take 0).drop cutStart.srcPos.toNat) = cutStart.codeDigits [] ++ [] ∧
      (badRead 0 cutStart).srcReply 0 = .busError) :=
  ⟨⟨by decide, .inr rfl, ⟨by decide, by decide, by decide⟩, by decide⟩,
    ⟨coded_treeOk _ _ _ _ _, coded_codesOk _ _ _ _ _, by decide +kernel, by decide +kernel, trivial, by decide, rfl,
      ⟨by decide, by decide, by decide⟩, by decide, by decide +kernel, by decide, by decide, by decide, by decide,
      by decide⟩⟩

/-- The one-leaf tree of V-B2, over a source byte. -/
def oneLeaf (b : Byte) : State :=
  { sample [b] 64#32 with
    phase := .built
    freq := State.reset.freq.setIfInBounds 256 ⟨true, 1#32⟩
    node := State.reset.node.setIfInBounds 0 ⟨true, true, 256#9, 0#10, 0#10, 1#64⟩
    tree := ⟨0#10, 1#10⟩ }

/-- Both clauses: first bit 0 and first bit 1. -/
theorem witness_OneLeafTreeDecodesOneBit :
    (oneLeaf 0x7F#8).hostWaits = true ∧ ((oneLeaf 0x7F#8).phase = .built ∨ (oneLeaf 0x7F#8).phase = .coded) ∧
      (oneLeaf 0x7F#8).RangesOk .decodePayload ∧ (oneLeaf 0x7F#8).srcPos.toNat < (oneLeaf 0x7F#8).srcLen.toNat ∧
      (oneLeaf 0x7F#8).srcReply 0 = .completes ∧
      ((oneLeaf 0x7F#8).nodeAt (oneLeaf 0x7F#8).tree.root.toNat).leaf = true ∧
      ((oneLeaf 0x7F#8).nodeAt (oneLeaf 0x7F#8).tree.root.toNat).sym.toNat = Config.endOfText ∧
      (Memory.read (oneLeaf 0x7F#8).mem 0x1000).getLsbD 7 = false ∧
      (oneLeaf 0x80#8).RangesOk .decodePayload ∧ (Memory.read (oneLeaf 0x80#8).mem 0x1000).getLsbD 7 = true :=
  ⟨by decide, .inl rfl, ⟨by decide, by decide, by decide⟩, by decide, by decide, by decide +kernel, by decide +kernel,
    by decide, ⟨by decide, by decide, by decide⟩, by decide⟩

theorem witness_EncodeLeavesTheCodeTable : (sample aaabb 64#32).hostWaits = true ∧ (sample aaabb 64#32).SourceReady :=
  ⟨by decide, sample_sourceReady⟩

/-- The states CLEAR, COUNT, BUILD and DERIVE leave, one after another. -/
def afterClear : State := after (exec .clear (sample aaabb 64#32))
def afterCount : State := after (exec .count afterClear)
def afterBuild : State := after (exec .build afterCount)
def afterDerive : State := after (exec .derive afterBuild)

/-- The three composites, and each with a stage that fails: COMPRESS with a full destination, DECOMPRESS of a container that
ends in its payload and of a source that is none, ENCODE with a source byte that cannot be read. Then the four stages of
ENCODE run by hand. -/
theorem witness_EncodeIsItsFourStages :
    (∀ s, s ∈ [sample aaabb 64#32, sample aaabb 3#32, sample aaabbContainer 64#32, sample (aaabbContainer.take 17) 64#32,
        sourceBusError] →
      s.hostWaits = true ∧ (∀ k, k < s.srcLen.toNat → s.srcReply k ≠ .never) ∧
        ∀ k, k < s.dstCap.toNat → s.dstReply k ≠ .never) ∧
    ((sample aaabb 64#32).RangesOk .compress ∧ (sample aaabb 3#32).RangesOk .compress ∧
      look (fun t => (t.errCode, t.stage)) (runStages [.clear, .count, .build, .derive, .serialize, .encodePayload]
        (sample aaabb 3#32)) = some (.dstFull, 0x5#4)) ∧
    ((sample aaabbContainer 64#32).RangesOk .decompress ∧ (sample (aaabbContainer.take 17) 64#32).RangesOk .decompress ∧
      look (fun t => (t.errCode, t.stage)) (runStages [.clear, .parse, .build, .decodePayload]
        (sample (aaabbContainer.take 17) 64#32)) = some (.truncatedPayload, 0x8#4)) ∧
    ((sample aaabb 64#32).RangesOk .encode ∧ sourceBusError.RangesOk .encode ∧
      look (fun t => (t.errCode, t.stage)) (runStages [.clear, .count, .build, .derive] sourceBusError) =
        some (.srcBus, 0x2#4)) ∧
    ((sample aaabb 64#32).hostWaits = true ∧ (sample aaabb 64#32).SourceReady ∧
      exec .clear (sample aaabb 64#32) = .next afterClear ∧ exec .count afterClear = .next afterCount ∧
      exec .build afterCount = .next afterBuild ∧ exec .derive afterBuild = .next afterDerive) := by
  refine ⟨?_, ⟨⟨by decide, by decide, by decide⟩, ⟨by decide, by decide, by decide⟩, by decide +kernel⟩,
    ⟨⟨by decide, by decide, by decide⟩, ⟨by decide, by decide, by decide⟩, by decide +kernel⟩,
    ⟨⟨by decide, by decide, by decide⟩, ⟨by decide, by decide, by decide⟩, by decide +kernel⟩, by decide,
    sample_sourceReady, next_of_isNext (by decide +kernel), next_of_isNext (by decide +kernel),
    next_of_isNext (by decide +kernel), next_of_isNext (by decide +kernel)⟩
  intro s h
  simp only [List.mem_cons, List.not_mem_nil, or_false] at h
  rcases h with rfl | rfl | rfl | rfl | rfl <;> decide

theorem witness_CompressWritesTheContainer :
    (sample aaabb 18#32).hostWaits = true ∧ (sample aaabb 18#32).SourceReady ∧ (sample aaabb 18#32).DestReady ∧
      overlaps (sample aaabb 18#32) = false ∧
      (containerOf (sample aaabb 18#32).srcBytes).length ≤ (sample aaabb 18#32).dstCap.toNat :=
  ⟨by decide, ⟨by decide, by decide, by decide⟩, ⟨by decide, by decide, by decide⟩, by decide, by decide +kernel⟩

/-- The container of `aaabb` has 18 bytes, 16 of them the table section: 18 just suffice, 17 and 16 do not, and 15 is less
than the section. -/
theorem witness_CompressHasItsLengthOrFills :
    (∀ cap, cap ∈ [15#32, 16#32, 17#32, 18#32] →
      (sample aaabb cap).hostWaits = true ∧ inRange (sample aaabb cap).srcAddr (sample aaabb cap).srcLen = true ∧
      inRange (sample aaabb cap).dstAddr (sample aaabb cap).dstCap = true ∧ overlaps (sample aaabb cap) = false) ∧
    (sample aaabb 18#32).SourceReady ∧ (sample aaabb 18#32).DestReady ∧
      5 * (((List.range 256).filter (fun b => (sample aaabb 18#32).srcBytes.contains (BitVec.ofNat 8 b))).length + 1) + 1
        = 16 ∧
      (((sessionOf (sample aaabb 18#32).srcBytes).payloadDigits (sample aaabb 18#32).srcBytes).length + 7) / 8 = 2 := by
  refine ⟨?_, ⟨by decide, by decide, by decide⟩, ⟨by decide, by decide, by decide⟩, by decide +kernel, by decide +kernel⟩
  intro cap h
  simp only [List.mem_cons, List.not_mem_nil, or_false] at h
  rcases h with rfl | rfl | rfl | rfl <;> decide

/-- Over an empty session and over a coded one. -/
theorem witness_CompressIsDeterministic :
    (sample aaabb 64#32).hostWaits = true ∧ (codedSample aaabb 64#32).hostWaits = true ∧
      (sample aaabb 64#32).SourceReady ∧ (codedSample aaabb 64#32).SourceReady ∧ (sample aaabb 64#32).DestReady ∧
      (codedSample aaabb 64#32).DestReady ∧ overlaps (sample aaabb 64#32) = false ∧
      overlaps (codedSample aaabb 64#32) = false ∧ (sample aaabb 64#32).srcBytes = (codedSample aaabb 64#32).srcBytes ∧
      exec .compress (sample aaabb 64#32) = .next (after (exec .compress (sample aaabb 64#32))) ∧
      exec .compress (codedSample aaabb 64#32) = .next (after (exec .compress (codedSample aaabb 64#32))) ∧
      (after (exec .compress (sample aaabb 64#32))).err = false ∧
      (after (exec .compress (codedSample aaabb 64#32))).err = false :=
  ⟨by decide, by decide, sample_sourceReady, ⟨by decide, by decide, by decide⟩, sample_destReady,
    ⟨by decide, by decide, by decide⟩, by decide, by decide, rfl, next_of_isNext (by decide +kernel),
    next_of_isNext (by decide +kernel), by decide +kernel, by decide +kernel⟩

/-- The container of `aaabb` and one byte after it that cannot be read; room for `cap` bytes. -/
def containerSource (cap : Word) : State := badRead 18 (sample (aaabbContainer ++ [0x99#8]) cap)

/-- Its five bytes just fit; four is one too few. -/
theorem witness_DecompressInvertsTheContainer :
    ((containerSource 5#32).hostWaits = true ∧ (containerSource 5#32).RangesOk .decompress ∧
      (containerSource 5#32).srcBytes = containerOf aaabb ++ [0x99#8] ∧ (containerOf aaabb).length = 18 ∧
      (∀ k, k < 18 → (containerSource 5#32).srcReply k = .completes) ∧
      (∀ j, j < 5 → (containerSource 5#32).dstReply j = .completes) ∧
      aaabb.length ≤ (containerSource 5#32).dstCap.toNat) ∧
    ((containerSource 4#32).RangesOk .decompress ∧ (containerSource 4#32).dstCap.toNat < aaabb.length) :=
  ⟨⟨by decide, ⟨by decide, by decide, by decide⟩, by decide +kernel, by decide +kernel, by decide, by decide, by decide⟩,
    ⟨by decide, by decide, by decide⟩, by decide⟩

/-- The state COMPRESS leaves of `aaabb`. -/
def compressed : State := after (exec .compress (sample aaabb 64#32))

/-- The container it wrote as the source, and a destination of five bytes. -/
def readBack : State :=
  { compressed with srcAddr := compressed.dstAddr, srcLen := compressed.dstLen, dstAddr := 0x3000#32, dstCap := 5#32 }

theorem witness_CompressThenDecompressIsIdentity :
    (sample aaabb 64#32).hostWaits = true ∧ (sample aaabb 64#32).SourceReady ∧ (sample aaabb 64#32).DestReady ∧
      overlaps (sample aaabb 64#32) = false ∧ exec .compress (sample aaabb 64#32) = .next compressed ∧
      compressed.err = false ∧ readBack.SourceReady ∧ readBack.DestReady ∧ overlaps readBack = false ∧
      (sample aaabb 64#32).srcLen.toNat ≤ (5#32).toNat :=
  ⟨by decide, sample_sourceReady, sample_destReady, by decide, next_of_isNext (by decide +kernel), by decide +kernel,
    ⟨by decide +kernel, by decide +kernel, by decide +kernel⟩,
    ⟨by decide +kernel, by decide +kernel, by decide +kernel⟩, by decide +kernel, by decide⟩

/-- BUSY, with nothing left to do but complete; also a state that meets the hypotheses of
`CompletionRaisesTheInterruptIfEnabled` on a completion by a pass. -/
def lastPass : State := codedBy [.pass] true [] [] 64#32

/-- A host that does several things, a reset among them; a BUSY state that stays BUSY over one access, and one that
completes; a BUILD on an empty table that faults, and a range in the window that is refused; a command that
completes for a host that waits. -/
theorem witness_CommandsAlwaysComplete :
    (codedBy [.pass, .write 0x04#8 .bits32 3#32, .reset] false [] [] 64#32).SessionOk ∧
      (codedBy [.pass, .write 0x04#8 .bits32 3#32, .reset] false [] [] 64#32).BusAnswers ∧
      (counting [.pass]).oneAccess = .next (after (counting [.pass]).oneAccess) ∧
      (after (counting [.pass]).oneAccess).busy = true ∧
      (lastPass.busy = true ∧ lastPass.oneAccess = .next (after lastPass.oneAccess) ∧
        lastPass.runOn = .next (after lastPass.runOn) ∧ (after lastPass.oneAccess).busy = false ∧
        (after lastPass.runOn).busy = false) ∧
      isFault { sample [] 64#32 with busy := true, todo := [.build] }.oneAccess = true ∧
      isFault (exec .build { sample [] 64#32 with phase := .counted }) = true ∧
      isRefused { sourceMeetsWindow with busy := true, todo := [.check .count] }.oneAccess = true ∧
      isRefused (exec .count sourceMeetsWindow) = true ∧
      exec .count { sample aaabb 64#32 with host := [.wait] } =
        .next (after (exec .count { sample aaabb 64#32 with host := [.wait] })) :=
  ⟨coded_sessionOk _ _ _ _ _, ⟨(fun e h => by cases h), (fun a r w h => by
    cases h with
    | tail _ h => cases h with
      | tail _ h => cases h with
        | tail _ h => cases h)⟩, next_of_isNext (by decide +kernel), by decide +kernel,
    ⟨rfl, next_of_isNext (by decide +kernel), next_of_isNext (by decide +kernel), by decide +kernel, by decide +kernel⟩,
    by decide +kernel, by decide +kernel, by decide +kernel, by decide +kernel, next_of_isNext (by decide +kernel)⟩

/-- COUNT, which writes neither SRC_POS nor DST_LEN, while the host writes SRC_ADDR and then waits. -/
theorem witness_OperandsHoldWhileACommandRuns :
    HostOp.reset ∉ [HostOp.write 0x14#8 .bits32 0#32, .wait] ∧
      exec .count { sample aaabb 64#32 with host := [.write 0x14#8 .bits32 0#32, .wait] } =
        .next (counting [.write 0x14#8 .bits32 0#32, .wait]) ∧
      (counting [.write 0x14#8 .bits32 0#32, .wait]).untilIdle 2 =
        .next (after ((counting [.write 0x14#8 .bits32 0#32, .wait]).untilIdle 2)) ∧
      (after ((counting [.write 0x14#8 .bits32 0#32, .wait]).untilIdle 2)).done = true ∧
      Instr.count ∉ [Instr.parse, .decodePayload, .decompress] ∧ Instr.count.writesDest = false :=
  ⟨by decide, next_of_isNext (by decide +kernel), next_of_isNext (by decide +kernel), by decide +kernel, by decide,
    by decide⟩

/-- The job goes through. -/
def isOk {α : Type} (r : EStateM.Result Stop State α) : Bool :=
  match r with
  | .ok _ _ => true
  | .error _ _ => false

/-- Also the hypotheses of `CompletionRaisesTheInterruptIfEnabled`; address 0x2040 is the first past the destination. An
access that writes the destination's first byte; one that reads a source byte, and one that a full destination refuses; the
job of each. -/
theorem witness_CommandsWriteOnlyTheirDestination :
    (sample aaabb 64#32).hostWaits = true ∧ exec .compress (sample aaabb 64#32) = .next compressed ∧
      compressed.busy = false ∧
      rangeHas (sample aaabb 64#32).dstAddr (sample aaabb 64#32).dstCap 0x1FFF = false ∧
      rangeHas (sample aaabb 64#32).dstAddr (sample aaabb 64#32).dstCap 0x2040 = false ∧
      Instr.count.writesDest = false ∧
      (codedBy [.pass] true [.emit [0x07#8]] [] 64#32).oneAccess =
        .next (after (codedBy [.pass] true [.emit [0x07#8]] [] 64#32).oneAccess) ∧
      0x2001 + 1 ≠ (after (codedBy [.pass] true [.emit [0x07#8]] [] 64#32).oneAccess).dstByte ∧
      (after (counting [.pass]).oneAccess).undo = (counting [.pass]).undo ∧
      (after (codedBy [.pass] true [.emit [0x07#8]] [] 0#32).oneAccess).busy = false ∧
      isOk ((Job.count 0 5).run (sample aaabb 64#32)) = true ∧ (∀ b bs, Job.count 0 5 ≠ .emit (b :: bs)) ∧
      isOk ((Job.emit [0x07#8]).run (sample aaabb 64#32)) = true ∧
      isOk ((Job.emit [0x07#8]).run (sample aaabb 0#32)) = false :=
  ⟨by decide, next_of_isNext (by decide +kernel), by decide +kernel, by decide, by decide, by decide,
    next_of_isNext (by decide +kernel), by decide +kernel, by decide +kernel, by decide +kernel, by decide +kernel,
    (fun _ _ h => by cases h), by decide +kernel, by decide +kernel⟩

/-- A command of a host that waits completes by the error `c`. -/
def EndsBy (i : Instr) (s : State) (c : ErrCode) : Prop :=
  s.hostWaits = true ∧ ∃ t, exec i s = .next t ∧ t.err = true ∧ t.errCode = c

theorem endsBy_of_look {i : Instr} {s : State} {c : ErrCode} (h : s.hostWaits = true)
    (e : look (fun t => (t.err, t.errCode)) (exec i s) = some (true, c)) : EndsBy i s c := by
  unfold look at e
  split at e
  · rename_i n
    simp only [Option.some.injEq, Prod.mk.injEq] at e
    exact ⟨h, _, next_of_isNext n, e⟩
  · cases e

/-- Every error a command that decodes can end by; the composites in a stage of theirs; a duplicate key, whole and cut
off. -/
theorem witness_ErrorsHaveTheirCauseAndInfo :
    EndsBy .build (sample [] 64#32) .sequence ∧ EndsBy .count sourceTooFar .range ∧ EndsBy .compress destTooFar .range ∧
    EndsBy .decodePayload overlapping .overlap ∧ EndsBy .encode sourceBusError .srcBus ∧
    EndsBy .serialize destBusError .dstBus ∧ EndsBy .compress (sample aaabb 17#32) .dstFull ∧
    EndsBy .encodePayload noCodeStart .noCode ∧ EndsBy .parse (sample (fourPairs ++ [0x00#8]) 64#32) .truncatedHeader ∧
    EndsBy .decompress (sample fourPairs 64#32) .truncatedHeader ∧
    EndsBy .parse (sample (fourPairs ++ fourPairs.drop 15) 64#32) .malformedTable ∧
    EndsBy .decompress (sample aaabb 64#32) .malformedTable ∧ EndsBy .decodePayload cutStart .truncatedPayload ∧
    EndsBy .decompress (sample (aaabbContainer.take 17) 64#32) .truncatedPayload ∧
    EndsBy .decodePayload (oneLeaf 0x80#8) .badCode := by
  refine ⟨endsBy_of_look (by decide) (by decide +kernel), endsBy_of_look (by decide) (by decide +kernel),
    endsBy_of_look (by decide) (by decide +kernel), endsBy_of_look (by decide) (by decide +kernel),
    endsBy_of_look (by decide) (by decide +kernel), endsBy_of_look (by decide) (by decide +kernel),
    endsBy_of_look (by decide) (by decide +kernel), endsBy_of_look (by decide) (by decide +kernel),
    endsBy_of_look (by decide) (by decide +kernel), endsBy_of_look (by decide) (by decide +kernel),
    endsBy_of_look (by decide) (by decide +kernel), endsBy_of_look (by decide) (by decide +kernel),
    endsBy_of_look (by decide) (by decide +kernel), endsBy_of_look (by decide) (by decide +kernel),
    endsBy_of_look (by decide) (by decide +kernel)⟩

theorem witness_StepKeepsMemoryCanonical :
    Memory.wf (hostDoes (.write 0x04#8 .bits32 0x9#32)).mem ∧
      step (hostDoes (.write 0x04#8 .bits32 0x9#32)) =
        .next (after (step (hostDoes (.write 0x04#8 .bits32 0x9#32)))) :=
  ⟨by decide, next_of_isNext (by decide +kernel)⟩

/-- A step that runs SERIALIZE, one that makes an access while BUSY, one that runs on to completion, and one that begins a
stage. -/
theorem witness_StepKeepsTheInvariant :
    (∀ s, s ∈ [codedBy [.write 0x04#8 .bits32 5#32, .wait] false [] [] 64#32,
        codedBy [.pass] true [.emit [0x07#8]] [] 64#32, codedBy [.wait] true [.emit [0x07#8]] [] 64#32,
        codedBy [.wait] true [.stage .decodePayload] [] 64#32] → s.Inv) ∧
    step (codedBy [.write 0x04#8 .bits32 5#32, .wait] false [] [] 64#32) =
      .next (after (step (codedBy [.write 0x04#8 .bits32 5#32, .wait] false [] [] 64#32))) ∧
    step (codedBy [.pass] true [.emit [0x07#8]] [] 64#32) =
      .next (after (step (codedBy [.pass] true [.emit [0x07#8]] [] 64#32))) ∧
    step (codedBy [.wait] true [.emit [0x07#8]] [] 64#32) =
      .next (after (step (codedBy [.wait] true [.emit [0x07#8]] [] 64#32))) ∧
    step (codedBy [.wait] true [.stage .decodePayload] [] 64#32) =
      .next (after (step (codedBy [.wait] true [.stage .decodePayload] [] 64#32))) := by
  refine ⟨?_, next_of_isNext (by decide +kernel), next_of_isNext (by decide +kernel), next_of_isNext (by decide +kernel),
    next_of_isNext (by decide +kernel)⟩
  intro s hs
  simp only [List.mem_cons, List.not_mem_nil, or_false] at hs
  rcases hs with rfl | rfl | rfl | rfl
  · exact coded_inv _ _ _
  · exact coded_busy_inv _ _ _ _
  · exact coded_busy_inv _ _ _ _
  · exact coded_stage_inv _ _ _ _ (by decide)

end Sys2Proof.Tests
end

section
/-! SUPPORT. What a step does, one rule per next operation of the host, and the jobs each command is accepted with
(10_state.md R24, R25; 00_scope.md R7); with them, that a step runs the accepted command. -/

namespace Sys2Proof.Machine

/-! ### The register a bus access reaches -/

/-- An offset reaches a register exactly when it is the offset the map gives that register (10_state.md R20). -/
theorem regAt_eq_some_iff {off : BitVec 8} {r : Reg} : regAt off = some r ↔ off = r.offset := by
  constructor
  · intro h
    unfold regAt at h
    split at h <;> cases h <;> exact BitVec.eq_of_toNat_eq ‹_›
  · rintro rfl
    cases r <;> rfl

/-- A bus write is a CMD write exactly when it is 32 bits wide and at CMD's offset (10_state.md R21, R28). -/
theorem isCmdWrite_iff {off : BitVec 8} {width : AccessWidth} :
    isCmdWrite off width = true ↔ off = 0x04#8 ∧ width = .bits32 := by
  simp only [isCmdWrite, accessOk, widthOk, Bool.and_eq_true, beq_iff_eq, regAt_eq_some_iff]
  constructor
  · rintro ⟨⟨hw, -⟩, ho⟩
    exact ⟨ho, hw⟩
  · rintro ⟨rfl, rfl⟩
    exact ⟨⟨rfl, rfl⟩, rfl⟩

/-! ### The next move, by the host's next operation -/

section HostOperation
variable {s : State} {rest : List HostOp}

theorem nextMove_cons {op : HostOp} (h : s.host = op :: rest) : nextMove s = hostMove { s with host := rest } op := by
  simp only [nextMove, h]

theorem nextMove_nil (h : s.host = []) : nextMove s = if s.busy then .runOn s else .settled s := by
  simp only [nextMove, h]

/-- The host waits when it has nothing left to do or its next operation is `WAIT`. -/
theorem hostWaits_iff : s.hostWaits = true ↔ s.host = [] ∨ ∃ rest, s.host = .wait :: rest := by
  unfold State.hostWaits
  split <;> simp [*]

/-- While BUSY a host that waits lets the engine run on, in the state as it stands (10_state.md R24; log 1). -/
theorem nextMove_waits (hw : s.hostWaits = true) (hb : s.busy = true) : nextMove s = .runOn s := by
  rcases hostWaits_iff.mp hw with h | ⟨rest, h⟩
  · rw [nextMove_nil h, if_pos hb]
  · have hs : { s with host := .wait :: rest } = s := by rw [← h]
    rw [nextMove_cons h, hostMove, waitMove, if_pos hb, hs]

/-- A CMD write with reset released is that of its word. -/
theorem writeMove_cmd (h : s.inReset = false) (w : Word) : writeMove s 0x04#8 .bits32 w = cmdWrite w s := by
  simp [writeMove, h, isCmdWrite_iff]

theorem nextMove_cmdWrite {w : Word} (h : s.host = .write 0x04#8 .bits32 w :: rest) (hr : s.inReset = false) :
    nextMove s = cmdWrite w { s with host := rest } := by
  rw [nextMove_cons h, hostMove, writeMove_cmd (s := { s with host := rest }) hr]

theorem cmdWrite_legal {w : Word} {i : Instr} (hb : s.busy = false) (hi : decode w = .ok i) :
    cmdWrite w s = .run i s := by
  simp [cmdWrite, hb, hi]

theorem cmdWrite_busy (hb : s.busy = true) (w : Word) : cmdWrite w s = .settled { s with cmdDropped := true } := by
  simp only [cmdWrite, State.regWrite, if_pos hb]

/-! ### One step, by its next move -/

theorem step_of_run {i : Instr} {t : State} (h : nextMove s = .run i t) : step s = exec i t := by rw [step, h]

theorem step_of_access {t : State} (h : nextMove s = .access t) : step s = t.oneAccess := by rw [step, h]

theorem step_of_runOn {t : State} (h : nextMove s = .runOn t) : step s = t.runOn := by rw [step, h]

theorem step_of_settled {t : State} (h : nextMove s = .settled t) : step s = .next t := by rw [step, h]

/-- A CMD write of a legal word while IDLE runs its command (10_state.md R24). -/
theorem step_cmdWrite_legal {w : Word} {i : Instr} (h : s.host = .write 0x04#8 .bits32 w :: rest)
    (hr : s.inReset = false) (hb : s.busy = false) (hi : decode w = .ok i) :
    step s = exec i { s with host := rest } := by
  apply step_of_run
  rw [nextMove_cmdWrite h hr, cmdWrite_legal (s := { s with host := rest }) hb hi]

/-- A CMD write while BUSY is dropped (10_state.md R25, R31). -/
theorem step_cmdWrite_busy {w : Word} (h : s.host = .write 0x04#8 .bits32 w :: rest) (hr : s.inReset = false)
    (hb : s.busy = true) : step s = .next { s with host := rest, cmdDropped := true } := by
  apply step_of_settled
  rw [nextMove_cmdWrite h hr, cmdWrite_busy (s := { s with host := rest }) hb]

/-- A write that is no CMD write is one step of the host (10_state.md R25). -/
theorem step_write_other {off : BitVec 8} {width : AccessWidth} {v : Word} (h : s.host = .write off width v :: rest)
    (hr : s.inReset = false) (hc : off ≠ 0x04#8 ∨ width ≠ .bits32) :
    step s = .next ({ s with host := rest }.hostAct (.write off width v)) := by
  have hn : isCmdWrite off width = false := by
    rw [← Bool.not_eq_true, isCmdWrite_iff]
    tauto
  apply step_of_settled
  rw [nextMove_cons h, hostMove, writeMove_act (s := { s with host := rest }) hr v hn]

/-- A write while reset is asserted does nothing (70_reset_and_hazards.md R240; log 21). -/
theorem step_write_inReset {off : BitVec 8} {width : AccessWidth} {v : Word} (h : s.host = .write off width v :: rest)
    (hr : s.inReset = true) : step s = .next { s with host := rest } := by
  apply step_of_settled
  rw [nextMove_cons h, hostMove, writeMove_inReset (s := { s with host := rest }) hr]

/-- A register read, and what the host and host memory do on the bus, is one step of the host. -/
theorem step_hostAct {op : HostOp} (h : s.host = op :: rest)
    (hop : (∃ off width, op = .read off width) ∨ (∃ a b, op = .memWrite a b) ∨ (∃ a, op = .memRead a) ∨
      (∃ a r w, op = .answer a r w)) : step s = .next ({ s with host := rest }.hostAct op) := by
  apply step_of_settled
  rw [nextMove_cons h]
  obtain ⟨off, width, rfl⟩ | ⟨a, b, rfl⟩ | ⟨a, rfl⟩ | ⟨a, r, w, rfl⟩ := hop <;> rfl

/-- A pass lets the engine make its next access (00_scope.md R7). -/
theorem step_pass_busy (h : s.host = .pass :: rest) (hb : s.busy = true) :
    step s = { s with host := rest }.oneAccess := by
  apply step_of_access
  rw [nextMove_cons h, hostMove, passMove, if_pos hb]

theorem step_pass_idle (h : s.host = .pass :: rest) (hb : s.busy = false) : step s = .next { s with host := rest } := by
  apply step_of_settled
  rw [nextMove_cons h, hostMove, passMove, if_neg (by simp [hb])]

/-- An IDLE block whose host does nothing keeps all its state (70_reset_and_hazards.md R242). -/
theorem step_nil_idle (h : s.host = []) (hb : s.busy = false) : step s = .next s := by
  apply step_of_settled
  rw [nextMove_nil h, if_neg (by simp [hb])]

end HostOperation

/-! ### The command accepted -/

/-- The jobs each command is accepted with: its start check, then its pseudocode (30_encoding.md R91). -/
def State.acceptedJobs (s : State) : Instr → List Job
  | .clear => [.check .clear, .clear]
  | .count => .check .count :: s.countJobs
  | .build => [.check .build, .build]
  | .derive => [.check .derive, .derive]
  | .serialize => [.check .serialize, .serialize]
  | .encodePayload => .check .encodePayload :: s.encodeJobs
  | .parse => .check .parse :: parseJobs
  | .decodePayload => [.check .decodePayload, .startDecode]
  | .compress => .check .compress ::
      (s.analyseJobs ++ [.stage .serialize, .serialize, .stage .encodePayload] ++ s.encodeJobs)
  | .decompress => .check .decompress ::
      ([.stage .clear, .clear, .stage .parse] ++ parseJobs ++
        [.stage .build, .build, .stage .decodePayload, .startDecode])
  | .encode => .check .encode :: s.analyseJobs

/-- A command's meaning is its acceptance with its jobs (10_state.md R24). -/
theorem exec_eq_start (i : Instr) (s : State) : exec i s = s.start i (s.acceptedJobs i) := by
  cases i <;> rfl

/-- The jobs of a command depend on SRC_LEN alone, as the command is accepted with it (10_state.md R25). -/
theorem acceptedJobs_congr {s t : State} (h : t.srcLen = s.srcLen) (i : Instr) :
    t.acceptedJobs i = s.acceptedJobs i := by
  cases i <;> simp only [State.acceptedJobs, State.countJobs, State.encodeJobs, State.analyseJobs, h]

/-- The state BUSY begins with does not depend on the host's list, which decides only whether the engine runs on at once
(log 1). -/
theorem exec_host_independent (i : Instr) (s : State) :
    ∃ u : State, u.busy = true ∧ ∀ h : List HostOp, exec i { s with host := h } =
      if { s with host := h }.hostWaits then { u with host := h }.runOn else .next { u with host := h } := by
  refine ⟨{ s.accept (encode i) with todo := s.acceptedJobs i }, rfl, fun h => ?_⟩
  rw [exec_eq_start, acceptedJobs_congr (s := s) rfl]
  rfl

/-- Settles O4: each clause is the rule of `step` for the host's next operation. -/
theorem stepRunsTheAcceptedCommand : Obligations.StepRunsTheAcceptedCommand := by
  unfold Obligations.StepRunsTheAcceptedCommand
  intro s
  exact ⟨fun _ _ _ h hr hb hi => step_cmdWrite_legal h hr hb hi,
    fun _ h hb => step_pass_busy h hb,
    fun hw hb => step_of_runOn (nextMove_waits hw hb),
    fun i => exec_host_independent i s,
    fun _ _ h hr hb => step_cmdWrite_busy h hr hb,
    fun _ _ _ _ h => ⟨fun hr hc => step_write_other h hr hc, fun hr => step_write_inReset h hr⟩,
    fun _ _ h hop => step_hostAct h hop,
    fun h hb => step_nil_idle h hb,
    fun _ h hb => step_pass_idle h hb⟩

end Sys2Proof.Machine
end

section
/-! SUPPORT. BUILD leaves the tree of FREQ (42_tree_builder.md R130 to R133): the entries of the session arrays after a
write, the leaves as they are placed, the forest that every combination keeps, and the tree it ends in. -/

namespace Sys2Proof.Machine

/-! ### Entries of the session arrays -/

section Entries
variable (s : State)

theorem freqAt_setFreq (i j : Nat) (e : FreqEntry) :
    (s.setFreq i e).freqAt j = if i = j ∧ i < 257 then e else s.freqAt j := by
  simp only [State.freqAt, State.setFreq, Vector.getElem?_setIfInBounds]
  by_cases hij : i = j
  · subst hij
    by_cases hi : i < 257 <;> simp [hi]
  · simp [hij]

theorem nodeAt_setNode (i j : Nat) (e : NodeEntry) :
    (s.setNode i e).nodeAt j = if i = j ∧ i < 513 then e else s.nodeAt j := by
  simp only [State.nodeAt, State.setNode, Vector.getElem?_setIfInBounds]
  by_cases hij : i = j
  · subst hij
    by_cases hi : i < 513 <;> simp [hi]
  · simp [hij]

theorem codeAt_setCode (i j : Nat) (e : CodeEntry) :
    (s.setCode i e).codeAt j = if i = j ∧ i < 257 then e else s.codeAt j := by
  simp only [State.codeAt, State.setCode, Vector.getElem?_setIfInBounds]
  by_cases hij : i = j
  · subst hij
    by_cases hi : i < 257 <;> simp [hi]
  · simp [hij]

theorem freqAt_of_ge {i : Nat} (h : 257 ≤ i) : s.freqAt i = FreqEntry.absent := by
  simp [State.freqAt, h]

variable {s}

/-- An array of absent entries has none at any index. -/
theorem freqAt_of_replicate (h : s.freq = Vector.replicate 257 FreqEntry.absent) (i : Nat) :
    s.freqAt i = FreqEntry.absent := by
  simp only [State.freqAt, h, Vector.getElem?_replicate]
  split <;> rfl

theorem nodeAt_of_replicate (h : s.node = Vector.replicate 513 NodeEntry.absent) (i : Nat) :
    s.nodeAt i = NodeEntry.absent := by
  simp only [State.nodeAt, h, Vector.getElem?_replicate]
  split <;> rfl

theorem codeAt_of_replicate (h : s.code = Vector.replicate 257 CodeEntry.absent) (i : Nat) :
    s.codeAt i = CodeEntry.absent := by
  simp only [State.codeAt, h, Vector.getElem?_replicate]
  split <;> rfl

variable {t : State}

theorem freqAt_congr (h : t.freq = s.freq) (i : Nat) : t.freqAt i = s.freqAt i := by simp only [State.freqAt, h]

theorem nodeAt_congr (h : t.node = s.node) (i : Nat) : t.nodeAt i = s.nodeAt i := by simp only [State.nodeAt, h]

theorem codeAt_congr (h : t.code = s.code) (i : Nat) : t.codeAt i = s.codeAt i := by simp only [State.codeAt, h]

theorem presentSyms_congr (h : t.freq = s.freq) : t.presentSyms = s.presentSyms := by
  simp only [State.presentSyms, freqAt_congr h]

theorem isChild_congr (h : t.node = s.node) {p c : Nat} : t.IsChild p c ↔ s.IsChild p c := by
  simp only [State.IsChild, nodeAt_congr h]

theorem mem_presentSyms {i : Nat} : i ∈ s.presentSyms ↔ (s.freqAt i).valid = true := by
  simp only [State.presentSyms, List.mem_filter, List.mem_range, and_iff_right_iff_imp]
  intro h
  by_contra hi
  rw [freqAt_of_ge s (by omega)] at h
  cases h

theorem presentSyms_lt {i : Nat} (h : i ∈ s.presentSyms) : i < 257 :=
  List.mem_range.1 (List.mem_of_mem_filter h)

theorem length_presentSyms_le : s.presentSyms.length ≤ 257 :=
  (List.length_filter_le _ _).trans_eq List.length_range

end Entries

/-! ### A node joins the arena -/

section AddNode
variable {s : State}

theorem addNode_nodes_toNat (h : s.tree.nodes.toNat < 513) (e : NodeEntry) :
    (s.addNode e).tree.nodes.toNat = s.tree.nodes.toNat + 1 := by
  simp only [State.addNode_tree, BitVec.toNat_add, BitVec.toNat_ofNat]
  omega

theorem addNode_nodeAt (h : s.tree.nodes.toNat < 513) (e : NodeEntry) (n : Nat) :
    (s.addNode e).nodeAt n = if n = s.tree.nodes.toNat then e else s.nodeAt n := by
  have hs : (s.addNode e).nodeAt n = (s.setNode s.tree.nodes.toNat e).nodeAt n := nodeAt_congr rfl n
  rw [hs, nodeAt_setNode]
  simp only [h, and_true, eq_comm]

end AddNode

/-! ### The leaves -/

/-- The leaves of the symbols `l` join the arena, one after another. -/
def State.addLeaves (s : State) (f : Nat → FreqEntry) : List Nat → State
  | [] => s
  | i :: l => (s.addNode (leafOf i (f i))).addLeaves f l

/-- Placing the leaves of FREQ from a symbol on adds the leaves of the symbols present from there on. -/
theorem placeLeaves_drop (f : State) : ∀ (n sym : Nat) (s : State), sym + n = 257 →
    s.placeLeaves (f.freq.toList.drop sym) sym =
      s.addLeaves f.freqAt ((List.range' sym n).filter (fun i => (f.freqAt i).valid))
  | 0, sym, s, h => by
    rw [List.drop_eq_nil_of_le (by rw [Vector.length_toList]; omega)]
    rfl
  | n + 1, sym, s, h => by
    have hl : sym < f.freq.toList.length := by rw [Vector.length_toList]; omega
    have he : f.freq.toList[sym] = f.freqAt sym := by
      simp only [Vector.getElem_toList, State.freqAt]
      rw [Vector.getElem?_eq_getElem (by omega)]
      rfl
    rw [List.drop_eq_getElem_cons hl, he, List.range'_succ, State.placeLeaves, placeLeaves_drop f n (sym + 1) _ (by omega),
      List.filter_cons]
    split <;> rfl

theorem placeLeaves_freq (s f : State) :
    s.placeLeaves f.freq.toList 0 = s.addLeaves f.freqAt f.presentSyms := by
  have := placeLeaves_drop f 257 0 s rfl
  rwa [List.drop_zero, ← List.range_eq_range'] at this

theorem addLeaves_freq (f : Nat → FreqEntry) : ∀ (l : List Nat) (s : State), (s.addLeaves f l).freq = s.freq
  | [], _ => rfl
  | _ :: l, _ => addLeaves_freq f l _

/-- Each leaf takes the next free entry of the arena, and its index joins the priority structure. -/
theorem addLeaves_layout (f : Nat → FreqEntry) : ∀ (l : List Nat) (s : State), s.tree.nodes.toNat + l.length ≤ 513 →
    (s.addLeaves f l).tree.nodes.toNat = s.tree.nodes.toNat + l.length ∧
    (s.addLeaves f l).queue = s.queue ++ List.range' s.tree.nodes.toNat l.length ∧
    (∀ n, n < s.tree.nodes.toNat ∨ s.tree.nodes.toNat + l.length ≤ n → (s.addLeaves f l).nodeAt n = s.nodeAt n) ∧
    ∀ k, (h : k < l.length) → (s.addLeaves f l).nodeAt (s.tree.nodes.toNat + k) = leafOf l[k] (f l[k])
  | [], s, _ => by simp [State.addLeaves]
  | i :: l, s, hl => by
    simp only [List.length_cons] at hl
    have hn := addNode_nodes_toNat (s := s) (by omega) (leafOf i (f i))
    have ha := addNode_nodeAt (s := s) (by omega) (leafOf i (f i))
    obtain ⟨h1, h2, h3, h4⟩ := addLeaves_layout f l (s.addNode (leafOf i (f i))) (by omega)
    rw [hn] at h1 h2 h3 h4
    simp only [State.addLeaves, List.length_cons]
    refine ⟨by omega, ?_, fun n h => ?_, fun k h => ?_⟩
    · rw [h2, State.addNode_queue, List.append_assoc, List.range'_succ]
      rfl
    · rw [h3 n (by omega), ha, if_neg (by omega)]
    · cases k with
      | zero => rw [h3 _ (by omega), ha, if_pos (by omega)]; rfl
      | succ k => rw [List.getElem_cons_succ, ← h4 k (by omega)]; congr 1; omega

/-! ### The two nodes combined -/

/-- Nodes `a` and `b` are extracted from the priority structure, and their parent joins it (42_tree_builder.md R130). -/
def State.join (s : State) (a b : Nat) : State :=
  State.addNode { s with queue := (s.queue.erase a).erase b } (s.parentOf a b)

section Combine
variable {s : State}

theorem join_queue (s : State) (a b : Nat) :
    (s.join a b).queue = (s.queue.erase a).erase b ++ [s.tree.nodes.toNat] := rfl

theorem join_nodes_toNat (h : s.tree.nodes.toNat < 513) (a b : Nat) :
    (s.join a b).tree.nodes.toNat = s.tree.nodes.toNat + 1 :=
  addNode_nodes_toNat (s := { s with queue := (s.queue.erase a).erase b }) h _

theorem join_nodeAt (h : s.tree.nodes.toNat < 513) (a b n : Nat) :
    (s.join a b).nodeAt n = if n = s.tree.nodes.toNat then s.parentOf a b else s.nodeAt n :=
  addNode_nodeAt (s := { s with queue := (s.queue.erase a).erase b }) h _ n

theorem leastFrom_mem (s : State) : ∀ (l : List Nat) (i : Nat), s.leastFrom i l ∈ i :: l
  | [], i => List.mem_singleton.2 rfl
  | j :: l, i => by
    have h := leastFrom_mem s l (if s.keyLess j i then j else i)
    rw [State.leastFrom]
    rcases List.mem_cons.1 h with h | h
    · rw [h]; split <;> simp
    · simp [h]

/-- With two nodes waiting or more, the least one and the least of the others are joined (42_tree_builder.md R130,
R131). -/
theorem combine_of_two (h : 1 < s.queue.length) :
    ∃ i is j js, s.queue = i :: is ∧ s.queue.erase (s.leastFrom i is) = j :: js ∧
      s.combine = s.join (s.leastFrom i is) (s.leastFrom j js) := by
  cases hq : s.queue with
  | nil => simp [hq] at h
  | cons i is =>
    have ha : s.leastFrom i is ∈ i :: is := leastFrom_mem s is i
    cases he : (i :: is).erase (s.leastFrom i is) with
    | nil =>
      have := List.length_erase_of_mem ha
      rw [he, ← hq, List.length_nil] at this
      omega
    | cons j js =>
      refine ⟨i, is, j, js, rfl, he, ?_⟩
      simp only [State.combine, State.join, hq, he]

/-- What `combine` does, whichever the two nodes are. -/
theorem combine_joins_two (h : 1 < s.queue.length) :
    ∃ a b, a ∈ s.queue ∧ b ∈ s.queue.erase a ∧ s.combine = s.join a b := by
  obtain ⟨i, is, j, js, hq, he, hc⟩ := combine_of_two h
  exact ⟨_, _, hq ▸ leastFrom_mem s is i, he ▸ leastFrom_mem s js j, hc⟩

theorem join_queue_length {a b : Nat} (ha : a ∈ s.queue) (hb : b ∈ s.queue.erase a) :
    (s.join a b).queue.length + 1 = s.queue.length := by
  have h1 := List.length_erase_of_mem ha
  have h2 := List.length_erase_of_mem hb
  have h3 := List.length_pos_of_mem hb
  rw [join_queue, List.length_append, List.length_singleton]
  omega

/-- With as much fuel as nodes waiting, combining goes on until one is left. -/
theorem combineAll_queue_length : ∀ (n : Nat) (s : State), 0 < s.queue.length → s.queue.length ≤ n + 1 →
    (s.combineAll n).queue.length = 1
  | 0, s, h, hn => by change s.queue.length = 1; omega
  | n + 1, s, h, hn => by
    rw [State.combineAll]
    split
    · rename_i hq
      obtain ⟨a, b, ha, hb, hc⟩ := combine_joins_two hq
      have := join_queue_length ha hb
      rw [hc]
      exact combineAll_queue_length n _ (by omega) (by omega)
    · omega

/-- What joining two waiting nodes keeps, `combineAll` keeps. -/
theorem combineAll_induction {P : State → Prop}
    (step : ∀ (s : State) (a b : Nat), P s → a ∈ s.queue → b ∈ s.queue.erase a → P (s.join a b)) :
    ∀ (n : Nat) (s : State), P s → P (s.combineAll n)
  | 0, _, h => h
  | n + 1, s, h => by
    rw [State.combineAll]
    split
    · rename_i hq
      obtain ⟨a, b, ha, hb, hc⟩ := combine_joins_two hq
      exact combineAll_induction step n _ (hc ▸ step s a b h ha hb)
    · exact h

end Combine

/-! ### The forest -/

/-- The weights of the nodes that wait, added up. -/
def State.waitingWeight (s : State) : Nat := (s.queue.map (fun i => (s.nodeAt i).weight.toNat)).sum

/-- The counts of FREQ, added up (42_tree_builder.md R136). -/
def State.countSum (s : State) : Nat := (s.presentSyms.map (fun i => (s.freqAt i).count.toNat)).sum

/-- 257 counts of 32 bits fit in a weight of 64 bits (42_tree_builder.md R133). -/
theorem countSum_lt (s : State) : s.countSum < 2 ^ 64 := by
  have h : s.countSum ≤ (s.presentSyms.map (fun i => (s.freqAt i).count.toNat)).length • 2 ^ 32 := by
    refine List.sum_le_card_nsmul _ _ fun x hx => ?_
    obtain ⟨i, -, rfl⟩ := List.mem_map.1 hx
    exact (s.freqAt i).count.isLt.le
  have hl := length_presentSyms_le (s := s)
  rw [List.length_map, smul_eq_mul] at h
  omega

/-- An internal node of the arena is made of two different nodes made before it, and its weight is their exact sum
(42_tree_builder.md R132, R133). -/
structure State.InnerOk (s : State) (n : Nat) : Prop where
  valid : (s.nodeAt n).valid = true
  inner : (s.nodeAt n).leaf = false
  left : (s.nodeAt n).left.toNat < n
  right : (s.nodeAt n).right.toNat < n
  apart : (s.nodeAt n).left ≠ (s.nodeAt n).right
  weight : (s.nodeAt n).weight.toNat =
    (s.nodeAt (s.nodeAt n).left.toNat).weight.toNat + (s.nodeAt (s.nodeAt n).right.toNat).weight.toNat

/-- The arena while BUILD runs: the leaves of the symbols present, then internal nodes; the nodes that wait are those
with no parent, and every other has exactly one (42_tree_builder.md R130 to R133). -/
structure State.Forest (s : State) : Prop where
  waiting : s.tree.nodes.toNat + s.queue.length = 2 * s.presentSyms.length
  placed : s.presentSyms.length ≤ s.tree.nodes.toNat
  leaves : ∀ k, (h : k < s.presentSyms.length) →
    s.nodeAt k = leafOf s.presentSyms[k] (s.freqAt s.presentSyms[k])
  inner : ∀ n, s.presentSyms.length ≤ n → n < s.tree.nodes.toNat → s.InnerOk n
  nodup : s.queue.Nodup
  queued : ∀ i ∈ s.queue, i < s.tree.nodes.toNat ∧ ∀ p, ¬ s.IsChild p i
  parent : ∀ c, c < s.tree.nodes.toNat → c ∉ s.queue → ∃! p, s.IsChild p c
  beyond : ∀ n, s.tree.nodes.toNat ≤ n → s.nodeAt n = NodeEntry.absent
  total : s.waitingWeight = s.countSum

section Forest
variable {s : State}

/-- A parent comes after its child. -/
theorem State.Forest.child_lt (h : s.Forest) {p c : Nat} (hc : s.IsChild p c) : c < p ∧ p < s.tree.nodes.toNat := by
  obtain ⟨hv, hl, hlr⟩ := hc
  have hp : p < s.tree.nodes.toNat := by
    by_contra hn
    rw [h.beyond p (by omega)] at hv
    cases hv
  have hk : s.presentSyms.length ≤ p := by
    by_contra hn
    rw [h.leaves p (by omega)] at hl
    cases hl
  obtain ⟨-, -, h1, h2, -, -⟩ := h.inner p hk hp
  exact ⟨by omega, hp⟩

/-- Placing the leaves makes a forest of single leaves. -/
theorem forest_of_leaves {s : State} (hn : s.tree.nodes.toNat = 0) (hq : s.queue = [])
    (ha : ∀ n, s.nodeAt n = NodeEntry.absent) : (s.placeLeaves s.freq.toList 0).Forest := by
  have hlen := length_presentSyms_le (s := s)
  obtain ⟨h1, h2, h3, h4⟩ := addLeaves_layout s.freqAt s.presentSyms s (by omega)
  have hf := addLeaves_freq s.freqAt s.presentSyms s
  rw [placeLeaves_freq]
  generalize hw : s.addLeaves s.freqAt s.presentSyms = t at *
  simp only [hn, hq, Nat.zero_add, List.nil_append, ← List.range_eq_range'] at h1 h2 h3 h4
  have hsyms := presentSyms_congr hf
  have hfreq := freqAt_congr hf
  have hchild : ∀ p c, ¬ t.IsChild p c := by
    rintro p c ⟨hv, hl, -⟩
    by_cases hp : p < s.presentSyms.length
    · rw [h4 p hp] at hl; cases hl
    · rw [h3 p (by omega), ha] at hv; cases hv
  constructor
  case waiting => rw [h1, h2, hsyms, List.length_range]; omega
  case placed => rw [h1, hsyms]
  case leaves =>
    intro k hk
    simp only [hsyms, hfreq] at hk ⊢
    exact h4 k hk
  case inner => intro n hk hn'; rw [hsyms] at hk; omega
  case nodup => rw [h2]; exact List.nodup_range
  case queued => intro i hi; rw [h2, List.mem_range] at hi; exact ⟨by omega, fun p => hchild p i⟩
  case parent => intro c hc hq'; rw [h2, List.mem_range] at hq'; omega
  case beyond => intro n hn'; rw [h3 n (by omega), ha]
  case total =>
    simp only [State.waitingWeight, State.countSum, h2, hsyms, hfreq]
    congr 1
    apply List.ext_getElem (by simp)
    intro k hk hk'
    simp only [List.length_map, List.length_range] at hk
    simp only [List.getElem_map, List.getElem_range, h4 k hk, leafOf, BitVec.toNat_setWidth]
    have := (s.freqAt s.presentSyms[k]).count.isLt
    omega

/-- The children of the arena after a join are those before it, and the two nodes joined. -/
theorem State.Forest.isChild_join (h : s.Forest) (hn : s.tree.nodes.toNat < 513) {a b : Nat}
    (ha : a < s.tree.nodes.toNat) (hb : b < s.tree.nodes.toNat) (p c : Nat) :
    (s.join a b).IsChild p c ↔ s.IsChild p c ∨ p = s.tree.nodes.toNat ∧ (c = a ∨ c = b) := by
  have hp := join_nodeAt hn a b p
  by_cases e : p = s.tree.nodes.toNat
  · rw [if_pos e] at hp
    have hnot : ¬ s.IsChild p c := fun hc => by have := (h.child_lt hc).2; omega
    have ea : (BitVec.ofNat 10 a).toNat = a := by rw [BitVec.toNat_ofNat]; omega
    have eb : (BitVec.ofNat 10 b).toNat = b := by rw [BitVec.toNat_ofNat]; omega
    rw [or_iff_right hnot, and_iff_right e, State.IsChild, hp]
    simp only [State.parentOf, ea, eb, true_and, eq_comm]
  · rw [if_neg e] at hp
    simp only [State.IsChild, hp, e, false_and, or_false]

/-- An internal node made before a join is as it was. -/
theorem State.InnerOk.join {n : Nat} (h : s.InnerOk n) (hn : s.tree.nodes.toNat < 513)
    (hlt : n < s.tree.nodes.toNat) (a b : Nat) : (s.join a b).InnerOk n := by
  have hl := h.left
  have hr := h.right
  have he : ∀ m, m < s.tree.nodes.toNat → (s.join a b).nodeAt m = s.nodeAt m := fun m hm => by
    rw [join_nodeAt hn, if_neg (by omega)]
  constructor <;> rw [he n hlt]
  case valid => exact h.valid
  case inner => exact h.inner
  case left => exact hl
  case right => exact hr
  case apart => exact h.apart
  case weight => rw [he _ (by omega), he _ (by omega)]; exact h.weight

/-- The weights of two waiting nodes are part of all the weight that waits. -/
theorem waitingWeight_eq {a b : Nat} (ha : a ∈ s.queue) (hb : b ∈ s.queue.erase a) :
    s.waitingWeight = (s.nodeAt a).weight.toNat + (s.nodeAt b).weight.toNat +
      (((s.queue.erase a).erase b).map (fun i => (s.nodeAt i).weight.toNat)).sum := by
  have hp : s.queue.Perm (a :: b :: (s.queue.erase a).erase b) :=
    (List.perm_cons_erase ha).trans ((List.perm_cons_erase hb).cons a)
  rw [State.waitingWeight, (hp.map _).sum_eq]
  simp only [List.map_cons, List.sum_cons]
  omega

/-- The parent's weight is the exact sum: all the weight that waits fits in 64 bits (42_tree_builder.md R133). -/
theorem State.Forest.parentOf_weight (h : s.Forest) {a b : Nat} (ha : a ∈ s.queue) (hb : b ∈ s.queue.erase a) :
    (s.parentOf a b).weight.toNat = (s.nodeAt a).weight.toNat + (s.nodeAt b).weight.toNat := by
  have hw := waitingWeight_eq ha hb
  have ht := h.total
  have hs := countSum_lt s
  rw [State.parentOf, BitVec.toNat_add]
  omega

/-- The node a join makes is an internal node as it should be. -/
theorem State.Forest.innerOk_join (h : s.Forest) (hn : s.tree.nodes.toNat < 513) {a b : Nat} (ha : a ∈ s.queue)
    (hb : b ∈ s.queue.erase a) : (s.join a b).InnerOk s.tree.nodes.toNat := by
  have hab : a ≠ b := fun e => h.nodup.not_mem_erase (e ▸ hb)
  have haN := (h.queued a ha).1
  have hbN := (h.queued b (List.mem_of_mem_erase hb)).1
  have hw := h.parentOf_weight ha hb
  have hat := join_nodeAt hn a b
  have ea : (BitVec.ofNat 10 a).toNat = a := by rw [BitVec.toNat_ofNat]; omega
  have eb : (BitVec.ofNat 10 b).toNat = b := by rw [BitVec.toNat_ofNat]; omega
  constructor <;> rw [hat, if_pos rfl]
  case valid => rfl
  case inner => rfl
  case left => exact ea.trans_lt haN
  case right => exact eb.trans_lt hbN
  case apart => exact fun e => hab (by rw [← ea, ← eb]; exact congrArg BitVec.toNat e)
  case weight =>
    rw [hw, hat, hat]
    simp only [State.parentOf, ea, eb, haN.ne, hbN.ne, if_false]

/-- A join moves weight and makes none. -/
theorem State.Forest.waitingWeight_join (h : s.Forest) (hn : s.tree.nodes.toNat < 513) {a b : Nat} (ha : a ∈ s.queue)
    (hb : b ∈ s.queue.erase a) : (s.join a b).waitingWeight = s.waitingWeight := by
  have hat := join_nodeAt hn a b
  have hold : ∀ i ∈ (s.queue.erase a).erase b, ((s.join a b).nodeAt i).weight.toNat = (s.nodeAt i).weight.toNat := by
    intro i hi
    have := (h.queued i (List.mem_of_mem_erase (List.mem_of_mem_erase hi))).1
    rw [hat, if_neg (by omega)]
  rw [waitingWeight_eq ha hb, State.waitingWeight, join_queue, List.map_append, List.sum_append,
    List.map_congr_left hold, ← h.parentOf_weight ha hb]
  simp only [List.map_cons, List.map_nil, List.sum_cons, List.sum_nil, hat, if_true]
  omega

/-- Joining two waiting nodes keeps the forest. -/
theorem State.Forest.join (h : s.Forest) {a b : Nat} (ha : a ∈ s.queue) (hb : b ∈ s.queue.erase a) :
    (s.join a b).Forest := by
  have hb' : b ∈ s.queue := List.mem_of_mem_erase hb
  have hab : a ≠ b := fun e => h.nodup.not_mem_erase (e ▸ hb)
  obtain ⟨haN, hap⟩ := h.queued a ha
  obtain ⟨hbN, hbp⟩ := h.queued b hb'
  have hlen := join_queue_length ha hb
  have hk := length_presentSyms_le (s := s)
  have hw := h.waiting
  have hq1 := List.length_pos_of_mem hb
  have hq2 := List.length_erase_of_mem ha
  have hn : s.tree.nodes.toNat < 513 := by omega
  have hN := join_nodes_toNat hn a b
  have hat := join_nodeAt hn a b
  have hchild := h.isChild_join hn haN hbN
  have hsyms : (s.join a b).presentSyms = s.presentSyms := rfl
  have hfreq : (s.join a b).freqAt = s.freqAt := rfl
  have hmem : ∀ c, c ∈ (s.join a b).queue ↔ (c ∈ s.queue ∧ c ≠ a ∧ c ≠ b) ∨ c = s.tree.nodes.toNat := by
    intro c
    rw [join_queue, List.mem_append, List.mem_singleton, (h.nodup.erase a).mem_erase_iff, h.nodup.mem_erase_iff]
    tauto
  constructor
  case waiting => rw [hN, hsyms]; omega
  case placed => rw [hN, hsyms]; exact Nat.le_succ_of_le h.placed
  case leaves =>
    intro k hk'
    have := h.placed
    change k < s.presentSyms.length at hk'
    rw [hat, if_neg (by omega)]
    exact h.leaves k hk'
  case inner =>
    intro n hkn hnN
    rw [hN] at hnN
    by_cases e : n = s.tree.nodes.toNat
    · subst e
      exact h.innerOk_join hn ha hb
    · exact (h.inner n hkn (by omega)).join hn (by omega) a b
  case nodup =>
    rw [join_queue]
    refine ((h.nodup.erase a).erase b).append (List.nodup_singleton _) fun c hc hc' => ?_
    have := (h.queued c (List.mem_of_mem_erase (List.mem_of_mem_erase hc))).1
    rw [List.mem_singleton] at hc'
    omega
  case queued =>
    intro i hi
    rw [hN]
    rcases (hmem i).1 hi with ⟨hi, hia, hib⟩ | rfl
    · obtain ⟨hiN, hip⟩ := h.queued i hi
      refine ⟨by omega, fun p hp => ?_⟩
      rcases (hchild p i).1 hp with hp | ⟨-, hp⟩
      · exact hip p hp
      · tauto
    · refine ⟨by omega, fun p hp => ?_⟩
      rcases (hchild p _).1 hp with hp | ⟨-, hp⟩
      · have := h.child_lt hp; omega
      · omega
  case parent =>
    intro c hc hcq
    rw [hN] at hc
    rw [hmem] at hcq
    simp only [hchild]
    by_cases hcj : c = a ∨ c = b
    · refine ⟨s.tree.nodes.toNat, .inr ⟨rfl, hcj⟩, fun p hp => ?_⟩
      rcases hp with hp | ⟨hp, -⟩
      · rcases hcj with rfl | rfl
        · exact absurd hp (hap p)
        · exact absurd hp (hbp p)
      · exact hp
    · obtain ⟨p, hp, hu⟩ := h.parent c (by omega) (by tauto)
      exact ⟨p, .inl hp, fun q hq => hu q (hq.resolve_right fun hq => hcj hq.2)⟩
  case beyond =>
    intro n hnN
    rw [hN] at hnN
    rw [hat, if_neg (by omega)]
    exact h.beyond n (by omega)
  case total => exact (h.waitingWeight_join hn ha hb).trans h.total

/-- With one node left to wait, that node is the last one made, and setting it as the root leaves the tree of FREQ. -/
theorem State.Forest.setRoot_treeOk (h : s.Forest) {r : Nat} (hq : s.queue = [r]) :
    r + 2 = 2 * s.presentSyms.length ∧ (s.setRoot r).TreeOk := by
  have hw := h.waiting
  have hk := length_presentSyms_le (s := s)
  rw [hq, List.length_singleton] at hw
  have hr : r = s.tree.nodes.toNat - 1 := by
    by_contra hne
    obtain ⟨p, hp, -⟩ := h.parent (s.tree.nodes.toNat - 1) (by omega) (by rw [hq, List.mem_singleton]; omega)
    have := h.child_lt hp
    omega
  refine ⟨by omega, ?_⟩
  have hsyms : (s.setRoot r).presentSyms = s.presentSyms := rfl
  have hnodes : (s.setRoot r).tree.nodes = s.tree.nodes := rfl
  constructor
  case some => rw [hsyms, ← List.length_pos_iff]; omega
  case nodes => rw [hsyms, hnodes]; omega
  case root =>
    change (BitVec.ofNat 10 r).toNat = 2 * s.presentSyms.length - 2
    rw [BitVec.toNat_ofNat]
    omega
  case leaves => exact h.leaves
  case inner =>
    intro n hn hn'
    change n < 2 * s.presentSyms.length - 1 at hn'
    obtain ⟨h1, h2, h3, h4, h5, h6⟩ := h.inner n hn (by omega)
    exact ⟨h1, h2, h3, h4, h5, h6⟩
  case parent =>
    intro c hc
    change c < 2 * s.presentSyms.length - 2 at hc
    exact h.parent c (by omega) (by rw [hq, List.mem_singleton]; omega)
  case beyond =>
    intro n hn
    change 2 * s.presentSyms.length - 1 ≤ n at hn
    exact h.beyond n (by omega)

end Forest

/-! ### BUILD -/

section Build
variable {s : State}

/-- BUILD's leaves and combinations leave a forest with one node waiting. -/
theorem growTree_forest (hq : s.queue = []) : s.growTree.Forest :=
  combineAll_induction (P := State.Forest) (fun _ _ _ h ha hb => h.join ha hb) _ _
    (forest_of_leaves (s := s.dropTree) rfl hq (nodeAt_of_replicate rfl))

/-- `t` differs from `s` in the arena, TREE and the priority structure only. -/
def State.SameButTree (s t : State) : Prop :=
  ∃ node tree queue, t = { s with node := node, tree := tree, queue := queue }

theorem State.SameButTree.addNode {t : State} (h : s.SameButTree t) (e : NodeEntry) : s.SameButTree (t.addNode e) := by
  obtain ⟨_, _, _, rfl⟩ := h
  exact ⟨_, _, _, rfl⟩

theorem State.SameButTree.join {t : State} (h : s.SameButTree t) (a b : Nat) : s.SameButTree (t.join a b) := by
  obtain ⟨_, _, _, rfl⟩ := h
  exact ⟨_, _, _, rfl⟩

theorem State.SameButTree.placeLeaves : ∀ (es : List FreqEntry) (sym : Nat) {t : State}, s.SameButTree t →
    s.SameButTree (t.placeLeaves es sym)
  | [], _, _, h => h
  | e :: es, sym, t, h => by
    rw [State.placeLeaves]
    split
    · exact placeLeaves es _ (h.addNode _)
    · exact placeLeaves es _ h

/-- BUILD's leaves and combinations leave all but the tree as `dropTree` does. -/
theorem growTree_sameButTree (s : State) : s.dropTree.SameButTree s.growTree :=
  combineAll_induction (P := s.dropTree.SameButTree) (fun _ a b h _ _ => h.join a b) _ _
    (State.SameButTree.placeLeaves (s := s.dropTree) _ _ ⟨_, _, _, rfl⟩)

theorem growTree_freq (s : State) : s.growTree.freq = s.freq := by
  obtain ⟨_, _, _, h⟩ := growTree_sameButTree s
  rw [h]
  rfl

/-- Every symbol present has a leaf that waits, so one node is left in the end. -/
theorem growTree_queue (h : s.presentSyms ≠ []) : ∃ r, s.growTree.queue = [r] := by
  have hlen := length_presentSyms_le (s := s)
  have hpos := List.length_pos_iff.2 h
  have hq : (s.dropTree.placeLeaves s.freq.toList 0).queue =
      s.queue ++ List.range' 0 s.presentSyms.length := by
    have := placeLeaves_freq s.dropTree s
    rw [this]
    exact (addLeaves_layout s.freqAt s.presentSyms s.dropTree (by simp [TreeReg.absent]; omega)).2.1
  apply List.length_eq_one_iff.1
  exact combineAll_queue_length _ _ (by rw [hq, List.length_append, List.length_range']; omega) (Nat.le_succ _)

/-- With a symbol present BUILD goes through, and leaves the tree of FREQ (42_tree_builder.md R130, R132, R133). -/
theorem buildStage_run (h : s.presentSyms ≠ []) :
    ∃ r, s.growTree.queue = [r] ∧ buildStage s = .ok () (s.growTree.setRoot r) := by
  obtain ⟨r, hr⟩ := growTree_queue h
  refine ⟨r, hr, ?_⟩
  rw [buildStage, Cmd.update_bind, endBuild, hr]

/-- What BUILD leaves is the tree of FREQ, when its priority structure was empty before (42_tree_builder.md R132, R133). -/
theorem setRoot_growTree_treeOk (hq : s.queue = []) {r : Nat} (hr : s.growTree.queue = [r]) :
    (s.growTree.setRoot r).TreeOk :=
  ((growTree_forest hq).setRoot_treeOk hr).2

end Build

end Sys2Proof.Machine
end

section
/-! SUPPORT. DERIVE leaves the codes of the tree (43_code_deriver.md R140 to R144): a code's entry holds its digits, every
leaf is reached from the root within MAXCODE steps, and the search for its path finds one. -/

namespace Sys2Proof.Machine

/-! ### The entry of a code -/

section CodeEntry
variable {ds : List Bool}

theorem len_ofDigits (h : ds.length ≤ 256) : (CodeEntry.ofDigits ds).len.toNat = ds.length := by
  simp only [CodeEntry.ofDigits, BitVec.toNat_ofNat]
  omega

/-- An entry holds digits that fit in it, first digit first (10_state.md R49). -/
theorem digits_ofDigits (h : ds.length ≤ 256) : (CodeEntry.ofDigits ds).digits = ds := by
  rw [CodeEntry.digits, len_ofDigits h]
  apply List.ext_getElem
  · rw [List.length_map, List.length_range]
  · intro k _ hk
    have hk' : k < 256 := by omega
    simp [CodeEntry.ofDigits, BitVec.getLsbD_ofBoolListLE, hk, hk']

/-- BITS holds 0 at and past LEN (10_state.md R49). -/
theorem bits_ofDigits_beyond {j : Nat} (h : ds.length ≤ j) : (CodeEntry.ofDigits ds).bits.getLsbD j = false := by
  simp [CodeEntry.ofDigits, h]

end CodeEntry

/-! ### The shape of the tree -/

section Tree
variable {s : State}

/-- The leaves are the first nodes of the arena (42_tree_builder.md R132). -/
theorem State.TreeOk.leaf_iff (h : s.TreeOk) {n : Nat} : (s.nodeAt n).leaf = true ↔ n < s.presentSyms.length := by
  constructor
  · intro hl
    by_contra hn
    by_cases hb : n < 2 * s.presentSyms.length - 1
    · obtain ⟨-, hi, -⟩ := h.inner n (by omega) hb
      rw [hi] at hl; cases hl
    · rw [h.beyond n (by omega)] at hl; cases hl
  · intro hn
    rw [h.leaves n hn]
    rfl

/-- The leaf at `n` is that of the `n`th symbol present (42_tree_builder.md R132). -/
theorem State.TreeOk.leaf_sym (h : s.TreeOk) {n : Nat} (hn : n < s.presentSyms.length) :
    (s.nodeAt n).sym.toNat = s.presentSyms[n] := by
  have := presentSyms_lt (List.getElem_mem hn)
  rw [h.leaves n hn, leafOf, BitVec.toNat_ofNat]
  omega

/-- A leaf's symbol is present. -/
theorem State.TreeOk.leaf_present (h : s.TreeOk) {n : Nat} (hl : (s.nodeAt n).leaf = true) :
    (s.freqAt (s.nodeAt n).sym.toNat).valid = true := by
  rw [h.leaf_sym (h.leaf_iff.1 hl), ← mem_presentSyms]
  exact List.getElem_mem _

/-- Every symbol present has a leaf. -/
theorem State.TreeOk.exists_leaf (h : s.TreeOk) {i : Nat} (hi : (s.freqAt i).valid = true) :
    ∃ n, n < s.tree.nodes.toNat ∧ (s.nodeAt n).leaf = true ∧ (s.nodeAt n).sym.toNat = i := by
  obtain ⟨n, hn, rfl⟩ := List.getElem_of_mem (mem_presentSyms.2 hi)
  exact ⟨n, by rw [h.nodes]; omega, h.leaf_iff.2 hn, h.leaf_sym hn⟩

/-- A step of a walk goes to a node made before (42_tree_builder.md R132). -/
theorem State.TreeOk.childOf_lt (h : s.TreeOk) {n : Nat} (hn : n < 2 * s.presentSyms.length - 1)
    (hl : (s.nodeAt n).leaf = false) (d : Bool) : s.childOf n d < n := by
  have hk : ¬ n < s.presentSyms.length := fun hk => by rw [h.leaf_iff.2 hk] at hl; cases hl
  obtain ⟨-, -, h1, h2, -⟩ := h.inner n (by omega) hn
  unfold State.childOf
  split <;> assumption

/-- A child is one the step of some digit goes to. -/
theorem State.IsChild.exists_digit {p c : Nat} (h : s.IsChild p c) : ∃ d, s.childOf p d = c := by
  obtain ⟨-, -, h | h⟩ := h
  · exact ⟨false, h⟩
  · exact ⟨true, h⟩

/-- A parent comes after its child. -/
theorem State.TreeOk.child_lt (h : s.TreeOk) {p c : Nat} (hc : s.IsChild p c) :
    c < p ∧ p < 2 * s.presentSyms.length - 1 := by
  have hp : p < 2 * s.presentSyms.length - 1 := by
    by_contra hn
    have hv := hc.1
    rw [h.beyond p (by omega)] at hv
    cases hv
  obtain ⟨d, rfl⟩ := hc.exists_digit
  exact ⟨h.childOf_lt hp hc.2.1 d, hp⟩

/-! ### Walks down the tree -/

/-- The digits lead from node `n` through internal nodes to node `c` (43_code_deriver.md R141). -/
def State.Descends (s : State) (c : Nat) : (n : Nat) → List Bool → Prop
  | n, [] => n = c
  | n, d :: ds => (s.nodeAt n).leaf = false ∧ s.Descends c (s.childOf n d) ds

/-- A walk that ends at a leaf leads to its symbol. -/
theorem State.Descends.leadsTo {c : Nat} (hc : (s.nodeAt c).leaf = true) : ∀ {ds : List Bool} {n : Nat},
    s.Descends c n ds → s.LeadsTo (s.nodeAt c).sym.toNat n ds
  | [], _, rfl => ⟨hc, rfl⟩
  | _ :: _, _, ⟨hl, hd⟩ => ⟨hl, State.Descends.leadsTo hc hd⟩

/-- A walk to an internal node goes on to its child. -/
theorem State.Descends.snoc {p : Nat} (hp : (s.nodeAt p).leaf = false) (d : Bool) : ∀ {ds : List Bool} {n : Nat},
    s.Descends p n ds → s.Descends (s.childOf p d) n (ds ++ [d])
  | [], _, rfl => ⟨hp, rfl⟩
  | _ :: _, _, ⟨hl, hd⟩ => ⟨hl, State.Descends.snoc hp d hd⟩

/-- A walk passes through internal nodes of falling index only, so it has no more digits than there are of them
(43_code_deriver.md R144). -/
theorem State.Descends.length_le (h : s.TreeOk) {c : Nat} : ∀ {ds : List Bool} {n : Nat},
    n < 2 * s.presentSyms.length - 1 → s.Descends c n ds → ds.length ≤ n + 1 - s.presentSyms.length
  | [], _, _, _ => Nat.zero_le _
  | d :: ds, n, hn, ⟨hl, hd⟩ => by
    have hc := h.childOf_lt hn hl d
    have hk : ¬ n < s.presentSyms.length := fun hk => by rw [h.leaf_iff.2 hk] at hl; cases hl
    have := State.Descends.length_le h (by omega) hd
    rw [List.length_cons]
    omega

/-- Every node of the tree is reached from the root: by its parent, which comes after it. -/
theorem State.TreeOk.exists_descends (h : s.TreeOk) : ∀ (m c : Nat), c + m = s.tree.root.toNat →
    ∃ ds, s.Descends c s.tree.root.toNat ds := by
  intro m
  induction m using Nat.strongRecOn with
  | ind m ih =>
    intro c hc
    cases m with
    | zero => exact ⟨[], hc.symm⟩
    | succ m =>
      have hroot := h.root
      obtain ⟨p, hp, -⟩ := h.parent c (by omega)
      obtain ⟨hcp, hpk⟩ := h.child_lt hp
      obtain ⟨ds, hd⟩ := ih (s.tree.root.toNat - p) (by omega) p (by omega)
      obtain ⟨d, rfl⟩ := hp.exists_digit
      exact ⟨ds ++ [d], hd.snoc hp.2.1 d⟩

/-! ### The search for a path -/

/-- A path found is a walk to the node sought. -/
theorem descends_of_pathFrom {c : Nat} : ∀ {fuel n : Nat} {p : List Bool}, s.pathFrom c fuel n = some p →
    s.Descends c n p ∧ p.length ≤ fuel
  | 0, n, p, h => by
    rw [State.pathFrom] at h
    split at h <;> cases h
    exact ⟨‹_›, Nat.le_refl 0⟩
  | fuel + 1, n, p, h => by
    rw [State.pathFrom] at h
    split at h
    · cases h; exact ⟨‹_›, Nat.zero_le _⟩
    split at h
    · cases h
    rename_i hl
    rw [Bool.not_eq_true] at hl
    split at h
    · rename_i q hq
      cases h
      obtain ⟨hd, hlen⟩ := descends_of_pathFrom hq
      exact ⟨⟨hl, hd⟩, Nat.succ_le_succ hlen⟩
    split at h
    · rename_i q hq
      cases h
      obtain ⟨hd, hlen⟩ := descends_of_pathFrom hq
      exact ⟨⟨hl, hd⟩, Nat.succ_le_succ hlen⟩
    · cases h

/-- A node that a walk of at most `fuel` digits reaches is found. -/
theorem exists_pathFrom {c : Nat} : ∀ {fuel n : Nat} {ds : List Bool}, s.Descends c n ds → ds.length ≤ fuel →
    ∃ p, s.pathFrom c fuel n = some p
  | 0, n, [], h, _ => ⟨[], if_pos h⟩
  | fuel + 1, n, [], h, _ => ⟨[], by rw [State.pathFrom]; exact if_pos h⟩
  | fuel + 1, n, d :: ds, ⟨hl, hd⟩, hf => by
    obtain ⟨p, hp⟩ := exists_pathFrom hd (Nat.le_of_succ_le_succ hf)
    rw [State.pathFrom]
    split
    · exact ⟨[], rfl⟩
    rw [if_neg (by simp [hl])]
    split
    · exact ⟨_, rfl⟩
    · rename_i hn
      cases d with
      | false =>
        change s.pathFrom c fuel (s.nodeAt n).left.toNat = some p at hp
        rw [hn] at hp; cases hp
      | true =>
        change s.pathFrom c fuel (s.nodeAt n).right.toNat = some p at hp
        rw [hp]
        exact ⟨_, rfl⟩

/-- Every node of the tree has a path (43_code_deriver.md R141, R144). -/
theorem State.TreeOk.exists_path (h : s.TreeOk) {n : Nat} (hn : n < 2 * s.presentSyms.length - 1) :
    ∃ p : List Bool, s.path n = Option.some p ∧ s.Descends n s.tree.root.toNat p ∧ p.length ≤ 256 := by
  have hroot := h.root
  have hk := length_presentSyms_le (s := s)
  obtain ⟨ds, hd⟩ := h.exists_descends (s.tree.root.toNat - n) n (by omega)
  have hl := hd.length_le h (by omega)
  obtain ⟨p, hp⟩ := exists_pathFrom hd (fuel := 256) (by omega)
  obtain ⟨hd', hl'⟩ := descends_of_pathFrom hp
  exact ⟨p, hp, hd', hl'⟩

theorem pathFrom_congr {t : State} (h : t.node = s.node) (c : Nat) : ∀ fuel n, t.pathFrom c fuel n = s.pathFrom c fuel n
  | 0, _ => rfl
  | fuel + 1, n => by
    simp only [State.pathFrom, nodeAt_congr h, pathFrom_congr h c fuel]

theorem path_congr {t : State} (h : t.node = s.node) (h' : t.tree = s.tree) (n : Nat) : t.path n = s.path n := by
  simp only [State.path, h', pathFrom_congr h]

theorem leadsTo_congr {t : State} (h : t.node = s.node) (i : Nat) : ∀ (n : Nat) (ds : List Bool),
    t.LeadsTo i n ds ↔ s.LeadsTo i n ds
  | _, [] => by simp only [State.LeadsTo, nodeAt_congr h]
  | _, _ :: ds => by simp only [State.LeadsTo, State.childOf, nodeAt_congr h, leadsTo_congr h i _ ds]

/-! ### The code table -/

/-- `t` differs from `s` in the code table only. -/
def State.SameButCodes (s t : State) : Prop := ∃ code, t = { s with code := code }

theorem State.SameButCodes.codeLeaf {t : State} (h : s.SameButCodes t) (n : Nat) : s.SameButCodes (t.codeLeaf n) := by
  obtain ⟨c, rfl⟩ := h
  unfold State.codeLeaf
  split
  · split <;> exact ⟨_, rfl⟩
  · exact ⟨c, rfl⟩

theorem State.SameButCodes.codeLeaves : ∀ (k n : Nat) {t : State}, s.SameButCodes t → s.SameButCodes (t.codeLeaves n k)
  | 0, _, _, h => h
  | k + 1, n, _, h => State.SameButCodes.codeLeaves k (n + 1) (h.codeLeaf n)

/-- DERIVE writes codes only (43_code_deriver.md R140). -/
theorem deriveCodes_sameButCodes (s : State) : s.SameButCodes s.deriveCodes := by
  unfold State.deriveCodes
  split
  · exact ⟨_, rfl⟩
  · exact State.SameButCodes.codeLeaves _ _ ⟨s.code, rfl⟩

/-- `e` is the code of symbol `i`: `"0"` on a one-leaf tree, else a walk to the symbol's leaf (43_code_deriver.md R140 to
R142). -/
def State.CodeFor (s : State) (i : Nat) (e : CodeEntry) : Prop :=
  ∃ ds, e = CodeEntry.ofDigits ds ∧ 1 ≤ ds.length ∧ ds.length ≤ 256 ∧ (s.freqAt i).valid = true ∧
    ((s.nodeAt s.tree.root.toNat).leaf = true → ds = [false]) ∧
    ((s.nodeAt s.tree.root.toNat).leaf = false → s.LeadsTo i s.tree.root.toNat ds)

theorem State.CodeFor.congr {t : State} {i : Nat} {e : CodeEntry} (h : s.CodeFor i e) (hf : t.freq = s.freq)
    (hn : t.node = s.node) (ht : t.tree = s.tree) : t.CodeFor i e := by
  simpa only [State.CodeFor, freqAt_congr hf, nodeAt_congr hn, ht, leadsTo_congr hn] using h

/-- A table is that of the tree when each of its entries is its symbol's code, or absent with its symbol. -/
theorem codesOk_of_entries
    (h : ∀ i, s.CodeFor i (s.codeAt i) ∨ s.codeAt i = CodeEntry.absent ∧ (s.freqAt i).valid = false) : s.CodesOk := by
  have valid : ∀ i, (s.codeAt i).valid = true → s.CodeFor i (s.codeAt i) := fun i hv =>
    (h i).resolve_right fun ⟨ha, _⟩ => by rw [ha] at hv; cases hv
  constructor
  case present =>
    intro i
    rcases h i with ⟨ds, he, -, -, hf, -⟩ | ⟨ha, hf⟩
    · rw [he, hf]; rfl
    · rw [ha, hf]; rfl
  case length =>
    intro i hv
    obtain ⟨ds, he, h1, h2, -⟩ := valid i hv
    rw [he, len_ofDigits h2]
    exact ⟨h1, h2⟩
  case oneLeaf =>
    intro i hv hr
    obtain ⟨ds, he, h1, h2, -, h3, -⟩ := valid i hv
    rw [he, digits_ofDigits h2, h3 hr]
  case paths =>
    intro i hv hr
    obtain ⟨ds, he, h1, h2, -, -, h4⟩ := valid i hv
    rw [he, digits_ofDigits h2]
    exact h4 hr
  case beyond =>
    intro i j hj
    rcases h i with ⟨ds, he, -, h2, -⟩ | ⟨ha, -⟩
    · rw [he] at hj ⊢
      rw [len_ofDigits h2] at hj
      exact bits_ofDigits_beyond hj
    · rw [ha]; exact BitVec.getLsbD_zero

/-- The table of `t` holds the codes of the leaves among the first `n` nodes of the tree of `s`. -/
structure State.CodedUpTo (s t : State) (n : Nat) : Prop where
  same : s.SameButCodes t
  entry : ∀ i, s.CodeFor i (t.codeAt i) ∨
    t.codeAt i = CodeEntry.absent ∧ ∀ m, m < n → (s.nodeAt m).leaf = true → (s.nodeAt m).sym.toNat ≠ i

/-- Coding the next node's leaf (43_code_deriver.md R140). -/
theorem State.CodedUpTo.codeLeaf (h : s.TreeOk) (hr : (s.nodeAt s.tree.root.toNat).leaf = false) {t : State} {n : Nat}
    (hn : n < s.tree.nodes.toNat) (hc : s.CodedUpTo t n) : s.CodedUpTo (t.codeLeaf n) (n + 1) := by
  obtain ⟨hs, he⟩ := hc
  have hs' := hs.codeLeaf n
  have hnode : t.node = s.node := by obtain ⟨_, rfl⟩ := hs; rfl
  have htree : t.tree = s.tree := by obtain ⟨_, rfl⟩ := hs; rfl
  rw [State.codeLeaf, nodeAt_congr hnode, path_congr hnode htree] at hs' ⊢
  by_cases hl : (s.nodeAt n).leaf = true
  · rw [h.nodes] at hn
    obtain ⟨p, hp, hd, hlen⟩ := h.exists_path hn
    have hsym := presentSyms_lt (mem_presentSyms.2 (h.leaf_present hl))
    have hpos : 1 ≤ p.length := by
      cases p with
      | nil => obtain rfl : _ = n := hd; rw [hr] at hl; cases hl
      | cons d p => exact Nat.succ_le_succ (Nat.zero_le _)
    rw [if_pos hl, hp] at hs' ⊢
    refine ⟨hs', fun i => ?_⟩
    rw [codeAt_setCode]
    by_cases hi : (s.nodeAt n).sym.toNat = i
    · rw [if_pos ⟨hi, hsym⟩]
      subst hi
      exact .inl ⟨p, rfl, hpos, hlen, h.leaf_present hl, fun hr' => absurd (hr.symm.trans hr') (by decide),
        fun _ => hd.leadsTo hl⟩
    · rw [if_neg fun hi' => hi hi'.1]
      refine (he i).imp_right fun ⟨ha, hm⟩ => ⟨ha, fun m hmn hml => ?_⟩
      rcases Nat.lt_succ_iff_lt_or_eq.1 hmn with hmn | rfl
      · exact hm m hmn hml
      · exact hi
  · rw [if_neg hl]
    refine ⟨hs, fun i => (he i).imp_right fun ⟨ha, hm⟩ => ⟨ha, fun m hmn hml => ?_⟩⟩
    rcases Nat.lt_succ_iff_lt_or_eq.1 hmn with hmn | rfl
    · exact hm m hmn hml
    · exact absurd hml hl

theorem State.CodedUpTo.codeLeaves (h : s.TreeOk) (hr : (s.nodeAt s.tree.root.toNat).leaf = false) :
    ∀ (k n : Nat) {t : State}, n + k ≤ s.tree.nodes.toNat → s.CodedUpTo t n →
      s.CodedUpTo (t.codeLeaves n k) (n + k)
  | 0, _, _, _, hc => hc
  | k + 1, n, _, hn, hc => by
    have := State.CodedUpTo.codeLeaves h hr k (n + 1) (by omega) (hc.codeLeaf h hr (by omega))
    rwa [Nat.add_right_comm] at this

/-- DERIVE's code table is that of the tree (43_code_deriver.md R140 to R144). -/
theorem deriveCodes_codesOk (h : s.TreeOk) (hc : s.code = Vector.replicate 257 CodeEntry.absent) :
    s.deriveCodes.CodesOk := by
  have habs := codeAt_of_replicate hc
  unfold State.deriveCodes
  split
  · rename_i hl
    refine codesOk_of_entries fun i => ?_
    have hroot := h.root
    have hk := h.leaf_iff.1 hl
    have hsym := presentSyms_lt (mem_presentSyms.2 (h.leaf_present hl))
    rw [codeAt_setCode]
    by_cases hi : (s.nodeAt s.tree.root.toNat).sym.toNat = i
    · rw [if_pos ⟨hi, hsym⟩]
      subst hi
      exact .inl ⟨[false], rfl, Nat.le_refl 1, by decide, h.leaf_present hl, fun _ => rfl,
        fun hl' => absurd (hl.symm.trans hl') (by decide)⟩
    · rw [if_neg fun hi' => hi hi'.1]
      refine .inr ⟨habs i, ?_⟩
      by_contra hv
      obtain ⟨n, -, hn, rfl⟩ := h.exists_leaf (Bool.eq_true_of_not_eq_false hv)
      have := h.leaf_iff.1 hn
      obtain rfl : n = s.tree.root.toNat := by omega
      exact hi rfl
  · rename_i hl
    rw [Bool.not_eq_true] at hl
    have hu := State.CodedUpTo.codeLeaves h hl s.tree.nodes.toNat 0 (t := s) (by omega)
      ⟨⟨s.code, rfl⟩, fun i => .inr ⟨habs i, fun m hm => by omega⟩⟩
    obtain ⟨⟨c, hs⟩, he⟩ := hu
    generalize s.codeLeaves 0 s.tree.nodes.toNat = t at *
    subst hs
    refine codesOk_of_entries fun i => (he i).imp (fun hi => ?_) fun ⟨ha, hm⟩ => ⟨ha, ?_⟩
    · exact hi.congr rfl rfl rfl
    · by_contra hv
      obtain ⟨n, hn, hl, hi⟩ := h.exists_leaf (Bool.eq_true_of_not_eq_false hv)
      exact hm n (by omega) hl hi

end Tree

end Sys2Proof.Machine
end

section
/-! SUPPORT. What a job does, said once: what its access changes, why it can stop, and what it changes of the block and
leaves to do when it goes through (00_scope.md R7; 60_exceptions.md R212 to R215). -/

namespace Sys2Proof.Machine

/-! ### What an access changes -/

/-- `t` differs from `s` in the count of free values only. -/
def State.SameButDraws (s t : State) : Prop := ∃ n, t = { s with draws := n }

theorem State.SameButDraws.refl (s : State) : s.SameButDraws s := ⟨s.draws, rfl⟩

theorem State.SameButDraws.trans {s t u : State} (h : s.SameButDraws t) (h' : t.SameButDraws u) : s.SameButDraws u := by
  obtain ⟨_, rfl⟩ := h
  obtain ⟨_, rfl⟩ := h'
  exact ⟨_, rfl⟩

/-- A DMA read changes nothing but the count of free values. -/
theorem memRead_sameButDraws {s t : State} {a : Nat} {b : Byte} (h : memRead a s = .ok b t) : s.SameButDraws t := by
  obtain ⟨-, -, h⟩ := memRead_ok_iff.1 h
  unfold fetchByte at h
  split at h <;> cases h <;> exact ⟨_, rfl⟩

/-- A DMA write that goes through changes host memory, the old values kept and the count of free values. -/
theorem memWrite_ok {s t : State} {a : Nat} {v : Byte} (h : memWrite a v s = .ok () t) :
    ∃ m u n, t = { s with mem := m, undo := u, draws := n } := by
  unfold memWrite at h
  split at h
  · cases h
  split at h
  · unfold putByte at h
    split at h <;> cases h <;> exact ⟨_, _, _, rfl⟩
  · cases h
  · cases h

/-- An emitted byte is counted too, and there was room for it (44_table_serializer.md R151). -/
theorem emit_goes {s t : State} {v : Byte} (h : emit v s = .ok () t) :
    ∃ m u n d, t = { s with mem := m, undo := u, draws := n, dstLen := d } := by
  unfold emit at h
  rw [Cmd.get_bind] at h
  split at h
  · obtain ⟨_, u, hw, h⟩ := Cmd.bind_ok_iff.1 h
    cases h
    obtain ⟨_, _, _, rfl⟩ := memWrite_ok hw
    exact ⟨_, _, _, _, rfl⟩
  · cases h

/-! ### Why a command stops -/

/-- Why the engine stops in `s`, with the state `t` it has reached: an error has a code and comes before any effect; host
memory does not answer; the ranges include the register window; or the access was not `safe`, and the machine faults. -/
def State.StopsFor (s t : State) (safe : Prop) : Stop → Prop
  | .error c _ => c ≠ .none ∧ s.SameButDraws t
  | .waits => ∃ a, (s.busAt a).onRead = .never ∨ (s.busAt a).onWrite = .never
  | .fault _ => ¬ safe
  | .refuse r => r = .dmaIntoWindow

/-- Where `c` stops in `s`, it stops for one of the reasons there are. -/
def Cmd.Stops {α : Type} (safe : Prop) (c : Cmd α) (s : State) : Prop :=
  ∀ e t, c s = .error e t → s.StopsFor t safe e

section Stops
variable {α β : Type} {safe : Prop} {x : Cmd α} {f : α → Cmd β} {s t : State}

theorem State.StopsFor.of_sameButDraws {u : State} {e : Stop} (h : s.SameButDraws t) (he : t.StopsFor u safe e) :
    s.StopsFor u safe e := by
  cases e with
  | error c i => exact ⟨he.1, h.trans he.2⟩
  | waits =>
    obtain ⟨_, rfl⟩ := h
    exact he
  | fault r => exact he
  | refuse r => exact he

theorem Cmd.Stops.of_ok {a : α} (h : x s = .ok a t) : Cmd.Stops safe x s := fun e u he => by
  rw [h] at he; cases he

theorem Cmd.Stops.raise {c : ErrCode} (hc : c ≠ .none) (i : Word) : Cmd.Stops safe (raise c i : Cmd α) s := by
  intro e t h
  cases h
  exact ⟨hc, .refl s⟩

/-- What comes after a part that changes no more than the count of free values stops as if it came first. -/
theorem Cmd.Stops.bind (hx : Cmd.Stops safe x s) (hf : ∀ a t, x s = .ok a t → s.SameButDraws t ∧ Cmd.Stops safe (f a) t) :
    Cmd.Stops safe (x >>= f) s := by
  intro e u h
  rcases Cmd.bind_error_iff.1 h with h | ⟨a, t, hxt, h⟩
  · exact hx e u h
  · obtain ⟨hs, hfa⟩ := hf a t hxt
    exact (hfa e u h).of_sameButDraws hs

/-- What comes after may be anything that does not stop. -/
theorem Cmd.Stops.bind_ok (hx : Cmd.Stops safe x s) (hf : ∀ a t, ∃ b u, f a t = .ok b u) :
    Cmd.Stops safe (x >>= f) s := by
  intro e u h
  rcases Cmd.bind_error_iff.1 h with h | ⟨a, t, -, h⟩
  · exact hx e u h
  · obtain ⟨b, v, hb⟩ := hf a t
    rw [hb] at h; cases h

theorem memRead_stops {a : Nat} (hs : safe → a < Config.addrSpace) : Cmd.Stops safe (memRead a) s := by
  intro e t h
  unfold memRead at h
  split at h
  · cases h
    exact fun h => absurd (hs h) (by omega)
  split at h
  · unfold fetchByte at h
    split at h <;> cases h
  · cases h
    exact ⟨by decide, .refl s⟩
  · cases h
    exact ⟨a, .inl ‹_›⟩

theorem memWrite_stops {a : Nat} {v : Byte} (hs : safe → a < Config.addrSpace) : Cmd.Stops safe (memWrite a v) s := by
  intro e t h
  unfold memWrite at h
  split at h
  · cases h
    exact fun h => absurd (hs h) (by omega)
  split at h
  · unfold putByte at h
    split at h <;> cases h
  · cases h
    exact ⟨by decide, .refl s⟩
  · cases h
    exact ⟨a, .inr ‹_›⟩

theorem emit_stops {v : Byte} (hs : safe → s.dstAddr.toNat + s.dstCap.toNat ≤ Config.addrSpace) :
    Cmd.Stops safe (emit v) s := by
  unfold emit
  intro e t h
  rw [Cmd.get_bind] at h
  split at h
  · refine (Cmd.Stops.bind_ok (memWrite_stops fun h => ?_) fun _ _ => ⟨_, _, rfl⟩) e t h
    have := hs h
    unfold State.dstByte
    omega
  · exact Cmd.Stops.raise (by decide) _ e t h

theorem nextByte_stops {pos : Nat} (hs : safe → s.srcAddr.toNat + s.srcLen.toNat ≤ Config.addrSpace) :
    Cmd.Stops safe (nextByte pos) s := by
  unfold nextByte
  intro e t h
  rw [Cmd.get_bind] at h
  split at h
  · refine memRead_stops (fun h => ?_) e t h
    have := hs h
    unfold State.srcByte
    omega
  · exact Cmd.Stops.raise (by decide) _ e t h

end Stops

/-! ### The start checks -/

section Checks
variable {s t : State}

/-- A start check changes nothing, and fails by an error or the refusal of R249 (60_exceptions.md R214). -/
def Cmd.IsCheck (c : Cmd Unit) : Prop :=
  ∀ s, c s = .ok () s ∨ (∃ code i, code ≠ ErrCode.none ∧ c s = .error (.error code i) s) ∨
    c s = .error (.refuse .dmaIntoWindow) s

theorem Cmd.IsCheck.bind {c d : Cmd Unit} (hc : c.IsCheck) (hd : d.IsCheck) : Cmd.IsCheck (c >>= fun _ => d) := by
  intro s
  rcases hc s with h | ⟨code, i, hn, h⟩ | h
  · rw [Cmd.bind_of_ok h]; exact hd s
  · exact .inr (.inl ⟨code, i, hn, Cmd.bind_of_error h⟩)
  · exact .inr (.inr (Cmd.bind_of_error h))

theorem Cmd.IsCheck.stops {safe : Prop} {c : Cmd Unit} (h : c.IsCheck) : Cmd.Stops safe c s := by
  intro e t he
  rcases h s with h | ⟨code, i, hn, h⟩ | h <;> rw [h] at he <;> cases he
  · exact ⟨hn, .refl s⟩
  · rfl

theorem Cmd.IsCheck.ok {c : Cmd Unit} (h : c.IsCheck) (hc : c s = .ok () t) : t = s := by
  rcases h s with h | ⟨code, i, -, h⟩ | h <;> rw [h] at hc <;> cases hc
  rfl

theorem needPhase_isCheck (ok : Phase → Bool) : Cmd.IsCheck (needPhase ok) := fun s => by
  rw [needPhase_run]
  split
  · exact .inl rfl
  · exact .inr (.inl ⟨_, _, by decide, rfl⟩)

theorem checkSource_isCheck : Cmd.IsCheck checkSource := fun s => by
  rw [checkSource_run]
  split
  · exact .inl rfl
  · exact .inr (.inl ⟨_, _, by decide, rfl⟩)

theorem checkDest_isCheck : Cmd.IsCheck checkDest := fun s => by
  rw [checkDest_run]
  split
  · exact .inl rfl
  · exact .inr (.inl ⟨_, _, by decide, rfl⟩)

theorem checkOverlap_isCheck : Cmd.IsCheck checkOverlap := fun s => by
  rw [checkOverlap_run]
  split
  · exact .inr (.inl ⟨_, _, by decide, rfl⟩)
  · exact .inl rfl

theorem refuseWindowSource_isCheck : Cmd.IsCheck refuseWindowSource := fun s => by
  rw [refuseWindowSource_run]
  split
  · exact .inr (.inr rfl)
  · exact .inl rfl

theorem refuseWindowDest_isCheck : Cmd.IsCheck refuseWindowDest := fun s => by
  rw [refuseWindowDest_run]
  split
  · exact .inr (.inr rfl)
  · exact .inl rfl

theorem startSource_isCheck : Cmd.IsCheck startSource := checkSource_isCheck.bind refuseWindowSource_isCheck

theorem startDest_isCheck : Cmd.IsCheck startDest := checkDest_isCheck.bind refuseWindowDest_isCheck

theorem startBoth_isCheck : Cmd.IsCheck startBoth :=
  checkSource_isCheck.bind <| checkDest_isCheck.bind <| checkOverlap_isCheck.bind <|
    refuseWindowSource_isCheck.bind refuseWindowDest_isCheck

theorem startChecks_isCheck (i : Instr) : Cmd.IsCheck (startChecks i) := by
  cases i with
  | clear => exact fun s => .inl rfl
  | count => exact startSource_isCheck
  | build => exact needPhase_isCheck (fun p => p.atLeast .counted)
  | derive => exact needPhase_isCheck (fun p => p.atLeast .built)
  | serialize => exact (needPhase_isCheck _).bind startDest_isCheck
  | encodePayload => exact (needPhase_isCheck _).bind startBoth_isCheck
  | parse => exact startSource_isCheck
  | decodePayload => exact (needPhase_isCheck _).bind startBoth_isCheck
  | compress => exact startBoth_isCheck
  | decompress => exact startBoth_isCheck
  | encode => exact startSource_isCheck

/-- Checks in a row let a command through where both do. -/
theorem Cmd.IsCheck.bind_ok {c d : Cmd Unit} (hc : c.IsCheck) (h : (c >>= fun _ => d) s = .ok () t) :
    (∃ u, c s = .ok () u) ∧ d s = .ok () t := by
  obtain ⟨_, u, hu, h⟩ := Cmd.bind_ok_iff.1 h
  rw [hc.ok hu] at h
  exact ⟨⟨u, hu⟩, h⟩

theorem needPhase_ok {ok : Phase → Bool} (h : needPhase ok s = .ok () t) : ok s.phase = true := by
  rw [needPhase_run] at h
  split at h
  · assumption
  · cases h

theorem checkSource_ok (h : checkSource s = .ok () t) : inRange s.srcAddr s.srcLen = true := by
  rw [checkSource_run] at h
  split at h
  · assumption
  · cases h

theorem checkDest_ok (h : checkDest s = .ok () t) : inRange s.dstAddr s.dstCap = true := by
  rw [checkDest_run] at h
  split at h
  · assumption
  · cases h

theorem checkOverlap_ok (h : checkOverlap s = .ok () t) : overlaps s = false := by
  rw [checkOverlap_run] at h
  split at h
  · cases h
  · exact Bool.eq_false_of_not_eq_true ‹_›

theorem refuseWindowSource_ok (h : refuseWindowSource s = .ok () t) :
    touchesWindow s.mmioBase s.srcAddr s.srcLen = false := by
  rw [refuseWindowSource_run] at h
  split at h
  · cases h
  · exact Bool.eq_false_of_not_eq_true ‹_›

theorem refuseWindowDest_ok (h : refuseWindowDest s = .ok () t) :
    touchesWindow s.mmioBase s.dstAddr s.dstCap = false := by
  rw [refuseWindowDest_run] at h
  split at h
  · cases h
  · exact Bool.eq_false_of_not_eq_true ‹_›

/-- The ranges of a command that passes the checks of its source alone. -/
theorem startSource_passes {i : Instr} (hw : i.writesDest = false) (h : startSource s = .ok () t) : s.RangesOk i := by
  obtain ⟨⟨_, h1⟩, h2⟩ := checkSource_isCheck.bind_ok h
  exact ⟨fun _ => ⟨checkSource_ok h1, refuseWindowSource_ok h2⟩, fun w => by simp [hw] at w, fun _ w => by simp [hw] at w⟩

theorem startDest_passes {i : Instr} (hr : i.readsSource = false) (h : startDest s = .ok () t) : s.RangesOk i := by
  obtain ⟨⟨_, h1⟩, h2⟩ := checkDest_isCheck.bind_ok h
  exact ⟨fun r => by simp [hr] at r, fun _ => ⟨checkDest_ok h1, refuseWindowDest_ok h2⟩, fun r => by simp [hr] at r⟩

theorem startBoth_passes (i : Instr) (h : startBoth s = .ok () t) : s.RangesOk i := by
  obtain ⟨⟨_, h1⟩, h⟩ := checkSource_isCheck.bind_ok h
  obtain ⟨⟨_, h2⟩, h⟩ := checkDest_isCheck.bind_ok h
  obtain ⟨⟨_, h3⟩, h⟩ := checkOverlap_isCheck.bind_ok h
  obtain ⟨⟨_, h4⟩, h5⟩ := refuseWindowSource_isCheck.bind_ok h
  exact ⟨fun _ => ⟨checkSource_ok h1, refuseWindowSource_ok h4⟩, fun _ => ⟨checkDest_ok h2, refuseWindowDest_ok h5⟩,
    fun _ _ => checkOverlap_ok h3⟩

theorem rangesOk_of_none {i : Instr} (hr : i.readsSource = false) (hw : i.writesDest = false) : s.RangesOk i :=
  ⟨fun r => by simp [hr] at r, fun w => by simp [hw] at w, fun r => by simp [hr] at r⟩

/-- A command that passes its start checks finds the phase it needs, and its ranges are in order (60_exceptions.md
R214). -/
theorem startChecks_passes {i : Instr} (h : startChecks i s = .ok () t) :
    phaseTooLow i s.phase = false ∧ s.RangesOk i := by
  cases i with
  | clear => exact ⟨rfl, rangesOk_of_none rfl rfl⟩
  | count => exact ⟨rfl, startSource_passes rfl h⟩
  | build =>
    have hp := needPhase_ok (ok := fun p => p.atLeast .counted) h
    exact ⟨by revert hp; cases s.phase <;> decide, rangesOk_of_none rfl rfl⟩
  | derive =>
    have hp := needPhase_ok (ok := fun p => p.atLeast .built) h
    exact ⟨by revert hp; cases s.phase <;> decide, rangesOk_of_none rfl rfl⟩
  | serialize =>
    obtain ⟨⟨_, hp⟩, h⟩ := (needPhase_isCheck _).bind_ok h
    have hp := needPhase_ok hp
    exact ⟨by revert hp; cases s.phase <;> decide, startDest_passes rfl h⟩
  | encodePayload =>
    obtain ⟨⟨_, hp⟩, h⟩ := (needPhase_isCheck _).bind_ok h
    have hp := needPhase_ok hp
    exact ⟨by revert hp; cases s.phase <;> decide, startBoth_passes _ h⟩
  | parse => exact ⟨rfl, startSource_passes rfl h⟩
  | decodePayload =>
    obtain ⟨⟨_, hp⟩, h⟩ := (needPhase_isCheck _).bind_ok h
    have hp := needPhase_ok hp
    exact ⟨by revert hp; cases s.phase <;> decide, startBoth_passes _ h⟩
  | compress => exact ⟨rfl, startBoth_passes _ h⟩
  | decompress => exact ⟨rfl, startBoth_passes _ h⟩
  | encode => exact ⟨rfl, startSource_passes rfl h⟩

end Checks

/-! ### Why a job stops -/

/-- The job's next access lies in host memory, and BUILD finds a symbol present (20_memory.md R71; 42_tree_builder.md
R135). -/
def Job.Safe (s : State) : Job → Prop
  | .count k n => s.srcAddr.toNat + k + n ≤ Config.addrSpace
  | .build => s.presentSyms ≠ []
  | .emit _ => s.dstAddr.toNat + s.dstCap.toNat ≤ Config.addrSpace
  | .parseKey _ _ _ => s.srcAddr.toNat + s.srcLen.toNat ≤ Config.addrSpace
  | .parseCount _ _ _ _ _ => s.srcAddr.toNat + s.srcLen.toNat ≤ Config.addrSpace
  | .encode k n => s.srcAddr.toNat + k + n ≤ Config.addrSpace
  | .decode _ => s.srcAddr.toNat + s.srcLen.toNat ≤ Config.addrSpace
  | _ => True

section RunStops
variable {s t : State} {safe : Prop}

/-- An update with nothing left to do after it does not stop. -/
theorem update_stops (f : State → State) :
    Cmd.Stops safe (do update f; pure ([] : List Job)) s := Cmd.Stops.of_ok (a := []) (t := f s) rfl

theorem buildStage_stops : Cmd.Stops (s.presentSyms ≠ []) buildStage s := by
  intro e t h
  by_cases hp : s.presentSyms = []
  · rw [buildStage, Cmd.update_bind, endBuild] at h
    split at h <;> cases h
    exact fun hn => hn hp
  · obtain ⟨r, -, hr⟩ := buildStage_run hp
    rw [hr] at h; cases h

theorem countByte_stops (k n : Nat) : Cmd.Stops (s.srcAddr.toNat + k + (n + 1) ≤ Config.addrSpace) (countByte k n) s := by
  intro e t h
  rw [countByte, Cmd.get_bind] at h
  refine (Cmd.Stops.bind_ok (memRead_stops fun hs => ?_) fun _ _ => ⟨_, _, rfl⟩) e t h
  unfold State.srcByte
  omega

theorem encodeByte_stops (k n : Nat) : Cmd.Stops (s.srcAddr.toNat + k + (n + 1) ≤ Config.addrSpace) (encodeByte k n) s := by
  intro e t h
  rw [encodeByte, Cmd.get_bind] at h
  refine (Cmd.Stops.bind (memRead_stops fun hs => ?_) fun b u hb => ⟨memRead_sameButDraws hb, ?_⟩) e t h
  · unfold State.srcByte
    omega
  · intro e t h
    rw [Cmd.get_bind] at h
    split at h
    · cases h
    · exact Cmd.Stops.raise (by decide) _ e t h

theorem parseKeyByte_stops (pos idx : Nat) (seen : Bool) :
    Cmd.Stops (s.srcAddr.toNat + s.srcLen.toNat ≤ Config.addrSpace) (parseKeyByte pos idx seen) s := by
  unfold parseKeyByte
  refine Cmd.Stops.bind (nextByte_stops id) fun k u hk => ⟨memRead_sameButDraws (nextByte_ok hk).2, ?_⟩
  split
  · exact Cmd.Stops.of_ok rfl
  · exact Cmd.Stops.of_ok rfl
  · exact Cmd.Stops.of_ok rfl
  · exact Cmd.Stops.raise (by decide) _

theorem enterPair_stops (kpos sym : Nat) (got : List Byte) (idx : Nat) (seen : Bool) :
    Cmd.Stops safe (enterPair kpos sym got idx seen) s := by
  intro e t h
  rw [enterPair, Cmd.get_bind] at h
  split at h
  · exact Cmd.Stops.raise (by decide) _ e t h
  · cases h

theorem putDigit_stops (d : Bool) (ds : List Bool) : Cmd.Stops safe (putDigit d ds) s := by
  intro e t h
  rw [putDigit, Cmd.update_bind, Cmd.get_bind] at h
  split at h <;> cases h

theorem padAcc_stops : Cmd.Stops safe padAcc s := by
  intro e t h
  rw [padAcc, Cmd.get_bind] at h
  split at h <;> cases h

theorem decodeByte_stops (pos : Nat) :
    Cmd.Stops (s.srcAddr.toNat + s.srcLen.toNat ≤ Config.addrSpace) (decodeByte pos) s := by
  intro e t h
  rw [decodeByte, Cmd.get_bind] at h
  split at h
  · refine (Cmd.Stops.bind_ok (memRead_stops fun hs => ?_) fun _ _ => ⟨_, _, rfl⟩) e t h
    unfold State.srcByte
    omega
  · exact Cmd.Stops.raise (by decide) _ e t h

theorem walkOn_stops (bpos : Nat) (d : Bool) : Cmd.Stops safe (walkOn bpos d) s := by
  intro e t h
  rw [walkOn, Cmd.get_bind] at h
  split at h
  · split at h
    · exact Cmd.Stops.raise (by decide) _ e t h
    · cases h
  · cases h

theorem atNode_goes (bpos n : Nat) (s : State) : ∃ new t, atNode bpos n s = .ok new t := by
  rw [atNode, Cmd.get_bind]
  split
  · split <;> exact ⟨_, _, rfl⟩
  · exact ⟨_, _, rfl⟩

theorem decodeBit_stops (bpos n : Nat) : Cmd.Stops safe (decodeBit bpos n) s := by
  intro e t h
  rw [decodeBit, Cmd.get_bind] at h
  exact (Cmd.Stops.bind_ok (walkOn_stops bpos s.walkDigit) fun _ u => atNode_goes bpos n u.nextBit) e t h

/-- A job stops for one of the reasons there are. -/
theorem Job.run_stops (j : Job) (s : State) : Cmd.Stops (j.Safe s) j.run s := by
  cases j with
  | check i => exact Cmd.Stops.bind_ok (startChecks_isCheck i).stops fun _ _ => ⟨_, _, rfl⟩
  | stage i => exact update_stops _
  | clear => exact update_stops _
  | count k n =>
    cases n with
    | zero => exact Cmd.Stops.of_ok rfl
    | succ n => exact countByte_stops k n
  | endCount => exact update_stops _
  | build => exact Cmd.Stops.bind_ok buildStage_stops fun _ _ => ⟨_, _, rfl⟩
  | derive => exact update_stops _
  | serialize => exact Cmd.Stops.of_ok rfl
  | emit bs =>
    cases bs with
    | nil => exact Cmd.Stops.of_ok rfl
    | cons b bs => exact Cmd.Stops.bind_ok (emit_stops id) fun _ _ => ⟨_, _, rfl⟩
  | parseKey pos idx seen => exact parseKeyByte_stops pos idx seen
  | parseCount kpos sym got idx seen =>
    simp only [Job.run]
    split
    · exact Cmd.Stops.bind_ok (nextByte_stops id) fun _ _ => ⟨_, _, rfl⟩
    · exact enterPair_stops kpos sym got idx seen
  | endParse pos => exact update_stops _
  | startEncode => exact update_stops _
  | encode k n =>
    cases n with
    | zero => exact Cmd.Stops.of_ok rfl
    | succ n => exact encodeByte_stops k n
  | put ds =>
    cases ds with
    | nil => exact Cmd.Stops.of_ok rfl
    | cons d ds => exact putDigit_stops d ds
  | endOfText => exact Cmd.Stops.of_ok rfl
  | pad => exact padAcc_stops
  | startDecode => exact Cmd.Stops.of_ok rfl
  | decode pos => exact decodeByte_stops pos
  | bits bpos n =>
    cases n with
    | zero => exact Cmd.Stops.of_ok rfl
    | succ n => exact decodeBit_stops bpos n
  | toRoot => exact update_stops _

end RunStops

/-! ### What a job leaves to do, and what it leaves alone -/

/-- The job reads the source, or leaves jobs that do. -/
def Job.reads : Job → Bool
  | .count _ _ => true
  | .parseKey _ _ _ => true
  | .parseCount _ _ _ _ _ => true
  | .encode _ _ => true
  | .startDecode => true
  | .decode _ => true
  | .bits _ _ => true
  | _ => false

/-- The job writes the destination or DST_LEN, or leaves jobs that do. -/
def Job.writes : Job → Bool
  | .serialize => true
  | .emit _ => true
  | .encode _ _ => true
  | .put _ => true
  | .endOfText => true
  | .pad => true
  | .startDecode => true
  | .decode _ => true
  | .bits _ _ => true
  | _ => false

/-- The job writes SRC_POS, or leaves jobs that do. -/
def Job.movesSrcPos : Job → Bool
  | .parseKey _ _ _ => true
  | .parseCount _ _ _ _ _ => true
  | .endParse _ => true
  | .startDecode => true
  | .decode _ => true
  | .bits _ _ => true
  | _ => false

/-- The job's bytes end inside a source of `n` bytes. -/
def Job.inside (n : Nat) : Job → Prop
  | .count k left => k + left ≤ n
  | .encode k left => k + left ≤ n
  | _ => True

/-- The jobs a job leaves do no more than it does. -/
structure Job.Within (n : Nat) (j j' : Job) : Prop where
  reads : j'.reads = true → j.reads = true
  writes : j'.writes = true → j.writes = true
  movesSrcPos : j'.movesSrcPos = true → j.movesSrcPos = true
  inside : j.inside n → j'.inside n

/-- What a job that goes through may change: STAGE by the start of a stage, EXTRA_INPUT at the end of a decode, DST_LEN
by a job that writes, SRC_POS by one that moves it; and never the reset input. -/
structure Job.Frame (j : Job) (new : List Job) (s t : State) : Prop where
  inReset : t.inReset = s.inReset
  stage : t.stage = s.stage ∨ ∃ i, j = .stage i ∧ t.stage = i.opcode
  extraInput : t.extraInput = s.extraInput ∨ new = [] ∧ ∃ bpos n, j = .bits bpos n
  dstLen : j.writes = false → t.dstLen = s.dstLen
  srcPos : j.movesSrcPos = false → t.srcPos = s.srcPos

section RunOk
variable {s t : State} {new : List Job}

theorem Job.Frame.same {j : Job} (h : (t.inReset, t.stage, t.extraInput, t.dstLen, t.srcPos) =
    (s.inReset, s.stage, s.extraInput, s.dstLen, s.srcPos)) : j.Frame new s t := by
  simp only [Prod.mk.injEq] at h
  obtain ⟨hr, hs, he, hd, hp⟩ := h
  exact ⟨hr, .inl hs, .inl he, fun _ => hd, fun _ => hp⟩

/-- An update with nothing left to do after it, that went through. -/
theorem update_only_ok {f : State → State} (h : (do update f; pure ([] : List Job)) s = .ok new t) :
    t = f s ∧ new = [] := by
  cases h
  exact ⟨rfl, rfl⟩

/-- A check that went through has changed nothing and leaves nothing. -/
theorem check_ok {i : Instr} (h : Job.run (.check i) s = .ok new t) :
    startChecks i s = .ok () t ∧ t = s ∧ new = [] := by
  obtain ⟨_, u, hu, h⟩ := Cmd.bind_ok_iff.1 h
  cases h
  exact ⟨hu, (startChecks_isCheck i).ok hu, rfl⟩

/-- BUILD that went through has made a tree, with a root (42_tree_builder.md R130). -/
theorem build_ok (h : Job.run .build s = .ok new t) :
    ∃ r q, s.growTree.queue = r :: q ∧ t = s.growTree.setRoot r ∧ new = [] := by
  obtain ⟨_, u, hu, h⟩ := Cmd.bind_ok_iff.1 h
  cases h
  rw [buildStage, Cmd.update_bind, endBuild] at hu
  split at hu
  · cases hu
  · rename_i r q hq
    cases hu
    exact ⟨r, q, hq, rfl, rfl⟩

/-- Padding leaves digits to put, or nothing, and changes nothing (45_bitstream.md R172). -/
theorem padAcc_ok (h : padAcc s = .ok new t) : t = s ∧ (new = [] ∨ ∃ ds, new = [.put ds]) := by
  rw [padAcc, Cmd.get_bind] at h
  split at h <;> cases h
  · exact ⟨rfl, .inl rfl⟩
  · exact ⟨rfl, .inr ⟨_, rfl⟩⟩

/-- A step of the walk changes the walk only. -/
theorem walkOn_ok {bpos : Nat} {d : Bool} (h : walkOn bpos d s = .ok () t) : ∃ w, t = { s with walk := w } := by
  rw [walkOn, Cmd.get_bind] at h
  split at h
  · split at h <;> cases h
    exact ⟨_, rfl⟩
  · cases h
    exact ⟨_, rfl⟩

/-- A bit walked changes the walk, and at END_OF_TEXT, with nothing left to do, SRC_POS and EXTRA_INPUT
(45_bitstream.md R176, R178). -/
theorem decodeBit_changes {bpos n : Nat} (h : decodeBit bpos n s = .ok new t) :
    (∃ w, t = { s with walk := w }) ∨
      new = [] ∧ ∃ w p x, t = { s with walk := w, srcPos := p, extraInput := x } := by
  rw [decodeBit, Cmd.get_bind] at h
  obtain ⟨_, u, hu, h⟩ := Cmd.bind_ok_iff.1 h
  obtain ⟨_, rfl⟩ := walkOn_ok hu
  rw [Cmd.update_bind, atNode, Cmd.get_bind] at h
  split at h
  · split at h <;> cases h
    · exact .inr ⟨rfl, _, _, _, rfl⟩
    · exact .inl ⟨_, rfl⟩
  · cases h
    exact .inl ⟨_, rfl⟩

/-- What a job that goes through may change. -/
theorem Job.run_frame {j : Job} (h : j.run s = .ok new t) : j.Frame new s t := by
  cases j with
  | check i => obtain ⟨-, rfl, rfl⟩ := check_ok h; exact .same rfl
  | stage i =>
    obtain ⟨rfl, rfl⟩ := update_only_ok h
    exact ⟨rfl, .inr ⟨i, rfl, rfl⟩, .inl rfl, fun _ => rfl, fun _ => rfl⟩
  | clear => obtain ⟨rfl, rfl⟩ := update_only_ok h; exact .same rfl
  | count k n =>
    cases n with
    | zero => cases h; exact .same rfl
    | succ n =>
      obtain ⟨b, u, hu, rfl, rfl⟩ := countByte_ok h
      obtain ⟨_, rfl⟩ := memRead_sameButDraws hu
      exact .same rfl
  | endCount => obtain ⟨rfl, rfl⟩ := update_only_ok h; exact .same rfl
  | build =>
    obtain ⟨r, q, -, rfl, rfl⟩ := build_ok h
    obtain ⟨_, _, _, hg⟩ := growTree_sameButTree s
    rw [hg]
    exact .same rfl
  | derive =>
    obtain ⟨rfl, rfl⟩ := update_only_ok h
    obtain ⟨_, hd⟩ := deriveCodes_sameButCodes s.dropCodes
    rw [hd]
    exact .same rfl
  | serialize => cases h; exact ⟨rfl, .inl rfl, .inl rfl, fun w => (by cases w), fun _ => rfl⟩
  | emit bs =>
    cases bs with
    | nil => cases h; exact .same rfl
    | cons b bs =>
      obtain ⟨_, _, _, _, rfl⟩ := emit_goes (emitNext_ok h).1
      exact ⟨rfl, .inl rfl, .inl rfl, fun w => (by cases w), fun _ => rfl⟩
  | parseKey pos idx seen =>
    obtain ⟨k, hk, -⟩ := parseKeyByte_ok h
    obtain ⟨_, rfl⟩ := memRead_sameButDraws (nextByte_ok hk).2
    exact .same rfl
  | parseCount kpos sym got idx seen =>
    simp only [Job.run] at h
    split at h
    · obtain ⟨b, hb, rfl⟩ := parseCountByte_ok h
      obtain ⟨_, rfl⟩ := memRead_sameButDraws (nextByte_ok hb).2
      exact .same rfl
    · obtain ⟨-, rfl, rfl⟩ := enterPair_ok h
      exact .same rfl
  | endParse pos =>
    obtain ⟨rfl, rfl⟩ := update_only_ok h
    exact ⟨rfl, .inl rfl, .inl rfl, fun _ => rfl, fun w => by cases w⟩
  | startEncode => obtain ⟨rfl, rfl⟩ := update_only_ok h; exact .same rfl
  | encode k n =>
    cases n with
    | zero => cases h; exact .same rfl
    | succ n =>
      obtain ⟨b, hb, -, rfl⟩ := encodeByte_ok h
      obtain ⟨_, rfl⟩ := memRead_sameButDraws hb
      exact .same rfl
  | put ds =>
    cases ds with
    | nil => cases h; exact .same rfl
    | cons d ds =>
      obtain ⟨-, rfl, rfl⟩ | ⟨-, rfl, rfl⟩ := putDigit_ok h
      · exact .same rfl
      · exact .same rfl
  | endOfText => cases h; exact .same rfl
  | pad => obtain ⟨rfl, -⟩ := padAcc_ok h; exact .same rfl
  | startDecode => cases h; exact ⟨rfl, .inl rfl, .inl rfl, fun w => (by cases w), fun _ => rfl⟩
  | decode pos =>
    obtain ⟨-, b, u, hu, rfl, rfl⟩ := decodeByte_ok h
    obtain ⟨_, rfl⟩ := memRead_sameButDraws hu
    exact .same rfl
  | bits bpos n =>
    cases n with
    | zero => cases h; exact .same rfl
    | succ n =>
      obtain ⟨_, rfl⟩ | ⟨rfl, _, _, _, rfl⟩ := decodeBit_changes h
      · exact .same rfl
      · exact ⟨rfl, .inl rfl, .inr ⟨rfl, bpos, _, rfl⟩, fun _ => rfl, fun w => by cases w⟩
  | toRoot => obtain ⟨rfl, rfl⟩ := update_only_ok h; exact .same rfl

/-- A job that writes no more than `j`, moves SRC_POS and reads no more, and is no counted run of bytes. -/
theorem Job.Within.of_le {n : Nat} {j j' : Job} (h : (j'.reads && !j.reads || j'.writes && !j.writes ||
    j'.movesSrcPos && !j.movesSrcPos) = false) (hi : j.inside n → j'.inside n) : j.Within n j' := by
  simp only [Bool.or_eq_false_iff, Bool.and_eq_false_iff, Bool.not_eq_false'] at h
  obtain ⟨⟨hr, hw⟩, hp⟩ := h
  exact ⟨fun h => hr.resolve_left (by simp [h]), fun h => hw.resolve_left (by simp [h]),
    fun h => hp.resolve_left (by simp [h]), hi⟩

/-- The jobs a job leaves do no more than it does. -/
theorem Job.run_within {j : Job} (h : j.run s = .ok new t) (n : Nat) : ∀ j' ∈ new, j.Within n j' := by
  have none : new = [] → ∀ j' ∈ new, j.Within n j' := by rintro rfl j' hj'; cases hj'
  have one : ∀ j₁, new = [j₁] → j.Within n j₁ → ∀ j' ∈ new, j.Within n j' := by
    rintro j₁ rfl hw j' hj'
    rwa [List.mem_singleton.1 hj']
  cases j with
  | check i => exact none (check_ok h).2.2
  | stage i => exact none (update_only_ok h).2
  | clear => exact none (update_only_ok h).2
  | count k m =>
    cases m with
    | zero => cases h; exact none rfl
    | succ m =>
      obtain ⟨b, u, -, -, hn⟩ := countByte_ok h
      exact one _ hn (.of_le rfl fun hi => by simp only [Job.inside] at *; omega)
  | endCount => exact none (update_only_ok h).2
  | build => obtain ⟨r, q, -, -, hn⟩ := build_ok h; exact none hn
  | derive => exact none (update_only_ok h).2
  | serialize => cases h; exact one _ rfl (.of_le rfl id)
  | emit bs =>
    cases bs with
    | nil => cases h; exact none rfl
    | cons b bs => exact one _ (emitNext_ok h).2 (.of_le rfl id)
  | parseKey pos idx seen =>
    obtain ⟨k, -, ⟨sym, -, hn⟩ | ⟨-, hn⟩ | ⟨-, hn⟩⟩ := parseKeyByte_ok h
    · exact one _ hn (.of_le rfl id)
    · exact one _ hn (.of_le rfl id)
    · exact one _ hn (.of_le rfl id)
  | parseCount kpos sym got idx seen =>
    simp only [Job.run] at h
    split at h
    · obtain ⟨b, -, hn⟩ := parseCountByte_ok h; exact one _ hn (.of_le rfl id)
    · exact one _ (enterPair_ok h).2.2 (.of_le rfl id)
  | endParse pos => exact none (update_only_ok h).2
  | startEncode => exact none (update_only_ok h).2
  | encode k m =>
    cases m with
    | zero => cases h; exact none rfl
    | succ m =>
      obtain ⟨b, -, -, rfl⟩ := encodeByte_ok h
      intro j' hj'
      rcases List.mem_pair.1 hj' with rfl | rfl
      · exact .of_le rfl fun _ => trivial
      · exact .of_le rfl fun hi => by simp only [Job.inside] at *; omega
  | put ds =>
    cases ds with
    | nil => cases h; exact none rfl
    | cons d ds =>
      obtain ⟨-, -, rfl⟩ | ⟨-, -, hn⟩ := putDigit_ok h
      · intro j' hj'
        rcases List.mem_pair.1 hj' with rfl | rfl <;> exact .of_le rfl id
      · exact one _ hn (.of_le rfl id)
  | endOfText => cases h; exact one _ rfl (.of_le rfl id)
  | pad =>
    obtain ⟨-, hn | ⟨ds, hn⟩⟩ := padAcc_ok h
    · exact none hn
    · exact one _ hn (.of_le rfl id)
  | startDecode => cases h; exact one _ rfl (.of_le rfl id)
  | decode pos => obtain ⟨-, b, u, -, -, hn⟩ := decodeByte_ok h; exact one _ hn (.of_le rfl id)
  | bits bpos m =>
    cases m with
    | zero => cases h; exact one _ rfl (.of_le rfl id)
    | succ m =>
      obtain hn | ⟨b, rfl⟩ | hn := decodeBit_ok h
      · exact none hn
      · intro j' hj'
        simp only [List.mem_cons, List.not_mem_nil, or_false] at hj'
        rcases hj' with rfl | rfl | rfl <;> exact .of_le rfl id
      · exact one _ hn (.of_le rfl id)
  | toRoot => exact none (update_only_ok h).2

end RunOk

end Sys2Proof.Machine
end

section
/-! SUPPORT. The invariant is kept by every job, by completion and by every operation of the host, and so by every step
(10_state.md R24, R30, R40, R41, 42_tree_builder.md R132, 43_code_deriver.md R143, 70_reset_and_hazards.md R240). -/

namespace Sys2Proof.Machine

/-! ### How the engine goes on -/

section Progress
variable {s t : State}

/-- The command goes on by a job that went through. -/
theorem progress_goes (h : s.progress = .goes t) :
    ∃ j rest new u, s.todo = j :: rest ∧ j.run s = .ok new u ∧ t = { u with todo := new ++ rest } := by
  unfold State.progress at h
  split at h
  · cases h
  · rename_i j rest hs
    unfold State.doJob at h
    split at h <;> cases h
    exact ⟨j, rest, _, _, hs, ‹_›, rfl⟩

/-- The command ends with nothing left to do, or by an error of its next job (60_exceptions.md R212, R213). -/
theorem progress_ends (h : s.progress = .ends t) :
    s.todo = [] ∧ t = s.finish ∨ ∃ j rest code info u, s.todo = j :: rest ∧
      j.run s = .error (.error code info) u ∧ t = u.takeError j.clearsOnError code info := by
  unfold State.progress at h
  split at h
  · cases h
    exact .inl ⟨‹_›, rfl⟩
  · rename_i j rest hs
    unfold State.doJob at h
    split at h <;> cases h
    exact .inr ⟨j, rest, _, _, _, hs, ‹_›, rfl⟩

variable {P Q : State → Prop} (goes : ∀ s t, P s → s.progress = .goes t → P t)
  (ends : ∀ s t, P s → s.progress = .ends t → Q t)
include goes ends

/-- What every job keeps, and makes of it at the end, a run keeps. -/
theorem drive_induction : ∀ (n : Nat) {s t : State}, P s → s.drive n = .next t → P t ∨ Q t
  | 0, _, _, hs, h => by cases h; exact .inl hs
  | n + 1, s, t, hs, h => by
    unfold State.drive at h
    split at h
    · exact drive_induction n (goes _ _ hs ‹_›) h
    · cases h; exact .inr (ends _ _ hs ‹_›)
    · cases h; exact .inl hs
    · cases h
    · cases h

/-- One access likewise. -/
theorem toAccess_induction : ∀ (n : Nat) {s t : State}, P s → s.toAccess n = .next t → P t ∨ Q t
  | 0, _, _, hs, h => by cases h; exact .inl hs
  | n + 1, s, t, hs, h => by
    unfold State.toAccess at h
    split at h
    · split at h
      · cases h; exact .inl (goes _ _ hs ‹_›)
      · exact toAccess_induction n (goes _ _ hs ‹_›) h
    · cases h; exact .inr (ends _ _ hs ‹_›)
    · cases h; exact .inl hs
    · cases h
    · cases h

end Progress

/-! ### The session -/

/-- The clauses of the invariant about the session, with the priority structure empty between jobs (10_state.md R40, R41,
R53). Those in which a command rests on the session it was accepted with hold where that session was true (`whole`). -/
structure State.SessionInv (whole : Prop) (s : State) : Prop where
  emptyFreq : whole → s.phase = .empty → filling s.todo = false → ∀ i, (s.freqAt i).valid = false
  endOfText : s.phase ≠ .empty → (s.freqAt Config.endOfText).valid = true
  noTree : s.phase = .empty ∨ s.phase = .counted → (∀ n, (s.nodeAt n).valid = false) ∧ s.tree = TreeReg.absent
  noCodes : s.phase ≠ .coded → ∀ i, (s.codeAt i).valid = false
  tree : whole → s.phase = .built ∨ s.phase = .coded → s.TreeOk
  codes : whole → s.phase = .coded → s.CodesOk
  jobs : jobsFit (s.freqAt Config.endOfText).valid s.todo s.phase
  queue : s.queue = []

/-- The arena, the tree, the codes and the priority structure of a state. -/
def State.treeView (s : State) : Vector NodeEntry 513 × TreeReg × Vector CodeEntry 257 × List Nat :=
  (s.node, s.tree, s.code, s.queue)

section Session
variable {whole : Prop} {s t : State}

theorem State.TreeOk.congr (h : s.TreeOk) (hf : t.freq = s.freq) (hn : t.node = s.node) (ht : t.tree = s.tree) :
    t.TreeOk := by
  have hp := presentSyms_congr hf
  have hc : ∀ p c, t.IsChild p c ↔ s.IsChild p c := fun p c => isChild_congr hn
  obtain ⟨h1, h2, h3, h4, h5, h6, h7⟩ := h
  constructor <;> simp only [hp, ht, nodeAt_congr hn, freqAt_congr hf, hc] <;> assumption

theorem State.CodesOk.congr (h : s.CodesOk) (hf : t.freq = s.freq) (hn : t.node = s.node) (ht : t.tree = s.tree)
    (hc : t.code = s.code) : t.CodesOk := by
  obtain ⟨h1, h2, h3, h4, h5⟩ := h
  constructor <;> simp only [ht, nodeAt_congr hn, freqAt_congr hf, codeAt_congr hc, leadsTo_congr hn] <;> assumption

theorem treeView_eq (h : t.treeView = s.treeView) :
    t.node = s.node ∧ t.tree = s.tree ∧ t.code = s.code ∧ t.queue = s.queue := by
  simpa only [State.treeView, Prod.mk.injEq] using h

/-- The session is the same, and the jobs left find the phases they need. -/
theorem State.SessionInv.keep (h : s.SessionInv whole) (hs : (t.phase, t.freq, t.treeView) = (s.phase, s.freq, s.treeView))
    (hj : jobsFit (s.freqAt Config.endOfText).valid t.todo s.phase)
    (hf : filling t.todo = false → filling s.todo = false) : t.SessionInv whole := by
  simp only [Prod.mk.injEq] at hs
  obtain ⟨hp, hfr, hv⟩ := hs
  obtain ⟨hn, ht, hc, hq⟩ := treeView_eq hv
  obtain ⟨h1, h2, h3, h4, htree, hcodes, -, hqueue⟩ := h
  constructor <;> simp only [hp, ht, hq, nodeAt_congr hn, freqAt_congr hfr, codeAt_congr hc]
  case emptyFreq => exact fun hw he hfill => h1 hw he (hf hfill)
  case endOfText => exact h2
  case noTree => exact h3
  case noCodes => exact h4
  case tree => exact fun hw hb => (htree hw hb).congr hfr hn ht
  case codes => exact fun hw hb => (hcodes hw hb).congr hfr hn ht hc
  case jobs => exact hj
  case queue => exact hqueue

/-- FREQ is being filled, in phase EMPTY, and the rest of the session is the same. -/
theorem State.SessionInv.fill (h : s.SessionInv whole) (hp : s.phase = .empty) (hs : (t.phase, t.treeView) = (s.phase, s.treeView))
    (hj : jobsFit (t.freqAt Config.endOfText).valid t.todo .empty) (hf : filling t.todo = true) : t.SessionInv whole := by
  simp only [Prod.mk.injEq] at hs
  obtain ⟨hpt, hv⟩ := hs
  obtain ⟨hn, ht, hc, hq⟩ := treeView_eq hv
  rw [hp] at hpt
  constructor <;> simp only [hpt, ht, hq, nodeAt_congr hn, codeAt_congr hc]
  case emptyFreq => exact fun _ _ hfill => absurd (hf.symm.trans hfill) (by decide)
  case endOfText => exact fun hne => absurd rfl hne
  case noTree => exact fun _ => h.noTree (.inl hp)
  case noCodes => exact fun _ => h.noCodes (by rw [hp]; decide)
  case tree => rintro - (h | h) <;> cases h
  case codes => intro _ h; cases h
  case jobs => exact hj
  case queue => exact h.queue

/-- FREQ has been filled, END_OF_TEXT's entry included, and PHASE becomes COUNTED (10_state.md R40, R41). -/
theorem State.SessionInv.filled (h : s.SessionInv whole) (hp : s.phase = .empty) (hpt : t.phase = .counted)
    (hv : t.treeView = s.treeView) (heot : (t.freqAt Config.endOfText).valid = true)
    (hj : jobsFit true t.todo .counted) : t.SessionInv whole := by
  obtain ⟨hn, ht, hc, hq⟩ := treeView_eq hv
  constructor <;> simp only [hpt, ht, hq, heot, nodeAt_congr hn, codeAt_congr hc]
  case emptyFreq => exact fun _ he => by cases he
  case endOfText => exact fun _ => trivial
  case noTree => exact fun _ => h.noTree (.inl hp)
  case noCodes => exact fun _ => h.noCodes (by rw [hp]; decide)
  case tree => rintro - (h | h) <;> cases h
  case codes => intro _ h; cases h
  case jobs => exact hj
  case queue => exact h.queue

/-- The session is EMPTY with every field 0 (46_session_ops.md R190). -/
theorem sessionInv_of_empty (hp : t.phase = .empty) (hf : t.freq = Vector.replicate 257 FreqEntry.absent)
    (hv : t.treeView = (Vector.replicate 513 NodeEntry.absent, TreeReg.absent, Vector.replicate 257 CodeEntry.absent, []))
    (hj : jobsFit false t.todo .empty) : t.SessionInv whole := by
  simp only [State.treeView, Prod.mk.injEq] at hv
  obtain ⟨hn, ht, hc, hq⟩ := hv
  constructor <;>
    simp only [hp, ht, hq, nodeAt_of_replicate hn, codeAt_of_replicate hc, freqAt_of_replicate hf]
  case emptyFreq => exact fun _ _ _ _ => rfl
  case endOfText => exact fun hne => absurd rfl hne
  case noTree => exact fun _ => ⟨fun _ => rfl, trivial⟩
  case noCodes => exact fun _ _ => rfl
  case tree => rintro - (h | h) <;> cases h
  case codes => intro _ h; cases h
  case jobs => exact hj

/-- In every phase but EMPTY a symbol is present: END_OF_TEXT (10_state.md R41). -/
theorem State.SessionInv.presentSyms_ne_nil (h : s.SessionInv whole) (hp : s.phase ≠ .empty) : s.presentSyms ≠ [] :=
  List.ne_nil_of_mem (mem_presentSyms.2 (h.endOfText hp))

/-- BUILD leaves the tree of FREQ and no code (42_tree_builder.md R130, R132). -/
theorem State.SessionInv.built (h : s.SessionInv whole) (hp : s.phase ≠ .empty) {r : Nat} {q : List Nat}
    (hr : s.growTree.queue = r :: q) {l : List Job}
    (hj : jobsFit (s.freqAt Config.endOfText).valid l .built) : State.SessionInv whole { s.growTree.setRoot r with todo := l } := by
  obtain ⟨r', hr'⟩ := growTree_queue (h.presentSyms_ne_nil hp)
  rw [hr] at hr'
  cases hr'
  have hf : ({ s.growTree.setRoot r with todo := l } : State).freq = s.freq := growTree_freq s
  have hc : ({ s.growTree.setRoot r with todo := l } : State).code = Vector.replicate 257 CodeEntry.absent := by
    obtain ⟨_, _, _, hg⟩ := growTree_sameButTree s
    rw [hg]
    rfl
  constructor
  case emptyFreq => exact fun _ he => by cases he
  case endOfText => intro _; rw [freqAt_congr hf]; exact h.endOfText hp
  case noTree => rintro (he | he) <;> cases he
  case noCodes => intro _ i; rw [codeAt_of_replicate hc]; rfl
  case tree => exact fun _ _ => (setRoot_growTree_treeOk h.queue hr).congr rfl rfl rfl
  case codes => exact fun _ he => by cases he
  case jobs => rw [freqAt_congr hf]; exact hj
  case queue => rfl

/-- DERIVE leaves the codes of the tree (43_code_deriver.md R140). -/
theorem State.SessionInv.derived (h : s.SessionInv whole) (hp : s.phase = .built ∨ s.phase = .coded) {l : List Job}
    (hj : jobsFit (s.freqAt Config.endOfText).valid l .coded) :
    State.SessionInv whole { s.dropCodes.deriveCodes.endDerive with todo := l } := by
  have hpe : s.phase ≠ .empty := by rcases hp with hp | hp <;> rw [hp] <;> decide
  have hc : whole → s.dropCodes.deriveCodes.CodesOk := fun hw =>
    deriveCodes_codesOk (s := s.dropCodes) ((h.tree hw hp).congr rfl rfl rfl) rfl
  obtain ⟨c, hd⟩ := deriveCodes_sameButCodes s.dropCodes
  rw [hd] at hc ⊢
  constructor
  case emptyFreq => exact fun _ he => by cases he
  case endOfText => exact fun _ => h.endOfText hpe
  case noTree => rintro (he | he) <;> cases he
  case noCodes => exact fun he => absurd rfl he
  case tree => exact fun hw _ => (h.tree hw hp).congr rfl rfl rfl
  case codes => exact fun hw _ => (hc hw).congr rfl rfl rfl rfl
  case jobs => exact hj
  case queue => exact h.queue

/-- The terminator stands after the END_OF_TEXT pair only (44_table_serializer.md R155). -/
theorem classify_terminator {idx : Nat} {seen : Bool} {k : Byte} (h : classify idx seen k = .terminator) : seen = true := by
  by_contra hs
  rw [Bool.not_eq_true] at hs
  subst hs
  simp only [classify, Bool.false_eq_true, if_false] at h
  split at h
  · cases h
  · split at h <;> cases h

/-- A job that goes through keeps the session true (10_state.md R40, R41). -/
theorem Job.run_sessionInv {j : Job} {rest new : List Job} {u : State} (h : s.SessionInv whole) (hs : s.todo = j :: rest)
    (hr : j.run s = .ok new u) : State.SessionInv whole { u with todo := new ++ rest } := by
  have hj := h.jobs
  rw [hs] at hj
  have keep : filling (j :: rest) = false →
      (u.phase, u.freq, u.treeView) = (s.phase, s.freq, s.treeView) →
      jobsFit (s.freqAt Config.endOfText).valid (new ++ rest) s.phase →
      State.SessionInv whole { u with todo := new ++ rest } :=
    fun hf hv hfit => h.keep hv hfit fun _ => by rw [hs, hf]
  cases j with
  | check i =>
    obtain ⟨hc, rfl, rfl⟩ := check_ok hr
    exact keep rfl rfl (hj (startChecks_passes hc).1)
  | stage i => obtain ⟨rfl, rfl⟩ := update_only_ok hr; exact keep rfl rfl hj.2
  | clear => obtain ⟨rfl, rfl⟩ := update_only_ok hr; exact sessionInv_of_empty rfl rfl (by rw [← h.queue]; rfl) hj
  | count k n =>
    obtain ⟨hp, hfill, hfit⟩ := hj
    cases n with
    | zero => cases hr; exact h.fill hp rfl (by rw [hp] at hfit; exact hfit) hfill
    | succ n =>
      obtain ⟨b, v, hv, rfl, rfl⟩ := countByte_ok hr
      obtain ⟨_, rfl⟩ := memRead_sameButDraws hv
      rw [hp] at hfit
      refine h.fill hp rfl ⟨rfl, hfill, ?_⟩ rfl
      exact (congrArg (fun e => jobsFit e.valid rest .empty) (tallies_other [b] _ _ (Nat.le_refl _))).mpr hfit
  | endCount =>
    obtain ⟨rfl, rfl⟩ := update_only_ok hr
    refine h.filled hj.1 rfl rfl ?_ hj.2
    exact congrArg FreqEntry.valid ((freqAt_setFreq s _ _ _).trans (if_pos ⟨rfl, by decide⟩))
  | build =>
    obtain ⟨r, q, hq, rfl, rfl⟩ := build_ok hr
    exact h.built hj.1 hq hj.2
  | derive => obtain ⟨rfl, rfl⟩ := update_only_ok hr; exact h.derived hj.1 hj.2
  | serialize => cases hr; exact keep rfl rfl hj
  | emit bs =>
    cases bs with
    | nil => cases hr; exact keep rfl rfl hj
    | cons b bs =>
      obtain ⟨he, rfl⟩ := emitNext_ok hr
      obtain ⟨_, _, _, _, rfl⟩ := emit_goes he
      exact keep rfl rfl hj
  | parseKey pos idx seen =>
    obtain ⟨k, hk, hc⟩ := parseKeyByte_ok hr
    obtain ⟨_, rfl⟩ := memRead_sameButDraws (nextByte_ok hk).2
    obtain ⟨hp, hseen, hfit⟩ := hj
    obtain ⟨sym, -, rfl⟩ | ⟨-, rfl⟩ | ⟨ht, rfl⟩ := hc
    · exact h.fill hp rfl ⟨rfl, fun he => .inl (hseen he), hfit⟩ rfl
    · exact h.fill hp rfl ⟨rfl, fun _ => .inr rfl, hfit⟩ rfl
    · exact h.fill hp rfl ⟨rfl, hseen (classify_terminator ht), hfit⟩ rfl
  | parseCount kpos sym got idx seen =>
    obtain ⟨hp, hseen, hfit⟩ := hj
    simp only [Job.run] at hr
    split at hr
    · obtain ⟨b, hb, rfl⟩ := parseCountByte_ok hr
      obtain ⟨_, rfl⟩ := memRead_sameButDraws (nextByte_ok hb).2
      exact h.fill hp rfl ⟨rfl, hseen, hfit⟩ rfl
    · obtain ⟨-, rfl, rfl⟩ := enterPair_ok hr
      refine h.fill hp rfl ⟨rfl, fun he => ?_, hfit⟩ rfl
      refine (congrArg FreqEntry.valid (freqAt_setFreq s sym _ _)).trans ?_
      split
      · rfl
      · rename_i hne
        exact (hseen he).resolve_right fun e => hne ⟨e, by rw [e]; decide⟩
  | endParse pos =>
    obtain ⟨rfl, rfl⟩ := update_only_ok hr
    exact h.filled hj.1 rfl rfl hj.2.1 hj.2.2
  | startEncode => obtain ⟨rfl, rfl⟩ := update_only_ok hr; exact keep rfl rfl hj
  | encode k n =>
    cases n with
    | zero => cases hr; exact keep rfl rfl hj
    | succ n =>
      obtain ⟨b, hb, -, rfl⟩ := encodeByte_ok hr
      obtain ⟨_, rfl⟩ := memRead_sameButDraws hb
      exact keep rfl rfl hj
  | put ds =>
    cases ds with
    | nil => cases hr; exact keep rfl rfl hj
    | cons d ds =>
      obtain ⟨-, rfl, rfl⟩ | ⟨-, rfl, rfl⟩ := putDigit_ok hr
      · exact keep rfl rfl hj
      · exact keep rfl rfl hj
  | endOfText => cases hr; exact keep rfl rfl hj
  | pad =>
    obtain ⟨rfl, rfl | ⟨ds, rfl⟩⟩ := padAcc_ok hr
    · exact keep rfl rfl hj
    · exact keep rfl rfl hj
  | startDecode => cases hr; exact keep rfl rfl hj
  | decode pos =>
    obtain ⟨-, b, v, hv, rfl, rfl⟩ := decodeByte_ok hr
    obtain ⟨_, rfl⟩ := memRead_sameButDraws hv
    exact keep rfl rfl hj
  | bits bpos n =>
    obtain rfl : rest = [] := hj
    cases n with
    | zero => cases hr; exact keep rfl rfl rfl
    | succ n =>
      have hfit : jobsFit (s.freqAt Config.endOfText).valid (new ++ []) s.phase := by
        obtain rfl | ⟨b, rfl⟩ | rfl := decodeBit_ok hr
        · trivial
        · rfl
        · rfl
      obtain ⟨_, rfl⟩ | ⟨-, _, _, _, rfl⟩ := decodeBit_changes hr
      · exact keep rfl rfl hfit
      · exact keep rfl rfl hfit
  | toRoot => obtain ⟨rfl, rfl⟩ := update_only_ok hr; exact keep rfl rfl hj

end Session

end Sys2Proof.Machine
end

section
/-! SUPPORT. Every step keeps the invariant: a job that goes through, a command that completes, a command accepted, and
each operation of the host (10_state.md R24, R30, R40, R41; 70_reset_and_hazards.md R240). -/

namespace Sys2Proof.Machine

section Inv
variable {s t : State}

theorem State.Inv.sessionInv (h : s.Inv) : s.SessionInv True :=
  ⟨fun _ => h.session.emptyFreq, h.session.endOfText, h.session.noTree, h.session.noCodes, fun _ => h.tree,
    fun _ => h.codes, h.jobs, h.status.queue⟩

theorem State.SessionInv.inv (h : s.SessionInv True) (hs : s.StatusOk) (hr : s.inReset = true → s.resetKeeping = s) :
    s.Inv :=
  ⟨hs, ⟨h.emptyFreq trivial, h.endOfText, h.noTree, h.noCodes⟩, h.tree trivial, h.codes trivial, h.jobs, hr⟩

/-- While BUSY the reset input is not asserted (70_reset_and_hazards.md R240). -/
theorem State.Inv.not_inReset (h : s.Inv) (hb : s.busy = true) : s.inReset = false := by
  by_contra hr
  have := congrArg State.busy (h.held (Bool.eq_true_of_not_eq_false hr))
  rw [hb] at this
  cases this

/-- While BUSY no flag of a completion is set (10_state.md R30, R39). -/
theorem State.StatusOk.running (h : s.StatusOk) (hb : s.busy = true) :
    s.done = false ∧ s.err = false ∧ s.errCode = .none ∧ s.errInfo = 0#32 := by
  have hd := h.busy hb
  have he : s.err = false := by
    by_contra he
    rw [h.errDone (Bool.eq_true_of_not_eq_false he)] at hd
    cases hd
  refine ⟨hd, he, ?_, h.errInfo he⟩
  by_contra hc
  rw [h.errIff.2 hc] at he
  cases he

/-! ### The engine -/

/-- The flags of a command that runs are outer: no job sets one (10_state.md R30). -/
theorem outer_flags : Outer (fun s => s.done = false ∧ s.err = false ∧ s.errCode = .none ∧ s.errInfo = 0#32) where
  closed := { draw := fun _ h => h, put := fun _ _ _ _ h => h, bump := fun _ h => h }
  inner := fun _ _ h hs => by rw [h.done, h.err, h.errCode, h.errInfo]; exact hs

/-- A job that goes through keeps the invariant. -/
theorem State.Inv.goes (h : s.Inv) (hb : s.busy = true) (hg : s.progress = .goes t) : t.Inv := by
  have hbt : t.busy = true := (outer_busy true).goes hb hg
  obtain ⟨hd, he, hc, hi⟩ := outer_flags.goes (h.status.running hb) hg
  obtain ⟨j, rest, new, u, hs, hr, rfl⟩ := progress_goes hg
  have hf := Job.run_frame hr
  have hj := h.jobs
  rw [hs] at hj
  refine (Job.run_sessionInv h.sessionInv hs hr).inv ?_ fun hr => ?_
  · constructor
    case errIff => exact ⟨fun h => absurd (he.symm.trans h) (by decide), fun h => absurd hc h⟩
    case errDone => exact fun h => absurd (he.symm.trans h) (by decide)
    case errInfo => exact fun _ => hi
    case extra =>
      intro hx
      rcases hf.extraInput with hf | ⟨rfl, bpos, n, rfl⟩
      · rw [show u.extraInput = true from hx] at hf
        have := (h.status.extra hf.symm).1
        rw [hs] at this
        cases this
      · exact ⟨hj, he⟩
    case stage =>
      change u.stage.toNat ≤ 8
      rcases hf.stage with hst | ⟨i, rfl, hst⟩
      · rw [hst]; exact h.status.stage
      · rw [hst]; exact hj.1
    case queue => exact (Job.run_sessionInv h.sessionInv hs hr).queue
    case busy => exact fun _ => hd
    case idle => exact fun h => absurd (hbt.symm.trans h) (by decide)
  · exact absurd ((hf.inReset.trans (h.not_inReset hb)).symm.trans hr) (by decide)

/-- A job that fills FREQ and does not clear the session on an error has none. -/
theorem filling_of_error {j : Job} {rest : List Job} {c : ErrCode} {i : Word} (h : j.run s = .error (.error c i) t)
    (hc : j.clearsOnError = false) : filling (j :: rest) = false := by
  cases j
  case count => cases hc
  case parseKey => cases hc
  case parseCount => cases hc
  case endCount => cases h
  case endParse => cases h
  all_goals rfl

theorem jobsFit_nil {seen : Bool} {p : Phase} : jobsFit seen [] p := trivial

/-- Completion leaves nothing of the command, and the flags of a normal one (60_exceptions.md R213). -/
theorem State.Inv.finish (h : s.Inv) (hb : s.busy = true) (hs : s.todo = []) : s.finish.Inv := by
  obtain ⟨-, he, hc, hi⟩ := h.status.running hb
  refine State.SessionInv.inv (h.sessionInv.keep ?_ jobsFit_nil fun _ => by rw [hs]; rfl) ?_ fun hr => ?_
  · rw [State.treeView, State.treeView, h.status.queue]; rfl
  · constructor
    case errIff => exact ⟨fun h => absurd (he.symm.trans h) (by decide), fun h => absurd hc h⟩
    case errDone => exact fun _ => rfl
    case errInfo => exact fun _ => hi
    case extra => exact fun _ => ⟨rfl, he⟩
    case stage => exact h.status.stage
    case queue => rfl
    case busy => exact fun h => by cases h
    case idle => exact fun _ => ⟨rfl, rfl, rfl, rfl, rfl, rfl⟩
  · exact absurd ((h.not_inReset hb).symm.trans hr) (by decide)

/-- Completion by an error sets its flags and leaves a session true to PHASE (60_exceptions.md R212). -/
theorem inv_of_takeError {clears : Bool} {c : ErrCode} {i : Word} (hc : c ≠ .none) (hx : s.extraInput = false)
    (hst : s.stage.toNat ≤ 8) (hr : s.inReset = false)
    (hse : clears = false → State.SessionInv True { s with todo := [], queue := [] }) :
    (s.takeError clears c i).Inv := by
  have status : ∀ u : State, u.extraInput = false → u.stage.toNat ≤ 8 → (u.finishError c i).StatusOk := fun u hx hst =>
    { errIff := ⟨fun _ => hc, fun _ => rfl⟩
      errDone := fun _ => rfl
      errInfo := fun h => by cases h
      extra := fun h => absurd (hx.symm.trans h) (by decide)
      stage := hst
      queue := rfl
      busy := fun h => by cases h
      idle := fun _ => ⟨rfl, rfl, rfl, rfl, rfl, rfl⟩ }
  cases clears with
  | true =>
    exact State.SessionInv.inv (sessionInv_of_empty rfl rfl rfl jobsFit_nil) (status _ hx hst)
      fun h => absurd (hr.symm.trans h) (by decide)
  | false =>
    exact State.SessionInv.inv ((hse rfl).keep rfl jobsFit_nil fun _ => rfl) (status _ hx hst)
      fun h => absurd (hr.symm.trans h) (by decide)

/-- A command that completes keeps the invariant. -/
theorem State.Inv.ends (h : s.Inv) (hb : s.busy = true) (he : s.progress = .ends t) : t.Inv := by
  obtain ⟨hs, rfl⟩ | ⟨j, rest, c, i, u, hs, hr, rfl⟩ := progress_ends he
  · exact h.finish hb hs
  · obtain ⟨hc, _, rfl⟩ := Job.run_stops j s _ _ hr
    have hx : s.extraInput = false := by
      by_contra hx
      have := (h.status.extra (Bool.eq_true_of_not_eq_false hx)).1
      rw [hs] at this
      cases this
    refine inv_of_takeError hc hx h.status.stage (h.not_inReset hb) fun hcl => ?_
    refine h.sessionInv.keep ?_ jobsFit_nil fun _ => by rw [hs]; exact filling_of_error hr hcl
    rw [State.treeView, State.treeView, h.status.queue]

/-- What a run comes to meets the invariant. -/
theorem State.Inv.runOn (h : s.Inv) (hb : s.busy = true) (hr : s.runOn = .next t) : t.Inv :=
  (drive_induction (P := fun s => s.Inv ∧ s.busy = true) (Q := State.Inv)
    (fun _ _ hs hg => ⟨hs.1.goes hs.2 hg, (outer_busy true).goes hs.2 hg⟩) (fun _ _ hs he => hs.1.ends hs.2 he)
    _ ⟨h, hb⟩ hr).elim And.left id

/-- What an access comes to meets the invariant. -/
theorem State.Inv.oneAccess (h : s.Inv) (hb : s.busy = true) (hr : s.oneAccess = .next t) : t.Inv :=
  (toAccess_induction (P := fun s => s.Inv ∧ s.busy = true) (Q := State.Inv)
    (fun _ _ hs hg => ⟨hs.1.goes hs.2 hg, (outer_busy true).goes hs.2 hg⟩) (fun _ _ hs he => hs.1.ends hs.2 he)
    _ ⟨h, hb⟩ hr).elim And.left id

/-! ### Acceptance -/

/-- STAGE at acceptance is a stage's opcode or 0 (10_state.md R33). -/
theorem stageOfWord_le (w : Word) : (stageOfWord w).toNat ≤ 8 := by
  unfold stageOfWord
  split <;> decide

/-- The jobs a command is accepted with find the phases they need, once its start check has found its own
(46_session_ops.md R194). -/
theorem acceptedJobs_fit (s : State) (i : Instr) :
    jobsFit (s.freqAt Config.endOfText).valid (s.acceptedJobs i) s.phase := by
  cases i with
  | build =>
    simp only [State.acceptedJobs, jobsFit]
    cases s.phase <;> simp [phaseTooLow]
  | derive =>
    simp only [State.acceptedJobs, jobsFit]
    cases s.phase <;> simp [phaseTooLow]
  | _ => simp [State.acceptedJobs, State.countJobs, State.encodeJobs, State.analyseJobs, parseJobs, jobsFit, filling,
      Instr.opcode]

/-- The state BUSY begins with: the command accepted, with its jobs to do (10_state.md R24). -/
def State.accepted (s : State) (i : Instr) : State := { s.accept (encode i) with todo := s.acceptedJobs i }

/-- A command runs to completion at once for a host that waits, and else is BUSY (log 1). -/
theorem exec_eq (i : Instr) (s : State) :
    exec i s = if s.hostWaits then (s.accepted i).runOn else .next (s.accepted i) := exec_eq_start i s

/-- A command accepted while IDLE meets the invariant with its jobs to do (10_state.md R24, R30). -/
theorem State.Inv.accepted (h : s.Inv) (hb : s.busy = false) (hr : s.inReset = false) (i : Instr) :
    (s.accepted i).Inv := by
  obtain ⟨htodo, -⟩ := h.status.idle hb
  refine State.SessionInv.inv (h.sessionInv.keep ?_ (acceptedJobs_fit s i) fun _ => ?_) ?_ fun h => ?_
  · rw [State.treeView, State.treeView, h.status.queue]; rfl
  · rw [htodo]; rfl
  · constructor
    case errIff => exact ⟨fun h => (by cases h), fun h => absurd rfl h⟩
    case errDone => exact fun h => by cases h
    case errInfo => exact fun _ => rfl
    case extra => exact fun h => by cases h
    case stage => exact stageOfWord_le (encode i)
    case queue => rfl
    case busy => exact fun _ => rfl
    case idle => exact fun h => by cases h
  · exact absurd (hr.symm.trans h) (by decide)

/-! ### The host -/

/-- What the invariant speaks of, but for the marks of an IDLE block and the reset input. -/
def State.invView (s : State) :=
  (s.busy, s.done, s.err, s.errCode, s.errInfo, s.extraInput, s.stage, s.todo, s.acc, s.walk, s.undo, s.phase, s.freq,
    s.treeView)

/-- Two states that agree on what the invariant speaks of. -/
theorem State.Inv.of_invView (h : s.Inv) (hv : t.invView = s.invView)
    (hm : s.busy = false → t.srcTouched = s.srcTouched ∧ t.dstTouched = s.dstTouched)
    (hr : t.inReset = true → t.resetKeeping = t) : t.Inv := by
  simp only [State.invView, Prod.mk.injEq] at hv
  obtain ⟨hb, hd, he, hc, hi, hx, hst, htodo, hacc, hwalk, hundo, hp, hf, hv⟩ := hv
  obtain ⟨-, -, -, hq⟩ := treeView_eq hv
  refine (h.sessionInv.keep (by rw [hp, hf, hv]) (by rw [htodo]; exact h.jobs) (by rw [htodo]; exact id)).inv ?_ hr
  have hs := h.status
  constructor <;> simp only [hb, hd, he, hc, hi, hx, hst, htodo, hacc, hwalk, hundo, hq]
  case errIff => exact hs.errIff
  case errDone => exact hs.errDone
  case errInfo => exact hs.errInfo
  case extra => exact hs.extra
  case stage => exact hs.stage
  case queue => exact hs.queue
  case busy => exact hs.busy
  case idle =>
    intro hb
    obtain ⟨hm1, hm2⟩ := hm hb
    rw [hm1, hm2]
    exact hs.idle hb

/-- No register write changes what the invariant speaks of (10_state.md R25, R34 to R38, R42, R46, R50). -/
theorem regWrite_invView (s : State) (v : Word) (r : Reg) :
    ((s.regWrite v r).invView, (s.regWrite v r).inReset, (s.regWrite v r).bus, (s.regWrite v r).srcTouched,
      (s.regWrite v r).dstTouched) = (s.invView, s.inReset, s.bus, s.srcTouched, s.dstTouched) := by
  cases r
  case cmd | intStatus | srcAddr | srcLen | srcPos | dstAddr | dstCap | dstLen =>
    simp only [State.regWrite]
    split <;> rfl
  all_goals rfl

theorem windowWrite_invView (s : State) (off : BitVec 8) (width : AccessWidth) (v : Word) :
    ((s.windowWrite off width v).invView, (s.windowWrite off width v).inReset, (s.windowWrite off width v).bus,
      (s.windowWrite off width v).srcTouched, (s.windowWrite off width v).dstTouched) =
    (s.invView, s.inReset, s.bus, s.srcTouched, s.dstTouched) := by
  unfold State.windowWrite
  split
  · split
    · rfl
    · exact regWrite_invView s v _
  · rfl

theorem windowRead_invView (s : State) (off : BitVec 8) (width : AccessWidth) :
    ((s.windowRead off width).invView, (s.windowRead off width).inReset, (s.windowRead off width).bus,
      (s.windowRead off width).srcTouched, (s.windowRead off width).dstTouched) =
    (s.invView, s.inReset, s.bus, s.srcTouched, s.dstTouched) := by
  unfold State.windowRead
  split
  · split
    · rfl
    · split <;> rfl
  · rfl

/-- Only a change of its answers changes how host memory answers (20_memory.md R88); no other operation of the host
changes that, or what the invariant speaks of (10_state.md R25, R26). -/
theorem hostAct_invView_bus (s : State) {op : HostOp} (hop : ∀ a r w, op ≠ .answer a r w) :
    ((s.hostAct op).invView, (s.hostAct op).inReset, (s.hostAct op).bus) = (s.invView, s.inReset, s.bus) := by
  cases op with
  | write off width v => exact congrArg (fun x => (x.1, x.2.1, x.2.2.1)) (windowWrite_invView s off width v)
  | read off width => exact congrArg (fun x => (x.1, x.2.1, x.2.2.1)) (windowRead_invView s off width)
  | memWrite a v =>
    simp only [State.hostAct, State.hostStore]
    split
    · rfl
    · split <;> rfl
  | memRead a =>
    simp only [State.hostAct, State.hostLoad]
    split <;> rfl
  | answer a r w => exact absurd rfl (hop a r w)
  | _ => rfl

theorem hostAct_invView (s : State) (op : HostOp) :
    ((s.hostAct op).invView, (s.hostAct op).inReset) = (s.invView, s.inReset) := by
  by_cases hop : ∃ a r w, op = .answer a r w
  · obtain ⟨a, r, w, rfl⟩ := hop
    rfl
  · exact congrArg (fun x => (x.1, x.2.1)) (hostAct_invView_bus s fun a r w h => hop ⟨a, r, w, h⟩)

theorem hostAct_bus (s : State) {op : HostOp} (hop : ∀ a r w, op ≠ .answer a r w) : (s.hostAct op).bus = s.bus :=
  congrArg (fun x => x.2.2) (hostAct_invView_bus s hop)

/-- While IDLE no operation of the host marks a byte (log 12). -/
theorem hostAct_idle_marks (hb : s.busy = false) (op : HostOp) :
    ((s.hostAct op).srcTouched, (s.hostAct op).dstTouched) = (s.srcTouched, s.dstTouched) := by
  cases op with
  | write off width v => exact congrArg (fun x => x.2.2.2) (windowWrite_invView s off width v)
  | read off width => exact congrArg (fun x => x.2.2.2) (windowRead_invView s off width)
  | memWrite a v => simp [State.hostAct, State.hostStore, hb]
  | memRead a => simp [State.hostAct, State.hostLoad, hb]
  | _ => rfl

/-- While reset is asserted only a register write could change the block, and none is taken (70_reset_and_hazards.md R240;
log 21). -/
theorem hostAct_held (hr : s.resetKeeping = s) (op : HostOp) (hop : ∀ off width v, op ≠ .write off width v) :
    (s.hostAct op).resetKeeping = s.hostAct op := by
  rw [← hr]
  cases op with
  | write off width v => exact absurd rfl (hop off width v)
  | read off width =>
    simp only [State.hostAct, State.windowRead]
    split
    · split <;> rfl
    · rfl
  | _ => rfl

/-- An operation of the host that is no taken write of a register while reset is asserted keeps the invariant. -/
theorem State.Inv.hostAct (h : s.Inv) (op : HostOp) (hop : s.inReset = true → ∀ off width v, op ≠ .write off width v) :
    (s.hostAct op).Inv := by
  obtain ⟨hv, hi⟩ := Prod.mk.inj (hostAct_invView s op)
  refine h.of_invView hv (fun hb => Prod.mk.inj (hostAct_idle_marks hb op)) fun hr => ?_
  rw [hi] at hr
  exact hostAct_held (h.held hr) op (hop hr)

/-- The host's list is not the block's. -/
theorem State.Inv.withHost (h : s.Inv) (l : List HostOp) : State.Inv { s with host := l } :=
  h.of_invView rfl (fun _ => ⟨rfl, rfl⟩) fun hr => by
    have := h.held hr
    rw [← this]
    rfl

/-- The block at reset meets the invariant (70_reset_and_hazards.md R240). -/
theorem resetKeeping_inv (s : State) : s.resetKeeping.Inv := by
  refine State.SessionInv.inv (sessionInv_of_empty rfl rfl rfl jobsFit_nil) ?_ fun _ => rfl
  constructor
  case errIff => exact ⟨fun h => (by cases h), fun h => absurd rfl h⟩
  case errDone => exact fun h => by cases h
  case errInfo => exact fun _ => rfl
  case extra => exact fun h => by cases h
  case stage => exact Nat.zero_le 8
  case queue => rfl
  case busy => exact fun h => by cases h
  case idle => exact fun _ => ⟨rfl, rfl, rfl, rfl, rfl, rfl⟩

/-- An illegal word fails at once (30_encoding.md R92). -/
theorem State.Inv.illegalWord (h : s.Inv) (hb : s.busy = false) (hr : s.inReset = false) (w : Word) :
    (illegalWord w s).Inv := by
  obtain ⟨htodo, -⟩ := h.status.idle hb
  refine inv_of_takeError (by decide) rfl (stageOfWord_le w) hr fun _ => h.sessionInv.keep ?_ jobsFit_nil fun _ => ?_
  · rw [State.treeView, State.treeView, h.status.queue]; rfl
  · rw [htodo]; rfl

/-! ### The step -/

/-- A command accepted while IDLE meets the invariant, run to completion or not (10_state.md R24). -/
theorem State.Inv.exec (h : s.Inv) (hb : s.busy = false) (hr : s.inReset = false) {i : Instr} (he : exec i s = .next t) :
    t.Inv := by
  have ha := h.accepted hb hr i
  rw [exec_eq] at he
  split at he
  · exact ha.runOn rfl he
  · cases he; exact ha

/-- A move that starts from the invariant: a command is accepted while IDLE with reset released, the engine goes on
while BUSY. -/
def NextMove.FromInv : NextMove → Prop
  | .run _ u => u.Inv ∧ u.busy = false ∧ u.inReset = false
  | .access u => u.Inv ∧ u.busy = true
  | .runOn u => u.Inv ∧ u.busy = true
  | .settled u => u.Inv

theorem State.Inv.cmdWrite (h : s.Inv) (hr : s.inReset = false) (w : Word) : (cmdWrite w s).FromInv := by
  by_cases hb : s.busy = true
  · rw [cmdWrite_busy hb]
    exact h.of_invView rfl (fun _ => ⟨rfl, rfl⟩) fun hr' => absurd (hr.symm.trans hr') (by decide)
  · unfold Machine.cmdWrite
    rw [if_neg hb]
    rw [Bool.not_eq_true] at hb
    split
    · exact ⟨h, hb, hr⟩
    · exact h.illegalWord hb hr w

theorem State.Inv.writeMove (h : s.Inv) (off : BitVec 8) (width : AccessWidth) (v : Word) :
    (writeMove s off width v).FromInv := by
  by_cases hr : s.inReset = true
  · rw [writeMove_inReset hr]; exact h
  · unfold Machine.writeMove
    rw [if_neg hr]
    split
    · exact h.cmdWrite (Bool.eq_false_of_not_eq_true hr) v
    · exact h.hostAct _ fun hr' => absurd hr' hr

/-- Each operation of the host (10_state.md R25, R26; 70_reset_and_hazards.md R240, R241). -/
theorem State.Inv.hostMove (h : s.Inv) (op : HostOp) : (hostMove s op).FromInv := by
  have act : ∀ op, (∀ off width v, op ≠ .write off width v) → (s.hostAct op).Inv := fun op hop =>
    h.hostAct op fun _ => hop
  cases op with
  | write off width v => exact h.writeMove off width v
  | read off width => exact act _ fun _ _ _ h => by cases h
  | memWrite a v => exact act _ fun _ _ _ h => by cases h
  | memRead a => exact act _ fun _ _ _ h => by cases h
  | answer a r w => exact act _ fun _ _ _ h => by cases h
  | reset => exact resetKeeping_inv _
  | release => exact h.of_invView rfl (fun _ => ⟨rfl, rfl⟩) fun hr => by cases hr
  | pass =>
    simp only [Machine.hostMove, passMove]
    split
    · exact ⟨h, ‹_›⟩
    · exact h
  | wait =>
    simp only [Machine.hostMove, waitMove]
    split
    · exact ⟨h.withHost _, ‹_›⟩
    · refine (h.withHost s.host).of_invView rfl (fun _ => ⟨rfl, rfl⟩) fun hr => ?_
      have := h.held hr
      rw [← this]
      rfl

theorem State.Inv.nextMove (h : s.Inv) : (nextMove s).FromInv := by
  unfold Machine.nextMove
  split
  · split
    · exact ⟨h, ‹_›⟩
    · exact h
  · exact (h.withHost _).hostMove _

/-- Every step keeps the invariant. -/
theorem State.Inv.step (h : s.Inv) (hs : step s = .next t) : t.Inv := by
  have hm := h.nextMove
  unfold Machine.step at hs
  split at hs <;> rename_i hn <;> rw [hn] at hm
  · exact hm.1.exec hm.2.1 hm.2.2 hs
  · exact hm.1.oneAccess hm.2 hs
  · exact hm.1.runOn hm.2 hs
  · cases hs; exact hm

end Inv

/-- Settles O59: a step is a move from a state with the invariant, and every move keeps it. -/
theorem stepKeepsTheInvariant : Obligations.StepKeepsTheInvariant := by
  unfold Obligations.StepKeepsTheInvariant
  exact fun _ _ h hs => h.step hs

end Sys2Proof.Machine
end

section
/-! SUPPORT. A command that runs while the host acts: what one step can do while BUSY, the operands that hold, and that a
command completes (10_state.md R24, R25, R36 to R38; 20_memory.md R72). -/

namespace Sys2Proof.Machine

/-! ### A step while BUSY -/

section BusyStep
variable {s t : State} {rest : List HostOp}

/-- Host memory that answers goes on answering, whatever the host does (20_memory.md R88). -/
theorem State.BusAnswers.of_host {u : State} {op : HostOp} (h : s.BusAnswers) (hs : s.host = op :: rest)
    (hu : u.host = rest) (hb : u.bus = s.bus ∨ ∃ a r w, op = .answer a r w ∧
      u.bus = ⟨a.toNat, r, w⟩ :: s.bus.filter (fun e => e.addr != a.toNat)) : u.BusAnswers := by
  constructor
  case now =>
    obtain hb | ⟨a, r, w, rfl, hb⟩ := hb
    · rw [hb]; exact h.now
    · rw [hb]
      intro e he
      rcases List.mem_cons.1 he with rfl | he
      · exact h.later a r w (by rw [hs]; exact List.mem_cons_self)
      · exact h.now e (List.mem_of_mem_filter he)
  case later =>
    rw [hu]
    exact fun a r w hm => h.later a r w (by rw [hs]; exact List.mem_cons_of_mem _ hm)

/-- The step `s` makes for the host's operation `op`, with `rest` after it, does not reach the running command, and leaves
host memory answering if it answers. -/
structure State.HostStep (s : State) (op : HostOp) (rest : List HostOp) (u : State) : Prop where
  engine : State.SameEngine { s with host := rest, inReset := u.inReset } u
  bus : s.BusAnswers → u.BusAnswers

theorem hostStep_act {op : HostOp} (hb : s.busy = true) (hs : s.host = op :: rest) :
    s.HostStep op rest (State.hostAct { s with host := rest } op) := by
  have he := hostAct_sameEngine { s with host := rest } op hb
  have hr : (State.hostAct { s with host := rest } op).inReset = s.inReset := he.inReset
  refine ⟨by rw [hr]; exact he, fun h => h.of_host hs he.host ?_⟩
  by_cases hop : ∃ a r w, op = .answer a r w
  · obtain ⟨a, r, w, rfl⟩ := hop
    exact .inr ⟨a, r, w, rfl, rfl⟩
  · exact .inl (hostAct_bus { s with host := rest } fun a r w e => hop ⟨a, r, w, e⟩)

/-- What a step can do while BUSY: run on for a host that waits, make an access for one that passes, abandon the command by
a reset, or an operation of the host that does not reach the command (10_state.md R25, R26; 70_reset_and_hazards.md
R241). -/
theorem step_busy (hb : s.busy = true) :
    (s.hostWaits = true ∧ step s = s.runOn) ∨
    (∃ rest, s.host = .pass :: rest ∧ step s = State.oneAccess { s with host := rest }) ∨
    (∃ rest, s.host = .reset :: rest ∧ step s = .next (State.applyReset { s with host := rest })) ∨
    ∃ op rest u, s.host = op :: rest ∧ step s = .next u ∧ s.HostStep op rest u := by
  have waits : s.hostWaits = true → s.hostWaits = true ∧ step s = s.runOn := fun hw =>
    ⟨hw, step_of_runOn (nextMove_waits hw hb)⟩
  cases hs : s.host with
  | nil => exact .inl (waits (hostWaits_iff.2 (.inl hs)))
  | cons op rest =>
    have act : step s = .next (State.hostAct { s with host := rest } op) →
        ∃ op' rest' u, op :: rest = op' :: rest' ∧ step s = .next u ∧ s.HostStep op' rest' u := fun h =>
      ⟨op, rest, _, rfl, h, hostStep_act hb hs⟩
    have same : step s = .next { s with host := rest } →
        ∃ op' rest' u, op :: rest = op' :: rest' ∧ step s = .next u ∧ s.HostStep op' rest' u := fun h =>
      ⟨op, rest, _, rfl, h, .refl _, fun h => h.of_host hs rfl (.inl rfl)⟩
    cases op with
    | write off width v =>
      refine .inr (.inr (.inr ?_))
      by_cases hr : s.inReset = true
      · exact same (step_write_inReset hs hr)
      · rw [Bool.not_eq_true] at hr
        by_cases hc : off = 0x04#8 ∧ width = .bits32
        · obtain ⟨rfl, rfl⟩ := hc
          exact ⟨_, _, _, rfl, step_cmdWrite_busy hs hr hb, by constructor <;> rfl,
            fun h => h.of_host hs rfl (.inl rfl)⟩
        · exact act (step_write_other hs hr (by tauto))
    | read off width => exact .inr (.inr (.inr (act (step_hostAct hs (.inl ⟨_, _, rfl⟩)))))
    | memWrite a v => exact .inr (.inr (.inr (act (step_hostAct hs (.inr (.inl ⟨_, _, rfl⟩))))))
    | memRead a => exact .inr (.inr (.inr (act (step_hostAct hs (.inr (.inr (.inl ⟨_, rfl⟩)))))))
    | answer a r w => exact .inr (.inr (.inr (act (step_hostAct hs (.inr (.inr (.inr ⟨_, _, _, rfl⟩)))))))
    | reset => exact .inr (.inr (.inl ⟨rest, rfl, step_of_settled (nextMove_cons hs)⟩))
    | release =>
      exact .inr (.inr (.inr ⟨_, _, _, rfl, step_of_settled (nextMove_cons hs), by constructor <;> rfl,
        fun h => h.of_host hs rfl (.inl rfl)⟩))
    | pass => exact .inr (.inl ⟨rest, rfl, step_pass_busy hs hb⟩)
    | wait => exact .inl (waits (hostWaits_iff.2 (.inr ⟨rest, hs⟩)))

end BusyStep

/-! ### The jobs of a command -/

/-- A command's jobs read its source and write its destination only where the command does (30_encoding.md R91), and count
no byte past the source's end. -/
theorem acceptedJobs_within (s : State) (i : Instr) : ∀ j ∈ s.acceptedJobs i,
    (j.reads = true → i.readsSource = true) ∧ (j.writes = true → i.writesDest = true) ∧
      (j.movesSrcPos = true → i ∈ [Instr.parse, .decodePayload, .decompress]) ∧ j.inside s.srcLen.toNat := by
  cases i <;> simp [State.acceptedJobs, State.countJobs, State.encodeJobs, State.analyseJobs, parseJobs, Job.reads,
    Job.writes, Job.movesSrcPos, Job.inside, Instr.readsSource, Instr.writesDest]

/-! ### The operands hold -/

/-- The registers a command does not write are what they were in `s`, and no job left in `u` writes them (10_state.md R36
to R38). -/
structure State.OperandsHeld (i : Instr) (s u : State) : Prop where
  operands : u.srcAddr = s.srcAddr ∧ u.srcLen = s.srcLen ∧ u.dstAddr = s.dstAddr ∧ u.dstCap = s.dstCap
  srcPos : i ∉ [Instr.parse, .decodePayload, .decompress] → u.srcPos = s.srcPos ∧ ∀ j ∈ u.todo, j.movesSrcPos = false
  dstLen : i.writesDest = false → u.dstLen = s.dstLen ∧ ∀ j ∈ u.todo, j.writes = false

section Held
variable {i : Instr} {s u t : State}

theorem outer_operands (a n b c : Word) :
    Outer (fun s => s.srcAddr = a ∧ s.srcLen = n ∧ s.dstAddr = b ∧ s.dstCap = c) where
  closed := { draw := fun _ h => h, put := fun _ _ _ _ h => h, bump := fun _ h => h }
  inner := fun _ _ h hs => by rw [h.srcAddr, h.srcLen, h.dstAddr, h.dstCap]; exact hs

theorem State.OperandsHeld.goes (h : s.OperandsHeld i u) (hg : u.progress = .goes t) : s.OperandsHeld i t := by
  refine ⟨(outer_operands _ _ _ _).goes h.operands hg, fun hi => ?_, fun hi => ?_⟩
  all_goals obtain ⟨j, rest, new, v, hs, hr, rfl⟩ := progress_goes hg
  · obtain ⟨hp, hj⟩ := h.srcPos hi
    rw [hs] at hj
    refine ⟨((Job.run_frame hr).srcPos (hj j List.mem_cons_self)).trans hp, fun j' hj' => ?_⟩
    rcases List.mem_append.1 hj' with hn | hn
    · exact Bool.eq_false_of_not_eq_true fun hm =>
        absurd ((Job.run_within hr 0 j' hn).movesSrcPos hm) (by rw [hj j List.mem_cons_self]; decide)
    · exact hj j' (List.mem_cons_of_mem _ hn)
  · obtain ⟨hp, hj⟩ := h.dstLen hi
    rw [hs] at hj
    refine ⟨((Job.run_frame hr).dstLen (hj j List.mem_cons_self)).trans hp, fun j' hj' => ?_⟩
    rcases List.mem_append.1 hj' with hn | hn
    · exact Bool.eq_false_of_not_eq_true fun hm =>
        absurd ((Job.run_within hr 0 j' hn).writes hm) (by rw [hj j List.mem_cons_self]; decide)
    · exact hj j' (List.mem_cons_of_mem _ hn)

theorem State.OperandsHeld.ends (h : s.OperandsHeld i u) (he : u.progress = .ends t) : s.OperandsHeld i t := by
  have none : ∀ {p : Job → Prop}, ∀ j ∈ ([] : List Job), p j := fun j hj => by cases hj
  obtain ⟨-, rfl⟩ | ⟨j, rest, c, n, v, -, hr, rfl⟩ := progress_ends he
  · exact ⟨h.operands, fun hi => ⟨(h.srcPos hi).1, none⟩, fun hi => ⟨(h.dstLen hi).1, none⟩⟩
  · obtain ⟨-, _, rfl⟩ := Job.run_stops j u _ _ hr
    cases j.clearsOnError
    · exact ⟨h.operands, fun hi => ⟨(h.srcPos hi).1, none⟩, fun hi => ⟨(h.dstLen hi).1, none⟩⟩
    · exact ⟨h.operands, fun hi => ⟨(h.srcPos hi).1, none⟩, fun hi => ⟨(h.dstLen hi).1, none⟩⟩

theorem State.OperandsHeld.drive (h : s.OperandsHeld i u) {n : Nat} (hr : u.drive n = .next t) : s.OperandsHeld i t :=
  (drive_induction (P := s.OperandsHeld i) (Q := s.OperandsHeld i) (fun _ _ => State.OperandsHeld.goes)
    (fun _ _ => State.OperandsHeld.ends) _ h hr).elim id id

theorem State.OperandsHeld.toAccess (h : s.OperandsHeld i u) {n : Nat} (hr : u.toAccess n = .next t) :
    s.OperandsHeld i t :=
  (toAccess_induction (P := s.OperandsHeld i) (Q := s.OperandsHeld i) (fun _ _ => State.OperandsHeld.goes)
    (fun _ _ => State.OperandsHeld.ends) _ h hr).elim id id

/-- An operation of the host reaches no operand while BUSY (10_state.md R25). -/
theorem State.OperandsHeld.hostStep {op : HostOp} {rest : List HostOp} (h : s.OperandsHeld i u)
    (hu : u.HostStep op rest t) : s.OperandsHeld i t := by
  have he := hu.engine
  constructor
  case operands => rw [he.srcAddr, he.srcLen, he.dstAddr, he.dstCap]; exact h.operands
  case srcPos => rw [he.srcPos, he.todo]; exact h.srcPos
  case dstLen => rw [he.dstLen, he.todo]; exact h.dstLen

theorem outer_host (l : List HostOp) : Outer (fun s => s.host = l) where
  closed := { draw := fun _ h => h, put := fun _ _ _ _ h => h, bump := fun _ h => h }
  inner := fun _ _ h hs => h.host.trans hs

/-- No job changes the host's list, nor does completion. -/
theorem drive_host {n : Nat} (h : s.drive n = .next t) : t.host = s.host := by
  obtain ⟨u, hu, rfl | rfl | ⟨c, _, _, rfl⟩⟩ := (outer_host s.host).drive n rfl h
  · exact hu
  · exact hu
  · cases c <;> exact hu

theorem toAccess_host {n : Nat} (h : s.toAccess n = .next t) : t.host = s.host := by
  obtain ⟨u, hu, rfl | rfl | ⟨c, _, _, rfl⟩⟩ := (outer_host s.host).toAccess n rfl h
  · exact hu
  · exact hu
  · cases c <;> exact hu

/-- The operands hold over a step while BUSY, short of a reset. -/
theorem State.OperandsHeld.step (h : s.OperandsHeld i u) (hb : u.busy = true) (hres : HostOp.reset ∉ u.host)
    (hs : step u = .next t) : s.OperandsHeld i t ∧ HostOp.reset ∉ t.host := by
  have tail : ∀ {op rest}, u.host = op :: rest → HostOp.reset ∉ rest := fun hh hm =>
    hres (by rw [hh]; exact List.mem_cons_of_mem _ hm)
  obtain ⟨-, hst⟩ | ⟨rest, hh, hst⟩ | ⟨rest, hh, -⟩ | ⟨op, rest, w, hh, hst, hw⟩ := step_busy hb
  · have hr := hst.symm.trans hs
    exact ⟨h.drive hr, by rw [drive_host hr]; exact hres⟩
  · have hr := hst.symm.trans hs
    exact ⟨State.OperandsHeld.toAccess (u := { u with host := rest }) ⟨h.operands, h.srcPos, h.dstLen⟩ hr,
      by rw [toAccess_host hr]; exact tail hh⟩
  · exact absurd (by rw [hh]; exact List.mem_cons_self) hres
  · cases hst.symm.trans hs
    exact ⟨h.hostStep hw, by rw [hw.engine.host]; exact tail hh⟩

/-- The operands hold at every step until the engine is IDLE, short of a reset. -/
theorem State.OperandsHeld.untilIdle : ∀ (n : Nat) {u t : State}, s.OperandsHeld i u → HostOp.reset ∉ u.host →
    u.untilIdle n = .next t → s.OperandsHeld i t
  | 0, _, _, h, _, hn => by cases hn; exact h
  | n + 1, u, t, h, hres, hn => by
    unfold State.untilIdle at hn
    split at hn
    · split at hn
      · obtain ⟨hv, hvres⟩ := h.step ‹_› hres ‹_›
        exact State.OperandsHeld.untilIdle n hv hvres hn
      · cases hn
      · cases hn
    · cases hn; exact h

/-- The operands hold at acceptance, with the jobs to do. -/
theorem operandsHeld_accepted (i : Instr) (s : State) :
    s.OperandsHeld i (s.accepted i) := by
  refine ⟨⟨rfl, rfl, rfl, rfl⟩, fun hi => ⟨rfl, fun j hj => ?_⟩, fun hi => ⟨rfl, fun j hj => ?_⟩⟩
  · exact Bool.eq_false_of_not_eq_true fun hm => hi ((acceptedJobs_within s i j hj).2.2.1 hm)
  · exact Bool.eq_false_of_not_eq_true fun hm => by
      have := (acceptedJobs_within s i j hj).2.1 hm
      rw [hi] at this
      cases this

end Held

/-- Settles O54: no job of the command writes the registers, and no operation of the host reaches them while BUSY. -/
theorem operandsHoldWhileACommandRuns : Obligations.OperandsHoldWhileACommandRuns := by
  unfold Obligations.OperandsHoldWhileACommandRuns
  intro i s u t n hres he hn
  have ha := operandsHeld_accepted i s
  have hu : s.OperandsHeld i u ∧ u.host = s.host := by
    rw [exec_eq] at he
    split at he
    · exact ⟨ha.drive he, (drive_host he).trans rfl⟩
    · cases he; exact ⟨ha, rfl⟩
  obtain ⟨⟨h1, h2, h3, h4⟩, hp, hd⟩ := hu.1.untilIdle n (hu.2 ▸ hres) hn
  exact ⟨h1, h2, h3, h4, fun hi => (hp hi).1, fun hi => (hd hi).1⟩

end Sys2Proof.Machine
end

section
/-! SUPPORT. The engine does not look at the host's list (log 1): every job does and leaves the same whatever operations the
host has left, and so do an access and a run. -/

namespace Sys2Proof.Machine

/-- The state with another list of the host's operations. -/
def State.hosted (s : State) (h : List HostOp) : State := { s with host := h }

/-- `c` does the same whatever operations the host has left. -/
def Cmd.HostBlind {α : Type} (c : Cmd α) : Prop :=
  ∀ s h, c (s.hosted h) = (match c s with
    | .ok a t => .ok a (t.hosted h)
    | .error e t => .error e (t.hosted h))

namespace Cmd.HostBlind
variable {α β : Type} {x : Cmd α} {f : α → Cmd β}

theorem pure (a : α) : HostBlind (Pure.pure a : Cmd α) := fun _ _ => rfl

theorem raise (c : ErrCode) (i : Word) : HostBlind (Machine.raise c i : Cmd α) := fun _ _ => rfl

theorem throw (e : Stop) : HostBlind (MonadExcept.throw e : Cmd α) := fun _ _ => rfl

theorem update {f : State → State} (hf : ∀ s h, f (s.hosted h) = (f s).hosted h) : HostBlind (Machine.update f) :=
  fun s h => congrArg (EStateM.Result.ok ()) (hf s h)

theorem bind (hx : HostBlind x) (hf : ∀ a, HostBlind (f a)) : HostBlind (x >>= f) := by
  intro s h
  rw [Cmd.bind_eq, Cmd.bind_eq, hx s h]
  cases x s with
  | ok a t => exact hf a t h
  | error e t => rfl

/-- Reading the state for what is not the host's list. -/
theorem read {f : State → Cmd β} (hf : ∀ s h, f (s.hosted h) = f s) (hb : ∀ s, HostBlind (f s)) :
    HostBlind ((get : Cmd State) >>= f) := fun s h => by
  rw [Cmd.get_bind, Cmd.get_bind, hf]
  exact hb s s h

theorem ite {p : Prop} [Decidable p] {y : Cmd α} (hx : HostBlind x) (hy : HostBlind y) :
    HostBlind (if p then x else y) := by
  split
  · exact hx
  · exact hy

theorem fetchByte (a : Nat) : HostBlind (fetchByte a) := by
  intro s h
  have hc : (s.hosted h).srcTouched = s.srcTouched := rfl
  unfold Machine.fetchByte
  rw [hc]
  split <;> rfl

theorem putByte (a : Nat) (v : Byte) : HostBlind (putByte a v) := by
  intro s h
  have hc : (s.hosted h).dstTouched = s.dstTouched := rfl
  unfold Machine.putByte
  rw [hc]
  split <;> rfl

theorem memRead (a : Nat) : HostBlind (memRead a) := by
  intro s h
  have hb : (s.hosted h).busAt a = s.busAt a := rfl
  unfold Machine.memRead
  rw [hb]
  split
  · rfl
  · split
    · exact fetchByte a s h
    · rfl
    · rfl

theorem memWrite (a : Nat) (v : Byte) : HostBlind (memWrite a v) := by
  intro s h
  have hb : (s.hosted h).busAt a = s.busAt a := rfl
  unfold Machine.memWrite
  rw [hb]
  split
  · rfl
  · split
    · exact putByte a v s h
    · rfl
    · rfl

theorem emit (v : Byte) : HostBlind (emit v) :=
  read (fun _ _ => rfl) fun _ => ite (bind (memWrite _ v) fun _ => update fun _ _ => rfl) (raise _ _)

theorem needPhase (ok : Phase → Bool) : HostBlind (needPhase ok) :=
  read (fun _ _ => rfl) fun _ => ite (pure _) (raise _ _)

theorem checkSource : HostBlind checkSource := read (fun _ _ => rfl) fun _ => ite (pure _) (raise _ _)

theorem checkDest : HostBlind checkDest := read (fun _ _ => rfl) fun _ => ite (pure _) (raise _ _)

theorem checkOverlap : HostBlind checkOverlap := read (fun _ _ => rfl) fun _ => ite (raise _ _) (pure _)

theorem refuseWindowSource : HostBlind refuseWindowSource := read (fun _ _ => rfl) fun _ => ite (throw _) (pure _)

theorem refuseWindowDest : HostBlind refuseWindowDest := read (fun _ _ => rfl) fun _ => ite (throw _) (pure _)

theorem startSource : HostBlind startSource := bind checkSource fun _ => refuseWindowSource

theorem startDest : HostBlind startDest := bind checkDest fun _ => refuseWindowDest

theorem startBoth : HostBlind startBoth :=
  bind checkSource fun _ => bind checkDest fun _ => bind checkOverlap fun _ =>
    bind refuseWindowSource fun _ => refuseWindowDest

theorem startChecks (i : Instr) : HostBlind (startChecks i) := by
  cases i with
  | clear => exact pure ()
  | count => exact startSource
  | build => exact needPhase fun p => p.atLeast .counted
  | derive => exact needPhase fun p => p.atLeast .built
  | serialize => exact bind (needPhase _) fun _ => startDest
  | encodePayload => exact bind (needPhase _) fun _ => startBoth
  | parse => exact startSource
  | decodePayload => exact bind (needPhase _) fun _ => startBoth
  | compress => exact startBoth
  | decompress => exact startBoth
  | encode => exact startSource

end Cmd.HostBlind

/-! ### BUILD and DERIVE -/

section Stages
variable (s : State) (h : List HostOp)

theorem placeLeaves_hosted (h : List HostOp) : ∀ (es : List FreqEntry) (s : State) (sym : Nat),
    (s.hosted h).placeLeaves es sym = (s.placeLeaves es sym).hosted h
  | [], _, _ => rfl
  | e :: es, s, sym => by
    simp only [State.placeLeaves]
    split
    · exact placeLeaves_hosted h es (s.addNode (leafOf sym e)) (sym + 1)
    · exact placeLeaves_hosted h es s (sym + 1)

theorem leastFrom_hosted : ∀ (l : List Nat) (i : Nat), (s.hosted h).leastFrom i l = s.leastFrom i l
  | [], _ => rfl
  | j :: l, i => leastFrom_hosted l (if s.keyLess j i then j else i)

theorem combine_hosted : (s.hosted h).combine = s.combine.hosted h := by
  have hq : (s.hosted h).queue = s.queue := rfl
  unfold State.combine
  simp only [hq, leastFrom_hosted]
  split
  · rfl
  · split <;> rfl

theorem combineAll_hosted (h : List HostOp) : ∀ (n : Nat) (s : State),
    (s.hosted h).combineAll n = (s.combineAll n).hosted h
  | 0, _ => rfl
  | n + 1, s => by
    have hq : (s.hosted h).queue = s.queue := rfl
    simp only [State.combineAll, hq]
    split
    · rw [combine_hosted]
      exact combineAll_hosted h n _
    · rfl

theorem growTree_hosted : (s.hosted h).growTree = s.growTree.hosted h := by
  have hd : (s.hosted h).dropTree = s.dropTree.hosted h := rfl
  have hf : (s.hosted h).freq = s.freq := rfl
  unfold State.growTree
  rw [hd, hf, placeLeaves_hosted]
  generalize s.dropTree.placeLeaves s.freq.toList 0 = t
  exact combineAll_hosted h t.queue.length t

theorem codeLeaf_hosted (n : Nat) : (s.hosted h).codeLeaf n = (s.codeLeaf n).hosted h := by
  have hp : (s.hosted h).path n = s.path n :=
    path_congr (s := s) (t := s.hosted h) rfl rfl n
  have hn : (s.hosted h).nodeAt n = s.nodeAt n := rfl
  unfold State.codeLeaf
  rw [hn, hp]
  split
  · split <;> rfl
  · rfl

theorem codeLeaves_hosted (h : List HostOp) : ∀ (k : Nat) (s : State) (n : Nat),
    (s.hosted h).codeLeaves n k = (s.codeLeaves n k).hosted h
  | 0, _, _ => rfl
  | k + 1, s, n => by
    simp only [State.codeLeaves, codeLeaf_hosted]
    exact codeLeaves_hosted h k _ (n + 1)

theorem deriveCodes_hosted : (s.hosted h).deriveCodes = s.deriveCodes.hosted h := by
  have hn : (s.hosted h).nodeAt (s.hosted h).tree.root.toNat = s.nodeAt s.tree.root.toNat := rfl
  unfold State.deriveCodes
  rw [hn]
  split
  · rfl
  · exact codeLeaves_hosted h _ s 0

end Stages

/-! ### The jobs -/

namespace Cmd.HostBlind

theorem buildStage : HostBlind buildStage := by
  refine bind (update growTree_hosted) fun _ s h => ?_
  have hq : (s.hosted h).queue = s.queue := rfl
  unfold endBuild
  rw [hq]
  split <;> rfl

theorem deriveStage : HostBlind deriveStage :=
  update fun s h => congrArg State.endDerive (deriveCodes_hosted s.dropCodes h)

theorem nextByte (pos : Nat) : HostBlind (nextByte pos) :=
  read (fun _ _ => rfl) fun _ => ite (memRead _) (raise _ _)

theorem countByte (k n : Nat) : HostBlind (countByte k n) :=
  read (fun _ _ => rfl) fun _ => bind (memRead _) fun _ => bind (update fun _ _ => rfl) fun _ => pure _

theorem parseKeyByte (pos idx : Nat) (seen : Bool) : HostBlind (parseKeyByte pos idx seen) := by
  refine bind (nextByte pos) fun k => ?_
  cases classify idx seen k with
  | pair sym => exact pure _
  | endOfTextPair => exact pure _
  | terminator => exact pure _
  | malformed => exact raise _ _

theorem enterPair (kpos sym : Nat) (got : List Byte) (idx : Nat) (seen : Bool) :
    HostBlind (enterPair kpos sym got idx seen) :=
  read (fun _ _ => rfl) fun _ => ite (raise _ _) (bind (update fun _ _ => rfl) fun _ => pure _)

theorem encodeByte (k n : Nat) : HostBlind (encodeByte k n) :=
  read (fun _ _ => rfl) fun _ => bind (memRead _) fun _ =>
    read (fun _ _ => rfl) fun _ => ite (pure _) (raise _ _)

theorem putDigit (d : Bool) (ds : List Bool) : HostBlind (putDigit d ds) :=
  bind (update fun _ _ => rfl) fun _ => read (fun _ _ => rfl) fun _ =>
    ite (bind (update fun _ _ => rfl) fun _ => pure _) (pure _)

theorem walkOn (bpos : Nat) (d : Bool) : HostBlind (walkOn bpos d) :=
  read (fun _ _ => rfl) fun _ => ite (ite (raise _ _) (update fun _ _ => rfl)) (update fun _ _ => rfl)

theorem atNode (bpos n : Nat) : HostBlind (atNode bpos n) :=
  read (fun _ _ => rfl) fun _ => ite (ite (bind (update fun _ _ => rfl) fun _ => pure _) (pure _)) (pure _)

theorem decodeBit (bpos n : Nat) : HostBlind (decodeBit bpos n) :=
  read (fun _ _ => rfl) fun _ => bind (walkOn _ _) fun _ => bind (update fun _ _ => rfl) fun _ => atNode _ _

theorem decodeByte (pos : Nat) : HostBlind (decodeByte pos) :=
  read (fun _ _ => rfl) fun _ =>
    ite (bind (memRead _) fun _ => bind (update fun _ _ => rfl) fun _ => pure _) (raise _ _)

theorem only {f : State → State} (hf : ∀ s h, f (s.hosted h) = (f s).hosted h) :
    HostBlind (do Machine.update f; Pure.pure ([] : List Job)) := bind (update hf) fun _ => pure _

/-- No job looks at the host's list. -/
theorem run (j : Job) : HostBlind j.run := by
  cases j with
  | check i => exact bind (startChecks i) fun _ => pure _
  | stage i => exact only fun _ _ => rfl
  | clear => exact only fun _ _ => rfl
  | count k n =>
    cases n with
    | zero => exact pure _
    | succ n => exact countByte k n
  | endCount => exact only fun _ _ => rfl
  | build => exact bind buildStage fun _ => pure _
  | derive => exact bind deriveStage fun _ => pure _
  | serialize => exact bind (update fun _ _ => rfl) fun _ => read (fun _ _ => rfl) fun _ => pure _
  | emit bs =>
    cases bs with
    | nil => exact pure _
    | cons b bs => exact bind (emit b) fun _ => pure _
  | parseKey pos idx seen => exact parseKeyByte pos idx seen
  | parseCount kpos sym got idx seen =>
    exact ite (bind (nextByte _) fun _ => pure _) (enterPair kpos sym got idx seen)
  | endParse pos => exact only fun _ _ => rfl
  | startEncode => exact only fun _ _ => rfl
  | encode k n =>
    cases n with
    | zero => exact pure _
    | succ n => exact encodeByte k n
  | put ds =>
    cases ds with
    | nil => exact pure _
    | cons d ds => exact putDigit d ds
  | endOfText => exact read (fun _ _ => rfl) fun _ => pure _
  | pad => exact read (fun _ _ => rfl) fun _ => ite (pure _) (pure _)
  | startDecode =>
    exact bind (update fun _ _ => rfl) fun _ => bind (update fun _ _ => rfl) fun _ =>
      read (fun _ _ => rfl) fun _ => pure _
  | decode pos => exact decodeByte pos
  | bits bpos n =>
    cases n with
    | zero => exact pure _
    | succ n => exact decodeBit bpos n
  | toRoot => exact only fun _ _ => rfl

end Cmd.HostBlind

/-! ### The engine -/

/-- What a job comes to, with another list of the host's operations. -/
def Progress.hosted (h : List HostOp) : Progress → Progress
  | .goes t => .goes (t.hosted h)
  | .ends t => .ends (t.hosted h)
  | .waits => .waits
  | .fault r => .fault r
  | .refused r => .refused r

/-- An outcome, with another list of the host's operations in its next state. -/
def outcomeHosted (h : List HostOp) : Host.Outcome State Fault Refusal → Host.Outcome State Fault Refusal
  | .next t => .next (t.hosted h)
  | .fault r => .fault r
  | .refused r => .refused r

theorem outcomeHosted_eq_next {h : List HostOp} {o : Host.Outcome State Fault Refusal} {v : State}
    (ho : outcomeHosted h o = .next v) : ∃ t, o = .next t ∧ t.hosted h = v := by
  cases o with
  | next t => cases ho; exact ⟨t, rfl, rfl⟩
  | fault r => cases ho
  | refused r => cases ho

theorem outcomeHosted_eq_fault {h : List HostOp} {o : Host.Outcome State Fault Refusal} {r : Fault}
    (ho : outcomeHosted h o = .fault r) : o = .fault r := by
  cases o with
  | next t => cases ho
  | fault r => exact ho
  | refused r => cases ho

theorem outcomeHosted_eq_refused {h : List HostOp} {o : Host.Outcome State Fault Refusal} {r : Refusal}
    (ho : outcomeHosted h o = .refused r) : o = .refused r := by
  cases o with
  | next t => cases ho
  | fault r => cases ho
  | refused r => exact ho

theorem progress_hosted (s : State) (h : List HostOp) : (s.hosted h).progress = s.progress.hosted h := by
  have ht : (s.hosted h).todo = s.todo := rfl
  unfold State.progress
  rw [ht]
  split
  · rfl
  · rename_i j rest _
    unfold State.doJob
    rw [Cmd.HostBlind.run j s h]
    cases j.run s with
    | ok new t => rfl
    | error e t =>
      cases e with
      | error c i => exact congrArg Progress.ends (by cases j.clearsOnError <;> rfl)
      | waits => rfl
      | fault r => rfl
      | refuse r => rfl

theorem drive_hosted (h : List HostOp) : ∀ (n : Nat) (s : State),
    (s.hosted h).drive n = outcomeHosted h (s.drive n)
  | 0, _ => rfl
  | n + 1, s => by
    unfold State.drive
    rw [progress_hosted]
    cases s.progress with
    | goes t => exact drive_hosted h n t
    | _ => rfl

theorem toAccess_hosted (h : List HostOp) : ∀ (n : Nat) (s : State),
    (s.hosted h).toAccess n = outcomeHosted h (s.toAccess n)
  | 0, _ => rfl
  | n + 1, s => by
    have ha : (s.hosted h).atAccess = s.atAccess := rfl
    unfold State.toAccess
    rw [progress_hosted, ha]
    cases s.progress with
    | goes t =>
      dsimp only [Progress.hosted]
      split
      · rfl
      · exact toAccess_hosted h n t
    | _ => rfl

/-- A run does not depend on the host's operations left (log 1). -/
theorem runOn_hosted (s : State) (h : List HostOp) : (s.hosted h).runOn = outcomeHosted h s.runOn :=
  drive_hosted h s.work s

/-- An access does not depend on the host's operations left (log 1). -/
theorem oneAccess_hosted (s : State) (h : List HostOp) : (s.hosted h).oneAccess = outcomeHosted h s.oneAccess :=
  toAccess_hosted h s.work s

end Sys2Proof.Machine
end

section
/-! SUPPORT. A command completes (10_state.md R24, 20_memory.md R72), and its accesses made one at a time or all at once come
to the same (log 1). -/

namespace Sys2Proof.Machine

/-! ### A command that can run -/

/-- The job's accesses lie in the ranges of the command, which the range checks let through (20_memory.md R71, R72). -/
structure State.JobInRange (s : State) (j : Job) : Prop where
  reads : j.reads = true → inRange s.srcAddr s.srcLen = true
  writes : j.writes = true → inRange s.dstAddr s.dstCap = true
  inside : j.inside s.srcLen.toNat

/-- A running command that can neither fault nor wait for ever: its jobs find the phases they need, host memory answers, and
its accesses lie in host memory, once its start check has found that they do. -/
structure State.Runnable (s : State) : Prop where
  busy : s.busy = true
  session : s.SessionInv False
  answers : s.BusAnswers
  range : (∃ i rest, s.todo = .check i :: rest ∧ (s.RangesOk i → ∀ j ∈ rest, s.JobInRange j)) ∨
    ∀ j ∈ s.todo, s.JobInRange j

section Runnable
variable {s t : State}

theorem inRange_le {a n : Word} (h : inRange a n = true) : a.toNat + n.toNat ≤ Config.addrSpace := of_decide_eq_true h

/-- A job of a running command in range is safe. -/
theorem State.SessionInv.safe {j : Job} {rest : List Job} (h : s.SessionInv False) (hs : s.todo = j :: rest)
    (hj : s.JobInRange j) : j.Safe s := by
  have src : j.reads = true → s.srcAddr.toNat + s.srcLen.toNat ≤ Config.addrSpace := fun hr => inRange_le (hj.reads hr)
  cases j
  case build =>
    have hfit := h.jobs
    rw [hs] at hfit
    exact h.presentSyms_ne_nil hfit.1
  case count k n =>
    have h1 := src rfl
    have h2 : k + n ≤ s.srcLen.toNat := hj.inside
    change s.srcAddr.toNat + k + n ≤ Config.addrSpace
    omega
  case encode k n =>
    have h1 := src rfl
    have h2 : k + n ≤ s.srcLen.toNat := hj.inside
    change s.srcAddr.toNat + k + n ≤ Config.addrSpace
    omega
  case emit => exact inRange_le (hj.writes rfl)
  case parseKey => exact src rfl
  case parseCount => exact src rfl
  case decode => exact src rfl
  all_goals trivial

/-- Host memory that answers is never waited for. -/
theorem State.BusAnswers.busAt (h : s.BusAnswers) (a : Nat) :
    (s.busAt a).onRead ≠ .never ∧ (s.busAt a).onWrite ≠ .never := by
  unfold State.busAt
  cases hf : s.bus.find? (fun e => e.addr == a) with
  | none => exact ⟨fun h => (by cases h), fun h => (by cases h)⟩
  | some e => exact h.now e (List.mem_of_find?_eq_some hf)

theorem State.JobInRange.congr {j : Job} (h : s.JobInRange j)
    (hs : t.srcAddr = s.srcAddr ∧ t.srcLen = s.srcLen ∧ t.dstAddr = s.dstAddr ∧ t.dstCap = s.dstCap) :
    t.JobInRange j := by
  obtain ⟨h1, h2, h3, h4⟩ := hs
  exact ⟨by rw [h1, h2]; exact h.reads, by rw [h3, h4]; exact h.writes, by rw [h2]; exact h.inside⟩

theorem outer_bus (l : List BusEntry) : Outer (fun s => s.bus = l) where
  closed := { draw := fun _ h => h, put := fun _ _ _ _ h => h, bump := fun _ h => h }
  inner := fun _ _ h hs => h.bus.trans hs

/-- A job of a command that can run leaves one that can run. -/
theorem State.Runnable.goes (h : s.Runnable) (hg : s.progress = .goes t) : t.Runnable := by
  have hop := (outer_operands _ _ _ _).goes ⟨rfl, rfl, rfl, rfl⟩ hg
  have hb := (outer_bus _).goes rfl hg
  have hh := (outer_host _).goes rfl hg
  refine ⟨(outer_busy true).goes h.busy hg, ?_, ⟨by rw [hb]; exact h.answers.now, by rw [hh]; exact h.answers.later⟩,
    .inr ?_⟩
  all_goals obtain ⟨j, rest, new, u, hs, hr, rfl⟩ := progress_goes hg
  · exact Job.run_sessionInv h.session hs hr
  · intro j' hj'
    refine State.JobInRange.congr (s := s) ?_ hop
    obtain ⟨i, rest', hs', hrest⟩ | hall := h.range
    · rw [hs] at hs'
      cases hs'
      obtain ⟨hc, -, rfl⟩ := check_ok hr
      exact hrest (startChecks_passes hc).2 j' hj'
    · rw [hs] at hall
      rcases List.mem_append.1 hj' with hn | hn
      · have hw := Job.run_within hr s.srcLen.toNat j' hn
        have hj := hall j List.mem_cons_self
        exact ⟨fun hr => hj.reads (hw.reads hr), fun hr => hj.writes (hw.writes hr), hw.inside hj.inside⟩
      · exact hall j' (List.mem_cons_of_mem _ hn)

/-- The command has completed (10_state.md R24, R30). -/
def State.Done (s : State) : Prop := s.busy = false ∧ s.done = true

/-- A command that can run goes on, completes, or is refused by R249. -/
theorem State.Runnable.progress (h : s.Runnable) :
    (∃ t, s.progress = .goes t ∧ t.Runnable) ∨ (∃ t, s.progress = .ends t ∧ t.Done) ∨
      s.progress = .refused .dmaIntoWindow := by
  cases hs : s.todo with
  | nil => exact .inr (.inl ⟨_, progress_of_nil hs, rfl, rfl⟩)
  | cons j rest =>
    have hsafe : j.Safe s := by
      obtain ⟨i, rest', hs', -⟩ | hall := h.range
      · rw [hs] at hs'
        cases hs'
        trivial
      · rw [hs] at hall
        exact h.session.safe hs (hall j List.mem_cons_self)
    cases hr : j.run s with
    | ok new u =>
      have hp := progress_of_ok hs hr
      exact .inl ⟨_, hp, h.goes hp⟩
    | error e u =>
      have hst := Job.run_stops j s e u hr
      have hp : s.progress = s.doJob j rest := by rw [State.progress, hs]
      rw [State.doJob, hr] at hp
      cases e with
      | error c i => exact .inr (.inl ⟨_, hp, rfl, rfl⟩)
      | waits =>
        obtain ⟨a, ha | ha⟩ := hst
        · exact absurd ha (h.answers.busAt a).1
        · exact absurd ha (h.answers.busAt a).2
      | fault r => exact absurd hsafe hst
      | refuse r => cases hst; exact .inr (.inr hp)

/-- A run of a command that can run completes it, or is refused by R249. -/
theorem State.Runnable.runOn : ∀ (n : Nat) {s : State}, s.Runnable → s.work ≤ n →
    (∃ t, s.runOn = .next t ∧ t.Done) ∨ s.runOn = .refused .dmaIntoWindow
  | 0, s, _, hn => absurd hn (by unfold State.work; omega)
  | n + 1, s, h, hn => by
    rw [runOn_eq]
    obtain ⟨t, hp, ht⟩ | ⟨t, hp, ht⟩ | hp := h.progress
    · have := progress_work hp
      rw [hp]
      exact State.Runnable.runOn n ht (by omega)
    · rw [hp]; exact .inl ⟨t, rfl, ht⟩
    · rw [hp]; exact .inr rfl

/-- An access of a command that can run leaves one that can run, completes it, or is refused by R249. -/
theorem State.Runnable.toAccess : ∀ (n : Nat) {s : State}, s.Runnable →
    (∃ t, s.toAccess n = .next t ∧ (t.Runnable ∨ t.Done)) ∨ s.toAccess n = .refused .dmaIntoWindow
  | 0, s, h => .inl ⟨s, rfl, .inl h⟩
  | n + 1, s, h => by
    unfold State.toAccess
    obtain ⟨t, hp, ht⟩ | ⟨t, hp, ht⟩ | hp := h.progress
    · rw [hp]
      dsimp only
      split
      · exact .inl ⟨t, rfl, .inl ht⟩
      · exact State.Runnable.toAccess n ht
    · rw [hp]; exact .inl ⟨t, rfl, .inr ht⟩
    · rw [hp]; exact .inr rfl

/-- No operation of the host but a reset keeps a command from running (10_state.md R25; 20_memory.md R88). -/
theorem State.Runnable.hostStep {op : HostOp} {rest : List HostOp} (h : s.Runnable) (hu : s.HostStep op rest t) :
    t.Runnable := by
  have he := hu.engine
  refine ⟨he.busy.trans h.busy, h.session.keep ?_ ?_ ?_, hu.bus h.answers, ?_⟩
  · simp only [State.treeView, he.phase, he.freq, he.node, he.tree, he.code, he.queue]
  · rw [he.todo]; exact h.session.jobs
  · rw [he.todo]; exact id
  · have hc : ∀ j, s.JobInRange j → t.JobInRange j := fun j hj => hj.congr ⟨he.srcAddr, he.srcLen, he.dstAddr, he.dstCap⟩
    rw [he.todo]
    refine h.range.imp ?_ fun hall j hj => hc j (hall j hj)
    rintro ⟨i, rest', hs, hr⟩
    refine ⟨i, rest', hs, fun hok j hj => hc j (hr ?_ j hj)⟩
    obtain ⟨h1, h2, h3⟩ := hok
    simp only [overlaps, he.srcAddr, he.srcLen, he.dstAddr, he.dstCap, he.mmioBase] at h1 h2 h3
    exact ⟨h1, h2, h3⟩

/-- The host's list is no part of what a command needs to run. -/
theorem State.Runnable.dropHost {op : HostOp} {rest : List HostOp} (h : s.Runnable) (hh : s.host = op :: rest) :
    State.Runnable { s with host := rest } :=
  ⟨h.busy, h.session.keep rfl h.session.jobs id, h.answers.of_host hh rfl (.inl rfl),
    h.range.imp (fun ⟨i, r, hs, hr⟩ => ⟨i, r, hs, fun ⟨h1, h2, h3⟩ j hj =>
      (hr ⟨h1, h2, h3⟩ j hj).congr ⟨rfl, rfl, rfl, rfl⟩⟩) fun hall j hj => (hall j hj).congr ⟨rfl, rfl, rfl, rfl⟩⟩

/-- IDLE, the command having completed, or having been abandoned by a reset among the operations `l`. -/
def State.Over (l : List HostOp) (t : State) : Prop := t.busy = false ∧ (t.done = true ∨ HostOp.reset ∈ l)

/-- A step of a command that can run uses an operation of the host up, or is over, or is refused by R249. -/
theorem State.Runnable.step (h : s.Runnable) :
    (∃ t op, step s = .next t ∧ t.Runnable ∧ s.host = op :: t.host) ∨
      (∃ t, step s = .next t ∧ t.Over s.host) ∨ step s = .refused .dmaIntoWindow := by
  obtain ⟨-, hst⟩ | ⟨rest, hh, hst⟩ | ⟨rest, hh, hst⟩ | ⟨op, rest, w, hh, hst, hw⟩ := step_busy h.busy
  · obtain ⟨t, hr, hb, hd⟩ | hr := State.Runnable.runOn _ h (Nat.le_refl _)
    · exact .inr (.inl ⟨t, hst.trans hr, hb, .inl hd⟩)
    · exact .inr (.inr (hst.trans hr))
  · obtain ⟨t, hr, ht | ⟨hb, hd⟩⟩ | hr := State.Runnable.toAccess _ (h.dropHost hh)
    · exact .inl ⟨t, .pass, hst.trans hr, ht, by rw [hh, toAccess_host hr]⟩
    · exact .inr (.inl ⟨t, hst.trans hr, hb, .inl hd⟩)
    · exact .inr (.inr (hst.trans hr))
  · exact .inr (.inl ⟨_, hst, rfl, .inr (by rw [hh]; exact List.mem_cons_self)⟩)
  · exact .inl ⟨w, op, hst, h.hostStep hw, by rw [hh, hw.engine.host]⟩

theorem untilIdle_idle (hb : s.busy = false) (n : Nat) : s.untilIdle n = .next s := by
  cases n with
  | zero => rfl
  | succ n => rw [State.untilIdle, if_neg (by rw [hb]; decide)]

/-- A command that can run is over after as many steps as the host has operations left, and one, or is refused by R249. -/
theorem State.Runnable.untilIdle (n : Nat) (h : s.Runnable) (hn : s.host.length < n) :
    (∃ t, s.untilIdle n = .next t ∧ t.Over s.host) ∨ s.untilIdle n = .refused .dmaIntoWindow := by
  induction n generalizing s with
  | zero => omega
  | succ n ih =>
    rw [State.untilIdle, if_pos h.busy]
    obtain ⟨t, op, hst, ht, hh⟩ | ⟨t, hst, ht⟩ | hst := h.step <;> rw [hst]
    · rw [hh] at hn ⊢
      refine (ih ht (Nat.lt_of_succ_lt_succ hn)).imp_left fun ⟨u, hu, hb, hd⟩ => ⟨u, hu, hb, ?_⟩
      exact hd.imp_right (List.mem_cons_of_mem _)
    · exact .inl ⟨t, untilIdle_idle ht.1 n, ht⟩
    · exact .inr rfl

/-- A command accepted with host memory answering can run. -/
theorem runnable_accepted (i : Instr) (hs : s.SessionOk) (hb : s.BusAnswers) :
    (s.accepted i).Runnable := by
  refine ⟨rfl, ?_, ⟨hb.now, hb.later⟩, .inl ?_⟩
  · exact ⟨False.elim, hs.endOfText, hs.noTree, hs.noCodes, False.elim, False.elim, acceptedJobs_fit s i, rfl⟩
  · obtain ⟨rest, hr⟩ : ∃ rest, s.acceptedJobs i = .check i :: rest := by cases i <;> exact ⟨_, rfl⟩
    refine ⟨i, rest, hr, fun hok j hj => ?_⟩
    obtain ⟨h1, h2, -, h4⟩ := acceptedJobs_within s i j (by rw [hr]; exact List.mem_cons_of_mem _ hj)
    exact ⟨fun hr => (hok.source (h1 hr)).1, fun hw => (hok.dest (h2 hw)).1, h4⟩

/-- A command that host memory answers and no reset abandons completes, or is refused by R249. -/
theorem runToIdle_over (i : Instr) (hs : s.SessionOk) (hb : s.BusAnswers) :
    (∃ t, runToIdle i s = .next t ∧ t.Over s.host) ∨ runToIdle i s = .refused .dmaIntoWindow := by
  have ha := runnable_accepted i hs hb
  rw [runToIdle, exec_eq]
  by_cases hw : s.hostWaits = true
  · rw [if_pos hw]
    obtain ⟨t, hr, hb, hd⟩ | hr := State.Runnable.runOn _ ha (Nat.le_refl _) <;> rw [hr]
    · exact .inl ⟨t, untilIdle_idle hb _, hb, .inl hd⟩
    · exact .inr rfl
  · rw [if_neg hw]
    exact ha.untilIdle _ (Nat.lt_succ_self _)

end Runnable

/-! ### One access at a time, or all at once -/

section Accesses
variable {s t : State}

/-- An access that ends the command ends the run so. -/
theorem runOn_of_toAccess_idle : ∀ (n : Nat) {s t : State}, s.busy = true → s.toAccess n = .next t → t.busy = false →
    s.runOn = .next t
  | 0, _, _, hb, h, ht => by cases h; rw [hb] at ht; cases ht
  | n + 1, s, t, hb, h, ht => by
    unfold State.toAccess at h
    cases hp : s.progress with
    | goes u =>
      have hu : u.busy = true := (outer_busy true).goes hb hp
      rw [hp] at h
      rw [runOn_goes hp]
      dsimp only at h
      split at h
      · cases h; rw [hu] at ht; cases ht
      · exact runOn_of_toAccess_idle n hu h ht
    | ends u => rw [hp] at h; cases h; exact runOn_ends hp
    | waits => rw [hp] at h; cases h; rw [hb] at ht; cases ht
    | fault r => rw [hp] at h; cases h
    | refused r => rw [hp] at h; cases h

/-- An access that stops the machine stops the run so. -/
theorem runOn_of_toAccess_stop {o : Host.Outcome State Fault Refusal} (ho : ∀ t, o ≠ .next t) : ∀ (n : Nat) {s : State},
    s.toAccess n = o → s.runOn = o
  | 0, s, h => absurd h.symm (ho s)
  | n + 1, s, h => by
    unfold State.toAccess at h
    rw [runOn_eq]
    cases hp : s.progress with
    | goes t =>
      rw [hp] at h
      dsimp only at h ⊢
      split at h
      · exact absurd h.symm (ho t)
      · exact runOn_of_toAccess_stop ho n h
    | ends t => rw [hp] at h; exact h
    | waits => rw [hp] at h; exact h
    | fault r => rw [hp] at h; exact h
    | refused r => rw [hp] at h; exact h

/-- A run that stays BUSY waits for host memory, and comes to the same again (log 6). -/
theorem runOn_of_busy : ∀ (n : Nat) {s t : State}, s.work ≤ n → s.runOn = .next t → t.busy = true → t.runOn = .next t
  | 0, s, _, hn, _, _ => absurd hn (by unfold State.work; omega)
  | n + 1, s, t, hn, h, hb => by
    rw [runOn_eq] at h
    cases hp : s.progress with
    | goes u =>
      have := progress_work hp
      rw [hp] at h
      exact runOn_of_busy n (by omega) h hb
    | ends u => rw [hp] at h; cases h; rw [ends_idle hp] at hb; cases hb
    | waits => rw [hp] at h; cases h; exact runOn_waits hp
    | fault r => rw [hp] at h; cases h
    | refused r => rw [hp] at h; cases h

theorem hosted_self {h : List HostOp} (hs : s.host = h) : s.hosted h = s := by rw [← hs]; rfl

/-- After a run for a host that waits, steps change nothing more: the engine is IDLE, or waits for host memory (log 6). -/
theorem untilIdle_after_runOn {u : State} (hh : u.host = [.wait]) (hr : u.runOn = .next t) (n : Nat) :
    t.untilIdle n = .next t ∧ t.host = [.wait] := by
  have ht : t.host = [.wait] := (drive_host hr).trans hh
  refine ⟨?_, ht⟩
  by_cases hb : t.busy = true
  · have hst : step t = .next t :=
      (step_of_runOn (nextMove_waits (hostWaits_iff.2 (.inr ⟨[], ht⟩)) hb)).trans (runOn_of_busy _ (Nat.le_refl _) hr hb)
    induction n with
    | zero => rfl
    | succ n ih => rw [State.untilIdle, if_pos hb, hst]; exact ih
  · exact untilIdle_idle (Bool.eq_false_of_not_eq_true hb) n

/-- A running command let through by `k` passes and then a wait comes to what it comes to with the wait alone, but for the
host's operations left. -/
theorem untilIdle_passes (k : Nat) (hb : s.busy = true) :
    outcomeHosted [.wait] ((s.hosted (List.replicate k .pass ++ [.wait])).untilIdle (k + 2)) =
      (s.hosted [.wait]).runOn := by
  induction k generalizing s with
  | zero =>
    have hst : step (s.hosted [.wait]) = (s.hosted [.wait]).runOn := step_of_runOn (nextMove_waits rfl hb)
    change outcomeHosted [.wait] ((s.hosted [.wait]).untilIdle 2) = _
    rw [State.untilIdle, if_pos (by exact hb), hst]
    cases hr : (s.hosted [.wait]).runOn with
    | next t =>
      obtain ⟨ht, hh⟩ := untilIdle_after_runOn rfl hr 1
      dsimp only
      rw [ht]
      exact congrArg Host.Outcome.next (hosted_self hh)
    | fault r => rfl
    | refused r => rfl
  | succ k ih =>
    have hst : step (s.hosted (List.replicate (k + 1) .pass ++ [.wait])) =
        (s.hosted (List.replicate k .pass ++ [.wait])).oneAccess := step_pass_busy rfl hb
    rw [State.untilIdle, if_pos (by exact hb), hst, oneAccess_hosted, runOn_hosted]
    cases ha : s.oneAccess with
    | next t =>
      by_cases ht : t.busy = true
      · rw [← runOn_toAccess _ ha ht, ← runOn_hosted]
        exact ih ht
      · rw [Bool.not_eq_true] at ht
        rw [runOn_of_toAccess_idle _ hb ha ht]
        have hu := untilIdle_idle (s := t.hosted (List.replicate k .pass ++ [.wait])) ht (k + 2)
        exact (congrArg (outcomeHosted [.wait]) hu).trans rfl
    | fault r => rw [runOn_of_toAccess_stop (fun _ h => by cases h) _ ha]; rfl
    | refused r => rw [runOn_of_toAccess_stop (fun _ h => by cases h) _ ha]; rfl

/-- A command is accepted with the same jobs whatever operations the host has left. -/
theorem accepted_hosted (s : State) (i : Instr) (h : List HostOp) : (s.hosted h).accepted i = (s.accepted i).hosted h := by
  cases i <;> rfl

/-- A command let through by `k` passes and then a wait ends as with the wait alone, but for the host's operations left. -/
theorem runToIdle_passes (i : Instr) (s : State) (k : Nat) :
    outcomeHosted [.wait] (runToIdle i (s.hosted (List.replicate k .pass ++ [.wait]))) = exec i (s.hosted [.wait]) := by
  have hwait : exec i (s.hosted [.wait]) = ((s.accepted i).hosted [.wait]).runOn := by
    rw [exec_eq, accepted_hosted]
    exact if_pos rfl
  cases k with
  | zero =>
    change outcomeHosted [.wait] (runToIdle i (s.hosted [.wait])) = _
    rw [runToIdle, hwait]
    cases hr : ((s.accepted i).hosted [.wait]).runOn with
    | next t =>
      obtain ⟨ht, hh⟩ := untilIdle_after_runOn rfl hr ((s.hosted [.wait]).host.length + 1)
      dsimp only
      rw [ht]
      exact congrArg Host.Outcome.next (hosted_self hh)
    | fault r => rfl
    | refused r => rfl
  | succ k =>
    have hl : (s.hosted (List.replicate (k + 1) .pass ++ [.wait])).host.length + 1 = k + 1 + 2 := by
      change (List.replicate (k + 1) HostOp.pass ++ [HostOp.wait]).length + 1 = _
      simp
    rw [hwait, ← untilIdle_passes (k + 1) (s := s.accepted i) rfl, runToIdle, exec_eq, accepted_hosted, hl]
    rfl

end Accesses

/-- Settles O53: a command that can run uses up the host's operations or completes; an access is the beginning of a run, and
neither looks at the host's list. -/
theorem commandsAlwaysComplete : Obligations.CommandsAlwaysComplete := by
  unfold Obligations.CommandsAlwaysComplete
  refine ⟨fun i s hs hb => runToIdle_over i hs hb, fun _ _ h hb => runOn_toAccess _ h hb,
    fun _ _ hb h ht => runOn_of_toAccess_idle _ hb h ht, fun _ _ h => runOn_of_toAccess_stop (fun _ h => by cases h) _ h,
    fun _ _ h => runOn_of_toAccess_stop (fun _ h => by cases h) _ h, fun s t h => ⟨fun ha => ?_, fun hr => ?_⟩,
    fun i s k => ?_⟩
  · exact (oneAccess_hosted s h).trans (congrArg (outcomeHosted h) ha)
  · exact (runOn_hosted s h).trans (congrArg (outcomeHosted h) hr)
  · have hp := runToIdle_passes i s k
    exact ⟨fun v hv => outcomeHosted_eq_next (hp.trans hv), fun r hr => outcomeHosted_eq_fault (hp.trans hr),
      fun r hr => outcomeHosted_eq_refused (hp.trans hr)⟩

end Sys2Proof.Machine
end

section
/-! SUPPORT. The register window and the host's bytes of memory (10_state.md R20 to R52; 70_reset_and_hazards.md R247): one
rule for a read and one for a write at a register's offset, and one for accesses that reach none; then the fields of the
registers that have several. -/

namespace Sys2Proof.Machine

/-! ### An access at a register's offset, and one that reaches no register -/

section Accesses
variable {s : State}

theorem accessOk_offset (r : Reg) : accessOk r.offset .bits32 = true := by cases r <;> rfl

theorem regAt_offset (r : Reg) : regAt r.offset = some r := regAt_eq_some_iff.2 rfl

/-- The map ends below 0x60 (10_state.md R20). -/
theorem offset_lt (r : Reg) : r.offset.toNat < 0x60 := by cases r <;> decide

theorem hostAct_read_idle (hb : s.busy = false) (r : Reg) :
    s.hostAct (.read r.offset .bits32) = s.give (s.regIdle r) := by
  simp only [State.hostAct, State.windowRead, accessOk_offset, regAt_offset, hb, if_true, Bool.false_eq_true, if_false]

theorem hostAct_read_busy (hb : s.busy = true) (r : Reg) :
    s.hostAct (.read r.offset .bits32) = s.draw.2.give (s.regBusy s.draw.1 r) := by
  simp only [State.hostAct, State.windowRead, accessOk_offset, regAt_offset, hb, if_true]

theorem hostAct_write_offset (s : State) (v : Word) (r : Reg) :
    s.hostAct (.write r.offset .bits32 v) = s.regWrite v r := by
  simp only [State.hostAct, State.windowWrite, accessOk_offset, regAt_offset, if_true]

/-- An access of another width, or not aligned, or past the map, reaches no register (10_state.md R21; log 10). -/
theorem reaches_none {off : BitVec 8} {width : AccessWidth}
    (h : width ≠ .bits32 ∨ off.extractLsb' 0 2 ≠ 0#2 ∨ 0x60 ≤ off.toNat) :
    accessOk off width = false ∨ regAt off = none := by
  rw [← Bool.not_eq_true, accessOk, Bool.and_eq_true, widthOk, offsetAligned, beq_iff_eq, beq_iff_eq]
  by_cases hoff : 0x60 ≤ off.toNat
  · refine .inr (Option.eq_none_iff_forall_ne_some.2 fun r hr => ?_)
    rw [regAt_eq_some_iff] at hr
    exact absurd (hr ▸ offset_lt r) (Nat.not_lt.2 hoff)
  · tauto

theorem hostAct_read_none {off : BitVec 8} {width : AccessWidth} (h : accessOk off width = false ∨ regAt off = none) :
    s.hostAct (.read off width) = s.give 0#32 := by
  simp only [State.hostAct, State.windowRead]
  obtain h | h := h <;> simp [h]

theorem hostAct_write_none {off : BitVec 8} {width : AccessWidth} (h : accessOk off width = false ∨ regAt off = none)
    (v : Word) : s.hostAct (.write off width v) = s := by
  simp only [State.hostAct, State.windowWrite]
  obtain h | h := h <;> simp [h]

/-- A write, of any width, at a register that takes none is ignored. -/
theorem hostAct_write_ignored {r : Reg} {v : Word} (h : s.regWrite v r = s) (width : AccessWidth) :
    s.hostAct (.write r.offset width v) = s := by
  by_cases hw : width = .bits32
  · rw [hw, hostAct_write_offset, h]
  · exact hostAct_write_none (reaches_none (.inl hw)) v

/-- The registers that are read only (10_state.md R20). -/
def readOnlyRegs : List Reg :=
  [.id, .status, .errInfo, .freqCount, .freqFlags, .codeInfo, .codeBits, .nodeInfo, .nodeChild, .nodeWeightLo,
    .nodeWeightHi, .treeInfo]

theorem regWrite_readOnly {r : Reg} (h : r ∈ readOnlyRegs) (v : Word) : s.regWrite v r = s := by
  cases r
  case cmd | intEn | intStatus | srcAddr | srcLen | srcPos | dstAddr | dstCap | dstLen | freqSel | codeSel | nodeSel =>
    exact absurd h (by decide)
  all_goals rfl

/-- The registers a read shows exactly while BUSY, but for STATUS (10_state.md R26). -/
def exactRegs : List Reg :=
  [.id, .cmd, .intEn, .intStatus, .srcAddr, .srcLen, .dstAddr, .dstCap, .freqSel, .codeSel, .nodeSel]

theorem regBusy_exact {r : Reg} (h : r ∈ exactRegs) (f : Word) : s.regBusy f r = s.regIdle r := by
  cases r
  case status | srcPos | dstLen | errInfo | freqCount | freqFlags | codeInfo | codeBits | nodeInfo | nodeChild |
      nodeWeightLo | nodeWeightHi | treeInfo =>
    exact absurd h (by decide)
  all_goals rfl

/-- A write of INT_STATUS clears DONE_PEND by its bit 0 (10_state.md R35). -/
theorem regWrite_intStatus (s : State) (v : Word) :
    s.regWrite v .intStatus = { s with donePend := s.donePend && !v.getLsbD 0 } := by
  rw [State.regWrite]
  cases v.getLsbD 0 with
  | true => rw [if_pos rfl, Bool.not_true, Bool.and_false]
  | false => rw [if_neg Bool.false_ne_true, Bool.not_false, Bool.and_true]

/-- `WAIT` while IDLE is over at once, with STATUS read (30_encoding.md R101). -/
theorem step_wait_idle {rest : List HostOp} (h : s.host = .wait :: rest) (hb : s.busy = false) :
    step s = .next ({ s with host := rest }.give s.statusWord) := by
  apply step_of_settled
  rw [nextMove_cons h, hostMove, waitMove, if_neg (by simp [hb])]
  rfl

end Accesses

/-! ### The host's bytes of memory -/

section Bytes
variable {s : State}

theorem hostAct_memWrite_idle (hb : s.busy = false) (a : Word) (b : Byte) :
    s.hostAct (.memWrite a b) = s.store a.toNat b := by
  simp only [State.hostAct, State.hostStore, hb, Bool.false_and, Bool.false_eq_true, if_false]

theorem hostAct_memRead_idle (hb : s.busy = false) (a : Word) :
    s.hostAct (.memRead a) = s.give (0#24 ++ Memory.read s.mem a.toNat) := by
  simp only [State.hostAct, State.hostLoad, hb, Bool.false_and, Bool.false_eq_true, if_false]

/-- A byte of the running command's destination the host writes takes any value, and is marked (log 12). -/
theorem hostAct_memWrite_dest (hb : s.busy = true) {a : Word} (hd : s.inDest a.toNat = true) (b : Byte) :
    s.hostAct (.memWrite a b) =
      { s.draw.2.store a.toNat (s.draw.1.extractLsb' 0 8) with
        dstTouched := a.toNat :: s.dstTouched
        srcTouched := if s.inSource a.toNat then a.toNat :: s.srcTouched else s.srcTouched } := by
  simp only [State.hostAct, State.hostStore, hb, hd, Bool.and_self, if_true]

/-- A byte of the running command's source alone the host writes is written, and is marked (log 12). -/
theorem hostAct_memWrite_source (hb : s.busy = true) {a : Word} (hs : s.inSource a.toNat = true)
    (hd : s.inDest a.toNat = false) (b : Byte) :
    s.hostAct (.memWrite a b) = { s.store a.toNat b with srcTouched := a.toNat :: s.srcTouched } := by
  simp only [State.hostAct, State.hostStore, hb, hs, hd, Bool.and_self, Bool.and_false, Bool.false_eq_true, if_true,
    if_false]

theorem hostAct_memWrite_apart {a : Word} (hs : s.inSource a.toNat = false) (hd : s.inDest a.toNat = false) (b : Byte) :
    s.hostAct (.memWrite a b) = s.store a.toNat b := by
  simp only [State.hostAct, State.hostStore, hs, hd, Bool.and_false, Bool.false_eq_true, if_false]

theorem hostAct_memRead_dest (hb : s.busy = true) {a : Word} (hd : s.inDest a.toNat = true) :
    s.hostAct (.memRead a) = s.draw.2.give (0#24 ++ s.draw.1.extractLsb' 0 8) := by
  simp only [State.hostAct, State.hostLoad, hb, hd, Bool.and_self, if_true]

theorem hostAct_memRead_apart {a : Word} (hd : s.inDest a.toNat = false) :
    s.hostAct (.memRead a) = s.give (0#24 ++ Memory.read s.mem a.toNat) := by
  simp only [State.hostAct, State.hostLoad, hd, Bool.and_false, Bool.false_eq_true, if_false]

theorem fetchByte_touched {a : Nat} (h : a ∈ s.srcTouched) :
    fetchByte a s = .ok (s.draw.1.extractLsb' 0 8) s.draw.2 := if_pos (List.contains_iff_mem.2 h)

theorem putByte_touched {a : Nat} (h : a ∈ s.dstTouched) (b : Byte) :
    putByte a b s = .ok () { s.draw.2.store a (s.draw.1.extractLsb' 0 8) with
      undo := (a, Memory.read s.mem a) :: s.undo } := if_pos (List.contains_iff_mem.2 h)

end Bytes

/-! ### The fields of the registers -/

section Fields

theorem atLeast_counted {p : Phase} : p.atLeast .counted = true ↔ p ≠ .empty := by cases p <;> decide

theorem atLeast_built {p : Phase} : p.atLeast .built = true ↔ p = .built ∨ p = .coded := by cases p <;> decide

theorem atLeast_coded {p : Phase} : p.atLeast .coded = true ↔ p = .coded := by cases p <;> decide

/-- STATUS, bit by bit (10_state.md R29). -/
theorem statusLayout_bits (stage cmd : BitVec 4) (errCode : BitVec 8) (extraInput : Bool) (phase : BitVec 2)
    (cmdDropped err done busy : Bool) :
    let v := statusLayout stage cmd errCode extraInput phase cmdDropped err done busy
    v.getLsbD 0 = busy ∧ v.getLsbD 1 = done ∧ v.getLsbD 2 = err ∧ v.getLsbD 3 = cmdDropped ∧ v.getLsbD 6 = extraInput ∧
      v.getLsbD 7 = false := by
  simp only [statusLayout, BitVec.getLsbD_append]
  simp

/-- STATUS, its fields of several bits (10_state.md R29). -/
theorem statusLayout_fields (stage cmd : BitVec 4) (errCode : BitVec 8) (extraInput : Bool) (phase : BitVec 2)
    (cmdDropped err done busy : Bool) :
    let v := statusLayout stage cmd errCode extraInput phase cmdDropped err done busy
    v.extractLsb' 4 2 = phase ∧ v.extractLsb' 8 8 = errCode ∧ v.extractLsb' 16 4 = cmd ∧ v.extractLsb' 20 4 = stage ∧
      v.extractLsb' 24 8 = 0#8 := by
  simp (disch := decide) only [statusLayout, BitVec.extractLsb'_append_eq_of_le, BitVec.extractLsb'_append_eq_right,
    BitVec.extractLsb'_eq_self, Nat.reduceSub, and_self]

/-- A register of one flag (10_state.md R34, R35, R44). -/
theorem flagReg_fields (b : Bool) :
    (0#31 ++ BitVec.ofBool b : Word).getLsbD 0 = b ∧ (0#31 ++ BitVec.ofBool b : Word).extractLsb' 1 31 = 0#31 := by
  refine ⟨?_, BitVec.extractLsb'_append_eq_left⟩
  simp only [BitVec.getLsbD_append]
  simp

/-- CODE_SEL (10_state.md R50). -/
theorem codeSel_fields (s : State) :
    let v := s.regIdle .codeSel
    v.extractLsb' 0 9 = s.codeSym ∧ v.extractLsb' 9 7 = 0#7 ∧ v.extractLsb' 16 3 = s.codeChunk ∧
      v.extractLsb' 19 13 = 0#13 := by
  simp (disch := decide) only [State.regIdle, BitVec.extractLsb'_append_eq_of_le, BitVec.extractLsb'_append_eq_right,
    BitVec.extractLsb'_eq_self, Nat.reduceSub, and_self]

variable {s : State}

theorem codeShown_iff : s.codeShown = true ↔ s.phase = .coded ∧ (s.codeAt s.codeSym.toNat).valid = true := by
  rw [State.codeShown, Bool.and_eq_true, atLeast_coded]

/-- CODE_INFO of a code shown (10_state.md R51). -/
theorem codeInfo_fields (h : s.codeShown = true) :
    let v := s.regIdle .codeInfo
    v.getLsbD 31 = true ∧ v.extractLsb' 9 22 = 0#22 ∧ v.extractLsb' 0 9 = (s.codeAt s.codeSym.toNat).len := by
  simp only [State.regIdle, State.codeInfoReg, if_pos h]
  refine ⟨?_, ?_, BitVec.extractLsb'_append_eq_right⟩
  · simp only [BitVec.getLsbD_append]
    simp
  · simp (disch := decide) only [BitVec.extractLsb'_append_eq_of_le, BitVec.extractLsb'_append_eq_right, Nat.reduceSub]

/-- CODE_BITS of a code shown: the digits of the selected chunk, the first in bit 31 (10_state.md R52). -/
theorem codeBits_bit (h : s.codeShown = true) {i : Nat} (hi : i < 32) :
    (s.regIdle .codeBits).getLsbD (31 - i) =
      (s.codeAt s.codeSym.toNat).bits.getLsbD (32 * s.codeChunk.toNat + i) := by
  have hrev : 32 - 1 - (31 - i) = i := by omega
  simp only [State.regIdle, State.codeBitsReg, if_pos h, BitVec.getLsbD_reverse, BitVec.getMsbD_eq_getLsbD, hrev,
    BitVec.getLsbD_extractLsb', hi, Nat.sub_lt_of_lt (show 31 < 32 by decide), decide_true, Bool.true_and]

/-- TREE_INFO from BUILT on (10_state.md R48). -/
theorem treeInfo_fields (h : s.phase.atLeast .built = true) :
    let v := s.regIdle .treeInfo
    v.getLsbD 31 = true ∧ v.extractLsb' 0 10 = s.tree.root ∧ v.extractLsb' 10 6 = 0#6 ∧
      v.extractLsb' 16 10 = s.tree.nodes ∧ v.extractLsb' 26 5 = 0#5 := by
  simp only [State.regIdle, State.treeInfoReg, if_pos h]
  refine ⟨?_, ?_⟩
  · simp only [BitVec.getLsbD_append]
    simp
  · simp (disch := decide) only [BitVec.extractLsb'_append_eq_of_le, BitVec.extractLsb'_append_eq_right, Nat.reduceSub,
      and_self]

/-- NODE_INFO of a node shown (10_state.md R46). -/
theorem nodeInfo_fields (h : s.nodeShown = true) :
    let v := s.regIdle .nodeInfo
    let e := s.nodeAt s.nodeSel.toNat
    v.getLsbD 31 = true ∧ v.getLsbD 30 = e.leaf ∧ v.extractLsb' 9 21 = 0#21 ∧
      v.extractLsb' 0 9 = if e.leaf then e.sym else 0#9 := by
  simp only [State.regIdle, State.nodeInfoReg, if_pos h]
  refine ⟨?_, ?_, ?_, BitVec.extractLsb'_append_eq_right⟩
  · simp only [BitVec.getLsbD_append]
    simp
  · simp only [BitVec.getLsbD_append]
    simp
  · simp (disch := decide) only [BitVec.extractLsb'_append_eq_of_le, BitVec.extractLsb'_append_eq_right, Nat.reduceSub]

/-- NODE_CHILD of an internal node shown (10_state.md R47). -/
theorem nodeChild_fields (h : s.nodeShown = true) (hl : (s.nodeAt s.nodeSel.toNat).leaf = false) :
    let v := s.regIdle .nodeChild
    v.extractLsb' 0 10 = (s.nodeAt s.nodeSel.toNat).left ∧ v.extractLsb' 16 10 = (s.nodeAt s.nodeSel.toNat).right ∧
      v.extractLsb' 10 6 = 0#6 ∧ v.extractLsb' 26 6 = 0#6 := by
  have hc : (s.nodeShown && !(s.nodeAt s.nodeSel.toNat).leaf) = true := by rw [h, hl]; rfl
  simp (disch := decide) only [State.regIdle, State.nodeChildReg, if_pos hc, BitVec.extractLsb'_append_eq_of_le,
    BitVec.extractLsb'_append_eq_right, BitVec.extractLsb'_eq_self, Nat.reduceSub, and_self]

/-- NODE_WEIGHT_HI and NODE_WEIGHT_LO together are the weight (10_state.md R47). -/
theorem nodeWeight_halves (h : s.nodeShown = true) :
    s.regIdle .nodeWeightHi ++ s.regIdle .nodeWeightLo = (s.nodeAt s.nodeSel.toNat).weight := by
  simp only [State.regIdle, State.nodeWeightHiReg, State.nodeWeightLoReg, if_pos h]
  exact (BitVec.extractLsb'_append_extractLsb'_eq_extractLsb' rfl).trans BitVec.extractLsb'_eq_self

end Fields

/-! ### The obligations -/

/-- Settles O6: each register's reset value, by evaluation; the session's arrays are filled with absent entries. -/
theorem resetRegistersReadTheirTableValues : Obligations.ResetRegistersReadTheirTableValues := by
  unfold Obligations.ResetRegistersReadTheirTableValues
  refine ⟨rfl, fun r hr => ?_, rfl, rfl, rfl, freqAt_of_replicate rfl, nodeAt_of_replicate rfl, rfl,
    codeAt_of_replicate rfl⟩
  cases r with
  | id => exact absurd rfl hr
  | _ => decide

/-- Settles O10: a read while IDLE gives the register's value, whose fields are those of its layout. -/
theorem statusFieldsAtTheirBits : Obligations.StatusFieldsAtTheirBits := by
  unfold Obligations.StatusFieldsAtTheirBits
  refine ⟨rfl, rfl, rfl, fun s hb => ⟨fun r => hostAct_read_idle hb r, fun rest =>
    step_wait_idle (s := { s with host := .wait :: rest }) rfl hb, rfl, rfl, rfl, rfl, rfl, rfl, rfl, rfl, rfl, ?_⟩⟩
  obtain ⟨hie, hie0⟩ := flagReg_fields s.doneIE
  obtain ⟨hpend, hpend0⟩ := flagReg_fields s.donePend
  obtain ⟨hsym, hsym0, hchunk, hchunk0⟩ := codeSel_fields s
  obtain ⟨hbusy, hdone, herr, hdropped, hextra, hres⟩ :=
    statusLayout_bits s.stage s.cmd s.errCode.code s.extraInput s.phase.code s.cmdDropped s.err s.done s.busy
  obtain ⟨hphase, hcode, hcmd, hstage, htop⟩ :=
    statusLayout_fields s.stage s.cmd s.errCode.code s.extraInput s.phase.code s.cmdDropped s.err s.done s.busy
  exact ⟨hie, hie0, hpend, hpend0, BitVec.extractLsb'_append_eq_right, BitVec.extractLsb'_append_eq_left, hsym, hsym0,
    hchunk, hchunk0, BitVec.extractLsb'_append_eq_right, BitVec.extractLsb'_append_eq_left, hbusy.trans hb, hdone, herr,
    hdropped, hphase, hextra, hres, hcode, hcmd, hstage, htop⟩

/-- Settles O11: while BUSY a read draws a free value, which shows in PHASE and STAGE and in the registers that are not
exact. -/
theorem statusReadsWhileBusy : Obligations.StatusReadsWhileBusy := by
  unfold Obligations.StatusReadsWhileBusy
  refine fun s hb => ⟨⟨s.statusBusy s.draw.1, hostAct_read_busy hb .status, ?_⟩, fun r hr => ?_,
    fun r => ⟨s.regBusy s.draw.1 r, hostAct_read_busy hb r⟩⟩
  · obtain ⟨hbusy, hdone, herr, hdropped, hextra, hres⟩ := statusLayout_bits (s.draw.1.extractLsb' 2 4) s.cmd 0#8 false
      (s.draw.1.extractLsb' 0 2) s.cmdDropped false false true
    obtain ⟨-, hcode, hcmd, -, htop⟩ := statusLayout_fields (s.draw.1.extractLsb' 2 4) s.cmd 0#8 false
      (s.draw.1.extractLsb' 0 2) s.cmdDropped false false true
    exact ⟨hbusy, hdone, herr, hdropped, hextra, hres, hcode, hcmd, htop⟩
  · rw [hostAct_read_busy hb, regBusy_exact hr]
    rfl

/-- Settles O12: such an access reaches no register, and the read-only registers take no write. -/
theorem accessesOutsideTheMapReadZero : Obligations.AccessesOutsideTheMapReadZero := by
  unfold Obligations.AccessesOutsideTheMapReadZero
  refine fun s off width v => ⟨fun h => ⟨hostAct_read_none (reaches_none h), hostAct_write_none (reaches_none h) v⟩,
    fun h => ?_⟩
  change off ∈ readOnlyRegs.map Reg.offset at h
  obtain ⟨r, hr, rfl⟩ := List.mem_map.1 h
  exact hostAct_write_ignored (regWrite_readOnly hr v) width

/-- Settles O13: the register writes, then the host's bytes by the range they are in. -/
theorem writesAreDroppedWhileBusy : Obligations.WritesAreDroppedWhileBusy := by
  unfold Obligations.WritesAreDroppedWhileBusy
  intro s v hb
  have hdrop : ∀ r ∈ [Reg.srcAddr, .srcLen, .srcPos, .dstAddr, .dstCap, .dstLen],
      s.hostAct (.write r.offset .bits32 v) = s := by
    intro r hr
    rw [hostAct_write_offset]
    fin_cases hr <;> exact if_pos hb
  exact ⟨(hostAct_write_offset s v .cmd).trans (if_pos hb), hdrop .srcAddr (by simp), hdrop .srcLen (by simp),
    hdrop .srcPos (by simp), hdrop .dstAddr (by simp), hdrop .dstCap (by simp), hdrop .dstLen (by simp),
    fun a b hs hd => hostAct_memWrite_source hb hs hd b,
    fun a h => fetchByte_touched h,
    fun a hd => ⟨fun b => ⟨_, hostAct_memWrite_dest hb hd b⟩, hostAct_memRead_dest hb hd⟩,
    fun a b h => ⟨_, putByte_touched h b, rfl⟩,
    fun a hs hd b => hostAct_memWrite_apart hs hd b,
    fun a hd => hostAct_memRead_apart hd⟩

/-- Settles O14: the writes of the operand registers, and the host's bytes by the laws of a memory. -/
theorem operandWritesWhileIdle : Obligations.OperandWritesWhileIdle := by
  unfold Obligations.OperandWritesWhileIdle
  intro s v hb
  have hi : ¬ s.busy = true := by simp [hb]
  exact ⟨(hostAct_write_offset s v .srcAddr).trans (if_neg hi), (hostAct_write_offset s v .srcLen).trans (if_neg hi),
    (hostAct_write_offset s v .srcPos).trans (if_neg hi), (hostAct_write_offset s v .dstAddr).trans (if_neg hi),
    (hostAct_write_offset s v .dstCap).trans (if_neg hi), (hostAct_write_offset s v .dstLen).trans (if_neg hi),
    fun a b => ⟨Memory.write s.mem a.toNat b, hostAct_memWrite_idle hb a b, Memory.read_write_same _ _ _,
      fun _ hx => Memory.read_write_other _ _ _ hx⟩,
    fun a => hostAct_memRead_idle hb a⟩

/-- Settles O15: these registers take a write whatever BUSY is. -/
theorem writableAtAnyTime : Obligations.WritableAtAnyTime := by
  unfold Obligations.WritableAtAnyTime
  exact fun s v => ⟨hostAct_write_offset s v .intEn, (hostAct_write_offset s v .intStatus).trans (regWrite_intStatus s v),
    hostAct_write_offset s v .freqSel, hostAct_write_offset s v .codeSel, hostAct_write_offset s v .nodeSel⟩

/-- Settles O16: an entry is shown exactly when its phase is reached and it is valid. -/
theorem tableRegistersShowTheEntries : Obligations.TableRegistersShowTheEntries := by
  unfold Obligations.TableRegistersShowTheEntries
  intro s
  refine ⟨fun h => ?_, fun hp hv => ?_, fun h => ?_, fun hp hv => ?_⟩
  · have hn : (s.phase.atLeast .counted && (s.freqAt s.freqSel.toNat).valid) = false := by
      rw [← Bool.not_eq_true, Bool.and_eq_true, atLeast_counted]
      simpa [or_iff_not_imp_left] using h
    simp only [State.regIdle, State.freqCountReg, State.freqFlagsReg, hn]
    exact ⟨rfl, rfl⟩
  · have hy : (s.phase.atLeast .counted && (s.freqAt s.freqSel.toNat).valid) = true := by
      rw [Bool.and_eq_true, atLeast_counted]
      exact ⟨hp, hv⟩
    simp only [State.regIdle, State.freqCountReg, State.freqFlagsReg, hy]
    exact ⟨rfl, rfl⟩
  · have hn : ¬ s.codeShown = true := by
      rw [codeShown_iff]
      simpa [or_iff_not_imp_left] using h
    exact ⟨if_neg hn, if_neg hn⟩
  · have hy : s.codeShown = true := codeShown_iff.2 ⟨hp, hv⟩
    obtain ⟨hvalid, hzero, hlen⟩ := codeInfo_fields hy
    exact ⟨hvalid, hzero, hlen, fun _ hi => codeBits_bit hy hi⟩

/-- Settles O17: TREE_INFO is shown from BUILT on, and a node where it is one of the tree's. -/
theorem treeRegistersShowTheTree : Obligations.TreeRegistersShowTheTree := by
  unfold Obligations.TreeRegistersShowTheTree
  intro s
  refine ⟨fun h => ?_, fun h => ?_, fun hn => ?_, fun hn => ?_⟩
  · have hb : s.phase.atLeast .built = false := by
      obtain hp | hp := h <;> rw [hp] <;> rfl
    exact ⟨if_neg (by simp [hb]), by rw [State.nodeShown, hb, Bool.false_and]⟩
  · have hb : s.phase.atLeast .built = true := atLeast_built.2 h
    obtain ⟨hvalid, hroot, hzero, hnodes, hzero'⟩ := treeInfo_fields hb
    exact ⟨hvalid, hroot, hzero, hnodes, hzero', by rw [State.nodeShown, hb, Bool.true_and]⟩
  · simp only [State.regIdle, State.nodeInfoReg, State.nodeChildReg, State.nodeWeightLoReg, State.nodeWeightHiReg, hn,
      Bool.false_and, Bool.false_eq_true, if_false, and_self]
  · obtain ⟨hvalid, hleaf, hzero, hsym⟩ := nodeInfo_fields hn
    refine ⟨nodeWeight_halves hn, hvalid, hleaf, hzero, fun hl => ⟨hsym.trans (if_pos hl), ?_⟩,
      fun hl => ⟨hsym.trans (if_neg (by simp [hl])), nodeChild_fields hn hl⟩⟩
    exact if_neg (by simp [hl])

end Sys2Proof.Machine
end

section
/-! SUPPORT. What the engine and the host do to host memory (20_memory.md R70, R72, R76, R82): of the jobs only one with a
byte to emit writes, and only that byte; a command stays inside its destination; every step keeps the canonical form. -/

namespace Sys2Proof.Machine

/-! ### What a job keeps that emits no byte -/

/-- A property that holds whatever becomes of the session, the state inside a command and the count of free values: one
that only a DMA write, a completion or the host can end. -/
structure Quiet (P : State → Prop) : Prop where
  draw : ∀ s, P s → P s.draw.2
  inner : ∀ s t, s.SameOutside t → P s → P t

namespace Quiet
variable {P : State → Prop} (hp : Quiet P)
include hp

theorem update {f : State → State} (h : ∀ s : State, s.SameOutside (f s)) : Cmd.Keeps P (update f) :=
  Cmd.Keeps.update fun s hs => hp.inner s (f s) (h s) hs

theorem memRead (a : Nat) : Cmd.Keeps P (memRead a) := by
  refine fun s hs => ?_
  unfold Cmd.Ends Machine.memRead
  by_cases ha : Config.addrSpace ≤ a
  · rw [if_pos ha]; exact hs
  · rw [if_neg ha]
    cases (s.busAt a).onRead with
    | completes =>
      by_cases hc : s.srcTouched.contains a = true
      · simp only [fetchByte, if_pos hc]; exact hp.draw s hs
      · simp only [fetchByte, if_neg hc]; exact hs
    | busError => exact hs
    | never => exact hs

theorem nextByte (pos : Nat) : Cmd.Keeps P (nextByte pos) :=
  Cmd.Keeps.bind Cmd.Keeps.get fun _ => Cmd.Keeps.ite (hp.memRead _) (Cmd.Keeps.raise _ _)

/-- A job that reads a source byte and goes on with it. -/
theorem readByte {α : Type} {f : State → Nat} {g : Byte → Cmd α} (hg : ∀ b, Cmd.Keeps P (g b)) :
    Cmd.Keeps P (do let s ← get; let b ← Machine.memRead (f s); g b) :=
  Cmd.Keeps.bind Cmd.Keeps.get fun _ => Cmd.Keeps.bind (hp.memRead _) hg

theorem only {f : State → State} (h : ∀ s : State, s.SameOutside (f s)) :
    Cmd.Keeps P (do Machine.update f; pure ([] : List Job)) :=
  Cmd.Keeps.bind (hp.update h) fun _ => Cmd.Keeps.pure _

theorem buildStage : Cmd.Keeps P buildStage := by
  refine Cmd.Keeps.bind (hp.update growTree_sameOutside) fun _ s hs => ?_
  unfold Cmd.Ends endBuild
  cases s.queue with
  | nil => exact hs
  | cons r q => exact hp.inner s _ (by constructor <;> rfl) hs

theorem parseKeyByte (pos idx : Nat) (seen : Bool) : Cmd.Keeps P (parseKeyByte pos idx seen) := by
  refine Cmd.Keeps.bind (hp.nextByte pos) fun k => ?_
  cases classify idx seen k with
  | pair sym => exact Cmd.Keeps.pure _
  | endOfTextPair => exact Cmd.Keeps.pure _
  | terminator => exact Cmd.Keeps.pure _
  | malformed => exact Cmd.Keeps.raise _ _

theorem enterPair (kpos sym : Nat) (got : List Byte) (idx : Nat) (seen : Bool) :
    Cmd.Keeps P (enterPair kpos sym got idx seen) :=
  Cmd.Keeps.bind Cmd.Keeps.get fun _ => Cmd.Keeps.ite (Cmd.Keeps.raise _ _) <|
    Cmd.Keeps.bind (hp.update fun _ => by constructor <;> rfl) fun _ => Cmd.Keeps.pure _

theorem putDigit (d : Bool) (ds : List Bool) : Cmd.Keeps P (putDigit d ds) :=
  Cmd.Keeps.bind (hp.update fun _ => by constructor <;> rfl) fun _ => Cmd.Keeps.bind Cmd.Keeps.get fun _ =>
    Cmd.Keeps.ite (Cmd.Keeps.bind (hp.update fun _ => by constructor <;> rfl) fun _ => Cmd.Keeps.pure _)
      (Cmd.Keeps.pure _)

theorem decodeByte (pos : Nat) : Cmd.Keeps P (decodeByte pos) :=
  Cmd.Keeps.bind Cmd.Keeps.get fun _ => Cmd.Keeps.ite
    (Cmd.Keeps.bind (hp.memRead _) fun _ => Cmd.Keeps.bind (hp.update fun _ => by constructor <;> rfl) fun _ =>
      Cmd.Keeps.pure _)
    (Cmd.Keeps.raise _ _)

theorem decodeBit (bpos n : Nat) : Cmd.Keeps P (decodeBit bpos n) := by
  have moves : ∀ g : State → BitVec 10, Cmd.Keeps P (Machine.update fun s => s.walkTo (g s)) := fun _ =>
    hp.update fun _ => by constructor <;> rfl
  refine Cmd.Keeps.bind Cmd.Keeps.get fun s => Cmd.Keeps.bind (?_ : Cmd.Keeps P (walkOn bpos s.walkDigit)) fun _ =>
    Cmd.Keeps.bind (hp.update fun _ => by constructor <;> rfl) fun _ => (?_ : Cmd.Keeps P (atNode bpos n))
  · exact Cmd.Keeps.bind Cmd.Keeps.get fun _ =>
      Cmd.Keeps.ite (Cmd.Keeps.ite (Cmd.Keeps.raise _ _) (moves _)) (moves _)
  · exact Cmd.Keeps.bind Cmd.Keeps.get fun _ => Cmd.Keeps.ite
      (Cmd.Keeps.ite (Cmd.Keeps.bind (hp.update fun _ => by constructor <;> rfl) fun _ => Cmd.Keeps.pure _)
        (Cmd.Keeps.pure _))
      (Cmd.Keeps.pure _)

/-- A job that has no byte to emit keeps what is quiet, however it ends. -/
theorem run {j : Job} (hj : ∀ b bs, j ≠ .emit (b :: bs)) : Cmd.Keeps P j.run := by
  cases j with
  | check i => exact Cmd.Keeps.bind (Cmd.Keeps.startChecks i) fun _ => Cmd.Keeps.pure _
  | stage i => exact hp.only fun _ => by constructor <;> rfl
  | clear => exact hp.only fun _ => by constructor <;> rfl
  | count k n =>
    cases n with
    | zero => exact Cmd.Keeps.pure _
    | succ n =>
      exact hp.readByte fun _ => Cmd.Keeps.bind (hp.update fun _ => by constructor <;> rfl) fun _ => Cmd.Keeps.pure _
  | endCount => exact hp.only fun _ => by constructor <;> rfl
  | build => exact Cmd.Keeps.bind hp.buildStage fun _ => Cmd.Keeps.pure _
  | derive =>
    exact hp.only fun s => State.SameOutside.trans (t := s.dropCodes) (by constructor <;> rfl)
      ((deriveCodes_sameOutside _).trans (by constructor <;> rfl))
  | serialize =>
    exact Cmd.Keeps.bind (hp.update fun _ => by constructor <;> rfl) fun _ =>
      Cmd.Keeps.bind Cmd.Keeps.get fun _ => Cmd.Keeps.pure _
  | emit bs =>
    cases bs with
    | nil => exact Cmd.Keeps.pure _
    | cons b bs => exact absurd rfl (hj b bs)
  | parseKey pos idx seen => exact hp.parseKeyByte pos idx seen
  | parseCount kpos sym got idx seen =>
    exact Cmd.Keeps.ite (Cmd.Keeps.bind (hp.nextByte _) fun _ => Cmd.Keeps.pure _) (hp.enterPair kpos sym got idx seen)
  | endParse pos => exact hp.only fun _ => by constructor <;> rfl
  | startEncode => exact hp.only fun _ => by constructor <;> rfl
  | encode k n =>
    cases n with
    | zero => exact Cmd.Keeps.pure _
    | succ n =>
      exact hp.readByte fun _ => Cmd.Keeps.bind Cmd.Keeps.get fun _ =>
        Cmd.Keeps.ite (Cmd.Keeps.pure _) (Cmd.Keeps.raise _ _)
  | put ds =>
    cases ds with
    | nil => exact Cmd.Keeps.pure _
    | cons d ds => exact hp.putDigit d ds
  | endOfText => exact Cmd.Keeps.bind Cmd.Keeps.get fun _ => Cmd.Keeps.pure _
  | pad => exact Cmd.Keeps.bind Cmd.Keeps.get fun _ => Cmd.Keeps.ite (Cmd.Keeps.pure _) (Cmd.Keeps.pure _)
  | startDecode =>
    exact Cmd.Keeps.bind (hp.update fun _ => by constructor <;> rfl) fun _ =>
      Cmd.Keeps.bind (hp.update fun _ => by constructor <;> rfl) fun _ =>
        Cmd.Keeps.bind Cmd.Keeps.get fun _ => Cmd.Keeps.pure _
  | decode pos => exact hp.decodeByte pos
  | bits bpos n =>
    cases n with
    | zero => exact Cmd.Keeps.pure _
    | succ n => exact hp.decodeBit bpos n
  | toRoot => exact hp.only fun _ => by constructor <;> rfl

end Quiet

/-- Only a DMA write of the engine changes host memory and the old values kept of the bytes written. -/
theorem quiet_mem (m : List Host.Cell) (l : List Host.Cell) : Quiet (fun s => s.mem = m ∧ s.undo = l) where
  draw := fun _ h => h
  inner := fun _ _ h hs => ⟨h.mem.trans hs.1, h.undo.trans hs.2⟩

/-! ### The byte a job emits -/

/-- One byte is written at the next destination byte, with room for it, its old value is kept, and DST_LEN counts it
(44_table_serializer.md R151; log 11). -/
structure State.WritesNext (s t : State) : Prop where
  room : s.dstLen.toNat < s.dstCap.toNat
  mem : ∃ v, t.mem = Memory.write s.mem s.dstByte v
  undo : t.undo = (s.dstByte, Memory.read s.mem s.dstByte) :: s.undo
  counted : t.dstByte = s.dstByte + 1

section Writes
variable {s t : State} {new : List Job}

theorem State.WritesNext.read_other (h : s.WritesNext t) {x : Nat} (hx : x ≠ s.dstByte) :
    Memory.read t.mem x = Memory.read s.mem x := by
  obtain ⟨v, hv⟩ := h.mem
  rw [hv, Memory.read_write_other _ _ _ hx]

theorem State.WritesNext.inside (h : s.WritesNext t) : rangeHas s.dstAddr s.dstCap s.dstByte = true :=
  Bool.and_eq_true_iff.2 ⟨decide_eq_true (Nat.le_add_right _ _), decide_eq_true (Nat.add_lt_add_left h.room _)⟩

/-- A DMA write that goes through writes one byte, the given one or any value, and keeps the old one
(70_reset_and_hazards.md R247; log 11). -/
theorem memWrite_writes {a : Nat} {v : Byte} (h : memWrite a v s = .ok () t) :
    ∃ w n, t = { s with mem := Memory.write s.mem a w, undo := (a, Memory.read s.mem a) :: s.undo, draws := n } := by
  unfold memWrite at h
  split at h
  · cases h
  · split at h
    · unfold putByte at h
      split at h <;> cases h <;> exact ⟨_, _, rfl⟩
    · cases h
    · cases h

theorem memWrite_error {a : Nat} {v : Byte} {e : Stop} (h : memWrite a v s = .error e t) : t = s := by
  unfold memWrite at h
  split at h
  · cases h; rfl
  · split at h
    · unfold putByte at h
      split at h <;> cases h
    · cases h; rfl
    · cases h; rfl

/-- A byte emitted is the next one, and DST_LEN does not wrap, being below DST_CAP (44_table_serializer.md R151). -/
theorem emit_writes {v : Byte} (h : emit v s = .ok () t) : s.WritesNext t := by
  unfold emit at h
  rw [Cmd.get_bind] at h
  split at h
  · rename_i hr
    obtain ⟨_, u, hw, h⟩ := Cmd.bind_ok_iff.1 h
    cases h
    obtain ⟨w, n, rfl⟩ := memWrite_writes hw
    refine ⟨hr, ⟨w, rfl⟩, rfl, ?_⟩
    have := s.dstCap.isLt
    simp only [State.dstByte, State.bumpDstLen, BitVec.toNat_add, BitVec.toNat_ofNat]
    omega
  · cases h

theorem emit_error {v : Byte} {e : Stop} (h : emit v s = .error e t) : t = s := by
  unfold emit at h
  rw [Cmd.get_bind] at h
  split at h
  · obtain h | ⟨_, u, -, h⟩ := Cmd.bind_error_iff.1 h
    · exact memWrite_error h
    · cases h
  · cases h; rfl

/-- A job that emits a byte writes it; every other job leaves host memory and the old values kept. -/
theorem Job.run_writes {j : Job} (h : j.run s = .ok new t) :
    (t.mem = s.mem ∧ t.undo = s.undo) ∨ ∃ b bs, j = .emit (b :: bs) ∧ s.WritesNext t := by
  by_cases hj : ∃ b bs, j = .emit (b :: bs)
  · obtain ⟨b, bs, rfl⟩ := hj
    exact .inr ⟨b, bs, rfl, emit_writes (emitNext_ok h).1⟩
  · exact .inl (((quiet_mem s.mem s.undo).run fun b bs e => hj ⟨b, bs, e⟩).ok ⟨rfl, rfl⟩ h)

/-- A job that stops leaves host memory as it was (60_exceptions.md R212). -/
theorem Job.run_error_mem {j : Job} {e : Stop} (h : j.run s = .error e t) : t.mem = s.mem := by
  by_cases hj : ∃ b bs, j = .emit (b :: bs)
  · obtain ⟨b, bs, rfl⟩ := hj
    obtain h | ⟨_, u, -, h⟩ := Cmd.bind_error_iff.1 (show emitNext b bs s = _ from h)
    · rw [emit_error h]
    · cases h
  · exact (((quiet_mem s.mem s.undo).run fun b bs e => hj ⟨b, bs, e⟩).error ⟨rfl, rfl⟩ h).1

/-! ### One access of the engine -/

/-- Completion leaves host memory as it was (60_exceptions.md R212, R213). -/
theorem progress_ends_mem (h : s.progress = .ends t) : t.mem = s.mem := by
  obtain ⟨-, rfl⟩ | ⟨j, rest, c, i, u, -, hr, rfl⟩ := progress_ends h
  · rfl
  · rw [← Job.run_error_mem hr]
    cases j.clearsOnError <;> rfl

/-- Only an access writes, and only its own byte. -/
theorem progress_goes_mem (h : s.progress = .goes t) :
    (t.mem = s.mem ∧ t.undo = s.undo) ∨ (s.atAccess = true ∧ s.WritesNext t) := by
  obtain ⟨j, rest, new, u, hs, hr, rfl⟩ := progress_goes h
  obtain hm | ⟨b, bs, rfl, hw⟩ := Job.run_writes hr
  · exact .inl hm
  · exact .inr ⟨by simp only [State.atAccess, hs, Job.accesses], hw.room, hw.mem, hw.undo, hw.counted⟩

/-- One access leaves host memory, or writes one byte, the last that DST_LEN then counts, keeps its old value and goes on
(20_memory.md R70, R82; log 11). -/
theorem toAccess_mem : ∀ (n : Nat) {s t : State}, s.toAccess n = .next t → t.mem = s.mem ∨
    ∃ a v, t.dstByte = a + 1 ∧ t.mem = Memory.write s.mem a v ∧ t.undo = (a, Memory.read s.mem a) :: s.undo ∧
      t.busy = s.busy
  | 0, _, _, h => by cases h; exact .inl rfl
  | n + 1, s, t, h => by
    unfold State.toAccess at h
    split at h
    · rename_i u hg
      have hb : u.busy = s.busy := (outer_busy s.busy).goes rfl hg
      obtain ⟨hm, hu⟩ | ⟨ha, hw⟩ := progress_goes_mem hg
      · split at h
        · cases h; exact .inl hm
        · have ih := toAccess_mem n h
          rwa [hm, hu, hb] at ih
      · rw [if_pos ha] at h
        cases h
        obtain ⟨v, hv⟩ := hw.mem
        exact .inr ⟨s.dstByte, v, hw.counted, hv, hw.undo, hb⟩
    · cases h; exact .inl (progress_ends_mem ‹_›)
    · cases h; exact .inl rfl
    · cases h
    · cases h

theorem oneAccess_reads_same (h : s.oneAccess = .next t) {x : Nat} (hx : x + 1 ≠ t.dstByte) :
    Memory.read t.mem x = Memory.read s.mem x := by
  obtain hm | ⟨a, v, hd, hm, -, -⟩ := toAccess_mem _ h
  · rw [hm]
  · rw [hm, Memory.read_write_other]
    omega

theorem oneAccess_mem_same (hb : s.busy = true) (h : s.oneAccess = .next t) (ht : t.busy = false ∨ t.undo = s.undo) :
    t.mem = s.mem := by
  obtain hm | ⟨a, v, -, -, hu, hbt⟩ := toAccess_mem _ h
  · exact hm
  · obtain ht | ht := ht
    · rw [hbt, hb] at ht; cases ht
    · exact absurd (hu.symm.trans ht) (List.cons_ne_self _ _)

end Writes

/-! ### A command inside its destination -/

/-- The operands of the command `i` accepted in `s` hold in `u`, and every byte outside its destination reads as in `s`;
a command with no destination has no byte inside it (20_memory.md R70). -/
structure State.InsideDest (i : Instr) (s u : State) : Prop where
  held : s.OperandsHeld i u
  outside : ∀ x, (i.writesDest = true → rangeHas s.dstAddr s.dstCap x = false) →
    Memory.read u.mem x = Memory.read s.mem x

section InsideDest
variable {i : Instr} {s u t : State}

theorem State.InsideDest.ends (h : s.InsideDest i u) (he : u.progress = .ends t) : s.InsideDest i t :=
  ⟨h.held.ends he, fun x hx => by rw [progress_ends_mem he]; exact h.outside x hx⟩

theorem State.InsideDest.goes (h : s.InsideDest i u) (hg : u.progress = .goes t) : s.InsideDest i t := by
  refine ⟨h.held.goes hg, fun x hx => ?_⟩
  rw [← h.outside x hx]
  obtain ⟨j, rest, new, v, hs, hr, rfl⟩ := progress_goes hg
  obtain ⟨hm, -⟩ | ⟨b, bs, rfl, hw⟩ := Job.run_writes hr
  · exact congrArg (Memory.read · x) hm
  · refine hw.read_other ?_
    rintro rfl
    have hi : i.writesDest = true := by
      refine Bool.eq_true_of_not_eq_false fun hi => ?_
      have := (h.held.dstLen hi).2 (.emit (b :: bs)) (by rw [hs]; exact List.mem_cons_self)
      cases this
    obtain ⟨-, -, ha, hc⟩ := h.held.operands
    exact absurd (hx hi) (by rw [← ha, ← hc, hw.inside]; decide)

theorem State.InsideDest.drive (h : s.InsideDest i u) {n : Nat} (hr : u.drive n = .next t) : s.InsideDest i t :=
  (drive_induction (P := s.InsideDest i) (Q := s.InsideDest i) (fun _ _ => State.InsideDest.goes)
    (fun _ _ => State.InsideDest.ends) n h hr).elim id id

theorem insideDest_accepted (i : Instr) (s : State) : s.InsideDest i (s.accepted i) :=
  ⟨operandsHeld_accepted i s, fun _ _ => rfl⟩

theorem exec_insideDest (h : exec i s = .next t) : s.InsideDest i t := by
  rw [exec_eq] at h
  split at h
  · exact (insideDest_accepted i s).drive h
  · cases h; exact insideDest_accepted i s

end InsideDest

/-- Settles O55: a job with a byte to emit writes at DST_ADDR + DST_LEN below DST_CAP, every other job and every completion
leaves host memory. -/
theorem commandsWriteOnlyTheirDestination : Obligations.CommandsWriteOnlyTheirDestination := by
  unfold Obligations.CommandsWriteOnlyTheirDestination
  refine ⟨fun i s t _ h => (exec_insideDest h).outside, fun s t h x => oneAccess_reads_same h,
    fun s t => oneAccess_mem_same, fun j s t => ⟨?quiet, ?emits, fun e => Job.run_error_mem⟩⟩
  case quiet =>
    intro l h hj
    obtain ⟨hm, -⟩ | ⟨b, bs, rfl, -⟩ := Job.run_writes h
    · exact hm
    · exact absurd rfl (hj b bs)
  case emits =>
    rintro l b bs - h x hx
    obtain ⟨hm, -⟩ | ⟨_, _, -, hw⟩ := Job.run_writes h
    · rw [hm]
    · exact hw.read_other hx

/-! ### The canonical form -/

section Canonical
variable {s t : State}

/-- Every DMA write keeps the form, and nothing else of the engine touches host memory. -/
theorem outer_wf : Outer (fun s => Memory.wf s.mem) where
  closed :=
    { draw := fun _ h => h
      put := fun _ a v _ h => Memory.write_wf h a v
      bump := fun _ h => h }
  inner := fun _ _ h hs => by rw [h.mem]; exact hs

/-- Completion keeps the form. -/
theorem wf_of_completed {u : State} (hu : Memory.wf u.mem)
    (h : t = u ∨ t = u.finish ∨ ∃ clears c info, t = u.takeError clears c info) : Memory.wf t.mem := by
  obtain rfl | rfl | ⟨clears, c, info, rfl⟩ := h
  · exact hu
  · exact hu
  · cases clears <;> exact hu

theorem drive_wf {n : Nat} (h : Memory.wf s.mem) (hr : s.drive n = .next t) : Memory.wf t.mem := by
  obtain ⟨u, hu, ht⟩ := outer_wf.drive n h hr
  exact wf_of_completed hu ht

theorem toAccess_wf {n : Nat} (h : Memory.wf s.mem) (hr : s.toAccess n = .next t) : Memory.wf t.mem := by
  obtain ⟨u, hu, ht⟩ := outer_wf.toAccess n h hr
  exact wf_of_completed hu ht

theorem exec_wf {i : Instr} (h : Memory.wf s.mem) (he : exec i s = .next t) : Memory.wf t.mem := by
  rw [exec_eq] at he
  split at he
  · exact drive_wf (s := s.accepted i) h he
  · cases he; exact h

theorem windowWrite_mem (s : State) (off : BitVec 8) (width : AccessWidth) (v : Word) :
    (s.windowWrite off width v).mem = s.mem := by
  unfold State.windowWrite
  split
  · split
    · rfl
    · rename_i r _
      cases r <;> simp only [State.regWrite] <;> split <;> rfl
  · rfl

theorem windowRead_mem (s : State) (off : BitVec 8) (width : AccessWidth) : (s.windowRead off width).mem = s.mem := by
  unfold State.windowRead
  split
  · split
    · rfl
    · split <;> rfl
  · rfl

theorem hostStore_wf (h : Memory.wf s.mem) (a : Nat) (v : Byte) : Memory.wf (s.hostStore a v).mem := by
  unfold State.hostStore
  split
  · exact Memory.write_wf h a _
  · split <;> exact Memory.write_wf h a v

theorem hostLoad_mem (s : State) (a : Nat) : (s.hostLoad a).mem = s.mem := by
  unfold State.hostLoad
  split <;> rfl

/-- Of the host's operations only a write of host memory changes it. -/
theorem hostAct_wf (h : Memory.wf s.mem) (op : HostOp) : Memory.wf (s.hostAct op).mem := by
  cases op with
  | write off width v => exact (windowWrite_mem s off width v).symm ▸ h
  | read off width => exact (windowRead_mem s off width).symm ▸ h
  | memWrite a v => exact hostStore_wf h a.toNat v
  | memRead a => exact (hostLoad_mem s a.toNat).symm ▸ h
  | answer a r w => exact h
  | reset => exact h
  | release => exact h
  | pass => exact h
  | wait => exact h

/-- The old values a reset puts back are written (70_reset_and_hazards.md R241; log 11). -/
theorem restoreSome_wf : ∀ (l : List Host.Cell) {s : State}, Memory.wf s.mem → Memory.wf (s.restoreSome l).mem
  | [], _, h => h
  | (a, old) :: l, s, h => by
    refine restoreSome_wf l ?_
    split
    · exact Memory.write_wf h a old
    · exact h

/-- The state the engine or the host goes on from. -/
def NextMove.state : NextMove → State
  | .run _ u => u
  | .access u => u
  | .runOn u => u
  | .settled u => u

theorem cmdWrite_wf (h : Memory.wf s.mem) (w : Word) : Memory.wf (cmdWrite w s).state.mem := by
  by_cases hb : s.busy = true
  · rw [cmdWrite_busy hb]; exact h
  · unfold cmdWrite
    rw [if_neg hb]
    split <;> exact h

theorem writeMove_wf (h : Memory.wf s.mem) (off : BitVec 8) (width : AccessWidth) (v : Word) :
    Memory.wf (writeMove s off width v).state.mem := by
  unfold writeMove
  split
  · exact h
  · split
    · exact cmdWrite_wf h v
    · exact hostAct_wf h (.write off width v)

theorem hostMove_wf (h : Memory.wf s.mem) (op : HostOp) : Memory.wf (hostMove s op).state.mem := by
  cases op with
  | write off width v => exact writeMove_wf h off width v
  | read off width => exact hostAct_wf h (.read off width)
  | memWrite a v => exact hostAct_wf h (.memWrite a v)
  | memRead a => exact hostAct_wf h (.memRead a)
  | answer a r w => exact hostAct_wf h (.answer a r w)
  | reset => exact restoreSome_wf s.undo h
  | release => exact h
  | pass =>
    simp only [hostMove, passMove]
    split <;> exact h
  | wait =>
    simp only [hostMove, waitMove]
    split <;> exact h

/-- Each move goes on from a state in the form. -/
theorem nextMove_wf (h : Memory.wf s.mem) : Memory.wf (nextMove s).state.mem := by
  cases hs : s.host with
  | nil =>
    rw [nextMove_nil hs]
    split <;> exact h
  | cons op rest =>
    rw [nextMove_cons hs]
    exact hostMove_wf (s := { s with host := rest }) h op

theorem step_wf (h : Memory.wf s.mem) (hs : step s = .next t) : Memory.wf t.mem := by
  have hm := nextMove_wf h
  unfold step at hs
  split at hs <;> rename_i hn <;> rw [hn] at hm
  · exact exec_wf hm hs
  · exact toAccess_wf hm hs
  · exact drive_wf hm hs
  · cases hs; exact hm

end Canonical

/-- Settles O58: every byte is written by `Memory.write`, which keeps the form. -/
theorem stepKeepsMemoryCanonical : Obligations.StepKeepsMemoryCanonical := by
  unfold Obligations.StepKeepsMemoryCanonical
  exact fun _ _ => step_wf

end Sys2Proof.Machine
end

section
/-! SUPPORT. Bytes emitted up to the first whose write gets a bus error (20_memory.md R87, 60_exceptions.md R212), and
SERIALIZE from its start checks to its first byte (44_table_serializer.md R151, R152). -/

namespace Sys2Proof.Machine

/-! ### The bytes emitted -/

section Emitted
variable {s : State} {bs : List Byte}

/-- Emitting changes host memory, the old values kept and DST_LEN only. -/
theorem wroteAll_eq : ∀ (bs : List Byte) (s : State), ∃ m l d, s.wroteAll bs = { s with mem := m, undo := l, dstLen := d }
  | [], _ => ⟨_, _, _, rfl⟩
  | b :: bs, s => wroteAll_eq bs (s.wrote b)

/-- Bytes emitted with DST_LEN below 2^32 stand where DST_LEN was, and are counted (44_table_serializer.md R151). -/
theorem wroteAll_emitted (h : s.dstLen.toNat + bs.length < 2 ^ 32) :
    s.Emitted (s.wroteAll bs) s.dstLen.toNat bs where
  dstLen := wroteAll_dstLen bs s h
  bytes := by
    refine List.ext_getElem (Memory.bytes_length _ _ _) fun k hk hk' => ?_
    rw [Memory.bytes_getElem, wroteAll_read bs s _ h]
    have hd : s.dstAddr.toNat + s.dstLen.toNat = s.dstByte := rfl
    simp only [hd]
    rw [dif_pos (by omega)]
    simp only [Nat.add_sub_cancel_left]
  others := fun x hx => by
    rw [wroteAll_read bs s x h, dif_neg]
    unfold State.dstByte
    omega

theorem emitJob_ok {b : Byte} (hr : s.dstLen.toNat < s.dstCap.toNat)
    (ha : s.dstAddr.toNat + s.dstCap.toNat ≤ Config.addrSpace) (hb : (s.busAt s.dstByte).onWrite = .completes)
    (ht : s.dstTouched = []) : Job.run (.emit (b :: bs)) s = .ok [.emit bs] (s.wrote b) :=
  Cmd.bind_of_ok (emit_ok hr (by unfold State.dstByte; omega) hb ht)

theorem emitJob_busError {b : Byte} (hr : s.dstLen.toNat < s.dstCap.toNat)
    (ha : s.dstAddr.toNat + s.dstCap.toNat ≤ Config.addrSpace) (hb : (s.busAt s.dstByte).onWrite = .busError) :
    Job.run (.emit (b :: bs)) s = .error (.error .dstBus (BitVec.ofNat 32 s.dstByte)) s :=
  Cmd.bind_of_error (emit_busError hr (by unfold State.dstByte; omega) hb)

/-- The first bytes left to emit are emitted while host memory answers, and the others are left (44_table_serializer.md
R151). -/
theorem runOn_emit_take : ∀ (k : Nat) {bs : List Byte} {s : State} {rest : List Job}, s.todo = .emit bs :: rest →
    s.dstAddr.toNat + s.dstCap.toNat ≤ Config.addrSpace → k ≤ bs.length → s.dstLen.toNat + k ≤ s.dstCap.toNat →
    (∀ j, j < k → (s.busAt (s.dstByte + j)).onWrite = .completes) → s.dstTouched = [] →
    s.runOn = State.runOn { s.wroteAll (bs.take k) with todo := .emit (bs.drop k) :: rest }
  | 0, bs, s, rest, hs, _, _, _, _, _ => by rw [List.take_zero, List.drop_zero, ← hs]; rfl
  | k + 1, [], _, _, _, _, hk, _, _, _ => absurd hk (Nat.not_succ_le_zero k)
  | k + 1, b :: bs, s, rest, hs, ha, hk, hr, hb, ht => by
    have hd : (s.wrote b).dstLen.toNat = s.dstLen.toNat + 1 :=
      wroteAll_dstLen [b] s (by have := s.dstCap.isLt; simp only [List.length_singleton]; omega)
    have hadd : ∀ j, (s.wrote b).dstByte + j = s.dstByte + (j + 1) := fun j => by
      change s.dstAddr.toNat + (s.wrote b).dstLen.toNat + j = s.dstAddr.toNat + s.dstLen.toNat + (j + 1)
      omega
    rw [runOn_goes (progress_of_ok hs (emitJob_ok (by omega) ha (hb 0 (Nat.succ_pos k)) ht))]
    refine (runOn_emit_take k (s := { s.wrote b with todo := .emit bs :: rest }) rfl ha (Nat.le_of_succ_le_succ hk)
      (by change (s.wrote b).dstLen.toNat + k ≤ s.dstCap.toNat; omega)
      (fun j hj => ?_) ht).trans ?_
    · change (s.busAt ((s.wrote b).dstByte + j)).onWrite = .completes
      rw [hadd]
      exact hb (j + 1) (Nat.succ_lt_succ hj)
    · rw [wroteAll_todo]; rfl

/-- Bytes left to emit fail with DST_BUS at the first whose write gets a bus error; those before it are written and counted
(20_memory.md R87, 60_exceptions.md R212). -/
theorem runOn_emit_busError {k : Nat} {rest : List Job} (hs : s.todo = .emit bs :: rest)
    (ha : s.dstAddr.toNat + s.dstCap.toNat ≤ Config.addrSpace) (hk : k < bs.length)
    (hr : s.dstLen.toNat + k < s.dstCap.toNat)
    (hb : ∀ j, j < k → (s.busAt (s.dstByte + j)).onWrite = .completes)
    (he : (s.busAt (s.dstByte + k)).onWrite = .busError) (ht : s.dstTouched = []) :
    s.runOn = .next ((s.wroteAll (bs.take k)).finishError .dstBus (BitVec.ofNat 32 (s.dstByte + k))) := by
  have hlen : (bs.take k).length = k := List.length_take_of_le (Nat.le_of_lt hk)
  have hset := wroteAll_sameSetup (bs.take k) s
  have hd : (s.wroteAll (bs.take k)).dstLen.toNat = s.dstLen.toNat + k := by
    rw [wroteAll_dstLen _ _ (by have := s.dstCap.isLt; omega), hlen]
  have hbyte : (s.wroteAll (bs.take k)).dstByte = s.dstByte + k := by
    simp only [State.dstByte, hset.dstAddr, hd, Nat.add_assoc]
  rw [runOn_emit_take k hs ha (Nat.le_of_lt hk) (Nat.le_of_lt hr) hb ht, List.drop_eq_getElem_cons hk, ← hbyte]
  have hw : Job.run (.emit (bs[k] :: bs.drop (k + 1)))
      { s.wroteAll (bs.take k) with todo := .emit (bs[k] :: bs.drop (k + 1)) :: rest } = _ :=
    emitJob_busError (by rw [hset.dstCap]; exact hd ▸ hr) (by rw [hset.dstAddr, hset.dstCap]; exact ha)
      ((busAt_congr hset.bus _).symm ▸ hbyte.symm ▸ he)
  exact runOn_ends (progress_of_error rfl hw)

end Emitted

/-! ### SERIALIZE -/

section Serialize
variable {s : State}

/-- SERIALIZE accepted and past its start checks: the table section is left to emit, from destination offset 0 on
(44_table_serializer.md R152). -/
def State.serializing (s : State) : State := { (s.accepted .serialize).startDst with todo := [.emit s.tableSection] }

theorem exec_serialize (hw : s.hostWaits = true) (hp : s.phase ≠ .empty) (hr : inRange s.dstAddr s.dstCap = true)
    (ho : touchesWindow s.mmioBase s.dstAddr s.dstCap = false) : exec .serialize s = s.serializing.runOn := by
  have hphase : needPhase (fun p => p.atLeast .counted) (s.accepted .serialize) = .ok () (s.accepted .serialize) :=
    (needPhase_run _ _).trans (if_pos (atLeast_counted.2 hp))
  have hchecks : startChecks .serialize (s.accepted .serialize) = .ok () (s.accepted .serialize) :=
    (Cmd.bind_of_ok hphase).trans (startDest_ok hr ho)
  have hcheck : Job.run (.check .serialize) (s.accepted .serialize) = .ok [] (s.accepted .serialize) :=
    Cmd.bind_of_ok hchecks
  rw [exec_eq, if_pos hw, runOn_goes (progress_of_ok rfl hcheck), runOn_goes (progress_of_ok rfl rfl)]
  rfl

end Serialize

/-- Settles O36: the section's bytes are emitted one by one, up to the one whose write gets a bus error. -/
theorem serializeBusErrorIsPrecise : Obligations.SerializeBusErrorIsPrecise := by
  unfold Obligations.SerializeBusErrorIsPrecise
  intro s k hw hp ha ho hk hcap hb he
  have hlen : (s.tableSection.take k).length = k := List.length_take_of_le (Nat.le_of_lt hk)
  have hzero : s.serializing.dstLen.toNat = 0 := rfl
  have hrun := runOn_emit_busError (s := s.serializing) rfl ha hk (by rw [hzero, Nat.zero_add]; exact hcap) hb he rfl
  obtain ⟨hd, hbytes, hothers⟩ := wroteAll_emitted (s := s.serializing) (bs := s.tableSection.take k)
    (by rw [hzero, hlen]; have := s.dstCap.isLt; omega)
  rw [hlen] at hd hbytes hothers
  have hinfo : BitVec.ofNat 32 (s.serializing.dstByte + k) = s.dstAddr + BitVec.ofNat 32 k := by
    rw [BitVec.ofNat_add, State.dstByte, hzero, Nat.add_zero, BitVec.ofNat_toNat, BitVec.setWidth_eq]
    rfl
  obtain ⟨m, l, d, hu⟩ := wroteAll_eq (s.tableSection.take k) s.serializing
  refine ⟨_, (exec_serialize hw hp (decide_eq_true ha) ho).trans hrun, ?_, ?_, hbytes, hothers, ?_, ?_, ?_⟩
  · rw [hinfo, hu]; constructor <;> rfl
  · exact hd.trans (Nat.zero_add k)
  · rw [hu]; constructor <;> rfl
  · rw [hu]; constructor <;> rfl
  · rw [hu]; rfl

end Sys2Proof.Machine
end

section
/-! SUPPORT. The command word (30_encoding.md R90 to R92): which words decode, and what a CMD write of any other word does. -/

namespace Sys2Proof.Machine

/-! ### Which words decode -/

/-- A row of the opcode map matches the word of its command alone, its mask being that of every bit (30_encoding.md R91). -/
theorem fits_iff_of_mem {r : OpcodeRow} (h : r ∈ opcodeTable) (w : Word) : r.fits w = true ↔ w = encode r.instr := by
  have hrow : ∀ r ∈ opcodeTable, r.mask = BitVec.allOnes 32 ∧ r.pattern = encode r.instr := by decide
  obtain ⟨hmask, hpattern⟩ := hrow r h
  rw [OpcodeRow.fits, hmask, hpattern, BitVec.and_allOnes, beq_iff_eq]

theorem decode_encode (i : Instr) : decode (encode i) = .ok i := by cases i <;> rfl

/-- A word decodes to a command exactly when it is that command's word (30_encoding.md R91). -/
theorem decode_eq_ok_iff {w : Word} {i : Instr} : decode w = .ok i ↔ w = encode i := by
  constructor
  · intro h
    unfold decode at h
    split at h
    · rename_i r hr
      cases h
      exact (fits_iff_of_mem (List.mem_of_find?_eq_some hr) w).1 (List.find?_some (p := fun r : OpcodeRow => r.fits w) hr)
    · split at h <;> cases h
  · rintro rfl
    exact decode_encode i

/-- A word with no command is an error. -/
theorem exists_decode_error_iff {w : Word} : (∃ e, decode w = .error e) ↔ ∀ i, w ≠ encode i := by
  simp only [Ne, ← decode_eq_ok_iff]
  cases decode w with
  | ok i => simp
  | error e => simp

/-- The opcodes of the map are 1 to 11 (30_encoding.md R91). -/
theorem exists_opcode_iff (x : BitVec 4) : (∃ i : Instr, x = i.opcode) ↔ x.toNat ≠ 0 ∧ x.toNat < 12 := by
  constructor
  · rintro ⟨i, rfl⟩
    cases i <;> decide
  · have hmap : ∀ x : BitVec 4, x.toNat ≠ 0 ∧ x.toNat < 12 → ∃ r ∈ opcodeTable, x = r.instr.opcode := by decide
    intro hx
    obtain ⟨r, -, hr⟩ := hmap x hx
    exact ⟨r.instr, hr⟩

/-- A word is that of a command exactly when its reserved bits are 0 and its OPCODE is the command's (30_encoding.md
R90). -/
theorem eq_encode_iff {w : Word} {i : Instr} :
    w = encode i ↔ w.extractLsb' 4 28 = 0#28 ∧ w.extractLsb' 0 4 = i.opcode := by
  constructor
  · rintro rfl
    cases i <;> decide
  · rintro ⟨hhigh, hlow⟩
    have hsplit : w.extractLsb' 4 28 ++ w.extractLsb' 0 4 = w :=
      (BitVec.extractLsb'_append_extractLsb'_eq_extractLsb' (Nat.zero_add 4).symm).trans BitVec.extractLsb'_eq_self
    rw [encode, ← hhigh, ← hlow, hsplit]

/-- The illegal words (30_encoding.md R92). -/
theorem exists_decode_error_iff_reserved {w : Word} : (∃ e, decode w = .error e) ↔
    w.extractLsb' 4 28 ≠ 0#28 ∨ (w.extractLsb' 0 4).toNat = 0 ∨ 12 ≤ (w.extractLsb' 0 4).toNat := by
  have hlegal : (∃ i, w = encode i) ↔
      w.extractLsb' 4 28 = 0#28 ∧ (w.extractLsb' 0 4).toNat ≠ 0 ∧ (w.extractLsb' 0 4).toNat < 12 := by
    simp only [eq_encode_iff, exists_and_left, exists_opcode_iff]
  rw [exists_decode_error_iff, ← not_exists, hlegal]
  simp only [not_and_or, not_not, not_lt, Ne]

/-! ### A CMD write of an illegal word -/

/-- An illegal word while IDLE is accepted and completes at once (30_encoding.md R92; log 20). -/
theorem step_cmdWrite_illegal {s : State} {w : Word} {rest : List HostOp} {e : DecodeError}
    (h : s.host = .write 0x04#8 .bits32 w :: rest) (hr : s.inReset = false) (hb : s.busy = false)
    (he : decode w = .error e) : step s = .next (illegalWord w { s with host := rest }) := by
  apply step_of_settled
  rw [nextMove_cmdWrite h hr]
  simp [cmdWrite, hb, he]

theorem stageOfWord_illegal {w : Word} {e : DecodeError} (he : decode w = .error e) : stageOfWord w = 0#4 := by
  rw [stageOfWord, he]

/-- What an illegal word leaves but the status registers is what stood there. -/
theorem illegalWord_untouched (w : Word) (s : State) : s.Untouched (illegalWord w s) := by
  constructor
  case setup => constructor <;> rfl
  case session => constructor <;> rfl
  all_goals rfl

/-! ### The obligations -/

/-- Settles O1: each word is that of its command, evaluated. -/
theorem opcodeMapWordsDecode : Obligations.OpcodeMapWordsDecode := by
  unfold Obligations.OpcodeMapWordsDecode
  exact ⟨rfl, rfl, rfl, rfl, rfl, rfl, rfl, rfl, rfl, rfl, rfl, fun _ => rfl⟩

/-- Settles O2: every row's mask is that of all 32 bits, so a row matches its own word only. -/
theorem decodeAndEncodeAgree : Obligations.DecodeAndEncodeAgree := by
  unfold Obligations.DecodeAndEncodeAgree
  exact fun _ _ => decode_eq_ok_iff

/-- Settles O3: the words that are no command's are those with a reserved bit set or an OPCODE outside 1 to 11. -/
theorem illegalWordsAreExactlyTheReservedOnes : Obligations.IllegalWordsAreExactlyTheReservedOnes := by
  unfold Obligations.IllegalWordsAreExactlyTheReservedOnes
  exact fun _ => exists_decode_error_iff_reserved

/-- Settles O5: the word does not decode, so the step of its CMD write completes it, leaving all but the flags. -/
theorem illegalWordFailsAtOnce : Obligations.IllegalWordFailsAtOnce := by
  unfold Obligations.IllegalWordFailsAtOnce
  intro s w rest hh hr hb hw
  obtain ⟨e, he⟩ := exists_decode_error_iff_reserved.2 hw
  exact ⟨_, step_cmdWrite_illegal hh hr hb he, rfl, rfl, rfl, rfl, rfl, rfl, stageOfWord_illegal he, rfl, rfl, rfl,
    illegalWord_untouched w _⟩

end Sys2Proof.Machine
end

section
/-! SUPPORT. The table section as the pairs of its symbols, and its length (44_table_serializer.md R150, 30_encoding.md R97). -/

namespace Sys2Proof.Machine

/-- The pair of a symbol: its key byte and its count (30_encoding.md R96). -/
def State.pairOf (s : State) (sym : Nat) : List Byte := pairBytes (keyOf sym) (s.freqAt sym).count

section TableSection
variable (s : State)

theorem length_pairOf (sym : Nat) : (s.pairOf sym).length = 5 := rfl

theorem literalPair_eq_pairOf {b : Nat} (hb : b < 256) :
    literalPair b (s.freqAt b) = if (s.freqAt b).valid then s.pairOf b else [] := by
  rw [literalPair, State.pairOf, keyOf, if_neg (Nat.ne_of_lt hb)]

/-- The pairs of the literals but 3 are those of the symbols present among them, in order (44_table_serializer.md R150). -/
theorem literalPairs_eq_flatMap : ∀ (n b : Nat), b + n ≤ 256 →
    literalPairs ((s.freq.toList.drop b).take n) b =
      ((List.range' b n).filter fun i => i != 3 && (s.freqAt i).valid).flatMap s.pairOf
  | 0, _, _ => rfl
  | n + 1, b, h => by
    have hlen : b < s.freq.toList.length := by rw [Vector.length_toList]; omega
    have hentry : s.freq.toList[b] = s.freqAt b := by
      simp [State.freqAt, Vector.getElem?_eq_getElem (show b < 257 by omega)]
    rw [List.drop_eq_getElem_cons hlen, List.take_succ_cons, hentry, literalPairs,
      literalPairs_eq_flatMap n (b + 1) (by omega), literalPair_eq_pairOf s (by omega), List.range'_succ,
      List.filter_cons]
    by_cases h3 : b = 3
    · simp [h3]
    · by_cases hv : (s.freqAt b).valid = true <;> simp [h3, hv]

/-- The table section is the pairs of its symbols in order, and then the terminator (44_table_serializer.md R150). -/
theorem tableSection_eq_flatMap : s.tableSection = s.sectionSyms.flatMap s.pairOf ++ [Config.terminator] := by
  have hlits := literalPairs_eq_flatMap s 256 0 (Nat.le_refl _)
  rw [List.drop_zero, ← List.range_eq_range'] at hlits
  have heot : pairBytes Config.eotKey (s.freqAt Config.endOfText).count = s.pairOf Config.endOfText := rfl
  rw [State.tableSection, State.sectionSyms, hlits, heot, literalPair_eq_pairOf s (by decide)]
  split <;> simp

theorem length_tableSection : s.tableSection.length = 5 * s.sectionSyms.length + 1 := by
  simp [tableSection_eq_flatMap, List.length_flatMap, length_pairOf, Nat.mul_comm]

/-- The literals present in FREQ, in increasing order (10_state.md R41). -/
def State.literals : List Nat := (List.range 256).filter fun b => (s.freqAt b).valid

/-- The symbols of the table section are the literals present and END_OF_TEXT: 3 is only put first (44_table_serializer.md
R150). -/
theorem length_sectionSyms : s.sectionSyms.length = s.literals.length + 1 := by
  have hothers : ((List.range 256).filter fun b => b != 3 && (s.freqAt b).valid) = s.literals.erase 3 := by
    rw [State.literals, (List.nodup_range.filter _).erase_eq_filter, List.filter_filter]
  have hmem : 3 ∈ s.literals ↔ (s.freqAt 3).valid = true := by simp [State.literals]
  rw [State.sectionSyms, hothers, List.length_append, List.length_cons, List.length_erase]
  split
  · have hpos := List.length_pos_of_mem (hmem.2 ‹_›)
    rw [if_pos (hmem.2 ‹_›), List.length_singleton]
    omega
  · rw [if_neg (mt hmem.1 ‹_›), List.length_nil, Nat.zero_add]

theorem length_literals_le : s.literals.length ≤ 256 :=
  (List.length_filter_le _ _).trans (Nat.le_of_eq List.length_range)

end TableSection

/-- Settles O37: five bytes for each literal present and for END_OF_TEXT, and the terminator. -/
theorem tableSectionLength : Obligations.TableSectionLength := by
  unfold Obligations.TableSectionLength
  intro s
  have hlen : s.tableSection.length = 5 * (s.literals.length + 1) + 1 := by
    rw [length_tableSection, length_sectionSyms]
  have hle := length_literals_le s
  exact ⟨hlen, by omega, by omega⟩

end Sys2Proof.Machine
end

section
/-! SUPPORT. A stage does the same in the middle of a composite as in a command of its own (46_session_ops.md R194): no job
looks at STATUS.CMD, at DONE_PEND, at the old values kept or at the jobs after it, in which alone the two runs differ. -/

namespace Sys2Proof.Machine

/-- What is the composite's while one of its stages runs: STATUS.CMD; DONE_PEND, which the stages before have not set; the
old values of the bytes those wrote; the jobs of the stages after. -/
structure Composite where
  cmd : BitVec 4
  donePend : Bool
  undo : List Host.Cell
  rest : List Job

/-- A state of a stage's own run, in the middle of a composite. -/
def State.within (s : State) (c : Composite) : State :=
  { s with cmd := c.cmd, donePend := c.donePend, undo := s.undo ++ c.undo, todo := s.todo ++ c.rest }

/-- `x` does the same in the middle of a composite. -/
def Cmd.StageBlind {α : Type} (x : Cmd α) : Prop :=
  ∀ s c, x (s.within c) = (match x s with
    | .ok a t => .ok a (t.within c)
    | .error e t => .error e (t.within c))

namespace Cmd.StageBlind
variable {α β : Type} {x y : Cmd α} {f : α → Cmd β}

theorem pure (a : α) : StageBlind (Pure.pure a : Cmd α) := fun _ _ => rfl

theorem raise (e : ErrCode) (i : Word) : StageBlind (Machine.raise e i : Cmd α) := fun _ _ => rfl

theorem update {f : State → State} (hf : ∀ s c, f (s.within c) = (f s).within c) : StageBlind (Machine.update f) :=
  fun s c => congrArg (EStateM.Result.ok ()) (hf s c)

theorem bind (hx : StageBlind x) (hf : ∀ a, StageBlind (f a)) : StageBlind (x >>= f) := by
  intro s c
  rw [Cmd.bind_eq, Cmd.bind_eq, hx s c]
  cases x s with
  | ok a t => exact hf a t c
  | error e t => rfl

/-- Reading the state for what a composite does not change. -/
theorem read {f : State → Cmd β} (hf : ∀ s c, f (s.within c) = f s) (hb : ∀ s, StageBlind (f s)) :
    StageBlind ((get : Cmd State) >>= f) := fun s c => by
  rw [Cmd.get_bind, Cmd.get_bind, hf]
  exact hb s s c

theorem ite {p : Prop} [Decidable p] (hx : StageBlind x) (hy : StageBlind y) : StageBlind (if p then x else y) := by
  split
  · exact hx
  · exact hy

/-- An update with nothing left to do after it. -/
theorem only {f : State → State} (hf : ∀ s c, f (s.within c) = (f s).within c) :
    StageBlind (do Machine.update f; Pure.pure ([] : List Job)) := bind (update hf) fun _ => pure _

theorem memRead (a : Nat) : StageBlind (memRead a) := by
  intro s c
  have hbus : (s.within c).busAt a = s.busAt a := rfl
  have htouched : (s.within c).srcTouched = s.srcTouched := rfl
  unfold Machine.memRead fetchByte
  rw [hbus, htouched]
  split
  · rfl
  · split
    · split <;> rfl
    · rfl
    · rfl

theorem memWrite (a : Nat) (v : Byte) : StageBlind (memWrite a v) := by
  intro s c
  have hbus : (s.within c).busAt a = s.busAt a := rfl
  have htouched : (s.within c).dstTouched = s.dstTouched := rfl
  unfold Machine.memWrite putByte
  rw [hbus, htouched]
  split
  · rfl
  · split
    · split <;> rfl
    · rfl
    · rfl

theorem emit (v : Byte) : StageBlind (emit v) :=
  read (fun _ _ => rfl) fun _ => ite (bind (memWrite _ v) fun _ => update fun _ _ => rfl) (raise _ _)

theorem nextByte (pos : Nat) : StageBlind (nextByte pos) :=
  read (fun _ _ => rfl) fun _ => ite (memRead _) (raise _ _)

end Cmd.StageBlind

/-! ### BUILD and DERIVE in the middle of a composite -/

section Stages
variable (c : Composite)

theorem placeLeaves_within : ∀ (es : List FreqEntry) (s : State) (sym : Nat),
    (s.within c).placeLeaves es sym = (s.placeLeaves es sym).within c
  | [], _, _ => rfl
  | e :: es, s, sym => by
    simp only [State.placeLeaves]
    split
    · exact placeLeaves_within es (s.addNode (leafOf sym e)) (sym + 1)
    · exact placeLeaves_within es s (sym + 1)

theorem leastFrom_within (s : State) : ∀ (l : List Nat) (i : Nat), (s.within c).leastFrom i l = s.leastFrom i l
  | [], _ => rfl
  | j :: l, i => leastFrom_within s l (if s.keyLess j i then j else i)

theorem combine_within (s : State) : (s.within c).combine = s.combine.within c := by
  have hqueue : (s.within c).queue = s.queue := rfl
  unfold State.combine
  simp only [hqueue, leastFrom_within]
  split
  · rfl
  · split <;> rfl

theorem combineAll_within : ∀ (n : Nat) (s : State), (s.within c).combineAll n = (s.combineAll n).within c
  | 0, _ => rfl
  | n + 1, s => by
    have hqueue : (s.within c).queue = s.queue := rfl
    simp only [State.combineAll, hqueue, combine_within]
    split
    · exact combineAll_within n s.combine
    · rfl

theorem growTree_within (s : State) : (s.within c).growTree = s.growTree.within c := by
  have hdrop : (s.within c).dropTree = s.dropTree.within c := rfl
  have hfreq : (s.within c).freq = s.freq := rfl
  unfold State.growTree
  rw [hdrop, hfreq, placeLeaves_within]
  exact combineAll_within c _ (s.dropTree.placeLeaves s.freq.toList 0)

theorem codeLeaf_within (s : State) (n : Nat) : (s.within c).codeLeaf n = (s.codeLeaf n).within c := by
  have hpath : (s.within c).path n = s.path n := path_congr (s := s) (t := s.within c) rfl rfl n
  have hnode : (s.within c).nodeAt n = s.nodeAt n := rfl
  unfold State.codeLeaf
  rw [hnode, hpath]
  split
  · split <;> rfl
  · rfl

theorem codeLeaves_within : ∀ (k : Nat) (s : State) (n : Nat), (s.within c).codeLeaves n k = (s.codeLeaves n k).within c
  | 0, _, _ => rfl
  | k + 1, s, n => by
    rw [State.codeLeaves, State.codeLeaves, codeLeaf_within, codeLeaves_within k]

theorem deriveCodes_within (s : State) : (s.within c).deriveCodes = s.deriveCodes.within c := by
  have hroot : (s.within c).nodeAt (s.within c).tree.root.toNat = s.nodeAt s.tree.root.toNat := rfl
  unfold State.deriveCodes
  rw [hroot]
  split
  · rfl
  · exact codeLeaves_within c _ s 0

end Stages

/-! ### The jobs in the middle of a composite -/

/-- The job checks the ranges and the phase a command needs (60_exceptions.md R214). -/
def Job.isCheck : Job → Bool
  | .check _ => true
  | _ => false

namespace Cmd.StageBlind

theorem buildStage : StageBlind buildStage := by
  refine bind (update fun s c => growTree_within c s) fun _ s c => ?_
  have hqueue : (s.within c).queue = s.queue := rfl
  unfold endBuild
  rw [hqueue]
  split <;> rfl

theorem parseKeyByte (pos idx : Nat) (seen : Bool) : StageBlind (parseKeyByte pos idx seen) := by
  refine bind (nextByte pos) fun k => ?_
  cases classify idx seen k with
  | pair sym => exact pure _
  | endOfTextPair => exact pure _
  | terminator => exact pure _
  | malformed => exact raise _ _

theorem enterPair (kpos sym : Nat) (got : List Byte) (idx : Nat) (seen : Bool) :
    StageBlind (enterPair kpos sym got idx seen) :=
  read (fun _ _ => rfl) fun _ => ite (raise _ _) (bind (update fun _ _ => rfl) fun _ => pure _)

theorem encodeByte (k n : Nat) : StageBlind (encodeByte k n) :=
  read (fun _ _ => rfl) fun _ => bind (memRead _) fun _ => read (fun _ _ => rfl) fun _ => ite (pure _) (raise _ _)

theorem putDigit (d : Bool) (ds : List Bool) : StageBlind (putDigit d ds) :=
  bind (update fun _ _ => rfl) fun _ => read (fun _ _ => rfl) fun _ =>
    ite (bind (update fun _ _ => rfl) fun _ => pure _) (pure _)

theorem walkOn (bpos : Nat) (d : Bool) : StageBlind (walkOn bpos d) :=
  read (fun _ _ => rfl) fun _ => ite (ite (raise _ _) (update fun _ _ => rfl)) (update fun _ _ => rfl)

theorem atNode (bpos n : Nat) : StageBlind (atNode bpos n) :=
  read (fun _ _ => rfl) fun _ => ite (ite (bind (update fun _ _ => rfl) fun _ => pure _) (pure _)) (pure _)

theorem decodeByte (pos : Nat) : StageBlind (decodeByte pos) :=
  read (fun _ _ => rfl) fun _ =>
    ite (bind (memRead _) fun _ => bind (update fun _ _ => rfl) fun _ => pure _) (raise _ _)

/-- No job of a stage looks at what is the composite's. -/
theorem run {j : Job} (hj : j.isCheck = false) : StageBlind j.run := by
  cases j with
  | check i => cases hj
  | stage i => exact only fun _ _ => rfl
  | clear => exact only fun _ _ => rfl
  | count k n =>
    cases n with
    | zero => exact pure _
    | succ n =>
      exact read (fun _ _ => rfl) fun _ => bind (memRead _) fun _ => bind (update fun _ _ => rfl) fun _ => pure _
  | endCount => exact only fun _ _ => rfl
  | build => exact bind buildStage fun _ => pure _
  | derive => exact only fun s c => congrArg State.endDerive (deriveCodes_within c s.dropCodes)
  | serialize => exact bind (update fun _ _ => rfl) fun _ => read (fun _ _ => rfl) fun _ => pure _
  | emit bs =>
    cases bs with
    | nil => exact pure _
    | cons b bs => exact bind (emit b) fun _ => pure _
  | parseKey pos idx seen => exact parseKeyByte pos idx seen
  | parseCount kpos sym got idx seen =>
    exact ite (bind (nextByte _) fun _ => pure _) (enterPair kpos sym got idx seen)
  | endParse pos => exact only fun _ _ => rfl
  | startEncode => exact only fun _ _ => rfl
  | encode k n =>
    cases n with
    | zero => exact pure _
    | succ n => exact encodeByte k n
  | put ds =>
    cases ds with
    | nil => exact pure _
    | cons d ds => exact putDigit d ds
  | endOfText => exact read (fun _ _ => rfl) fun _ => pure _
  | pad => exact read (fun _ _ => rfl) fun _ => ite (pure _) (pure _)
  | startDecode =>
    exact bind (update fun _ _ => rfl) fun _ => bind (update fun _ _ => rfl) fun _ =>
      read (fun _ _ => rfl) fun _ => pure _
  | decode pos => exact decodeByte pos
  | bits bpos n =>
    cases n with
    | zero => exact pure _
    | succ n =>
      exact read (fun _ _ => rfl) fun s => bind (walkOn bpos s.walkDigit) fun _ => bind (update fun _ _ => rfl) fun _ =>
        atNode bpos n
  | toRoot => exact only fun _ _ => rfl

end Cmd.StageBlind

/-- What a job comes to in the middle of a composite: a stage that ends by an error ends the composite, with its CMD. -/
def Progress.within (c : Composite) : Progress → Progress
  | .goes t => .goes (t.within c)
  | .ends t => .ends { t with cmd := c.cmd }
  | .waits => .waits
  | .fault r => .fault r
  | .refused r => .refused r

/-- A stage with a job left goes on in the middle of a composite as it does by itself. -/
theorem progress_within {s : State} {j : Job} {rest : List Job} (hs : s.todo = j :: rest) (hj : j.isCheck = false)
    (c : Composite) : (s.within c).progress = s.progress.within c := by
  have hc : (s.within c).todo = j :: (rest ++ c.rest) := by rw [State.within, hs]; rfl
  have blind := Cmd.StageBlind.run hj s c
  simp only [State.progress, hc, hs, State.doJob, blind]
  cases j.run s with
  | ok new t => simp only [Progress.within, State.within, List.append_assoc]
  | error e t =>
    cases e with
    | error code info => exact congrArg Progress.ends (by cases j.clearsOnError <;> rfl)
    | waits => rfl
    | fault r => rfl
    | refuse r => rfl

end Sys2Proof.Machine
end

section
/-! SUPPORT. The jobs of a stage: why one can stop, by what host memory answers (20_memory.md R87, R88), and what one that has
nothing to do with the bit buffer and the walk leaves (10_state.md R40, R54, R55). -/

namespace Sys2Proof.Machine

/-! ### Why a stage stops -/

/-- A stop of the engine that is no refusal, waits only where `never` and is an error only where `fails`. -/
def Stop.Explained (never fails : Prop) : Stop → Prop
  | .error _ _ => fails
  | .waits => never
  | .fault _ => True
  | .refuse _ => False

/-- Where `x` stops in `s`, its stop is explained. -/
def Cmd.StopsIf {α : Type} (never fails : Prop) (x : Cmd α) (s : State) : Prop :=
  ∀ e t, x s = .error e t → e.Explained never fails

section StopsIf
variable {α β : Type} {never fails : Prop} {x : Cmd α} {f : α → Cmd β} {s : State}

theorem Cmd.StopsIf.of_ok {a : α} {t : State} (h : x s = .ok a t) : Cmd.StopsIf never fails x s := fun e u he => by
  rw [h] at he; cases he

theorem Cmd.StopsIf.raise (hf : fails) (code : ErrCode) (i : Word) : Cmd.StopsIf never fails (raise code i : Cmd α) s := by
  intro e t h
  cases h
  exact hf

theorem Cmd.StopsIf.bind (hx : Cmd.StopsIf never fails x s) (hf : ∀ a t, Cmd.StopsIf never fails (f a) t) :
    Cmd.StopsIf never fails (x >>= f) s := by
  intro e u h
  obtain h | ⟨a, t, -, h⟩ := Cmd.bind_error_iff.1 h
  · exact hx e u h
  · exact hf a t e u h

theorem update_stopsIf (g : State → State) : Cmd.StopsIf never fails (do update g; pure ([] : List Job)) s :=
  Cmd.StopsIf.of_ok (a := []) (t := g s) rfl

/-- A DMA read stops as host memory answers it (20_memory.md R87; 60_exceptions.md R220). -/
theorem memRead_stopsIf {a : Nat} (hn : (s.busAt a).onRead = .never → never)
    (hf : (s.busAt a).onRead = .busError → fails) : Cmd.StopsIf never fails (memRead a) s := by
  intro e t h
  unfold memRead at h
  split at h
  · cases h; trivial
  · split at h
    · unfold fetchByte at h
      split at h <;> cases h
    · cases h; exact hf ‹_›
    · cases h; exact hn ‹_›

theorem memWrite_stopsIf {a : Nat} {v : Byte} (hn : (s.busAt a).onWrite = .never → never) (hf : fails) :
    Cmd.StopsIf never fails (memWrite a v) s := by
  intro e t h
  unfold memWrite at h
  split at h
  · cases h; trivial
  · split at h
    · unfold putByte at h
      split at h <;> cases h
    · cases h; exact hf
    · cases h; exact hn ‹_›

/-- A byte is emitted inside the destination, or not at all (44_table_serializer.md R151). -/
theorem emit_stopsIf {v : Byte} (hn : ∀ k, k < s.dstCap.toNat → s.dstReply k = .never → never) (hf : fails) :
    Cmd.StopsIf never fails (emit v) s := by
  intro e t h
  rw [emit, Cmd.get_bind] at h
  split at h
  · exact (Cmd.StopsIf.bind (memWrite_stopsIf (hn _ ‹_›) hf) fun _ _ => Cmd.StopsIf.of_ok rfl) e t h
  · exact Cmd.StopsIf.raise hf _ _ e t h

/-- `next_byte()` reads inside the source, or raises an error (44_table_serializer.md R154). -/
theorem nextByte_stopsIf {pos : Nat} (hn : ∀ k, k < s.srcLen.toNat → s.srcReply k = .never → never) (hf : fails) :
    Cmd.StopsIf never fails (nextByte pos) s := by
  intro e t h
  rw [nextByte, Cmd.get_bind] at h
  split at h
  · exact memRead_stopsIf (hn _ ‹_›) (fun _ => hf) e t h
  · exact Cmd.StopsIf.raise hf _ _ e t h

/-- An access of the job is never answered (93_implementation_defined.md item 9). -/
def Job.Unanswered (s : State) (j : Job) : Prop :=
  (j.reads = true ∧ ∃ k, k < s.srcLen.toNat ∧ s.srcReply k = .never) ∨
    (j.writes = true ∧ ∃ k, k < s.dstCap.toNat ∧ s.dstReply k = .never)

/-- The job can raise an error: it writes the destination, it is one of PARSE or DECODE_PAYLOAD, or a read of its source gets
a bus error. -/
def Job.CanFail (s : State) (j : Job) : Prop :=
  j.writes = true ∨ j.movesSrcPos = true ∨ ∃ k, k < s.srcLen.toNat ∧ s.srcReply k = .busError

theorem Job.Unanswered.read {j : Job} (hj : j.reads = true) {k : Nat} (hk : k < s.srcLen.toNat)
    (h : s.srcReply k = .never) : j.Unanswered s := .inl ⟨hj, k, hk, h⟩

theorem Job.Unanswered.write {j : Job} (hj : j.writes = true) {k : Nat} (hk : k < s.dstCap.toNat)
    (h : s.dstReply k = .never) : j.Unanswered s := .inr ⟨hj, k, hk, h⟩

theorem buildStage_stopsIf : Cmd.StopsIf never fails buildStage s := by
  intro e t h
  rw [buildStage, Cmd.update_bind, endBuild] at h
  split at h <;> cases h
  trivial

theorem countByte_stopsIf {k n : Nat} (hn : s.srcReply k = .never → never) (hf : s.srcReply k = .busError → fails) :
    Cmd.StopsIf never fails (countByte k n) s := by
  intro e t h
  rw [countByte, Cmd.get_bind] at h
  exact (Cmd.StopsIf.bind (memRead_stopsIf hn hf) fun _ _ => Cmd.StopsIf.of_ok rfl) e t h

theorem putDigit_stopsIf (d : Bool) (ds : List Bool) : Cmd.StopsIf never fails (putDigit d ds) s := by
  intro e t h
  rw [putDigit, Cmd.update_bind, Cmd.get_bind] at h
  split at h <;> cases h

theorem padAcc_stopsIf : Cmd.StopsIf never fails padAcc s := by
  intro e t h
  rw [padAcc, Cmd.get_bind] at h
  split at h <;> cases h

theorem encodeByte_stopsIf {k n : Nat} (hn : s.srcReply k = .never → never) (hf : fails) :
    Cmd.StopsIf never fails (encodeByte k n) s := by
  intro e t h
  rw [encodeByte, Cmd.get_bind] at h
  refine (Cmd.StopsIf.bind (memRead_stopsIf hn fun _ => hf) fun b u e t h => ?_) e t h
  rw [Cmd.get_bind] at h
  split at h
  · cases h
  · exact Cmd.StopsIf.raise hf _ _ e t h

theorem parseKeyByte_stopsIf {pos idx : Nat} {seen : Bool}
    (hn : ∀ k, k < s.srcLen.toNat → s.srcReply k = .never → never) (hf : fails) :
    Cmd.StopsIf never fails (parseKeyByte pos idx seen) s := by
  refine Cmd.StopsIf.bind (nextByte_stopsIf hn hf) fun k u => ?_
  cases classify idx seen k with
  | pair sym => exact Cmd.StopsIf.of_ok rfl
  | endOfTextPair => exact Cmd.StopsIf.of_ok rfl
  | terminator => exact Cmd.StopsIf.of_ok rfl
  | malformed => exact Cmd.StopsIf.raise hf _ _

theorem decodeByte_stopsIf {pos : Nat} (hn : ∀ k, k < s.srcLen.toNat → s.srcReply k = .never → never) (hf : fails) :
    Cmd.StopsIf never fails (decodeByte pos) s := by
  intro e t h
  rw [decodeByte, Cmd.get_bind] at h
  split at h
  · exact (Cmd.StopsIf.bind (memRead_stopsIf (hn _ ‹_›) fun _ => hf) fun _ _ => Cmd.StopsIf.of_ok rfl) e t h
  · exact Cmd.StopsIf.raise hf _ _ e t h

theorem walkOn_stopsIf {bpos : Nat} {d : Bool} (hf : fails) : Cmd.StopsIf never fails (walkOn bpos d) s := by
  intro e t h
  rw [walkOn, Cmd.get_bind] at h
  split at h
  · split at h
    · exact Cmd.StopsIf.raise hf _ _ e t h
    · cases h
  · cases h

theorem decodeBit_stopsIf {bpos n : Nat} (hf : fails) : Cmd.StopsIf never fails (decodeBit bpos n) s := by
  intro e t h
  rw [decodeBit, Cmd.get_bind] at h
  refine (Cmd.StopsIf.bind (walkOn_stopsIf hf) fun _ u => ?_) e t h
  obtain ⟨_, _, ha⟩ := atNode_goes bpos n u.nextBit
  exact Cmd.StopsIf.of_ok ha

/-- A job of a stage stops as its accesses are answered; only one that writes, or one of PARSE or DECODE_PAYLOAD, has an
error of its own. -/
theorem Job.run_stopsIf {j : Job} (hj : j.isCheck = false) (hi : j.inside s.srcLen.toNat) :
    Cmd.StopsIf (j.Unanswered s) (j.CanFail s) j.run s := by
  cases j with
  | check i => cases hj
  | stage i => exact update_stopsIf _
  | clear => exact update_stopsIf _
  | count k n =>
    cases n with
    | zero => exact Cmd.StopsIf.of_ok rfl
    | succ n =>
      have hk : k < s.srcLen.toNat := by simp only [Job.inside] at hi; omega
      exact countByte_stopsIf (.read rfl hk) fun h => .inr (.inr ⟨k, hk, h⟩)
  | endCount => exact update_stopsIf _
  | build => exact Cmd.StopsIf.bind buildStage_stopsIf fun _ _ => Cmd.StopsIf.of_ok rfl
  | derive => exact update_stopsIf _
  | serialize => exact Cmd.StopsIf.of_ok rfl
  | emit bs =>
    cases bs with
    | nil => exact Cmd.StopsIf.of_ok rfl
    | cons b bs =>
      exact Cmd.StopsIf.bind (emit_stopsIf (fun _ => .write rfl) (.inl rfl)) fun _ _ => Cmd.StopsIf.of_ok rfl
  | parseKey pos idx seen => exact parseKeyByte_stopsIf (fun _ => .read rfl) (.inr (.inl rfl))
  | parseCount kpos sym got idx seen =>
    simp only [Job.run]
    split
    · exact Cmd.StopsIf.bind (nextByte_stopsIf (fun _ => .read rfl) (.inr (.inl rfl))) fun _ _ => Cmd.StopsIf.of_ok rfl
    · intro e t h
      rw [enterPair, Cmd.get_bind] at h
      split at h
      · exact Cmd.StopsIf.raise (.inr (.inl rfl)) _ _ e t h
      · cases h
  | endParse pos => exact update_stopsIf _
  | startEncode => exact update_stopsIf _
  | encode k n =>
    cases n with
    | zero => exact Cmd.StopsIf.of_ok rfl
    | succ n =>
      have hk : k < s.srcLen.toNat := by simp only [Job.inside] at hi; omega
      exact encodeByte_stopsIf (.read rfl hk) (.inl rfl)
  | put ds =>
    cases ds with
    | nil => exact Cmd.StopsIf.of_ok rfl
    | cons d ds => exact putDigit_stopsIf d ds
  | endOfText => exact Cmd.StopsIf.of_ok rfl
  | pad => exact padAcc_stopsIf
  | startDecode => exact Cmd.StopsIf.of_ok rfl
  | decode pos => exact decodeByte_stopsIf (fun _ => .read rfl) (.inl rfl)
  | bits bpos n =>
    cases n with
    | zero => exact Cmd.StopsIf.of_ok rfl
    | succ n => exact decodeBit_stopsIf (.inl rfl)
  | toRoot => exact update_stopsIf _

end StopsIf

/-! ### What a stage leaves -/

/-- The job works on the bit buffer, the walk or EXTRA_INPUT, or leaves jobs that do (10_state.md R32, R54, R55). -/
def Job.usesBits : Job → Bool
  | .startEncode => true
  | .encode _ _ => true
  | .put _ => true
  | .endOfText => true
  | .pad => true
  | .startDecode => true
  | .decode _ => true
  | .bits _ _ => true
  | .toRoot => true
  | _ => false

/-- PHASE after a job and the jobs it leaves, PHASE being `p` before (10_state.md R40). -/
def Job.phaseAfter : Job → Phase → Phase
  | .clear, _ => .empty
  | .endCount, _ => .counted
  | .build, _ => .built
  | .derive, _ => .coded
  | .parseKey _ _ _, _ => .counted
  | .parseCount _ _ _ _ _, _ => .counted
  | .endParse _, _ => .counted
  | _, p => p

/-- PHASE after some jobs. -/
def phaseAfterAll (l : List Job) (p : Phase) : Phase := l.foldl (fun p j => j.phaseAfter p) p

/-- The bit buffer is empty, the walk at rest and EXTRA_INPUT 0 (10_state.md R32, R54, R55). -/
def State.BitsAtRest (s : State) : Prop := s.acc = [] ∧ s.walk = Walk.atRest ∧ s.extraInput = false

section Leaves
variable {s t : State} {new : List Job}

/-- The jobs a job leaves check nothing, and have no more to do with the bits than it has. -/
theorem Job.run_leaves {j : Job} (h : j.run s = .ok new t) :
    ∀ j' ∈ new, j'.isCheck = false ∧ (j'.usesBits = true → j.usesBits = true) := by
  have none : new = [] → ∀ j' ∈ new, j'.isCheck = false ∧ (j'.usesBits = true → j.usesBits = true) := by
    rintro rfl j' hj'; cases hj'
  cases j with
  | check i => exact none (check_ok h).2.2
  | stage i => exact none (update_only_ok h).2
  | clear => exact none (update_only_ok h).2
  | count k n =>
    cases n with
    | zero => cases h; exact none rfl
    | succ n => obtain ⟨_, _, -, -, rfl⟩ := countByte_ok h; simp [Job.isCheck, Job.usesBits]
  | endCount => exact none (update_only_ok h).2
  | build => obtain ⟨_, _, -, -, hn⟩ := build_ok h; exact none hn
  | derive => exact none (update_only_ok h).2
  | serialize => cases h; simp [Job.isCheck, Job.usesBits]
  | emit bs =>
    cases bs with
    | nil => cases h; exact none rfl
    | cons b bs => obtain ⟨-, rfl⟩ := emitNext_ok h; simp [Job.isCheck, Job.usesBits]
  | parseKey pos idx seen =>
    obtain ⟨_, -, ⟨_, -, rfl⟩ | ⟨-, rfl⟩ | ⟨-, rfl⟩⟩ := parseKeyByte_ok h <;> simp [Job.isCheck, Job.usesBits]
  | parseCount kpos sym got idx seen =>
    simp only [Job.run] at h
    split at h
    · obtain ⟨_, -, rfl⟩ := parseCountByte_ok h; simp [Job.isCheck, Job.usesBits]
    · obtain ⟨-, -, rfl⟩ := enterPair_ok h; simp [Job.isCheck, Job.usesBits]
  | endParse pos => exact none (update_only_ok h).2
  | startEncode => exact none (update_only_ok h).2
  | encode k n =>
    cases n with
    | zero => cases h; exact none rfl
    | succ n => obtain ⟨_, -, -, rfl⟩ := encodeByte_ok h; simp [Job.isCheck, Job.usesBits]
  | put ds =>
    cases ds with
    | nil => cases h; exact none rfl
    | cons d ds => obtain ⟨-, -, rfl⟩ | ⟨-, -, rfl⟩ := putDigit_ok h <;> simp [Job.isCheck, Job.usesBits]
  | endOfText => cases h; simp [Job.isCheck, Job.usesBits]
  | pad => obtain ⟨-, hn | ⟨_, rfl⟩⟩ := padAcc_ok h <;> [exact none hn; simp [Job.isCheck, Job.usesBits]]
  | startDecode => cases h; simp [Job.isCheck, Job.usesBits]
  | decode pos => obtain ⟨-, _, _, -, -, rfl⟩ := decodeByte_ok h; simp [Job.isCheck, Job.usesBits]
  | bits bpos n =>
    cases n with
    | zero => cases h; simp [Job.isCheck, Job.usesBits]
    | succ n => obtain rfl | ⟨_, rfl⟩ | rfl := decodeBit_ok h <;> simp [Job.isCheck, Job.usesBits]
  | toRoot => exact none (update_only_ok h).2

/-- A job that has nothing to do with the bits leaves them at rest, and PHASE on its way. -/
theorem Job.run_bitsAtRest {j : Job} (h : j.run s = .ok new t) (hj : j.usesBits = false) (hs : s.BitsAtRest) :
    t.BitsAtRest ∧ phaseAfterAll new t.phase = j.phaseAfter s.phase := by
  cases j with
  | check i => obtain ⟨-, rfl, rfl⟩ := check_ok h; exact ⟨hs, rfl⟩
  | stage i => obtain ⟨rfl, rfl⟩ := update_only_ok h; exact ⟨hs, rfl⟩
  | clear => obtain ⟨rfl, rfl⟩ := update_only_ok h; exact ⟨hs, rfl⟩
  | count k n =>
    cases n with
    | zero => cases h; exact ⟨hs, rfl⟩
    | succ n =>
      obtain ⟨b, u, hu, rfl, rfl⟩ := countByte_ok h
      obtain ⟨_, rfl⟩ := memRead_sameButDraws hu
      exact ⟨hs, rfl⟩
  | endCount => obtain ⟨rfl, rfl⟩ := update_only_ok h; exact ⟨hs, rfl⟩
  | build =>
    obtain ⟨r, q, -, rfl, rfl⟩ := build_ok h
    obtain ⟨_, _, _, hg⟩ := growTree_sameButTree s
    rw [hg]
    exact ⟨hs, rfl⟩
  | derive =>
    obtain ⟨rfl, rfl⟩ := update_only_ok h
    obtain ⟨_, hd⟩ := deriveCodes_sameButCodes s.dropCodes
    rw [hd]
    exact ⟨hs, rfl⟩
  | serialize => cases h; exact ⟨hs, rfl⟩
  | emit bs =>
    cases bs with
    | nil => cases h; exact ⟨hs, rfl⟩
    | cons b bs =>
      obtain ⟨he, rfl⟩ := emitNext_ok h
      obtain ⟨_, _, _, _, rfl⟩ := emit_goes he
      exact ⟨hs, rfl⟩
  | parseKey pos idx seen =>
    obtain ⟨k, hk, hc⟩ := parseKeyByte_ok h
    obtain ⟨_, rfl⟩ := memRead_sameButDraws (nextByte_ok hk).2
    obtain ⟨_, -, rfl⟩ | ⟨-, rfl⟩ | ⟨-, rfl⟩ := hc <;> exact ⟨hs, rfl⟩
  | parseCount kpos sym got idx seen =>
    simp only [Job.run] at h
    split at h
    · obtain ⟨b, hb, rfl⟩ := parseCountByte_ok h
      obtain ⟨_, rfl⟩ := memRead_sameButDraws (nextByte_ok hb).2
      exact ⟨hs, rfl⟩
    · obtain ⟨-, rfl, rfl⟩ := enterPair_ok h
      exact ⟨hs, rfl⟩
  | endParse pos => obtain ⟨rfl, rfl⟩ := update_only_ok h; exact ⟨hs, rfl⟩
  | startEncode => cases hj
  | encode k n => cases hj
  | put ds => cases hj
  | endOfText => cases hj
  | pad => cases hj
  | startDecode => cases hj
  | decode pos => cases hj
  | bits bpos n => cases hj
  | toRoot => cases hj

end Leaves

end Sys2Proof.Machine
end

section
/-! SUPPORT. COMPRESS, DECOMPRESS and ENCODE come to what their stages do one after another (30_encoding.md R94,
46_session_ops.md R191 to R194). -/

namespace Sys2Proof.Machine

/-! ### A command in range that host memory answers -/

/-- What decides whether a command can run: the host's list, host memory's answers, the strap and the operands. -/
def State.ground (s : State) : List HostOp × List BusEntry × Nat × Word × Word × Word × Word :=
  (s.host, s.bus, s.mmioBase, s.srcAddr, s.srcLen, s.dstAddr, s.dstCap)

/-- The host waits, the ranges of the command `i` are in order, and host memory answers in them (20_memory.md R71, R73, R88;
70_reset_and_hazards.md R249). -/
structure State.CanRun (i : Instr) (s : State) : Prop where
  waits : s.hostWaits = true
  ranges : s.RangesOk i
  source : i.readsSource = true → ∀ k, k < s.srcLen.toNat → s.srcReply k ≠ .never
  dest : i.writesDest = true → ∀ k, k < s.dstCap.toNat → s.dstReply k ≠ .never

/-- The command `i` can fail past its start checks: it writes the destination, is PARSE or DECODE_PAYLOAD or has them as
stages, or a read of its source gets a bus error. -/
def State.CanFail (i : Instr) (s : State) : Prop :=
  i.writesDest = true ∨ i ∈ [Instr.parse, .decodePayload, .decompress] ∨
    ∃ k, k < s.srcLen.toNat ∧ s.srcReply k = .busError

section Ground
variable {s t : State} {i i' : Instr}

theorem outer_ground (g : List HostOp × List BusEntry × Nat × Word × Word × Word × Word) :
    Outer (fun s => s.ground = g) where
  closed := { draw := fun _ h => h, put := fun _ _ _ _ h => h, bump := fun _ h => h }
  inner := fun s t h hs => by
    rw [← hs]
    simp only [State.ground, h.host, h.bus, h.mmioBase, h.srcAddr, h.srcLen, h.dstAddr, h.dstCap]

theorem ground_eq (h : t.ground = s.ground) : t.host = s.host ∧ t.bus = s.bus ∧ t.mmioBase = s.mmioBase ∧
    t.srcAddr = s.srcAddr ∧ t.srcLen = s.srcLen ∧ t.dstAddr = s.dstAddr ∧ t.dstCap = s.dstCap := by
  simpa only [State.ground, Prod.mk.injEq] using h

theorem State.CanRun.congr (h : s.CanRun i) (hg : t.ground = s.ground) : t.CanRun i := by
  obtain ⟨hhost, hbus, hbase, hsa, hsl, hda, hdc⟩ := ground_eq hg
  obtain ⟨hw, ⟨h1, h2, h3⟩, hs, hd⟩ := h
  refine ⟨(hostWaits_congr hhost).trans hw, ⟨?_, ?_, ?_⟩, ?_, ?_⟩
  · rw [hbase, hsa, hsl]; exact h1
  · rw [hbase, hda, hdc]; exact h2
  · simp only [overlaps, hsa, hsl, hda, hdc]; exact h3
  · simp only [State.srcReply, busAt_congr hbus, hsa, hsl]; exact hs
  · simp only [State.dstReply, busAt_congr hbus, hda, hdc]; exact hd

theorem State.CanFail.congr (h : s.CanFail i) (hg : t.ground = s.ground) : t.CanFail i := by
  obtain ⟨-, hbus, -, hsa, hsl, -, -⟩ := ground_eq hg
  simp only [State.CanFail, State.srcReply, busAt_congr hbus, hsa, hsl]
  exact h

/-- A stage uses no range that its composite does not. -/
theorem State.CanRun.mono (h : s.CanRun i) (hr : i'.readsSource = true → i.readsSource = true)
    (hw : i'.writesDest = true → i.writesDest = true) : s.CanRun i' :=
  ⟨h.waits, ⟨fun r => h.ranges.source (hr r), fun w => h.ranges.dest (hw w), fun r w => h.ranges.apart (hr r) (hw w)⟩,
    fun r => h.source (hr r), fun w => h.dest (hw w)⟩

/-- A command whose ranges are in order and that finds the phase it needs passes its start checks (60_exceptions.md R214). -/
theorem startChecks_ok (hp : phaseTooLow i s.phase = false) (h : s.RangesOk i) : startChecks i s = .ok () s := by
  obtain ⟨hsrc, hdst, hov⟩ := h
  have phase : ∀ {ok : Phase → Bool}, ok s.phase = true → needPhase ok s = .ok () s := fun hok => by
    rw [needPhase_run, if_pos hok]
  have source : i.readsSource = true → startSource s = .ok () s := fun r => startSource_ok (hsrc r).1 (hsrc r).2
  have both : i.readsSource = true → i.writesDest = true → startBoth s = .ok () s := fun r w =>
    startBoth_ok (hsrc r).1 (hsrc r).2 (hdst w).1 (hdst w).2 (hov r w)
  cases i with
  | clear => rfl
  | count => exact source rfl
  | build => exact phase (ok := fun p => p.atLeast .counted) (by revert hp; cases s.phase <;> decide)
  | derive => exact phase (ok := fun p => p.atLeast .built) (by revert hp; cases s.phase <;> decide)
  | serialize =>
    refine (Cmd.bind_of_ok (phase ?_)).trans (startDest_ok (hdst rfl).1 (hdst rfl).2)
    revert hp; cases s.phase <;> decide
  | encodePayload =>
    refine (Cmd.bind_of_ok (phase ?_)).trans (both rfl rfl)
    revert hp; cases s.phase <;> decide
  | parse => exact source rfl
  | decodePayload =>
    refine (Cmd.bind_of_ok (phase ?_)).trans (both rfl rfl)
    revert hp; cases s.phase <;> decide
  | compress => exact both rfl rfl
  | decompress => exact both rfl rfl
  | encode => exact source rfl

end Ground

/-! ### A stage that runs -/

/-- The stage works on the bit buffer, the walk or EXTRA_INPUT (10_state.md R32, R54, R55). -/
def worksOnBits : Instr → Bool
  | .encodePayload => true
  | .decodePayload => true
  | .compress => true
  | .decompress => true
  | _ => false

/-- The job is one that the command `i` over `n` source bytes has to do past its start checks. -/
structure Job.Of (i : Instr) (n : Nat) (j : Job) : Prop where
  noCheck : j.isCheck = false
  reads : j.reads = true → i.readsSource = true
  writes : j.writes = true → i.writesDest = true
  movesSrcPos : j.movesSrcPos = true → i ∈ [Instr.parse, .decodePayload, .decompress]
  inside : j.inside n
  usesBits : j.usesBits = true → worksOnBits i = true

/-- The flags and marks a command is accepted with, which no job sets (10_state.md R24, R30, R31, R39). -/
def State.FlagsClear (s : State) : Prop :=
  (s.busy, s.done, s.err, s.errCode, s.errInfo, s.cmdDropped, s.srcTouched, s.dstTouched) =
    (true, false, false, .none, 0#32, false, [], [])

theorem outer_flagsClear : Outer State.FlagsClear where
  closed := { draw := fun _ h => h, put := fun _ _ _ _ h => h, bump := fun _ h => h }
  inner := fun s t h hs => by
    simp only [State.FlagsClear, h.busy, h.done, h.err, h.errCode, h.errInfo, h.cmdDropped, h.srcTouched, h.dstTouched]
    exact hs

/-- The stage `i` runs past its start checks: it can run on to an end, and leaves PHASE `p` if it is none of those that work
on bits. The session is about to be cleared, or PHASE says what of it is valid. -/
structure State.StageRuns (i : Instr) (p : Phase) (s : State) : Prop where
  session : (∃ rest, s.todo = .clear :: rest ∧ jobsFit false rest .empty ∧ s.queue = []) ∨ s.SessionInv False
  canRun : s.CanRun i
  jobs : ∀ j ∈ s.todo, j.Of i s.srcLen.toNat
  flags : s.FlagsClear
  bits : worksOnBits i = false → s.BitsAtRest ∧ phaseAfterAll s.todo s.phase = p

section StageRuns
variable {i : Instr} {p : Phase} {s t u : State}

theorem State.StageRuns.goes (h : s.StageRuns i p) (hg : s.progress = .goes t) : t.StageRuns i p := by
  have hground := (outer_ground s.ground).goes rfl hg
  obtain ⟨-, -, -, -, hlen, -, -⟩ := ground_eq hground
  have hflags := outer_flagsClear.goes h.flags hg
  obtain ⟨j, rest, new, u, hs, hr, rfl⟩ := progress_goes hg
  have hof : ∀ j' ∈ j :: rest, j'.Of i s.srcLen.toNat := hs ▸ h.jobs
  have hj := hof j List.mem_cons_self
  refine ⟨.inr ?_, h.canRun.congr hground, fun j' hj' => ?_, hflags, fun hb => ?_⟩
  · obtain ⟨rest', hs', hfit, hq⟩ | hse := h.session
    · rw [hs] at hs'
      cases hs'
      obtain ⟨rfl, rfl⟩ := update_only_ok hr
      exact sessionInv_of_empty rfl rfl (by rw [← hq]; rfl) hfit
    · exact Job.run_sessionInv hse hs hr
  · rw [hlen]
    rcases List.mem_append.1 hj' with hn | hn
    · have hw := Job.run_within hr s.srcLen.toNat j' hn
      obtain ⟨hc, hbits⟩ := Job.run_leaves hr j' hn
      exact ⟨hc, hj.reads ∘ hw.reads, hj.writes ∘ hw.writes, hj.movesSrcPos ∘ hw.movesSrcPos, hw.inside hj.inside,
        hj.usesBits ∘ hbits⟩
    · exact hof j' (List.mem_cons_of_mem _ hn)
  · obtain ⟨hrest, hp⟩ := h.bits hb
    have hjb : j.usesBits = false := Bool.eq_false_of_not_eq_true fun hu => by
      have := hj.usesBits hu
      rw [hb] at this
      cases this
    obtain ⟨hrest', hp'⟩ := Job.run_bitsAtRest hr hjb hrest
    refine ⟨hrest', ?_⟩
    rw [hs, phaseAfterAll, List.foldl_cons, ← hp'] at hp
    exact (List.foldl_append ..).trans hp

/-- A stage does not fault: its accesses lie in its ranges, and BUILD finds END_OF_TEXT present. -/
theorem State.StageRuns.safe {j : Job} {rest : List Job} (h : s.StageRuns i p) (hs : s.todo = j :: rest) : j.Safe s := by
  have hj := h.jobs j (by rw [hs]; exact List.mem_cons_self)
  obtain ⟨rest', hs', -, -⟩ | hse := h.session
  · rw [hs] at hs'
    cases hs'
    trivial
  · exact hse.safe hs ⟨fun r => (h.canRun.ranges.source (hj.reads r)).1, fun w => (h.canRun.ranges.dest (hj.writes w)).1,
      hj.inside⟩

/-- A stage with a job left goes on or ends by an error. -/
theorem State.StageRuns.progress {j : Job} {rest : List Job} (h : s.StageRuns i p) (hs : s.todo = j :: rest) :
    (∃ t, s.progress = .goes t) ∨ ∃ t, s.progress = .ends t ∧ t.err = true ∧ s.CanFail i := by
  have hj := h.jobs j (by rw [hs]; exact List.mem_cons_self)
  cases hr : j.run s with
  | ok new u => exact .inl ⟨_, progress_of_ok hs hr⟩
  | error e u =>
    have hstop := Job.run_stopsIf hj.noCheck hj.inside e u hr
    cases e with
    | error c n => exact .inr ⟨_, progress_of_error hs hr, rfl, hstop.imp hj.writes (Or.imp_left hj.movesSrcPos)⟩
    | waits =>
      obtain ⟨hreads, k, hk, hn⟩ | ⟨hwrites, k, hk, hn⟩ := hstop
      · exact absurd hn (h.canRun.source (hj.reads hreads) k hk)
      · exact absurd hn (h.canRun.dest (hj.writes hwrites) k hk)
    | fault r => exact absurd (h.safe hs) (Job.run_stops j s _ u hr)
    | refuse r => exact hstop.elim

/-- A stage comes to an end, by itself and in the middle of a composite: with nothing left to do, and the composite going on
from there, or by an error, which ends the composite with its CMD (46_session_ops.md R194). -/
theorem State.StageRuns.runOn {i : Instr} {p : Phase} (c : Composite) : ∀ (n : Nat) {s : State}, s.StageRuns i p → s.work ≤ n →
    (∃ u : State, u.StageRuns i p ∧ u.todo = [] ∧ u.ground = s.ground ∧ s.runOn = .next u.finish ∧
      (s.within c).runOn = (u.within c).runOn) ∨
    ∃ t, t.err = true ∧ s.CanFail i ∧ s.runOn = .next t ∧ (s.within c).runOn = .next { t with cmd := c.cmd }
  | 0, s, _, hn => absurd hn (by unfold State.work; omega)
  | n + 1, s, h, hn => by
    cases hs : s.todo with
    | nil => exact .inl ⟨s, h, hs, rfl, runOn_ends (progress_of_nil hs), rfl⟩
    | cons j rest =>
      have hw := progress_within hs (h.jobs j (by rw [hs]; exact List.mem_cons_self)).noCheck c
      obtain ⟨t, hp⟩ | ⟨t, hp, he, hf⟩ := h.progress hs
      · have hwork := progress_work hp
        have hg := (outer_ground s.ground).goes rfl hp
        rw [hp] at hw
        rw [runOn_goes hp, runOn_goes hw]
        obtain ⟨u, hu, hnil, hug, hr⟩ | ⟨v, he, hf, hr⟩ := State.StageRuns.runOn c n (h.goes hp) (by omega)
        · exact .inl ⟨u, hu, hnil, hug.trans hg, hr⟩
        · exact .inr ⟨v, he, hf.congr hg.symm, hr⟩
      · rw [hp] at hw
        exact .inr ⟨t, he, hf, runOn_ends hp, runOn_ends hw⟩

end StageRuns

/-! ### The stages one after another -/

/-- The jobs of a command past its start checks. -/
def State.bodyJobs (s : State) (i : Instr) : List Job := (s.acceptedJobs i).tail

/-- The jobs of a stage in a composite: STAGE shows it first (10_state.md R33). -/
def State.compositeJobs (s : State) (i : Instr) : List Job := .stage i :: s.bodyJobs i

/-- PHASE after a stage that does not work on bits (10_state.md R40). -/
def phaseLeft : Instr → Phase → Phase
  | .clear, _ => .empty
  | .count, _ => .counted
  | .build, _ => .built
  | .derive, _ => .coded
  | .parse, _ => .counted
  | _, p => p

/-- Each of the stages `l` is a stage command and finds the phase it needs, PHASE being `p` before them, and only the last
works on bits (30_encoding.md R91, R94). -/
def stagesFit : List Instr → Phase → Prop
  | [], _ => True
  | i :: l, p => startStage i = i.opcode ∧ phaseTooLow i p = false ∧ (l ≠ [] → worksOnBits i = false) ∧
      stagesFit l (phaseLeft i p)

/-- The composite with CMD `c` stands in `w` where its stages, run as commands of their own, stand in `a`: whatever stage it
begins is in the middle of it as it is accepted in `a`. -/
def State.Stands (a : State) (c : BitVec 4) (w : State) : Prop :=
  ∃ d m, ∀ (i : Instr) (js rest : List Job), startStage i = i.opcode →
    { w.setStage i with todo := js ++ rest } = State.within { a.accept (encode i) with todo := js } ⟨c, d, m, rest⟩

section Composites
variable {i : Instr} {p : Phase} {s a u w : State} {c : BitVec 4}

theorem acceptedJobs_eq_cons (s : State) (i : Instr) : s.acceptedJobs i = .check i :: s.bodyJobs i := by
  cases i <;> rfl

theorem compositeJobs_congr (h : u.ground = a.ground) : u.compositeJobs = a.compositeJobs := by
  obtain ⟨-, -, -, -, hlen, -, -⟩ := ground_eq h
  funext i
  rw [State.compositeJobs, State.compositeJobs, State.bodyJobs, State.bodyJobs, acceptedJobs_congr hlen]

theorem bodyJobs_of (s : State) (i : Instr) : ∀ j ∈ s.bodyJobs i, j.Of i s.srcLen.toNat := by
  intro j hj
  obtain ⟨hr, hw, hm, hi⟩ := acceptedJobs_within s i j (List.mem_of_mem_tail hj)
  have hbits : j.isCheck = false ∧ (j.usesBits = true → worksOnBits i = true) := by
    revert j
    cases i <;> simp [State.bodyJobs, State.acceptedJobs, State.countJobs, State.encodeJobs, State.analyseJobs,
      parseJobs, Job.isCheck, Job.usesBits, worksOnBits]
  exact ⟨hbits.1, hr, hw, hm, hi, hbits.2⟩

theorem phaseAfterAll_bodyJobs (s : State) (h : worksOnBits i = false) (hi : startStage i = i.opcode) (p : Phase) :
    phaseAfterAll (s.bodyJobs i) p = phaseLeft i p := by
  cases i with
  | encode => exact absurd hi (by decide)
  | encodePayload => cases h
  | decodePayload => cases h
  | compress => cases h
  | decompress => cases h
  | _ => rfl

/-- The composite accepted stands where its first stage begins. -/
theorem stands_accepted (s : State) (i : Instr) (l : List Job) :
    s.Stands i.opcode { s.accepted i with todo := l } := by
  refine ⟨s.donePend, [], fun i' js rest hi' => ?_⟩
  have hcmd : (encode i).extractLsb' 0 4 = i.opcode := by cases i <;> rfl
  have hstage : stageOfWord (encode i') = i'.opcode := (stageOfWord_encode i').trans hi'
  simp only [State.accepted, State.accept, State.setStage, State.within, hcmd, hstage, List.append_nil]

/-- A stage with nothing left to do has left a session true to PHASE. -/
theorem State.StageRuns.sessionInv (h : u.StageRuns i p) (hu : u.todo = []) : u.SessionInv False := by
  obtain ⟨_, hs, -⟩ | hse := h.session
  · rw [hu] at hs; cases hs
  · exact hse

theorem State.StageRuns.sessionInv_finish (h : u.StageRuns i p) (hu : u.todo = []) : u.finish.SessionInv False :=
  have hse := h.sessionInv hu
  ⟨False.elim, hse.endOfText, hse.noTree, hse.noCodes, False.elim, False.elim, jobsFit_nil, rfl⟩

theorem State.StageRuns.phase_finish (h : u.StageRuns i p) (hu : u.todo = []) (hb : worksOnBits i = false) :
    u.finish.phase = p := by
  have hp := (h.bits hb).2
  rwa [hu] at hp

/-- After a stage that has left the bits at rest the composite stands where the stage's own run has come to. -/
theorem State.StageRuns.stands (h : u.StageRuns i p) (hu : u.todo = []) (hb : worksOnBits i = false) (d : Bool)
    (m : List Host.Cell) (rest : List Job) : u.finish.Stands c (u.within ⟨c, d, m, rest⟩) := by
  refine ⟨d, u.undo ++ m, fun i' js rest' hi' => ?_⟩
  have hstage : stageOfWord (encode i') = i'.opcode := (stageOfWord_encode i').trans hi'
  have hq := (h.sessionInv hu).queue
  obtain ⟨⟨hacc, hwalk, hextra⟩, -⟩ := h.bits hb
  have hf := h.flags
  simp only [State.FlagsClear, Prod.mk.injEq] at hf
  obtain ⟨h1, h2, h3, h4, h5, h6, h7, h8⟩ := hf
  simp only [State.accept, State.finish, State.setStage, State.within, hstage, hq, hacc, hwalk, hextra, h1, h2, h3, h4,
    h5, h6, h7, h8, List.nil_append]

/-- A command in range that finds the phase it needs passes its start checks and runs on from there (60_exceptions.md
R214). -/
theorem exec_past_checks (h : s.CanRun i) (hp : phaseTooLow i s.phase = false) :
    exec i s = State.runOn { s.accept (encode i) with todo := s.bodyJobs i } := by
  have hcheck : Job.run (.check i) (s.accepted i) = .ok [] (s.accepted i) :=
    Cmd.bind_of_ok (startChecks_ok hp (h.congr (t := s.accepted i) rfl).ranges)
  rw [exec_eq, if_pos h.waits, runOn_goes (progress_of_ok (acceptedJobs_eq_cons s i) hcheck)]
  rfl

/-- A stage past its start checks runs, by itself from the session of the stage before, or from any as CLEAR does. -/
theorem stageRuns_of_accept (h : a.CanRun i) (hp : phaseTooLow i a.phase = false) (hi : startStage i = i.opcode)
    (hs : i = .clear ∨ a.SessionInv False) :
    State.StageRuns i (phaseLeft i a.phase) { a.accept (encode i) with todo := a.bodyJobs i } := by
  have hfit := acceptedJobs_fit a i
  rw [acceptedJobs_eq_cons] at hfit
  refine ⟨?_, h.congr rfl, bodyJobs_of a i, rfl, fun hb => ⟨⟨rfl, rfl, rfl⟩, phaseAfterAll_bodyJobs a hb hi _⟩⟩
  obtain rfl | hse := hs
  · exact .inl ⟨[], rfl, trivial, rfl⟩
  · exact .inr ⟨False.elim, hse.endOfText, hse.noTree, hse.noCodes, False.elim, False.elim, hfit hp, rfl⟩

/-- The stages left of a composite come to what they do as commands of their own, one after another, up to the first that
fails; only STATUS.CMD differs (46_session_ops.md R194). -/
theorem runStages_composite : ∀ (l : List Instr) (i : Instr) {a w : State}, a.Stands c w →
    w.todo = (i :: l).flatMap a.compositeJobs → (∀ i' ∈ i :: l, a.CanRun i') → stagesFit (i :: l) a.phase →
    (i = .clear ∨ a.SessionInv False) →
    ∃ t, runStages (i :: l) a = .next t ∧ w.runOn = .next { t with cmd := c } ∧
      (t.err = true → ∃ i' ∈ i :: l, a.CanFail i')
  | l, i, a, w, hst, hw, hrun, ⟨hi, hp, hbits, hfit⟩, hs => by
    have hstart := stageRuns_of_accept (hrun i List.mem_cons_self) hp hi hs
    have hexec := exec_past_checks (hrun i List.mem_cons_self) hp
    obtain ⟨d, m, hst'⟩ := hst
    have hbegin : w.runOn = (State.within { a.accept (encode i) with todo := a.bodyJobs i }
        ⟨c, d, m, l.flatMap a.compositeJobs⟩).runOn := by
      have htodo : w.todo = .stage i :: (a.bodyJobs i ++ l.flatMap a.compositeJobs) := hw
      rw [← hst' i _ _ hi]
      exact runOn_goes (progress_of_ok (new := []) htodo rfl)
    obtain ⟨u, hu, hnil, hg, hr, hwr⟩ | ⟨t, he, hf, hr, hwr⟩ :=
      hstart.runOn ⟨c, d, m, l.flatMap a.compositeJobs⟩ _ (Nat.le_refl _)
    · have hdone := runStages_cons_of_done l (hexec.trans hr)
      have herr : u.finish.err = false := congrArg (·.2.2.1) hu.flags
      have htodo : (u.within ⟨c, d, m, l.flatMap a.compositeJobs⟩).todo = l.flatMap a.compositeJobs := by
        rw [State.within, hnil, List.nil_append]
      cases l with
      | nil =>
        refine ⟨u.finish, hdone herr, (hbegin.trans hwr).trans (runOn_ends (progress_of_nil htodo)), fun h => ?_⟩
        rw [herr] at h
        cases h
      | cons i' l =>
        have hb := hbits (List.cons_ne_nil _ _)
        have hg' : u.finish.ground = a.ground := hg
        have hjobs := compositeJobs_congr hg'
        rw [← hjobs] at htodo hwr hbegin
        obtain ⟨t, ht, hwt, hf⟩ := runStages_composite l i' (hu.stands hnil hb d m _) htodo
          (fun j hj => (hrun j (List.mem_cons_of_mem _ hj)).congr hg') (hu.phase_finish hnil hb ▸ hfit) (.inr (hu.sessionInv_finish hnil))
        refine ⟨t, (hdone herr).trans ht, hbegin.trans (hwr.trans hwt), fun h => ?_⟩
        obtain ⟨j, hj, hfj⟩ := hf h
        exact ⟨j, List.mem_cons_of_mem _ hj, hfj.congr hg'.symm⟩
    · exact ⟨t, runStages_cons_of_error l (hexec.trans hr) he, hbegin.trans hwr,
        fun _ => ⟨i, List.mem_cons_self, hf.congr rfl⟩⟩

/-- The composites and their stages (46_session_ops.md R191 to R193). -/
def compositeStages : List (Instr × List Instr) :=
  [(.compress, [.clear, .count, .build, .derive, .serialize, .encodePayload]),
    (.decompress, [.clear, .parse, .build, .decodePayload]), (.encode, [.clear, .count, .build, .derive])]

/-- The command `i` is a composite of CLEAR and the stages `l`: past its start checks it does them in
order, it needs no phase, and its stages use no range that it does not and find the phases they need. -/
structure IsComposite (i : Instr) (l : List Instr) : Prop where
  jobs : ∀ s : State, s.bodyJobs i = (Instr.clear :: l).flatMap s.compositeJobs
  noPhase : ∀ p, phaseTooLow i p = false
  readsSource : i.readsSource = true
  writesDest : ∀ i' ∈ Instr.clear :: l, i'.writesDest = true → i.writesDest = true
  fit : ∀ p, stagesFit (.clear :: l) p

theorem isComposite_of_mem {l : List Instr} (h : (i, l) ∈ compositeStages) :
    ∃ l', l = .clear :: l' ∧ IsComposite i l' := by
  simp only [compositeStages, List.mem_cons, List.not_mem_nil, or_false, Prod.mk.injEq] at h
  obtain ⟨rfl, rfl⟩ | ⟨rfl, rfl⟩ | ⟨rfl, rfl⟩ := h
  all_goals refine ⟨_, rfl, fun _ => rfl, fun _ => rfl, rfl, by decide, fun p => ?_⟩
  all_goals simp [stagesFit, phaseLeft, phaseTooLow, startStage, Instr.opcode, worksOnBits]

/-- A composite in range that host memory answers comes to what its stages come to one after another, and fails only where
one of them can. -/
theorem exec_composite {l : List Instr} (hc : IsComposite i l) (h : s.CanRun i) :
    ∃ t, runStages (.clear :: l) s = .next t ∧ exec i s = .next { t with cmd := i.opcode } ∧
      (t.err = true → ∃ i' ∈ Instr.clear :: l, s.CanFail i') := by
  obtain ⟨t, ht, hw, hf⟩ := runStages_composite l .clear (stands_accepted s i (s.bodyJobs i)) (hc.jobs s)
    (fun i' hi' => h.mono (fun _ => hc.readsSource) (hc.writesDest i' hi')) (hc.fit _) (.inl rfl)
  exact ⟨t, ht, (exec_past_checks h (hc.noPhase _)).trans hw, hf⟩

/-- Stages that come to no error have each handed on to the next (46_session_ops.md R194). -/
theorem runStages_tail {l : List Instr} {t : State} (h : runStages (i :: l) s = .next t) (ht : t.err = false)
    (ha : exec i s = .next a) : runStages l a = .next t := by
  cases he : a.err with
  | false => rw [← h, runStages_cons_of_done l ha he]
  | true =>
    rw [runStages_cons_of_error l ha he] at h
    cases h
    rw [he] at ht
    cases ht

/-- ENCODE of a source that is ready has no stage that fails: of its stages only COUNT accesses host memory. -/
theorem no_encode_stage_fails (h : s.SourceReady) : ¬ ∃ i' ∈ [Instr.clear, .count, .build, .derive], s.CanFail i' := by
  rintro ⟨i', hi', hw | hp | ⟨k, hk, hb⟩⟩
  · revert i'; decide
  · revert i'; decide
  · have := (h.answers k hk).symm.trans hb
    cases this

end Composites

/-- Settles O47: a stage does the same in the middle of the composite as by itself, and the composite goes on from where the
stage's own run has come to. -/
theorem encodeIsItsFourStages : Obligations.EncodeIsItsFourStages := by
  unfold Obligations.EncodeIsItsFourStages
  refine ⟨fun s i l hl hw hr hsrc hdst => ?_, fun s a b c d hw hs ha hb hc hd => ?_⟩
  · obtain ⟨l, rfl, hcomp⟩ := isComposite_of_mem hl
    obtain ⟨t, ht, he, -⟩ := exec_composite hcomp ⟨hw, hr, fun _ => hsrc, hdst⟩
    exact ⟨t, ht, he⟩
  · have hrun : s.CanRun .encode := ⟨hw, rangesOk_of_sourceReady rfl hs,
      fun _ k hk hn => (by cases (hs.answers k hk).symm.trans hn), fun h => by cases h⟩
    obtain ⟨l, hl, hcomp⟩ := isComposite_of_mem (i := .encode) (l := [.clear, .count, .build, .derive]) (by decide)
    cases hl
    obtain ⟨t, ht, he, hf⟩ := exec_composite hcomp hrun
    have hok : t.err = false := Bool.eq_false_of_not_eq_true fun h => no_encode_stage_fails hs (hf h)
    have hlast := runStages_tail (runStages_tail (runStages_tail (runStages_tail ht hok ha) hok hb) hok hc) hok hd
    cases hlast
    exact ⟨_, he, by constructor <;> rfl, by constructor <;> rfl, rfl, rfl, rfl⟩

end Sys2Proof.Machine
end

section
/-! SUPPORT. COUNT, alone and as the stage of a composite that makes a table (41_frequency_counter.md R120 to R123,
46_session_ops.md R191, R193). -/

namespace Sys2Proof.Machine

/-! ### The count begins -/

/-- The state in which the command `i` begins to count its source: accepted, in stage COUNT, the session cleared
(10_state.md R24, R33; 41_frequency_counter.md R120). -/
def State.counting (s : State) (i : Instr) : State := ((s.accept (encode i)).setStage .count).sessionClear

section Begins
variable {s u : State} {i : Instr} {rest : List Job}

/-- A command whose ranges are in order and that finds the phase it needs passes its start checks, however host memory will
answer it (60_exceptions.md R214). -/
theorem exec_past_rangeChecks (hw : s.hostWaits = true) (hr : s.RangesOk i) (hp : phaseTooLow i s.phase = false) :
    exec i s = State.runOn { s.accept (encode i) with todo := s.bodyJobs i } := by
  have hranges : (s.accepted i).RangesOk i := ⟨hr.source, hr.dest, hr.apart⟩
  have hcheck : Job.run (.check i) (s.accepted i) = .ok [] (s.accepted i) := Cmd.bind_of_ok (startChecks_ok hp hranges)
  rw [exec_eq, if_pos hw, runOn_goes (progress_of_ok (acceptedJobs_eq_cons s i) hcheck)]
  rfl

/-- COUNT's jobs begin with clearing the session. -/
theorem runOn_countJobs (h : u.todo = s.countJobs ++ rest) :
    u.runOn = State.runOn { u.sessionClear with todo := .count 0 s.srcLen.toNat :: .endCount :: rest } :=
  runOn_goes (progress_of_ok (new := []) h rfl)

/-- The stages that make a code table clear the session, show COUNT in STAGE and go on with its jobs (46_session_ops.md
R191, R193). -/
theorem runOn_analyseJobs (h : u.todo = s.analyseJobs ++ rest) :
    u.runOn = State.runOn { (u.setStage .count).sessionClear with
      todo := .count 0 s.srcLen.toNat :: .endCount :: .stage .build :: .build :: .stage .derive :: .derive :: rest } := by
  rw [runOn_goes (progress_of_ok (new := []) h rfl), runOn_goes (progress_of_ok (new := []) rfl rfl),
    runOn_goes (progress_of_ok (new := []) rfl rfl), runOn_countJobs (s := s) rfl]
  rfl

/-- COUNT past its start checks begins to count. -/
theorem exec_count_begins (hw : s.hostWaits = true) (hr : s.RangesOk .count) :
    exec .count s = State.runOn { s.counting .count with todo := [.count 0 s.srcLen.toNat, .endCount] } := by
  rw [exec_past_rangeChecks hw hr rfl, runOn_countJobs (s := s) (rest := []) rfl]
  rfl

/-- COUNT, COMPRESS and ENCODE past their start checks begin to count, all in stage COUNT. -/
theorem exec_begins_count (hi : i ∈ [Instr.count, .compress, .encode]) (hw : s.hostWaits = true) (hr : s.RangesOk i) :
    ∃ rest, exec i s = State.runOn { s.counting i with todo := .count 0 s.srcLen.toNat :: rest } := by
  simp only [List.mem_cons, List.not_mem_nil, or_false] at hi
  obtain rfl | rfl | rfl := hi
  · exact ⟨_, exec_count_begins hw hr⟩
  · exact ⟨_, (exec_past_rangeChecks hw hr rfl).trans (runOn_analyseJobs (s := s)
      (rest := [.stage .serialize, .serialize, .stage .encodePayload] ++ s.encodeJobs) rfl)⟩
  · exact ⟨_, (exec_past_rangeChecks hw hr rfl).trans (runOn_analyseJobs (s := s) (rest := []) rfl)⟩

end Begins

/-! ### The count ends -/

section Ends
variable {s : State} {i : Instr}

/-- A source that is ready is counted to its end, in stage COUNT, and END_OF_TEXT's entry put in (41_frequency_counter.md
R120, R121). -/
theorem exec_count_eq (hw : s.hostWaits = true) (h : s.SourceReady) :
    exec .count s = .next ((s.counting .count).countedFrom s.srcBytes).finish := by
  have hin := inRange_le h.inRange
  have hbytes : ∀ j, 0 ≤ j → j < 0 + s.srcLen.toNat →
      s.srcAddr.toNat + j < Config.addrSpace ∧ (s.busAt (s.srcAddr.toNat + j)).onRead = .completes :=
    fun j _ hj => ⟨by omega, h.answers j (by omega)⟩
  have hcount := runOn_count s.srcLen.toNat 0
    { s.counting .count with todo := [.count 0 s.srcLen.toNat, .endCount] } [.endCount] rfl rfl hbytes
  rw [tallies_todo] at hcount
  refine ((exec_count_begins hw (rangesOk_of_sourceReady rfl h)).trans hcount).trans ?_
  exact (runOn_goes (progress_of_ok (new := []) rfl rfl)).trans (runOn_ends (progress_of_nil rfl))

/-- Counting changes FREQ and PHASE alone. -/
theorem countedFrom_eq (s : State) (src : List Byte) :
    s.countedFrom src = { s with freq := (s.countedFrom src).freq, phase := .counted } := by
  rw [State.countedFrom, tallies_eq]
  rfl

theorem countedFrom_freqAt_endOfText (s : State) (src : List Byte) :
    (s.countedFrom src).freqAt Config.endOfText = ⟨true, 1#32⟩ :=
  (freqAt_setFreq ..).trans (if_pos ⟨rfl, by decide⟩)

/-- END_OF_TEXT's entry is no literal's (00_scope.md R12). -/
theorem countedFrom_freqAt_literal (s : State) (src : List Byte) (b : Byte) :
    (s.countedFrom src).freqAt b.toNat =
      ⟨(s.freqAt b.toNat).valid || src.contains b, (s.freqAt b.toNat).count + BitVec.ofNat 32 (src.count b)⟩ := by
  have hb : ¬ (Config.endOfText = b.toNat ∧ Config.endOfText < 257) := fun h => absurd b.isLt (h.1 ▸ by decide)
  exact ((freqAt_setFreq ..).trans (if_neg hb)).trans (tallies_freqAt src s b)

/-- A byte occurs in the source at most SRC_LEN times, so its count does not wrap (41_frequency_counter.md R122). -/
theorem count_srcBytes_lt (s : State) (b : Byte) : s.srcBytes.count b < 2 ^ 32 :=
  List.count_le_length.trans_lt (by rw [State.srcBytes, Memory.bytes_length]; exact s.srcLen.isLt)

/-- From an empty FREQ every byte of the source is counted, and no other (41_frequency_counter.md R120, R122). -/
theorem counting_counts (s : State) (i : Instr) (b : Byte) :
    let e := ((s.counting i).countedFrom s.srcBytes).freqAt b.toNat
    e.valid = s.srcBytes.contains b ∧ e.count.toNat = s.srcBytes.count b := by
  rw [countedFrom_freqAt_literal, freqAt_of_replicate (s := s.counting i) rfl]
  refine ⟨Bool.false_or _, ?_⟩
  rw [FreqEntry.absent, BitVec.zero_add, BitVec.toNat_ofNat, Nat.mod_eq_of_lt (count_srcBytes_lt s b)]

/-- A source byte whose read gets a bus error is not counted (20_memory.md R87; 41_frequency_counter.md R120). -/
theorem countByte_busError {k n : Nat} (ha : s.srcByte k < Config.addrSpace) (hb : s.srcReply k = .busError) :
    countByte k n s = .error (.error .srcBus (s.srcAddr + BitVec.ofNat 32 k)) s := by
  have haddr : BitVec.ofNat 32 (s.srcByte k) = s.srcAddr + BitVec.ofNat 32 k := by
    rw [State.srcByte, BitVec.ofNat_add, BitVec.ofNat_toNat, BitVec.setWidth_eq]
  rw [countByte, Cmd.get_bind, Cmd.bind_of_error (memRead_busError ha hb), haddr]

/-- A source byte whose read is answered is counted (41_frequency_counter.md R120). -/
theorem countByte_completes {k n : Nat} (ha : s.srcByte k < Config.addrSpace) (hc : s.srcReply k = .completes)
    (ht : s.srcTouched = []) :
    countByte k n s = .ok [.count (k + 1) n] (s.tally (Memory.read s.mem (s.srcByte k))) := by
  rw [countByte, Cmd.get_bind, Cmd.bind_of_ok (memRead_ok ha hc ht), Cmd.update_bind, Cmd.pure_run]

/-- A count whose next `m` bytes are read and the one after them gets a bus error ends the command by it. The error leaves
nothing of the bytes counted: the session is cleared (41_frequency_counter.md R123). -/
theorem runOn_count_busError : ∀ (m k n : Nat) (s : State) (rest : List Job), s.todo = .count k n :: rest →
    s.srcTouched = [] → m < n → s.srcByte (k + m) < Config.addrSpace →
    (∀ j, k ≤ j → j < k + m → s.srcReply j = .completes) → s.srcReply (k + m) = .busError →
    s.runOn = .next (s.takeError true .srcBus (s.srcAddr + BitVec.ofNat 32 (k + m)))
  | _, _, 0, _, _, _, _, hm, _, _, _ => absurd hm (Nat.not_lt_zero _)
  | 0, k, n + 1, s, rest, hs, _, _, ha, _, hb => runOn_ends (progress_of_error hs (countByte_busError ha hb))
  | m + 1, k, n + 1, s, rest, hs, ht, hm, ha, hc, hb => by
    have hk : s.srcByte k < Config.addrSpace := Nat.lt_of_le_of_lt (by unfold State.srcByte; omega) ha
    have hrun := countByte_completes (n := n) hk (hc k (Nat.le_refl k) (by omega)) ht
    rw [show k + (m + 1) = k + 1 + m by omega] at ha hb ⊢
    exact (runOn_goes (progress_of_ok hs hrun)).trans
      (runOn_count_busError m (k + 1) n _ rest rfl ht (by omega) ha (fun j h1 h2 => hc j (by omega) (by omega)) hb)

/-- A read of the source that gets a bus error, all before it being answered, ends the command in stage COUNT (20_memory.md
R87; 41_frequency_counter.md R123). -/
theorem exec_count_busError (hi : i ∈ [Instr.count, .compress, .encode]) (hw : s.hostWaits = true) (hr : s.RangesOk i)
    {k : Nat} (hk : k < s.srcLen.toNat) (hc : ∀ j, j < k → s.srcReply j = .completes) (hb : s.srcReply k = .busError) :
    exec i s = .next ((s.counting i).takeError true .srcBus (s.srcAddr + BitVec.ofNat 32 k)) := by
  have hreads : i.readsSource = true := by clear hr; revert i; decide
  have hin := inRange_le (hr.source hreads).1
  obtain ⟨rest, he⟩ := exec_begins_count hi hw hr
  have ha : s.srcByte (0 + k) < Config.addrSpace := by unfold State.srcByte; omega
  rw [← Nat.zero_add k] at hb ⊢
  exact he.trans (runOn_count_busError k 0 _ _ rest rfl rfl hk ha (fun j _ hj => hc j (by omega)) hb)

end Ends

/-- Settles O24: the source is counted from an empty FREQ to its end, and END_OF_TEXT's entry put in after the literals'. -/
theorem countTalliesTheSource : Obligations.CountTalliesTheSource := by
  unfold Obligations.CountTalliesTheSource
  intro s hw h
  refine ⟨_, exec_count_eq hw h, ?_⟩
  have hlit := counting_counts s .count
  have heot := countedFrom_freqAt_endOfText (s.counting .count) s.srcBytes
  rw [countedFrom_eq] at hlit heot ⊢
  exact ⟨by constructor <;> rfl, rfl, rfl, hlit, heot, fun n => by rw [nodeAt_of_replicate rfl]; rfl, rfl,
    fun n => by rw [codeAt_of_replicate rfl]; rfl, by constructor <;> rfl, rfl, rfl, rfl⟩

/-- Settles O25: all three commands begin to count in the same state, and the first bus error ends the count with the session
cleared. -/
theorem countBusErrorLeavesTheSessionEmpty : Obligations.CountBusErrorLeavesTheSessionEmpty := by
  unfold Obligations.CountBusErrorLeavesTheSessionEmpty
  intro i s k hi hw hr hk hc hb
  have hcmd : (encode i).extractLsb' 0 4 = i.opcode := by cases i <;> rfl
  refine ⟨_, exec_count_busError hi hw hr hk hc hb, ?_, ?_, by constructor <;> rfl, rfl, rfl, rfl⟩
  · exact { cmd := hcmd, idle := rfl, done := rfl, err := rfl, errCode := rfl, errInfo := rfl, notDropped := rfl,
            noExtra := rfl, pending := rfl, stage := rfl, todo := rfl, queue := rfl, acc := rfl, walk := rfl,
            srcTouched := rfl, dstTouched := rfl, undo := rfl }
  · exact ⟨rfl, freqAt_of_replicate rfl, nodeAt_of_replicate rfl, rfl, codeAt_of_replicate rfl⟩

end Sys2Proof.Machine
end

section
/-! SUPPORT. BUILD as a command: the key order its extractions follow, the two least nodes each internal node combines, the
weight the root gathers, and what the arena depends on (42_tree_builder.md R130 to R136). -/

namespace Sys2Proof.Machine

/-! ### The extraction order -/

/-- `key(i)`, the pair (WEIGHT, node index) in lexicographic order (42_tree_builder.md R131). -/
def State.key (s : State) (i : Nat) : ℕ ×ₗ ℕ := toLex ((s.nodeAt i).weight.toNat, i)

section Keys
variable {s : State}

theorem keyLess_iff {i j : Nat} : s.keyLess i j = true ↔ s.key i < s.key j := by
  simp [State.keyLess, State.key, Prod.Lex.toLex_lt_toLex]

theorem key_injective (s : State) : Function.Injective s.key := fun _ _ h => congrArg (fun k => (ofLex k).2) h

/-- `leastFrom` finds a node whose key no other's is below. -/
theorem key_leastFrom_le (s : State) : ∀ (l : List Nat) (i : Nat), ∀ j ∈ i :: l, s.key (s.leastFrom i l) ≤ s.key j
  | [], i, j, hj => by rw [List.mem_singleton.1 hj]; rfl
  | k :: l, i, j, hj => by
    have ih := key_leastFrom_le s l (if s.keyLess k i then k else i)
    have hmin : s.key (if s.keyLess k i then k else i) ≤ s.key i ∧ s.key (if s.keyLess k i then k else i) ≤ s.key k := by
      split
      · next h => exact ⟨(keyLess_iff.1 h).le, le_rfl⟩
      · next h => exact ⟨le_rfl, not_lt.1 fun hlt => h (keyLess_iff.2 hlt)⟩
    have hfirst := ih _ List.mem_cons_self
    rw [State.leastFrom]
    rcases List.mem_cons.1 hj with rfl | hj
    · exact hfirst.trans hmin.1
    · rcases List.mem_cons.1 hj with rfl | hj
      · exact hfirst.trans hmin.2
      · exact ih j (List.mem_cons_of_mem _ hj)

theorem leastFrom_keyLess {i j : Nat} {l : List Nat} (hj : j ∈ i :: l) (hne : j ≠ s.leastFrom i l) :
    s.keyLess (s.leastFrom i l) j = true :=
  keyLess_iff.2 ((key_leastFrom_le s l i j hj).lt_of_ne fun h => hne (key_injective s h).symm)

end Keys

/-! ### The two least -/

/-- Of the nodes `W`, `l` has the least key and `r` the least of the others (42_tree_builder.md R131). -/
structure State.TwoLeast (s : State) (W : Nat → Prop) (l r : Nat) : Prop where
  left : W l
  right : W r
  apart : l ≠ r
  leftLeast : ∀ i, W i → i ≠ l → s.keyLess l i = true
  rightLeast : ∀ i, W i → i ≠ l → i ≠ r → s.keyLess r i = true

/-- Internal node `n` has as its children the two least of the nodes that waited when it was made, the least on the left
(42_tree_builder.md R131). -/
def State.CombinesLeast (s : State) (n : Nat) : Prop :=
  s.TwoLeast (s.Waiting n) (s.nodeAt n).left.toNat (s.nodeAt n).right.toNat

section TwoLeast
variable {s t : State} {W W' : Nat → Prop} {l r : Nat}

/-- Only the nodes that wait matter, and their weights. -/
theorem State.TwoLeast.congr (h : s.TwoLeast W l r) (hW : ∀ i, W' i ↔ W i) (hn : ∀ i, W i → t.nodeAt i = s.nodeAt i) :
    t.TwoLeast W' l r := by
  have hkey : ∀ i j, W i → W j → t.keyLess i j = s.keyLess i j := fun i j hi hj => by
    rw [State.keyLess, hn i hi, hn j hj, State.keyLess]
  constructor
  case left => exact (hW l).2 h.left
  case right => exact (hW r).2 h.right
  case apart => exact h.apart
  case leftLeast =>
    intro i hi hl
    have hi := (hW i).1 hi
    exact (hkey l i h.left hi).trans (h.leftLeast i hi hl)
  case rightLeast =>
    intro i hi hl hr
    have hi := (hW i).1 hi
    exact (hkey r i h.right hi).trans (h.rightLeast i hi hl hr)

/-- A combination joins the two least of the nodes that wait (42_tree_builder.md R130, R131). -/
theorem combine_joins_least (hq : s.queue.Nodup) (h : 1 < s.queue.length) :
    ∃ a b, a ∈ s.queue ∧ b ∈ s.queue.erase a ∧ s.TwoLeast (· ∈ s.queue) a b ∧ s.combine = s.join a b := by
  obtain ⟨i, is, j, js, hi, hj, hc⟩ := combine_of_two h
  have ha : s.leastFrom i is ∈ s.queue := hi ▸ leastFrom_mem s is i
  have hb : s.leastFrom j js ∈ s.queue.erase (s.leastFrom i is) := hj ▸ leastFrom_mem s js j
  refine ⟨_, _, ha, hb, ?_, hc⟩
  constructor
  case left => exact ha
  case right => exact List.mem_of_mem_erase hb
  case apart => exact fun e => hq.not_mem_erase (e ▸ hb)
  case leftLeast => exact fun k hk hne => leastFrom_keyLess (hi ▸ hk) hne
  case rightLeast => exact fun k hk hl hne => leastFrom_keyLess (hj ▸ hq.mem_erase_iff.2 ⟨hl, hk⟩) hne

end TwoLeast

/-! ### Every internal node combines the two least -/

section Waiting
variable {s t : State} {a b n i : Nat}

/-- What waits when node `n` is made depends on the nodes before it alone. -/
theorem waiting_congr (h : ∀ m, m < n → t.nodeAt m = s.nodeAt m) : t.Waiting n i ↔ s.Waiting n i := by
  refine and_congr_right fun _ => forall₂_congr fun m hm => ?_
  rw [State.IsChild, State.IsChild, h m hm]

/-- The nodes that wait for the next combination are those of the priority structure (42_tree_builder.md R130). -/
theorem State.Forest.waiting_iff_mem_queue (h : s.Forest) : s.Waiting s.tree.nodes.toNat i ↔ i ∈ s.queue := by
  constructor
  · rintro ⟨hi, hp⟩
    by_contra hq
    obtain ⟨p, hc, -⟩ := h.parent i hi hq
    exact hp p (h.child_lt hc).2 hc
  · exact fun hi => ⟨(h.queued i hi).1, fun p _ => (h.queued i hi).2 p⟩

/-- A node made later leaves the two least of an earlier one as they were. -/
theorem State.CombinesLeast.congr (h : s.CombinesLeast n) (hn : ∀ m, m ≤ n → t.nodeAt m = s.nodeAt m) :
    t.CombinesLeast n := by
  rw [State.CombinesLeast, hn n le_rfl]
  exact State.TwoLeast.congr h (fun i => waiting_congr fun m hm => hn m hm.le) fun i hi => hn i hi.1.le

/-- A forest whose internal nodes all combine the two least. -/
structure State.LeastForest (s : State) : Prop where
  forest : s.Forest
  least : ∀ n, s.presentSyms.length ≤ n → n < s.tree.nodes.toNat → s.CombinesLeast n

/-- In a forest with two nodes waiting or more the arena is not full. -/
theorem State.Forest.nodes_lt (h : s.Forest) (hq : 1 < s.queue.length) : s.tree.nodes.toNat < 513 := by
  have := h.waiting
  have := length_presentSyms_le (s := s)
  omega

/-- The node that a join of the two least makes combines them. -/
theorem State.Forest.combinesLeast_join (h : s.Forest) (hn : s.tree.nodes.toNat < 513)
    (hab : s.TwoLeast (· ∈ s.queue) a b) : (s.join a b).CombinesLeast s.tree.nodes.toNat := by
  have haN := (h.queued a hab.left).1
  have hbN := (h.queued b hab.right).1
  have hold : ∀ m, m < s.tree.nodes.toNat → (s.join a b).nodeAt m = s.nodeAt m := fun m hm => by
    rw [join_nodeAt hn, if_neg hm.ne]
  have ea : (BitVec.ofNat 10 a).toNat = a := by rw [BitVec.toNat_ofNat]; omega
  have eb : (BitVec.ofNat 10 b).toNat = b := by rw [BitVec.toNat_ofNat]; omega
  rw [State.CombinesLeast, join_nodeAt hn, if_pos rfl]
  simp only [State.parentOf, ea, eb]
  exact hab.congr (fun i => (waiting_congr hold).trans h.waiting_iff_mem_queue) fun i hi => hold i (h.queued i hi).1

theorem State.LeastForest.combine (h : s.LeastForest) (hq : 1 < s.queue.length) : s.combine.LeastForest := by
  obtain ⟨a, b, ha, hb, hab, hc⟩ := combine_joins_least h.forest.nodup hq
  have hn := h.forest.nodes_lt hq
  rw [hc]
  refine ⟨h.forest.join ha hb, fun n hk hlt => ?_⟩
  rw [join_nodes_toNat hn] at hlt
  rcases Nat.lt_succ_iff_lt_or_eq.1 hlt with hlt | rfl
  · exact (h.least n hk hlt).congr fun m hm => by rw [join_nodeAt hn, if_neg (hm.trans_lt hlt).ne]
  · exact h.forest.combinesLeast_join hn hab

theorem State.LeastForest.combineAll : ∀ (n : Nat) {s : State}, s.LeastForest → (s.combineAll n).LeastForest
  | 0, _, h => h
  | n + 1, s, h => by
    rw [State.combineAll]
    split
    · next hq => exact combineAll n (h.combine hq)
    · exact h

/-- With the leaves placed, no internal node has been made. -/
theorem leastForest_of_leaves (hn : s.tree.nodes.toNat = 0) (hq : s.queue = [])
    (ha : ∀ n, s.nodeAt n = NodeEntry.absent) : (s.placeLeaves s.freq.toList 0).LeastForest := by
  refine ⟨forest_of_leaves hn hq ha, fun n hk hlt => ?_⟩
  have hlen := length_presentSyms_le (s := s)
  rw [placeLeaves_freq] at hk hlt
  rw [presentSyms_congr (addLeaves_freq ..)] at hk
  rw [(addLeaves_layout s.freqAt s.presentSyms s (by omega)).1] at hlt
  omega

theorem growTree_leastForest (hq : s.queue = []) : s.growTree.LeastForest :=
  (leastForest_of_leaves (s := s.dropTree) rfl hq (nodeAt_of_replicate rfl)).combineAll _

end Waiting

/-! ### What the arena depends on -/

/-- The state `b` with the arena, TREE and priority structure of `s`. -/
def State.withArena (b s : State) : State := { b with node := s.node, tree := s.tree, queue := s.queue }

section Arena
variable (b : State)

theorem placeLeaves_withArena : ∀ (es : List FreqEntry) (s : State) (sym : Nat),
    (b.withArena s).placeLeaves es sym = b.withArena (s.placeLeaves es sym)
  | [], _, _ => rfl
  | e :: es, s, sym => by
    simp only [State.placeLeaves]
    split
    · exact placeLeaves_withArena es (s.addNode (leafOf sym e)) (sym + 1)
    · exact placeLeaves_withArena es s (sym + 1)

theorem leastFrom_withArena (s : State) : ∀ (l : List Nat) (i : Nat), (b.withArena s).leastFrom i l = s.leastFrom i l
  | [], _ => rfl
  | j :: l, i => leastFrom_withArena s l (if s.keyLess j i then j else i)

theorem combine_withArena (s : State) : (b.withArena s).combine = b.withArena s.combine := by
  have hqueue : (b.withArena s).queue = s.queue := rfl
  unfold State.combine
  simp only [hqueue, leastFrom_withArena]
  split
  · rfl
  · split <;> rfl

theorem combineAll_withArena : ∀ (n : Nat) (s : State), (b.withArena s).combineAll n = b.withArena (s.combineAll n)
  | 0, _ => rfl
  | n + 1, s => by
    have hqueue : (b.withArena s).queue = s.queue := rfl
    simp only [State.combineAll, hqueue, combine_withArena]
    split
    · exact combineAll_withArena n s.combine
    · rfl

/-- The arena BUILD makes depends on FREQ and on the priority structure it begins with, and on nothing else
(42_tree_builder.md R136). -/
theorem growTree_eq_withArena {s s' : State} (hf : s'.freq = s.freq) (hq : s'.queue = s.queue) :
    s'.growTree = s'.dropTree.withArena s.growTree := by
  have hdrop : s'.dropTree = s'.dropTree.withArena s.dropTree := by
    simp only [State.withArena, State.dropTree, hq]
  unfold State.growTree
  conv_lhs => rw [hdrop, hf, placeLeaves_withArena]
  exact combineAll_withArena _ _ (s.dropTree.placeLeaves s.freq.toList 0)

end Arena

/-! ### The command -/

/-- BUILD accepted, its start check passed (10_state.md R24; 42_tree_builder.md R130). -/
def State.building (s : State) : State := { s.accept (encode .build) with todo := [.build] }

/-- BUILD completed, with node `r` as the root. -/
def State.builtWith (s : State) (r : Nat) : State := (s.building.growTree.setRoot r).finish

section Command
variable {s t : State}

/-- In every phase but EMPTY, BUILD passes its start check (42_tree_builder.md R130). -/
theorem exec_build_begins (hw : s.hostWaits = true) (hp : s.phase ≠ .empty) : exec .build s = s.building.runOn :=
  exec_past_rangeChecks hw (rangesOk_of_none rfl rfl) (beq_eq_false_iff_ne.2 hp)

/-- With a symbol present BUILD completes (42_tree_builder.md R130). -/
theorem exec_build_completes (hw : s.hostWaits = true) (hp : s.phase ≠ .empty) (h : s.presentSyms ≠ []) :
    ∃ r, s.building.growTree.queue = [r] ∧ exec .build s = .next (s.builtWith r) := by
  obtain ⟨r, hr, hb⟩ := buildStage_run (s := s.building) h
  refine ⟨r, hr, (exec_build_begins hw hp).trans ?_⟩
  exact (runOn_goes (progress_of_ok rfl (Cmd.bind_of_ok hb))).trans (runOn_ends (progress_of_nil rfl))

/-- With no symbol present no node waits in the end (42_tree_builder.md R135). -/
theorem growTree_queue_of_none (hq : s.queue = []) (h : s.presentSyms = []) : s.growTree.queue = [] := by
  have hw := (growTree_forest hq).waiting
  rw [presentSyms_congr (growTree_freq s), h, List.length_nil] at hw
  exact List.length_eq_zero_iff.1 (by omega)

/-- A job that faults, which no run reaches, stops the machine (42_tree_builder.md R135). -/
theorem progress_of_fault {j : Job} {rest : List Job} {r : Fault} (hs : s.todo = j :: rest)
    (h : j.run s = .error (.fault r) t) : s.progress = .fault r := by
  simp only [State.progress, hs, State.doJob, h]

theorem runOn_faults {r : Fault} (h : s.progress = .fault r) : s.runOn = .fault r := by rw [runOn_eq, h]

/-- With no symbol present BUILD faults (42_tree_builder.md R135). -/
theorem exec_build_faults (hw : s.hostWaits = true) (hp : s.phase ≠ .empty) (h : s.presentSyms = []) :
    exec .build s = .fault .emptyQueue := by
  have hq : s.building.growTree.queue = [] := growTree_queue_of_none rfl h
  have hb : buildStage s.building = .error (.fault .emptyQueue) s.building.growTree := by
    rw [buildStage, Cmd.update_bind, endBuild, hq]
  exact (exec_build_begins hw hp).trans (runOn_faults (progress_of_fault rfl (Cmd.bind_of_error hb)))

/-- BUILD that answers a next state has completed, with the node left waiting as the root. -/
theorem exec_build_next (hw : s.hostWaits = true) (hp : s.phase ≠ .empty) (ht : exec .build s = .next t) :
    ∃ r, s.building.growTree.queue = [r] ∧ t = s.builtWith r := by
  by_cases h : s.presentSyms = []
  · rw [exec_build_faults hw hp h] at ht
    cases ht
  · obtain ⟨r, hr, he⟩ := exec_build_completes hw hp h
    rw [he] at ht
    cases ht
    exact ⟨r, hr, rfl⟩

/-- BUILD changes the status, the tree, PHASE and the codes alone (42_tree_builder.md R130). -/
theorem builtWith_eq (s : State) (r : Nat) : ∃ node tree,
    s.builtWith r = State.finish { s.building.dropTree with node := node, tree := tree, phase := .built } := by
  obtain ⟨node, tree, queue, hg⟩ := growTree_sameButTree s.building
  exact ⟨node, ⟨BitVec.ofNat 10 r, tree.nodes⟩, by rw [State.builtWith, hg]; rfl⟩

/-- The tree BUILD leaves is the tree of FREQ (42_tree_builder.md R132, R133). -/
theorem builtWith_treeOk {r : Nat} (hr : s.building.growTree.queue = [r]) : (s.builtWith r).TreeOk :=
  (setRoot_growTree_treeOk rfl hr).congr rfl rfl rfl

/-- All the weight ends in the node left waiting (42_tree_builder.md R136). -/
theorem builtWith_root_weight {r : Nat} (hr : s.building.growTree.queue = [r]) :
    ((s.builtWith r).nodeAt (s.builtWith r).tree.root.toNat).weight.toNat = s.countSum := by
  have hf := growTree_forest (s := s.building) rfl
  have hsum : s.building.growTree.countSum = s.countSum := by
    have hfreq : s.building.growTree.freq = s.freq := growTree_freq s.building
    simp only [State.countSum, presentSyms_congr hfreq, freqAt_congr hfreq]
  have hroot : (s.builtWith r).tree.root.toNat = r := by
    have := (hf.setRoot_treeOk hr).1
    have := length_presentSyms_le (s := s.building.growTree)
    change (BitVec.ofNat 10 r).toNat = r
    rw [BitVec.toNat_ofNat]
    omega
  have hweight : (s.building.growTree.nodeAt r).weight.toNat = s.building.growTree.countSum := by
    simpa [State.waitingWeight, hr] using hf.total
  rw [hroot]
  exact hweight.trans hsum

end Command

/-- Settles O26: the leaves and combinations leave a forest with one node waiting, and that node made the root it is the tree
of FREQ. -/
theorem buildLaysOutTheTree : Obligations.BuildLaysOutTheTree := by
  unfold Obligations.BuildLaysOutTheTree
  intro s hw hp he
  obtain ⟨r, hr, hx⟩ := exec_build_completes hw hp (List.ne_nil_of_mem (mem_presentSyms.2 he))
  have htree := builtWith_treeOk hr
  obtain ⟨node, tree, hb⟩ := builtWith_eq s r
  rw [hb] at hx htree
  exact ⟨_, hx, by constructor <;> rfl, rfl, rfl, rfl, htree, fun i => by rw [codeAt_of_replicate rfl]; rfl,
    by constructor <;> rfl, rfl, rfl, rfl⟩

/-- Settles O27: that every internal node combines the two least holds of the leaves alone, and each combination keeps it. -/
theorem buildCombinesTheTwoLeast : Obligations.BuildCombinesTheTwoLeast := by
  unfold Obligations.BuildCombinesTheTwoLeast
  intro s t hw hp _ ht n hk hn
  obtain ⟨r, -, rfl⟩ := exec_build_next hw hp ht
  have hleast : (s.builtWith r).CombinesLeast n :=
    ((growTree_leastForest (s := s.building) rfl).least n hk hn).congr fun m _ => nodeAt_congr rfl m
  exact ⟨hleast.left, hleast.right, hleast.apart, hleast.leftLeast, hleast.rightLeast⟩

/-- Settles O28: a combination moves weight and makes none, so the root has all of it. -/
theorem buildConservesFrequency : Obligations.BuildConservesFrequency := by
  unfold Obligations.BuildConservesFrequency
  intro s t hw hp _ ht
  obtain ⟨r, hr, rfl⟩ := exec_build_next hw hp ht
  exact builtWith_root_weight hr

/-- Settles O29: BUILD begins with no node waiting, so the arena it makes depends on FREQ alone. -/
theorem buildIsDeterminedByFreq : Obligations.BuildIsDeterminedByFreq := by
  unfold Obligations.BuildIsDeterminedByFreq
  intro s s' t t' hw hw' hp hp' hf ht ht'
  obtain ⟨r, hr, rfl⟩ := exec_build_next hw hp ht
  obtain ⟨r', hr', rfl⟩ := exec_build_next hw' hp' ht'
  have hgrow := growTree_eq_withArena (s := s'.building) (s' := s.building) hf rfl
  have hroot : r = r' := List.singleton_inj.1 (hr.symm.trans ((congrArg State.queue hgrow).trans hr'))
  rw [State.builtWith, State.builtWith, hgrow, hroot]
  exact ⟨rfl, rfl⟩

/-- Settles O30: with no leaf placed no node is left to be the root. -/
theorem buildOfAnEmptyTableFaults : Obligations.BuildOfAnEmptyTableFaults := by
  unfold Obligations.BuildOfAnEmptyTableFaults
  exact fun _ hw hp h => exec_build_faults hw hp h

end Sys2Proof.Machine
end

section
/-! SUPPORT. DERIVE as a command, and the two properties of its codes: no code begins another, and with two symbols
or more the code lengths fill the tree (43_code_deriver.md R140 to R143). -/

namespace Sys2Proof.Machine

/-! ### The command -/

/-- DERIVE accepted, its start check passed (10_state.md R24; 43_code_deriver.md R140). -/
def State.startedDerive (s : State) : State := { s.accept (encode .derive) with todo := [.derive] }

/-- DERIVE completed (43_code_deriver.md R140). -/
def State.derived (s : State) : State := s.startedDerive.dropCodes.deriveCodes.endDerive.finish

section Command
variable {s : State}

/-- In BUILT and CODED, DERIVE completes (43_code_deriver.md R140). -/
theorem exec_derive_eq (hw : s.hostWaits = true) (hp : s.phase = .built ∨ s.phase = .coded) :
    exec .derive s = .next s.derived := by
  have hphase : phaseTooLow .derive s.phase = false := by rcases hp with hp | hp <;> rw [hp] <;> rfl
  calc exec .derive s
    _ = s.startedDerive.runOn := exec_past_rangeChecks hw (rangesOk_of_none rfl rfl) hphase
    _ = State.runOn { s.startedDerive.dropCodes.deriveCodes.endDerive with todo := [] } :=
        runOn_goes (progress_of_ok (new := []) rfl rfl)
    _ = .next s.derived := runOn_ends (progress_of_nil rfl)

/-- DERIVE changes the status, PHASE and the codes alone (43_code_deriver.md R140). -/
theorem derived_eq (s : State) :
    ∃ code, s.derived = State.finish { s.startedDerive with code := code, phase := .coded } := by
  obtain ⟨code, hd⟩ := deriveCodes_sameButCodes s.startedDerive.dropCodes
  exact ⟨code, by rw [State.derived, hd]; rfl⟩

/-- The codes DERIVE leaves are those of the tree (43_code_deriver.md R140 to R144). -/
theorem derived_codesOk (h : s.TreeOk) : s.derived.CodesOk :=
  (deriveCodes_codesOk (s := s.startedDerive.dropCodes) (h.congr rfl rfl rfl) rfl).congr rfl rfl rfl rfl

end Command

/-! ### Two walks from one node -/

section Walks
variable {s : State} {i j : Nat}

/-- A walk that has reached a leaf goes no further, so one that begins with it is the same and ends at the same symbol
(43_code_deriver.md R143). -/
theorem State.LeadsTo.eq_of_prefix : ∀ {ds es : List Bool} {n : Nat}, s.LeadsTo i n ds → s.LeadsTo j n es →
    ds <+: es → i = j
  | [], [], _, ⟨_, hi⟩, ⟨_, hj⟩, _ => hi.symm.trans hj
  | [], _ :: _, _, ⟨hl, _⟩, ⟨hl', _⟩, _ => absurd (hl.symm.trans hl') (by decide)
  | _ :: _, [], _, _, _, hp => absurd (List.prefix_nil.1 hp) (List.cons_ne_nil _ _)
  | _ :: _, _ :: _, _, ⟨_, hd⟩, ⟨_, he⟩, hp => by
    obtain ⟨rfl, hp'⟩ := List.cons_prefix_cons.1 hp
    exact State.LeadsTo.eq_of_prefix hd he hp'

/-- A walk that leads to a symbol ends at a leaf of it. -/
theorem State.LeadsTo.exists_leaf : ∀ {ds : List Bool} {n : Nat}, s.LeadsTo i n ds →
    ∃ c, s.Descends c n ds ∧ (s.nodeAt c).leaf = true ∧ (s.nodeAt c).sym.toNat = i
  | [], n, ⟨hl, hi⟩ => ⟨n, rfl, hl, hi⟩
  | _ :: _, _, ⟨hl, hd⟩ => by
    obtain ⟨c, hc, hleaf, hsym⟩ := hd.exists_leaf
    exact ⟨c, ⟨hl, hc⟩, hleaf, hsym⟩

/-- The last step of a walk goes to its end from an internal node. -/
theorem State.Descends.exists_last {c : Nat} {d : Bool} : ∀ {ds : List Bool} {n : Nat}, s.Descends c n (ds ++ [d]) →
    ∃ p, s.Descends p n ds ∧ (s.nodeAt p).leaf = false ∧ s.childOf p d = c
  | [], n, ⟨hl, hc⟩ => ⟨n, rfl, hl, hc⟩
  | _ :: _, _, ⟨hl, hd⟩ => by
    obtain ⟨p, hp, hlast⟩ := hd.exists_last
    exact ⟨p, ⟨hl, hp⟩, hlast⟩

/-- A walk within the tree ends at or before the node it starts from. -/
theorem State.Descends.le (h : s.TreeOk) {c : Nat} : ∀ {ds : List Bool} {n : Nat}, n < 2 * s.presentSyms.length - 1 →
    s.Descends c n ds → c ≤ n
  | [], _, _, hd => hd.ge
  | d :: _, _, hn, ⟨hl, hd⟩ => by
    have hlt := h.childOf_lt hn hl d
    have hle := State.Descends.le h (hlt.trans hn) hd
    exact hle.trans hlt.le

end Walks

/-! ### Internal nodes and their children -/

section Children
variable {s : State} {n p q : Nat} {d e : Bool}

/-- The nodes that are not leaves come after the leaves (42_tree_builder.md R132). -/
theorem State.TreeOk.not_leaf_iff (h : s.TreeOk) :
    (s.nodeAt n).leaf = false ↔ s.presentSyms.length ≤ n := by
  rw [← Bool.not_eq_true, h.leaf_iff, not_lt]

/-- Each step from an internal node goes to a child of it. -/
theorem State.TreeOk.isChild_childOf (h : s.TreeOk) (hn : n < 2 * s.presentSyms.length - 1)
    (hl : (s.nodeAt n).leaf = false) (d : Bool) : s.IsChild n (s.childOf n d) := by
  obtain ⟨hv, -⟩ := h.inner n (h.not_leaf_iff.1 hl) hn
  cases d with
  | false => exact ⟨hv, hl, .inl rfl⟩
  | true => exact ⟨hv, hl, .inr rfl⟩

/-- The steps from internal nodes go to different nodes: a node has one parent, whose two children differ (42_tree_builder.md
R132). -/
theorem State.TreeOk.childOf_injective (h : s.TreeOk) (hp : p < 2 * s.presentSyms.length - 1)
    (hpl : (s.nodeAt p).leaf = false) (hq : q < 2 * s.presentSyms.length - 1) (hql : (s.nodeAt q).leaf = false)
    (he : s.childOf p d = s.childOf q e) : p = q ∧ d = e := by
  have hlt := h.childOf_lt hp hpl d
  have hchild := h.isChild_childOf hp hpl d
  obtain rfl : p = q := (h.parent (s.childOf p d) (by omega)).unique hchild (he ▸ h.isChild_childOf hq hql e)
  obtain ⟨-, -, -, -, hne, -⟩ := h.inner p (h.not_leaf_iff.1 hpl) hp
  have hne' : s.childOf p false ≠ s.childOf p true := fun hc => hne (BitVec.eq_of_toNat_eq hc)
  refine ⟨rfl, ?_⟩
  cases d <;> cases e
  · rfl
  · exact absurd he hne'
  · exact absurd he.symm hne'
  · rfl

/-- The root is the last node of the tree (42_tree_builder.md R132). -/
theorem State.TreeOk.root_lt (h : s.TreeOk) : s.tree.root.toNat < 2 * s.presentSyms.length - 1 := by
  have := h.root
  have := List.length_pos_of_ne_nil h.some
  omega

/-- The tree has one leaf just when one symbol is present (43_code_deriver.md R142). -/
theorem State.TreeOk.root_leaf_iff (h : s.TreeOk) :
    (s.nodeAt s.tree.root.toNat).leaf = true ↔ s.presentSyms.length = 1 := by
  have := List.length_pos_of_ne_nil h.some
  rw [h.leaf_iff, h.root]
  omega

end Children

/-! ### The Kraft equality -/

section Kraft
variable {s : State} {n c : Nat} {ds es : List Bool}

/-- No walk comes back to the root. -/
theorem State.Descends.childOf_ne_root (h : s.TreeOk) (hd : s.Descends n s.tree.root.toNat ds)
    (hl : (s.nodeAt n).leaf = false) (d : Bool) : s.childOf n d ≠ s.tree.root.toNat := by
  have hle := hd.le h h.root_lt
  exact ((h.childOf_lt (hle.trans_lt h.root_lt) hl d).trans_le hle).ne

/-- A walk from the root to a node is the only one: its last step is from the node's one parent. -/
theorem State.Descends.unique (h : s.TreeOk) (hd : s.Descends c s.tree.root.toNat ds)
    (he : s.Descends c s.tree.root.toNat es) : ds = es := by
  have hroot := h.root_lt
  induction ds using List.reverseRecOn generalizing c es with
  | nil =>
    obtain rfl : _ = c := hd
    rcases List.eq_nil_or_concat' es with rfl | ⟨es, e, rfl⟩
    · rfl
    · obtain ⟨p, hp, hl, hc⟩ := he.exists_last
      exact absurd hc (hp.childOf_ne_root h hl e)
  | append_singleton ds d ih =>
    obtain ⟨p, hp, hpl, hpc⟩ := hd.exists_last
    rcases List.eq_nil_or_concat' es with rfl | ⟨es, e, rfl⟩
    · obtain rfl : _ = c := he
      exact absurd hpc (hp.childOf_ne_root h hpl d)
    · obtain ⟨q, hq, hql, hqc⟩ := he.exists_last
      obtain ⟨rfl, rfl⟩ := h.childOf_injective ((hp.le h hroot).trans_lt hroot) hpl ((hq.le h hroot).trans_lt hroot) hql
        (hpc.trans hqc.symm)
      rw [ih hp hq]

/-- The share of node `n` in the bit strings of 256 digits: the number of those that begin with `path(n)`
(43_code_deriver.md R141, R143). -/
def State.share (s : State) (n : Nat) : Nat := 2 ^ (256 - ((s.path n).getD []).length)

theorem State.Descends.share_eq (h : s.TreeOk) (hd : s.Descends n s.tree.root.toNat ds) :
    s.share n = 2 ^ (256 - ds.length) := by
  obtain ⟨p, hp, hdp, -⟩ := h.exists_path ((hd.le h h.root_lt).trans_lt h.root_lt)
  rw [State.share, hp, hdp.unique h hd]
  rfl

/-- The root's share is all of the strings. -/
theorem State.TreeOk.share_root (h : s.TreeOk) : s.share s.tree.root.toNat = 2 ^ 256 :=
  State.Descends.share_eq (ds := []) h rfl

/-- The children of an internal node have half of its share each. -/
theorem State.TreeOk.share_children (h : s.TreeOk) (hn : n < 2 * s.presentSyms.length - 1)
    (hl : (s.nodeAt n).leaf = false) : ∑ d : Bool, s.share (s.childOf n d) = s.share n := by
  obtain ⟨p, -, hp, -⟩ := h.exists_path hn
  have hlen : p.length + 1 ≤ 256 := by
    have hsnoc := (hp.snoc hl true).length_le h h.root_lt
    rw [List.length_append, List.length_singleton, h.root] at hsnoc
    have := length_presentSyms_le (s := s)
    omega
  have hchild : ∀ d, s.share (s.childOf n d) = 2 ^ (256 - (p.length + 1)) := fun d => by
    rw [(hp.snoc hl d).share_eq h, List.length_append, List.length_singleton]
  rw [hp.share_eq h, Fintype.sum_bool, hchild, hchild, ← Nat.two_mul, ← Nat.pow_succ']
  congr 1
  omega

/-- The steps from internal nodes go to each node but the root once (42_tree_builder.md R132). -/
theorem State.TreeOk.sum_children (h : s.TreeOk) (f : Nat → Nat) :
    ∑ n ∈ Finset.Ico s.presentSyms.length (2 * s.presentSyms.length - 1), ∑ d : Bool, f (s.childOf n d) =
      ∑ c ∈ Finset.range (2 * s.presentSyms.length - 2), f c := by
  rw [← Finset.sum_product']
  refine Finset.sum_nbij (fun p => s.childOf p.1 p.2) ?into ?inj ?onto fun _ _ => rfl
  case into =>
    rintro ⟨n, d⟩ hm
    simp only [Finset.mem_product, Finset.mem_Ico, Finset.mem_range] at hm ⊢
    have := h.childOf_lt hm.1.2 (h.not_leaf_iff.2 hm.1.1) d
    omega
  case inj =>
    rintro ⟨p, d⟩ hp ⟨q, e⟩ hq he
    simp only [Finset.coe_product, Set.mem_prod, Finset.mem_coe, Finset.mem_Ico] at hp hq
    obtain ⟨rfl, rfl⟩ := h.childOf_injective hp.1.2 (h.not_leaf_iff.2 hp.1.1) hq.1.2 (h.not_leaf_iff.2 hq.1.1) he
    rfl
  case onto =>
    intro c hc
    obtain ⟨p, hp, -⟩ := h.parent c (Finset.mem_range.1 hc)
    obtain ⟨d, hd⟩ := hp.exists_digit
    have hp' : p ∈ Finset.Ico s.presentSyms.length (2 * s.presentSyms.length - 1) :=
      Finset.mem_Ico.2 ⟨h.not_leaf_iff.1 hp.2.1, (h.child_lt hp).2⟩
    exact ⟨(p, d), Finset.mem_product.2 ⟨hp', Finset.mem_univ d⟩, hd⟩

/-- The leaves share all of the strings: each internal node hands its share on to its children, which are all the nodes but
the root. -/
theorem State.TreeOk.sum_share_leaves (h : s.TreeOk) :
    ∑ n ∈ Finset.range s.presentSyms.length, s.share n = 2 ^ 256 := by
  have hpos := List.length_pos_of_ne_nil h.some
  have hroot := h.root
  have hend : 2 * s.presentSyms.length - 1 = s.tree.root.toNat + 1 := by omega
  have hinner : ∑ n ∈ Finset.Ico s.presentSyms.length (2 * s.presentSyms.length - 1), s.share n =
      ∑ c ∈ Finset.range s.tree.root.toNat, s.share c := by
    rw [hroot, ← h.sum_children]
    refine Finset.sum_congr rfl fun n hn => ?_
    obtain ⟨hk, hn⟩ := Finset.mem_Ico.1 hn
    exact (h.share_children hn (h.not_leaf_iff.2 hk)).symm
  have hall : ∑ n ∈ Finset.range s.presentSyms.length, s.share n + ∑ c ∈ Finset.range s.tree.root.toNat, s.share c =
      2 ^ 256 + ∑ c ∈ Finset.range s.tree.root.toNat, s.share c := by
    rw [← hinner, Finset.sum_range_add_sum_Ico _ (by omega), hinner, hend, Finset.sum_range_succ, h.share_root,
      Nat.add_comm]
  exact Nat.add_right_cancel hall

/-- With two symbols or more, `path(n)` is the code of leaf `n`'s symbol (43_code_deriver.md R140). -/
theorem State.CodesOk.share_leaf (hc : s.CodesOk) (h : s.TreeOk) (h2 : 2 ≤ s.presentSyms.length)
    (hn : n < s.presentSyms.length) : 2 ^ (256 - (s.codeAt s.presentSyms[n]).len.toNat) = s.share n := by
  have hv : (s.codeAt s.presentSyms[n]).valid = true := by
    rw [hc.present, ← mem_presentSyms]
    exact List.getElem_mem hn
  have hroot : (s.nodeAt s.tree.root.toNat).leaf = false := by
    rw [← Bool.not_eq_true, h.root_leaf_iff]
    omega
  obtain ⟨c, hd, hl, hsym⟩ := (hc.paths _ hv hroot).exists_leaf
  have hlt := h.leaf_iff.1 hl
  rw [h.leaf_sym hlt] at hsym
  obtain rfl : c = n := (List.nodup_range.filter _).getElem_inj_iff.1 hsym
  rw [hd.share_eq h, CodeEntry.digits, List.length_map, List.length_range]

end Kraft

/-- Settles O31: DERIVE passes its start check, discards the codes and makes those of the tree. -/
theorem deriveGivesEachLeafItsPath : Obligations.DeriveGivesEachLeafItsPath := by
  unfold Obligations.DeriveGivesEachLeafItsPath
  intro s hw hp h
  have hcodes := derived_codesOk h
  refine ⟨_, exec_derive_eq hw hp, ?_⟩
  obtain ⟨code, hd⟩ := derived_eq s
  rw [hd] at hcodes ⊢
  exact ⟨by constructor <;> rfl, rfl, rfl, hcodes, rfl, rfl, rfl, by constructor <;> rfl, rfl, rfl, rfl⟩

/-- Settles O32: on a one-leaf tree there is no other symbol; else a walk that has reached a leaf goes no further. -/
theorem codesArePrefixFree : Obligations.CodesArePrefixFree := by
  unfold Obligations.CodesArePrefixFree
  intro s h hc a b ha hb hne hp
  cases hl : (s.nodeAt s.tree.root.toNat).leaf with
  | false => exact hne ((hc.paths a ha hl).eq_of_prefix (hc.paths b hb hl) hp)
  | true =>
    obtain ⟨i, hi⟩ := List.length_eq_one_iff.1 (h.root_leaf_iff.1 hl)
    have only : ∀ c, (s.codeAt c).valid = true → c = i := fun c hv => by
      rw [hc.present, ← mem_presentSyms, hi] at hv
      exact List.mem_singleton.1 hv
    exact hne ((only a ha).trans (only b hb).symm)

/-- Settles O33: a code's summand is its leaf's share of the bit strings of 256 digits, and the leaves share them all. -/
theorem codeLengthsFillTheTree : Obligations.CodeLengthsFillTheTree := by
  unfold Obligations.CodeLengthsFillTheTree
  intro s h hc h2
  have hshares : s.presentSyms.map (fun i => 2 ^ (256 - (s.codeAt i).len.toNat)) =
      (List.range s.presentSyms.length).map s.share :=
    List.ext_getElem (by simp) fun n hn _ => by
      rw [List.length_map] at hn
      simpa using hc.share_leaf h h2 hn
  rw [hshares]
  exact h.sum_share_leaves

end Sys2Proof.Machine
end

section
/-! SUPPORT. The table section of a source read pair by pair (44_table_serializer.md R155, R156): which symbol stands where,
what FREQ holds after some pairs, and how the reading of every source ends. -/

namespace Sys2Proof.Machine

/-! ### What a key byte means -/

/-- The rows of 44_table_serializer.md R155 for the first pair. -/
theorem classify_first (k : Byte) : classify 0 false k =
    if k = 0x03#8 then .pair 3 else if k = 0x04#8 then .endOfTextPair else .malformed := by
  by_cases h3 : k = 0x03#8
  · subst h3; rfl
  · by_cases h4 : k = 0x04#8 <;> simp [classify, Config.eotKey, Config.terminator, h3, h4]

/-- The rows of 44_table_serializer.md R155 for a later pair with END_OF_TEXT not read. -/
theorem classify_unseen {idx : Nat} (hi : 0 < idx) (k : Byte) :
    classify idx false k = if k = 0x04#8 then .endOfTextPair else .malformed := by
  simp [classify, Config.eotKey, Nat.ne_of_gt hi]

/-- The rows of 44_table_serializer.md R155 with END_OF_TEXT read. -/
theorem classify_seen (idx : Nat) (k : Byte) :
    classify idx true k = if k = 0x03#8 then .terminator else .pair k.toNat := rfl

/-- Before END_OF_TEXT's pair no key byte is a terminator (44_table_serializer.md R155). -/
theorem classify_unseen_ne_terminator (idx : Nat) (k : Byte) : classify idx false k ≠ .terminator := by
  obtain rfl | hi := Nat.eq_zero_or_pos idx
  · rw [classify_first]
    split
    · simp
    · split <;> simp
  · rw [classify_unseen hi]
    split <;> simp

/-! ### The pairs of a source -/

section Pairs
variable {src : List Byte} {j n sym : Nat}

/-- A key byte that begins a pair is a literal's or END_OF_TEXT's (44_table_serializer.md R155). -/
theorem symAt_eq_some_iff : symAt src n = some sym ↔
    classAt src n = .pair sym ∨ classAt src n = .endOfTextPair ∧ sym = Config.endOfText := by
  unfold symAt
  cases classAt src n <;> simp [eq_comm]

theorem symAt_eq_none_iff : symAt src n = none ↔ classAt src n = .terminator ∨ classAt src n = .malformed := by
  unfold symAt
  cases classAt src n <;> simp

/-- Every symbol has an entry of FREQ (00_scope.md R12). -/
theorem symAt_lt (h : symAt src n = some sym) : sym < 257 := by
  obtain h | ⟨-, rfl⟩ := symAt_eq_some_iff.1 h
  · unfold classAt classify at h
    split at h
    · split at h <;> cases h
      exact (keyByte src n).isLt.trans (by decide)
    · split at h
      · cases h
      · split at h <;> cases h
        decide
  · decide

/-- The END_OF_TEXT pair stands before the pairs after it (44_table_serializer.md R155). -/
theorem seenAt_succ_of_endOfTextPair (h : classAt src n = .endOfTextPair) : seenAt src (n + 1) = true := by
  cases n with
  | zero =>
    have hkey : keyByte src 0 = 0x04#8 := by
      by_contra hne
      have hclass := classify_first (keyByte src 0)
      rw [if_neg hne] at hclass
      have hc := h.symm.trans hclass
      split at hc <;> cases hc
    simp only [seenAt, hkey]
    rfl
  | succ n => simp [seenAt]

/-- A literal's pair does not change whether the END_OF_TEXT pair was read: before it only the literal 3 can stand, at the
first position (44_table_serializer.md R155). -/
theorem seenAt_succ_of_pair (h : classAt src n = .pair sym) : seenAt src (n + 1) = seenAt src n := by
  match n with
  | 0 =>
    have hkey : keyByte src 0 ≠ Config.eotKey := fun he => by
      rw [classAt, he] at h
      cases h
    simpa [seenAt] using hkey
  | 1 =>
    cases hs : seenAt src 1 with
    | true => rfl
    | false =>
      rw [classAt, hs, classify_unseen Nat.one_pos] at h
      split at h <;> cases h
  | n + 2 => simp [seenAt]

/-- Where END_OF_TEXT counts as read, one of the pairs read is its (44_table_serializer.md R155). -/
theorem exists_endOfText_of_seenAt : ∀ n, (∀ j, j < n → PairAt src j) → seenAt src n = true →
    ∃ j, j < n ∧ symAt src j = some Config.endOfText
  | 0, _, h => by cases h
  | n + 1, hp, h => by
    obtain ⟨sym, hsym⟩ := Option.ne_none_iff_exists'.1 (hp n n.lt_succ_self).isPair
    obtain hc | ⟨-, rfl⟩ := symAt_eq_some_iff.1 hsym
    · rw [seenAt_succ_of_pair hc] at h
      obtain ⟨j, hj, he⟩ := exists_endOfText_of_seenAt n (fun j hj => hp j (Nat.lt_succ_of_lt hj)) h
      exact ⟨j, Nat.lt_succ_of_lt hj, he⟩
    · exact ⟨n, n.lt_succ_self, hsym⟩

/-- The terminator ends a table section that holds END_OF_TEXT (44_table_serializer.md R155). -/
theorem TableAt.exists_endOfText (h : TableAt src n) : ∃ j, j < n ∧ symAt src j = some Config.endOfText := by
  obtain ⟨hp, -, hc⟩ := h
  refine exists_endOfText_of_seenAt n hp (Bool.eq_true_of_not_eq_false fun hs => ?_)
  rw [classAt, hs] at hc
  exact classify_unseen_ne_terminator _ _ hc

theorem length_ge_of_pairs (hp : ∀ j, j < n → PairAt src j) : 5 * n ≤ src.length := by
  cases n with
  | zero => exact Nat.zero_le _
  | succ n => exact (hp n n.lt_succ_self).inside

/-- Pairs are read up to a first place where the source has none: there the table section ends, goes wrong or is cut off
(44_table_serializer.md R156). -/
theorem exists_table_end (src : List Byte) : ∃ n, (∀ j, j < n → PairAt src j) ∧
    (TableAt src n ∨ MalformedAt src n ∨ TruncatedAt src n) := by
  classical
  have hex : ∃ n, ¬ PairAt src n := ⟨src.length, fun h => by have := h.inside; omega⟩
  refine ⟨Nat.find hex, fun j hj => not_not.1 (Nat.find_min hex hj), ?_⟩
  have hno := Nat.find_spec hex
  have hp : ∀ j, j < Nat.find hex → PairAt src j := fun j hj => not_not.1 (Nat.find_min hex hj)
  generalize Nat.find hex = n at hno hp
  by_cases hkey : src.length ≤ 5 * n
  · exact .inr (.inr ⟨hp, .inl hkey⟩)
  have hlt : 5 * n < src.length := Nat.lt_of_not_le hkey
  by_cases hsym : symAt src n = none
  · obtain hc | hc := symAt_eq_none_iff.1 hsym
    · exact .inl ⟨hp, hlt, hc⟩
    · exact .inr (.inl ⟨hp, hlt, .inl hc⟩)
  by_cases hin : 5 * n + 5 ≤ src.length
  · have hdup : ∃ i, i < n ∧ symAt src i = symAt src n := by
      by_contra hnone
      exact hno ⟨hin, hsym, fun i hi he => hnone ⟨i, hi, he⟩⟩
    exact .inr (.inl ⟨hp, hlt, .inr ⟨hin, hsym, hdup⟩⟩)
  · exact .inr (.inr ⟨hp, .inr ⟨hsym, Nat.lt_of_not_le hin⟩⟩)

end Pairs

/-! ### FREQ after some pairs -/

/-- FREQ after the first `n` pairs of a source have entered it (44_table_serializer.md R156). -/
def tableFreq (src : List Byte) : Nat → Vector FreqEntry 257
  | 0 => Vector.replicate 257 FreqEntry.absent
  | n + 1 =>
    match symAt src n with
    | some sym => (tableFreq src n).setIfInBounds sym ⟨true, countAt src n⟩
    | none => tableFreq src n

section TableFreq
variable {src : List Byte} {j n sym : Nat} {t : State}

theorem tableFreq_succ (h : symAt src n = some sym) :
    tableFreq src (n + 1) = (tableFreq src n).setIfInBounds sym ⟨true, countAt src n⟩ := by
  rw [tableFreq, h]

/-- A pair changes the entry of its own symbol. -/
theorem freqAt_tableFreq_succ (hs : symAt src n = some sym) (ht : t.freq = tableFreq src (n + 1)) (i : Nat) :
    t.freqAt i = if sym = i then ⟨true, countAt src n⟩ else State.freqAt { t with freq := tableFreq src n } i := by
  have hset := freqAt_congr (t := t) (s := State.setFreq { t with freq := tableFreq src n } sym ⟨true, countAt src n⟩)
    (ht.trans (tableFreq_succ hs)) i
  simpa [freqAt_setFreq, symAt_lt hs] using hset

theorem freqAt_tableFreq_of_absent : ∀ (n : Nat) {t : State}, t.freq = tableFreq src n → (∀ j, j < n → PairAt src j) →
    (∀ j, j < n → symAt src j ≠ some sym) → t.freqAt sym = FreqEntry.absent
  | 0, _, ht, _, _ => freqAt_of_replicate ht sym
  | n + 1, t, ht, hp, hne => by
    obtain ⟨i, hi⟩ := Option.ne_none_iff_exists'.1 (hp n n.lt_succ_self).isPair
    rw [freqAt_tableFreq_succ hi ht, if_neg (by rintro rfl; exact hne n n.lt_succ_self hi)]
    exact freqAt_tableFreq_of_absent n rfl (fun j hj => hp j (Nat.lt_succ_of_lt hj))
      fun j hj => hne j (Nat.lt_succ_of_lt hj)

/-- No symbol is read twice, so its entry is the one its pair has put in (44_table_serializer.md R156). -/
theorem freqAt_tableFreq_of_pair : ∀ (n : Nat) {t : State}, t.freq = tableFreq src n → (∀ j, j < n → PairAt src j) →
    j < n → symAt src j = some sym → t.freqAt sym = ⟨true, countAt src j⟩
  | 0, _, _, _, hj, _ => absurd hj (Nat.not_lt_zero j)
  | n + 1, t, ht, hp, hj, hs => by
    obtain ⟨i, hi⟩ := Option.ne_none_iff_exists'.1 (hp n n.lt_succ_self).isPair
    rw [freqAt_tableFreq_succ hi ht]
    obtain hlt | rfl := Nat.lt_succ_iff_lt_or_eq.1 hj
    · have hne : i ≠ sym := fun he => (hp n n.lt_succ_self).fresh j hlt (by rw [hs, hi, he])
      rw [if_neg hne]
      exact freqAt_tableFreq_of_pair n rfl (fun j hj => hp j (Nat.lt_succ_of_lt hj)) hlt hs
    · rw [if_pos (Option.some.inj (hi.symm.trans hs))]

theorem freqAt_tableFreq_valid_iff (ht : t.freq = tableFreq src n) (hp : ∀ j, j < n → PairAt src j) :
    (t.freqAt sym).valid = true ↔ ∃ j, j < n ∧ symAt src j = some sym := by
  constructor
  · intro hv
    by_contra hno
    rw [freqAt_tableFreq_of_absent n ht hp fun j hj he => hno ⟨j, hj, he⟩] at hv
    cases hv
  · rintro ⟨j, hj, hs⟩
    rw [freqAt_tableFreq_of_pair n ht hp hj hs]

theorem freqOfTable_of_tableFreq (ht : t.freq = tableFreq src n) (h : TableAt src n) : t.FreqOfTable src n where
  table := h
  present _ := freqAt_tableFreq_valid_iff ht h.1
  count _ _ hj hs := by rw [freqAt_tableFreq_of_pair n ht h.1 hj hs]

end TableFreq

end Sys2Proof.Machine
end

section
/-! SUPPORT. The jobs of PARSE: the reads of its source, and the pairs they put into FREQ up to the table section's end or
the first error (44_table_serializer.md R154 to R158). -/

namespace Sys2Proof.Machine

/-! ### The source bytes -/

section NextByte
variable {s : State} {pos : Nat}

/-- `next_byte()` gives the byte of the source where host memory answers (44_table_serializer.md R154). -/
theorem nextByte_completes (ha : s.srcAddr.toNat + s.srcLen.toNat ≤ Config.addrSpace) (ht : s.srcTouched = [])
    (hp : pos < s.srcLen.toNat) (hc : s.srcReply pos = .completes) :
    nextByte pos s = .ok (s.srcBytes.getD pos 0#8) s := by
  have hbyte : s.srcBytes.getD pos 0#8 = Memory.read s.mem (s.srcByte pos) := by
    simp [State.srcBytes, Memory.bytes, State.srcByte, hp]
  rw [nextByte, Cmd.get_bind, if_pos hp, hbyte]
  exact memRead_ok (by unfold State.srcByte; omega) hc ht

/-- A bus error raises SRC_BUS with the address (44_table_serializer.md R154, 20_memory.md R87). -/
theorem nextByte_busError (ha : s.srcAddr.toNat + s.srcLen.toNat ≤ Config.addrSpace) (hp : pos < s.srcLen.toNat)
    (hb : s.srcReply pos = .busError) :
    nextByte pos s = .error (.error .srcBus (s.srcAddr + BitVec.ofNat 32 pos)) s := by
  have haddr : BitVec.ofNat 32 (s.srcByte pos) = s.srcAddr + BitVec.ofNat 32 pos := by
    rw [State.srcByte, BitVec.ofNat_add, BitVec.ofNat_toNat, BitVec.setWidth_eq]
  rw [nextByte, Cmd.get_bind, if_pos hp, ← haddr]
  exact memRead_busError (by unfold State.srcByte; omega) hb

/-- Past the source's end the header is truncated (44_table_serializer.md R154). -/
theorem nextByte_end (s : State) : nextByte s.srcLen.toNat s = .error (.error .truncatedHeader s.srcLen) s := by
  rw [nextByte, Cmd.get_bind, if_neg (Nat.lt_irrefl _), Cmd.raise_run, BitVec.ofNat_toNat, BitVec.setWidth_eq]

end NextByte

/-! ### Between two pairs -/

/-- PARSE with the first `n` pairs of its source in FREQ and the jobs `jobs` to do, `s` being the state it begins in
(44_table_serializer.md R156). -/
def State.parseAt (s : State) (n : Nat) (jobs : List Job) : State :=
  { s with freq := tableFreq s.srcBytes n, todo := jobs }

/-- The job that reads the key byte of pair `n` of a source (44_table_serializer.md R156). -/
def keyJob (src : List Byte) (n : Nat) : Job := .parseKey (5 * n) n (seenAt src n)

/-- The job that reads the count of pair `n`, whose symbol is `sym`, after `m` of its bytes (44_table_serializer.md R156). -/
def countJob (src : List Byte) (n sym m : Nat) : Job :=
  .parseCount (5 * n) sym ((src.drop (5 * n + 1)).take m) n (seenAt src (n + 1))

/-- The four bytes after the key byte are the count (30_encoding.md R96). -/
theorem countOfBytes_take (src : List Byte) (n : Nat) :
    countOfBytes ((src.drop (5 * n + 1)).take 4) = countAt src n := by
  simp [countOfBytes, be32, countAt, List.getD_eq_getElem?_getD, List.getElem?_drop]

/-- One more byte of a count (44_table_serializer.md R156). -/
theorem take_drop_succ_getD {src : List Byte} {k m : Nat} (h : k + m < src.length) :
    (src.drop k).take (m + 1) = (src.drop k).take m ++ [src.getD (k + m) 0#8] := by
  rw [List.take_add_one, List.getElem?_drop, List.getElem?_eq_getElem h, List.getD_eq_getElem _ _ h]
  rfl

section Jobs
variable {src : List Byte} {n sym m : Nat} {u : State}

theorem length_countBytes (hl : 5 * n + 1 + m ≤ src.length) : ((src.drop (5 * n + 1)).take m).length = m :=
  List.length_take_of_le (by rw [List.length_drop]; omega)

/-- A key byte that has been read is looked up in the table of 44_table_serializer.md R155. -/
theorem run_keyJob {k : Byte} (h : nextByte (5 * n) u = .ok k u) : (keyJob src n).run u =
    match classify n (seenAt src n) k with
    | .pair sym => .ok [.parseCount (5 * n) sym [] n (seenAt src n)] u
    | .endOfTextPair => .ok [.parseCount (5 * n) Config.endOfText [] n true] u
    | .terminator => .ok [.endParse (5 * n + 1)] u
    | .malformed => .error (.error .malformedTable (BitVec.ofNat 32 (5 * n))) u := by
  refine (Cmd.bind_of_ok h).trans ?_
  cases classify n (seenAt src n) k <;> rfl

/-- With fewer than four bytes of a count read the next one is read (44_table_serializer.md R156). -/
theorem run_countJob_read (hm : m < 4) (hl : 5 * n + 1 + m ≤ src.length) : (countJob src n sym m).run =
    nextByte (5 * n + 1 + m) >>= fun b =>
      pure [.parseCount (5 * n) sym ((src.drop (5 * n + 1)).take m ++ [b]) n (seenAt src (n + 1))] := by
  simp only [countJob, Job.run, length_countBytes hl, if_pos hm, parseCountByte]

/-- With four bytes of a count read its pair is to enter FREQ (44_table_serializer.md R156). -/
theorem run_countJob_whole (hl : 5 * n + 5 ≤ src.length) : (countJob src n sym 4).run =
    enterPair (5 * n) sym ((src.drop (5 * n + 1)).take 4) n (seenAt src (n + 1)) :=
  if_neg (by rw [length_countBytes (m := 4) hl]; decide)

/-- A pair whose symbol is new enters FREQ, and the next key byte is left to read (44_table_serializer.md R156). -/
theorem run_countJob_new (hl : 5 * n + 5 ≤ src.length) (hv : (u.freqAt sym).valid = false) :
    (countJob src n sym 4).run u = .ok [keyJob src (n + 1)] (u.setFreq sym ⟨true, countAt src n⟩) := by
  rw [run_countJob_whole hl, enterPair, Cmd.get_bind, hv, countOfBytes_take]
  rfl

/-- A symbol read before is a duplicate key, found out when its four count bytes are read (44_table_serializer.md R156; log
24). -/
theorem run_countJob_duplicate (hl : 5 * n + 5 ≤ src.length) (hv : (u.freqAt sym).valid = true) :
    (countJob src n sym 4).run u = .error (.error .malformedTable (BitVec.ofNat 32 (5 * n))) u := by
  rw [run_countJob_whole hl, enterPair, Cmd.get_bind, hv]
  rfl

end Jobs

/-- The source bytes before offset `e` lie in the source, and host memory answers their reads (20_memory.md R71, R88). -/
structure State.CanRead (s : State) (e : Nat) : Prop where
  inRange : s.srcAddr.toNat + s.srcLen.toNat ≤ Config.addrSpace
  untouched : s.srcTouched = []
  inside : e ≤ s.srcLen.toNat
  answers : ∀ k, k < e → s.srcReply k = .completes

/-- Wherever PARSE stands, its read of source byte `pos` ends it by an error (44_table_serializer.md R154). -/
def State.ReadFails (s : State) (pos : Nat) (code : ErrCode) (info : Word) : Prop :=
  ∀ n jobs, nextByte pos (s.parseAt n jobs) = .error (.error code info) (s.parseAt n jobs)

section Runs
variable {s : State} {n e m sym : Nat} {rest : List Job} {code : ErrCode} {info : Word}

theorem length_srcBytes (s : State) : s.srcBytes.length = s.srcLen.toNat := Memory.bytes_length _ _ _

theorem State.CanRead.mono {e' : Nat} (h : s.CanRead e) (he : e' ≤ e) : s.CanRead e' :=
  ⟨h.inRange, h.untouched, he.trans h.inside, fun k hk => h.answers k (hk.trans_le he)⟩

theorem State.CanRead.nextByte {k : Nat} (h : s.CanRead e) (hk : k < e) (n : Nat) (jobs : List Job) :
    nextByte k (s.parseAt n jobs) = .ok (s.srcBytes.getD k 0#8) (s.parseAt n jobs) :=
  nextByte_completes (s := s.parseAt n jobs) h.inRange h.untouched (hk.trans_le h.inside) (h.answers k hk)

theorem readFails_of_busError (ha : s.srcAddr.toNat + s.srcLen.toNat ≤ Config.addrSpace) (he : e < s.srcLen.toNat)
    (hb : s.srcReply e = .busError) : s.ReadFails e .srcBus (s.srcAddr + BitVec.ofNat 32 e) :=
  fun n jobs => nextByte_busError (s := s.parseAt n jobs) ha he hb

theorem readFails_end (s : State) : s.ReadFails s.srcLen.toNat .truncatedHeader s.srcLen :=
  fun n jobs => nextByte_end (s.parseAt n jobs)

/-- A job of PARSE that changes nothing leaves its jobs to do. -/
theorem runOn_parseAt_ok {j : Job} {new : List Job}
    (h : j.run (s.parseAt n (j :: rest)) = .ok new (s.parseAt n (j :: rest))) :
    (s.parseAt n (j :: rest)).runOn = (s.parseAt n (new ++ rest)).runOn :=
  runOn_goes (progress_of_ok rfl h)

/-- An error of PARSE leaves nothing of the pairs read (44_table_serializer.md R158). -/
theorem runOn_parseAt_error {j : Job} (hj : j.clearsOnError = true)
    (h : j.run (s.parseAt n (j :: rest)) = .error (.error code info) (s.parseAt n (j :: rest))) :
    (s.parseAt n (j :: rest)).runOn = .next (s.takeError true code info) := by
  rw [runOn_ends (progress_of_error rfl h), hj]
  rfl

theorem State.CanRead.keyByte (h : s.CanRead (5 * n + 1)) (jobs : List Job) :
    Machine.nextByte (5 * n) (s.parseAt n jobs) = .ok (keyByte s.srcBytes n) (s.parseAt n jobs) :=
  h.nextByte (Nat.lt_succ_self _) n jobs

/-- The key byte of a pair leaves the pair's count to read (44_table_serializer.md R156). -/
theorem runOn_keyJob_pair (h : s.CanRead (5 * n + 1)) (hs : symAt s.srcBytes n = some sym) :
    (s.parseAt n (keyJob s.srcBytes n :: rest)).runOn = (s.parseAt n (countJob s.srcBytes n sym 0 :: rest)).runOn := by
  refine runOn_parseAt_ok (new := [countJob s.srcBytes n sym 0]) ((run_keyJob (h.keyByte _)).trans ?_)
  obtain hc | ⟨hc, rfl⟩ := symAt_eq_some_iff.1 hs
  · rw [← classAt, hc, countJob, seenAt_succ_of_pair hc]; rfl
  · rw [← classAt, hc, countJob, seenAt_succ_of_endOfTextPair hc]; rfl

/-- A malformed key byte ends PARSE (44_table_serializer.md R155). -/
theorem runOn_keyJob_malformed (h : s.CanRead (5 * n + 1)) (hc : classAt s.srcBytes n = .malformed) :
    (s.parseAt n (keyJob s.srcBytes n :: rest)).runOn =
      .next (s.takeError true .malformedTable (BitVec.ofNat 32 (5 * n))) := by
  refine runOn_parseAt_error rfl ((run_keyJob (h.keyByte _)).trans ?_)
  rw [← classAt, hc]

/-- The terminator ends PARSE: SRC_POS is the offset after it (44_table_serializer.md R156). -/
theorem runOn_keyJob_terminator (h : s.CanRead (5 * n + 1)) (hc : classAt s.srcBytes n = .terminator) :
    (s.parseAt n [keyJob s.srcBytes n]).runOn = .next ((s.parseAt n []).endParse (5 * n + 1)).finish := by
  have hkey : (s.parseAt n [keyJob s.srcBytes n]).runOn = (s.parseAt n [.endParse (5 * n + 1)]).runOn := by
    refine runOn_parseAt_ok (new := [.endParse (5 * n + 1)]) ((run_keyJob (h.keyByte _)).trans ?_)
    rw [← classAt, hc]
  rw [hkey, runOn_goes (progress_of_ok (new := []) rfl rfl)]
  exact runOn_ends (progress_of_nil rfl)

/-- Up to four bytes of a pair's count are read (44_table_serializer.md R156). -/
theorem runOn_countJob : ∀ m, m ≤ 4 → s.CanRead (5 * n + 1 + m) →
    (s.parseAt n (countJob s.srcBytes n sym 0 :: rest)).runOn = (s.parseAt n (countJob s.srcBytes n sym m :: rest)).runOn
  | 0, _, _ => rfl
  | m + 1, hm, h => by
    have hlt : 5 * n + 1 + m < s.srcBytes.length := by rw [length_srcBytes]; exact h.inside
    rw [runOn_countJob m (Nat.le_of_succ_le hm) (h.mono (Nat.le_succ _))]
    refine runOn_parseAt_ok (new := [countJob s.srcBytes n sym (m + 1)]) ?_
    rw [run_countJob_read hm hlt.le, Cmd.bind_of_ok (h.nextByte (show 5 * n + 1 + m < _ from Nat.lt_succ_self _) n _),
      ← take_drop_succ_getD hlt]
    rfl

/-- A read that fails ends PARSE, at a key byte or inside a pair (44_table_serializer.md R154, R158). -/
theorem runOn_keyJob_readFails (he : s.ReadFails e code info) (hc : s.CanRead e)
    (hn : e = 5 * n ∨ 5 * n < e ∧ e < 5 * n + 5 ∧ symAt s.srcBytes n ≠ none) :
    (s.parseAt n (keyJob s.srcBytes n :: rest)).runOn = .next (s.takeError true code info) := by
  obtain rfl | ⟨hlo, hhi, hsym⟩ := hn
  · exact runOn_parseAt_error rfl (Cmd.bind_of_error (he n _))
  · obtain ⟨sym, hsym⟩ := Option.ne_none_iff_exists'.1 hsym
    obtain ⟨m, rfl⟩ := Nat.exists_eq_add_of_le (Nat.succ_le_of_lt hlo)
    have hm : m < 4 := by omega
    rw [runOn_keyJob_pair (hc.mono (by omega)) hsym, runOn_countJob m hm.le hc]
    refine runOn_parseAt_error rfl ?_
    rw [run_countJob_read hm (length_srcBytes s ▸ hc.inside)]
    exact Cmd.bind_of_error (he n _)

/-- A pair read whole comes to the entering of its symbol (44_table_serializer.md R156). -/
theorem runOn_keyJob_wholePair (h : s.CanRead (5 * n + 5)) (hs : symAt s.srcBytes n = some sym) :
    (s.parseAt n (keyJob s.srcBytes n :: rest)).runOn = (s.parseAt n (countJob s.srcBytes n sym 4 :: rest)).runOn :=
  (runOn_keyJob_pair (h.mono (by omega)) hs).trans (runOn_countJob 4 (Nat.le_refl 4) h)

/-- A pair whose symbol has been read is malformed (44_table_serializer.md R156). -/
theorem runOn_keyJob_duplicate (h : s.CanRead (5 * n + 5)) (hp : ∀ j, j < n → PairAt s.srcBytes j)
    (hs : symAt s.srcBytes n = some sym) (hdup : ∃ i, i < n ∧ symAt s.srcBytes i = some sym) :
    (s.parseAt n (keyJob s.srcBytes n :: rest)).runOn =
      .next (s.takeError true .malformedTable (BitVec.ofNat 32 (5 * n))) := by
  rw [runOn_keyJob_wholePair h hs]
  exact runOn_parseAt_error rfl (run_countJob_duplicate (length_srcBytes s ▸ h.inside)
    ((freqAt_tableFreq_valid_iff rfl hp).2 hdup))

/-- A pair whose symbol is new enters FREQ, and the next key byte is read (44_table_serializer.md R156). -/
theorem runOn_keyJob_new (h : s.CanRead (5 * n + 5)) (hp : ∀ j, j < n → PairAt s.srcBytes j) (hn : PairAt s.srcBytes n) :
    (s.parseAt n (keyJob s.srcBytes n :: rest)).runOn =
      (s.parseAt (n + 1) (keyJob s.srcBytes (n + 1) :: rest)).runOn := by
  obtain ⟨sym, hs⟩ := Option.ne_none_iff_exists'.1 hn.isPair
  have hnew : ((s.parseAt n (countJob s.srcBytes n sym 4 :: rest)).freqAt sym).valid = false := by
    rw [freqAt_tableFreq_of_absent n rfl hp fun j hj he => hn.fresh j hj (he.trans hs.symm)]
    rfl
  rw [runOn_keyJob_wholePair h hs, runOn_goes (progress_of_ok rfl (run_countJob_new hn.inside hnew))]
  simp only [State.parseAt, tableFreq_succ hs]
  rfl

/-- The pairs of a source are read one after another (44_table_serializer.md R156). -/
theorem runOn_pairs : ∀ n, s.CanRead (5 * n) → (∀ j, j < n → PairAt s.srcBytes j) →
    (s.parseAt 0 (keyJob s.srcBytes 0 :: rest)).runOn = (s.parseAt n (keyJob s.srcBytes n :: rest)).runOn
  | 0, _, _ => rfl
  | n + 1, h, hp =>
    (runOn_pairs n (h.mono (by omega)) fun j hj => hp j (Nat.lt_succ_of_lt hj)).trans
      (runOn_keyJob_new h (fun j hj => hp j (Nat.lt_succ_of_lt hj)) (hp n n.lt_succ_self))

end Runs

end Sys2Proof.Machine
end

section
/-! SUPPORT. PARSE and the stage PARSE of DECOMPRESS as commands: how each kind of table section ends them
(44_table_serializer.md R156 to R158, 46_session_ops.md R192, R194; 20_memory.md R87). -/

namespace Sys2Proof.Machine

/-! ### The command -/

/-- The state in which the command `i` begins to read its table section: accepted, in stage PARSE, the session cleared
(10_state.md R24, R33; 44_table_serializer.md R156). -/
def State.parsing (s : State) (i : Instr) : State := ((s.accept (encode i)).setStage .parse).sessionClear

/-- What PARSE and DECOMPRESS keep when the reading of the table section ends them (44_table_serializer.md R158). -/
structure State.ParseFailed (s t : State) (i : Instr) (code : ErrCode) (info : Word) : Prop where
  failed : t.Failed i 0x7#4 code info
  empty : t.SessionEmpty
  setup : s.SameSetup t
  srcPos : t.srcPos = s.srcPos
  dstLen : t.dstLen = s.dstLen
  mem : t.mem = s.mem

section Command
variable {s : State} {i : Instr} {n e : Nat} {code : ErrCode} {info : Word}

theorem exec_parse_begins (hw : s.hostWaits = true) (hr : s.RangesOk .parse) :
    exec .parse s = ((s.parsing .parse).parseAt 0 [keyJob s.srcBytes 0]).runOn := by
  rw [exec_past_rangeChecks hw hr rfl, runOn_goes (progress_of_ok (new := []) rfl rfl)]
  rfl

theorem exec_decompress_begins (hw : s.hostWaits = true) (hr : s.RangesOk .decompress) :
    exec .decompress s = ((s.parsing .decompress).parseAt 0 [keyJob s.srcBytes 0, .stage .build, .build,
      .stage .decodePayload, .startDecode]).runOn := by
  rw [exec_past_rangeChecks hw hr rfl, runOn_goes (progress_of_ok (new := []) rfl rfl),
    runOn_goes (progress_of_ok (new := []) rfl rfl), runOn_goes (progress_of_ok (new := []) rfl rfl),
    runOn_goes (progress_of_ok (new := []) rfl rfl)]
  rfl

/-- PARSE and DECOMPRESS past their start checks begin to read the table section, both in stage PARSE. -/
theorem exec_begins_parse (hi : i ∈ [Instr.parse, .decompress]) (hw : s.hostWaits = true) (hr : s.RangesOk i) :
    ∃ rest, exec i s = ((s.parsing i).parseAt 0 (keyJob (s.parsing i).srcBytes 0 :: rest)).runOn := by
  simp only [List.mem_cons, List.not_mem_nil, or_false] at hi
  obtain rfl | rfl := hi
  · exact ⟨_, exec_parse_begins hw hr⟩
  · exact ⟨_, exec_decompress_begins hw hr⟩

theorem parsing_takeError_failed (s : State) (i : Instr) (code : ErrCode) (info : Word) :
    s.ParseFailed ((s.parsing i).takeError true code info) i code info where
  failed :=
    { cmd := (by cases i <;> rfl), idle := rfl, done := rfl, err := rfl, errCode := rfl, errInfo := rfl, notDropped := rfl,
      noExtra := rfl, pending := rfl, stage := rfl, todo := rfl, queue := rfl, acc := rfl, walk := rfl,
      srcTouched := rfl, dstTouched := rfl, undo := rfl }
  empty := ⟨rfl, freqAt_of_replicate rfl, nodeAt_of_replicate rfl, rfl, codeAt_of_replicate rfl⟩
  setup := by constructor <;> rfl
  srcPos := rfl
  dstLen := rfl
  mem := rfl

/-- The source bytes before offset `e` can be read by a command whose source range is in order. -/
theorem canRead_parsing (hi : i ∈ [Instr.parse, .decompress]) (hr : s.RangesOk i) (he : e ≤ s.srcLen.toNat)
    (hc : ∀ k, k < e → s.srcReply k = .completes) : (s.parsing i).CanRead e := by
  have hreads : i.readsSource = true := by clear hr; revert i; decide
  exact ⟨inRange_le (hr.source hreads).1, rfl, he, hc⟩

/-- Where the pairs of a source have been read, what PARSE comes to next decides how the command fails. -/
theorem exec_parse_fails (hi : i ∈ [Instr.parse, .decompress]) (hw : s.hostWaits = true) (hr : s.RangesOk i)
    (hp : ∀ j, j < n → PairAt s.srcBytes j) (hc : ∀ k, k < 5 * n → s.srcReply k = .completes)
    (hrun : ∀ rest, ((s.parsing i).parseAt n (keyJob s.srcBytes n :: rest)).runOn =
      .next ((s.parsing i).takeError true code info)) :
    ∃ t, exec i s = .next t ∧ s.ParseFailed t i code info := by
  obtain ⟨rest, he⟩ := exec_begins_parse hi hw hr
  have hlen := length_ge_of_pairs hp
  rw [length_srcBytes] at hlen
  exact ⟨_, he.trans ((runOn_pairs n (canRead_parsing hi hr hlen hc) hp).trans (hrun rest)),
    parsing_takeError_failed s i code info⟩

/-- A malformed key byte or a repeated symbol (44_table_serializer.md R155, R156; log 24). -/
theorem exec_parse_malformed (hi : i ∈ [Instr.parse, .decompress]) (hw : s.hostWaits = true) (hr : s.RangesOk i)
    (h : MalformedAt s.srcBytes n) (hc : ∀ k, k ≤ 5 * n → s.srcReply k = .completes)
    (hc' : classAt s.srcBytes n ≠ .malformed → ∀ k, k < 5 * n + 5 → s.srcReply k = .completes) :
    ∃ t, exec i s = .next t ∧ s.ParseFailed t i .malformedTable (BitVec.ofNat 32 (5 * n)) := by
  obtain ⟨hp, hin, hbad⟩ := h
  rw [length_srcBytes] at hin
  refine exec_parse_fails hi hw hr hp (fun k hk => hc k hk.le) fun rest => ?_
  by_cases hm : classAt s.srcBytes n = .malformed
  · exact runOn_keyJob_malformed (canRead_parsing hi hr hin fun k hk => hc k (Nat.le_of_lt_succ hk)) hm
  · obtain ⟨hin5, hsym, j, hj, hdup⟩ := hbad.resolve_left hm
    obtain ⟨sym, hsym⟩ := Option.ne_none_iff_exists'.1 hsym
    rw [length_srcBytes] at hin5
    exact runOn_keyJob_duplicate (canRead_parsing hi hr hin5 (hc' hm)) hp hsym ⟨j, hj, hdup.trans hsym⟩

/-- A source that ends where a key byte or a count byte is needed (44_table_serializer.md R154, R156). -/
theorem exec_parse_truncated (hi : i ∈ [Instr.parse, .decompress]) (hw : s.hostWaits = true) (hr : s.RangesOk i)
    (h : TruncatedAt s.srcBytes n) (hc : ∀ k, k < s.srcLen.toNat → s.srcReply k = .completes) :
    ∃ t, exec i s = .next t ∧ s.ParseFailed t i .truncatedHeader s.srcLen := by
  obtain ⟨hp, hend⟩ := h
  have hlen := length_ge_of_pairs hp
  rw [length_srcBytes] at hend hlen
  have hplace : s.srcLen.toNat = 5 * n ∨
      5 * n < s.srcLen.toNat ∧ s.srcLen.toNat < 5 * n + 5 ∧ symAt s.srcBytes n ≠ none := by
    obtain hle | ⟨hsym, hlt⟩ := hend
    · exact .inl (hle.antisymm hlen)
    · exact (Nat.eq_or_lt_of_le hlen).imp Eq.symm fun hlo => ⟨hlo, hlt, hsym⟩
  exact exec_parse_fails hi hw hr hp (fun k hk => hc k (hk.trans_le hlen)) fun rest =>
    runOn_keyJob_readFails (readFails_end _) (canRead_parsing hi hr (Nat.le_refl _) hc) hplace

/-- The first read that gets a bus error (20_memory.md R87). -/
theorem exec_parse_busError (hi : i ∈ [Instr.parse, .decompress]) (hw : s.hostWaits = true) (hr : s.RangesOk i)
    (hp : ∀ j, j < n → PairAt s.srcBytes j)
    (hplace : e = 5 * n ∨ 5 * n < e ∧ e < 5 * n + 5 ∧ symAt s.srcBytes n ≠ none) (hlt : e < s.srcLen.toNat)
    (hc : ∀ k, k < e → s.srcReply k = .completes) (hb : s.srcReply e = .busError) :
    ∃ t, exec i s = .next t ∧ s.ParseFailed t i .srcBus (s.srcAddr + BitVec.ofNat 32 e) := by
  have hread := canRead_parsing hi hr hlt.le hc
  exact exec_parse_fails hi hw hr hp (fun k hk => hc k (by omega)) fun rest =>
    runOn_keyJob_readFails (readFails_of_busError hread.inRange hlt hb) hread hplace

/-- PARSE of a table section and its terminator completes with its pairs in FREQ, whatever stands after it
(44_table_serializer.md R156). -/
theorem exec_parse_table (hw : s.hostWaits = true) (hr : s.RangesOk .parse) (h : TableAt s.srcBytes n)
    (hc : ∀ k, k ≤ 5 * n → s.srcReply k = .completes) :
    ∃ t, exec .parse s = .next t ∧ t.Completed .parse 0x7#4 ∧ t.extraInput = false ∧ t.phase = .counted ∧
      t.srcPos.toNat = 5 * n + 1 ∧ t.FreqOfTable s.srcBytes n ∧
      (∀ n, (t.nodeAt n).valid = false) ∧ t.tree = TreeReg.absent ∧ (∀ i, (t.codeAt i).valid = false) ∧
      s.SameSetup t ∧ t.dstLen = s.dstLen ∧ t.mem = s.mem := by
  have hin : 5 * n + 1 ≤ s.srcLen.toNat := by rw [← length_srcBytes]; exact h.2.1
  have hread : (s.parsing .parse).CanRead (5 * n + 1) :=
    canRead_parsing (by decide) hr hin fun k hk => hc k (Nat.le_of_lt_succ hk)
  have hpos : (BitVec.ofNat 32 (5 * n + 1)).toNat = 5 * n + 1 := by
    rw [BitVec.toNat_ofNat, Nat.mod_eq_of_lt (hin.trans_lt s.srcLen.isLt)]
  refine ⟨_, (exec_parse_begins hw hr).trans ((runOn_pairs n (hread.mono (Nat.le_succ _)) h.1).trans
    (runOn_keyJob_terminator hread h.2.2)), by constructor <;> rfl, rfl, rfl, hpos, freqOfTable_of_tableFreq rfl h,
    fun k => ?_, rfl, fun k => ?_, by constructor <;> rfl, rfl, rfl⟩
  · rw [nodeAt_of_replicate rfl]; rfl
  · rw [codeAt_of_replicate rfl]; rfl

end Command

/-- Settles O39: the pairs before the place that decides are read one after another, and that place ends the command. -/
theorem parseRefusesABadStart : Obligations.ParseRefusesABadStart := by
  unfold Obligations.ParseRefusesABadStart
  refine ⟨classify_first, fun _ k hi => classify_unseen hi k, fun idx k _ => classify_seen idx k, fun s n hw =>
    ⟨fun hr h hc => exec_parse_table hw hr h hc, fun i hi hr => ?_⟩⟩
  have fails : ∀ {code info}, (∃ t, exec i s = .next t ∧ s.ParseFailed t i code info) →
      ∃ t, exec i s = .next t ∧ t.Failed i 0x7#4 code info ∧ t.SessionEmpty ∧ s.SameSetup t ∧ t.srcPos = s.srcPos ∧
        t.dstLen = s.dstLen ∧ t.mem = s.mem :=
    fun ⟨t, he, h⟩ => ⟨t, he, h.failed, h.empty, h.setup, h.srcPos, h.dstLen, h.mem⟩
  exact ⟨fun h hc hc' => fails (exec_parse_malformed hi hw hr h hc hc'),
    fun h hc => fails (exec_parse_truncated hi hw hr h hc),
    fun e hp hplace hlt hc hb => fails (exec_parse_busError hi hw hr hp hplace hlt hc hb)⟩

/-! ### Every source -/

/-- PARSE comes to read source byte `e` when the pairs before pair `n` are in order and pair `n` is where it ends: it is the
key byte of pair `n`, a byte before it, or a byte of that pair (44_table_serializer.md R156). -/
def ReachedAt (src : List Byte) (n e : Nat) : Prop :=
  e < src.length ∧ (e ≤ 5 * n ∨ e < 5 * n + 5 ∧ symAt src n ≠ none)

section Reached
variable {src : List Byte} {n e k : Nat} {s : State}

theorem ReachedAt.of_le (h : ReachedAt src n e) (hk : k ≤ e) : ReachedAt src n k :=
  ⟨hk.trans_lt h.1, h.2.imp hk.trans fun h => ⟨hk.trans_lt h.1, h.2⟩⟩

theorem reachedAt_of_le_key (h : 5 * n < src.length) (hk : k ≤ 5 * n) : ReachedAt src n k := ⟨hk.trans_lt h, .inl hk⟩

/-- A duplicate key is found out at the end of its pair (44_table_serializer.md R156; log 24). -/
theorem MalformedAt.reachedAt (h : MalformedAt src n) (hc : classAt src n ≠ .malformed) (hk : k < 5 * n + 5) :
    ReachedAt src n k := by
  obtain ⟨hin, hsym, -⟩ := h.2.2.resolve_left hc
  exact ⟨hk.trans_le hin, .inr ⟨hk, hsym⟩⟩

/-- A source that ends too early is read to its end (44_table_serializer.md R156). -/
theorem TruncatedAt.reachedAt (h : TruncatedAt src n) (hk : k < src.length) : ReachedAt src n k :=
  ⟨hk, h.2.imp hk.le.trans fun h => ⟨hk.trans h.2, h.1⟩⟩

/-- A byte PARSE comes to read is a key byte or stands inside a pair. -/
theorem ReachedAt.place (h : ReachedAt src n e) (hp : ∀ j, j < n → PairAt src j) :
    ∃ m, (∀ j, j < m → PairAt src j) ∧ (e = 5 * m ∨ 5 * m < e ∧ e < 5 * m + 5 ∧ symAt src m ≠ none) := by
  have hm : e / 5 ≤ n := by obtain ⟨-, h | ⟨h, -⟩⟩ := h <;> omega
  refine ⟨e / 5, fun j hj => hp j (hj.trans_le hm), ?_⟩
  by_cases hkey : e = 5 * (e / 5)
  · exact .inl hkey
  refine .inr ⟨by omega, by omega, ?_⟩
  obtain hlt | heq := Nat.lt_or_eq_of_le hm
  · exact (hp _ hlt).isPair
  · rw [heq]
    exact (h.2.resolve_left (by omega)).2

/-- Where host memory answers every read, the reads PARSE comes to complete, or a first one gets a bus error (20_memory.md
R87). -/
theorem completes_or_first_busError (h : ∀ k, k < s.srcLen.toNat → s.srcReply k ≠ .never) (n : Nat) :
    (∀ e, ReachedAt s.srcBytes n e → s.srcReply e = .completes) ∨
      ∃ e, ReachedAt s.srcBytes n e ∧ (∀ k, k < e → s.srcReply k = .completes) ∧ s.srcReply e = .busError := by
  classical
  by_cases hex : ∃ e, ReachedAt s.srcBytes n e ∧ s.srcReply e ≠ .completes
  · obtain ⟨hreached, hbad⟩ := Nat.find_spec hex
    have hnever := h _ (length_srcBytes s ▸ hreached.1)
    refine .inr ⟨Nat.find hex, hreached, fun k hk => ?_, ?_⟩
    · exact not_not.1 fun hc => Nat.find_min hex hk ⟨hreached.of_le hk.le, hc⟩
    · cases hb : s.srcReply (Nat.find hex) with
      | completes => exact absurd hb hbad
      | busError => rfl
      | never => exact absurd hb hnever
  · exact .inl fun e he => not_not.1 fun hc => hex ⟨e, he, hc⟩

end Reached

/-- Settles O40: the table section of every source ends somewhere, and PARSE comes there unless a read before gets a bus
error. -/
theorem parseSucceedsOrLeavesTheSessionEmpty : Obligations.ParseSucceedsOrLeavesTheSessionEmpty := by
  unfold Obligations.ParseSucceedsOrLeavesTheSessionEmpty
  intro s hw hr hanswers
  have hi : Instr.parse ∈ [Instr.parse, .decompress] := by decide
  have hlen := length_srcBytes s
  obtain ⟨n, hp, hend⟩ := exists_table_end s.srcBytes
  obtain hall | ⟨e, hreached, hbefore, hbus⟩ := completes_or_first_busError hanswers n
  · obtain htable | hmal | htrunc := hend
    · obtain ⟨t, he, hdone, -, hphase, hpos, hfreq, -, -, -, hsetup, hdst, hmem⟩ :=
        exec_parse_table hw hr htable fun k hk => hall k (reachedAt_of_le_key htable.2.1 hk)
      have heot := htable.exists_endOfText
      have hone : 1 ≤ n := by obtain ⟨j, hj, -⟩ := heot; omega
      have hin := htable.2.1
      exact ⟨t, he, hsetup, hdst, hmem, .inl ⟨hdone, hphase, (hfreq.present _).2 heot, by omega, by omega⟩⟩
    · obtain ⟨t, he, h⟩ := exec_parse_malformed hi hw hr hmal
        (fun k hk => hall k (reachedAt_of_le_key hmal.2.1 hk)) fun hc k hk => hall k (hmal.reachedAt hc hk)
      exact ⟨t, he, h.setup, h.dstLen, h.mem, .inr ⟨_, .inr (.inl h.failed), h.empty, h.srcPos⟩⟩
    · obtain ⟨t, he, h⟩ := exec_parse_truncated hi hw hr htrunc fun k hk => hall k (htrunc.reachedAt (hlen ▸ hk))
      exact ⟨t, he, h.setup, h.dstLen, h.mem, .inr ⟨_, .inl h.failed, h.empty, h.srcPos⟩⟩
  · have hlt : e < s.srcLen.toNat := hlen ▸ hreached.1
    obtain ⟨m, hpm, hplace⟩ := hreached.place hp
    obtain ⟨t, he, h⟩ := exec_parse_busError hi hw hr hpm hplace hlt hbefore hbus
    exact ⟨t, he, h.setup, h.dstLen, h.mem,
      .inr ⟨_, .inr (.inr ⟨h.failed, e, hlt, hbus⟩), h.empty, h.srcPos⟩⟩

end Sys2Proof.Machine
end

section
/-! SUPPORT. The table section read back: its pairs are those of its symbols, and its key bytes mean them
(44_table_serializer.md R150, R155, R159). -/

namespace Sys2Proof.Machine

/-- Lists of one length put together are dropped whole. -/
theorem drop_flatMap_of_length {α β : Type} {f : α → List β} {n : Nat} (hf : ∀ a, (f a).length = n) :
    ∀ (j : Nat) (l : List α), (l.flatMap f).drop (n * j) = (l.drop j).flatMap f
  | 0, _ => rfl
  | j + 1, [] => by simp
  | j + 1, a :: l => by
    rw [List.flatMap_cons, List.drop_succ_cons, ← drop_flatMap_of_length hf j l, Nat.mul_succ, Nat.add_comm,
      ← List.drop_drop, ← hf a, List.drop_left]

section SectionPairs
variable {src more : List Byte} {key : Byte} {c : Word} {j : Nat}

theorem keyByte_eq_getD_drop (src : List Byte) (j : Nat) : keyByte src j = (src.drop (5 * j)).getD 0 0#8 := by
  simp [keyByte, List.getD_eq_getElem?_getD]

/-- The key byte of a pair stands first (30_encoding.md R96). -/
theorem keyByte_of_drop (h : src.drop (5 * j) = pairBytes key c ++ more) : keyByte src j = key := by
  rw [keyByte_eq_getD_drop, h]
  rfl

/-- The bytes of a count, most significant first, are the count (30_encoding.md R96, 20_memory.md R74). -/
theorem countAt_of_drop (h : src.drop (5 * j) = pairBytes key c ++ more) : countAt src j = c := by
  have hbyte : ∀ i, src.getD (5 * j + i) 0#8 = (pairBytes key c ++ more).getD i 0#8 := fun i => by
    rw [← h, List.getD_eq_getElem?_getD, List.getD_eq_getElem?_getD, List.getElem?_drop]
  simp only [countAt, hbyte]
  change c.extractLsb' 24 8 ++ c.extractLsb' 16 8 ++ c.extractLsb' 8 8 ++ c.extractLsb' 0 8 = c
  rw [BitVec.extractLsb'_append_extractLsb'_eq_extractLsb' (by decide),
    BitVec.extractLsb'_append_extractLsb'_eq_extractLsb' (by decide),
    BitVec.extractLsb'_append_extractLsb'_eq_extractLsb' (by decide)]
  exact BitVec.extractLsb'_eq_self

end SectionPairs

section Section
variable {s : State} {rest : List Byte} {j sym : Nat}

theorem length_sectionPairs (s : State) : (s.sectionSyms.flatMap s.pairOf).length = 5 * s.sectionSyms.length := by
  have h := length_tableSection s
  rw [tableSection_eq_flatMap, List.length_append, List.length_singleton] at h
  exact Nat.succ.inj h

/-- Pair `j` of the table section is that of its symbol `j`, whatever follows the section (44_table_serializer.md R150). -/
theorem drop_tableSection (h : s.sectionSyms[j]? = some sym) :
    ∃ more, (s.tableSection ++ rest).drop (5 * j) = pairBytes (keyOf sym) (s.freqAt sym).count ++ more := by
  obtain ⟨hj, rfl⟩ := List.getElem?_eq_some_iff.1 h
  have hlen : 5 * j ≤ (s.sectionSyms.flatMap s.pairOf).length := by rw [length_sectionPairs]; omega
  rw [tableSection_eq_flatMap, List.append_assoc, List.drop_append_of_le_length hlen,
    drop_flatMap_of_length (length_pairOf s), List.drop_eq_getElem_cons hj, List.flatMap_cons, List.append_assoc]
  exact ⟨_, rfl⟩

/-- The terminator stands after the pairs (44_table_serializer.md R150). -/
theorem keyByte_tableSection_end (s : State) (rest : List Byte) :
    keyByte (s.tableSection ++ rest) s.sectionSyms.length = Config.terminator := by
  rw [keyByte_eq_getD_drop, tableSection_eq_flatMap, List.append_assoc, ← length_sectionPairs, List.drop_left]
  rfl

theorem keyByte_tableSection (h : s.sectionSyms[j]? = some sym) : keyByte (s.tableSection ++ rest) j = keyOf sym :=
  keyByte_of_drop (drop_tableSection h).choose_spec

theorem countAt_tableSection (h : s.sectionSyms[j]? = some sym) :
    countAt (s.tableSection ++ rest) j = (s.freqAt sym).count :=
  countAt_of_drop (drop_tableSection h).choose_spec

/-- The literals of the table section after END_OF_TEXT: those present but 3 (44_table_serializer.md R150). -/
def State.otherLiterals (s : State) : List Nat := (List.range 256).filter fun b => b != 3 && (s.freqAt b).valid

theorem mem_otherLiterals : sym ∈ s.otherLiterals ↔ sym < 256 ∧ sym ≠ 3 ∧ (s.freqAt sym).valid = true := by
  simp [State.otherLiterals]

theorem sectionSyms_of_three (h : (s.freqAt 3).valid = true) :
    s.sectionSyms = 3 :: Config.endOfText :: s.otherLiterals := by
  rw [State.sectionSyms, if_pos h]
  rfl

theorem sectionSyms_of_not_three (h : ¬ (s.freqAt 3).valid = true) :
    s.sectionSyms = Config.endOfText :: s.otherLiterals := by
  rw [State.sectionSyms, if_neg h]
  rfl

/-- The symbols of the table section are END_OF_TEXT and the literals present (44_table_serializer.md R150). -/
theorem mem_sectionSyms : sym ∈ s.sectionSyms ↔ sym = Config.endOfText ∨ sym < 256 ∧ (s.freqAt sym).valid = true := by
  by_cases h : (s.freqAt 3).valid = true
  · rw [sectionSyms_of_three h]
    by_cases h3 : sym = 3
    · simp [h3, h]
    · simp [mem_otherLiterals, h3]
  · rw [sectionSyms_of_not_three h]
    by_cases h3 : sym = 3
    · simp [mem_otherLiterals, h3, h]
    · simp [mem_otherLiterals, h3]

theorem nodup_sectionSyms (s : State) : s.sectionSyms.Nodup := by
  have hlits : (Config.endOfText :: s.otherLiterals).Nodup :=
    List.nodup_cons.2 ⟨fun h => absurd (mem_otherLiterals.1 h).1 (by decide), List.nodup_range.filter _⟩
  by_cases h : (s.freqAt 3).valid = true
  · rw [sectionSyms_of_three h]
    refine List.nodup_cons.2 ⟨fun hmem => ?_, hlits⟩
    obtain hmem | hmem := List.mem_cons.1 hmem
    · cases hmem
    · exact (mem_otherLiterals.1 hmem).2.1 rfl
  · rw [sectionSyms_of_not_three h]
    exact hlits

/-- With END_OF_TEXT read, the key byte of a literal but 3 means that literal (44_table_serializer.md R155). -/
theorem classify_keyOf_literal (idx : Nat) (h : sym ∈ s.otherLiterals) :
    classify idx true (keyOf sym) = .pair sym := by
  obtain ⟨hlt, h3, -⟩ := mem_otherLiterals.1 h
  have hkey : (keyOf sym).toNat = sym := by
    rw [keyOf, if_neg (Nat.ne_of_lt hlt), BitVec.toNat_ofNat, Nat.mod_eq_of_lt hlt]
  have hne : keyOf sym ≠ 0x03#8 := fun he => h3 (hkey.symm.trans (congrArg BitVec.toNat he))
  rw [classify_seen, if_neg hne, hkey]

/-- Once END_OF_TEXT is read it stays so. -/
theorem seenAt_of_endOfTextPair {src : List Byte} {i : Nat} (h : classAt src i = .endOfTextPair) (hj : i < j) :
    seenAt src j = true := by
  obtain rfl | hlt := Nat.eq_or_lt_of_le (Nat.succ_le_of_lt hj)
  · exact seenAt_succ_of_endOfTextPair h
  · have : 2 ≤ j := by omega
    simp [seenAt, this]

/-- The END_OF_TEXT pair of the table section is the first one, or the second after that of the literal 3
(44_table_serializer.md R150). -/
theorem classAt_tableSection_endOfText (s : State) (rest : List Byte) :
    classAt (s.tableSection ++ rest) (if (s.freqAt 3).valid then 1 else 0) = .endOfTextPair := by
  by_cases h3 : (s.freqAt 3).valid = true
  · have hfirst : keyByte (s.tableSection ++ rest) 0 = keyOf 3 :=
      keyByte_tableSection (by rw [sectionSyms_of_three h3]; rfl)
    have hkey : keyByte (s.tableSection ++ rest) 1 = keyOf Config.endOfText :=
      keyByte_tableSection (by rw [sectionSyms_of_three h3]; rfl)
    rw [if_pos h3, classAt, seenAt, hfirst, hkey]
    rfl
  · have hkey : keyByte (s.tableSection ++ rest) 0 = keyOf Config.endOfText :=
      keyByte_tableSection (by rw [sectionSyms_of_not_three h3]; rfl)
    rw [if_neg h3, classAt, hkey]
    rfl

/-- Each key byte of the table section means its symbol: 3 first is the literal, 4 next is END_OF_TEXT, and every key after it
is a literal's (44_table_serializer.md R150, R155). -/
theorem symAt_tableSection (h : s.sectionSyms[j]? = some sym) : symAt (s.tableSection ++ rest) j = some sym := by
  have hkey := keyByte_tableSection (rest := rest) h
  have heot := classAt_tableSection_endOfText s rest
  have literal : ∀ {i}, classAt (s.tableSection ++ rest) i = .endOfTextPair → i < j → sym ∈ s.otherLiterals →
      symAt (s.tableSection ++ rest) j = some sym := fun hi hij hmem => by
    refine symAt_eq_some_iff.2 (.inl ?_)
    rw [classAt, seenAt_of_endOfTextPair hi hij, hkey, classify_keyOf_literal j hmem]
  by_cases h3 : (s.freqAt 3).valid = true
  · rw [if_pos h3] at heot
    rw [sectionSyms_of_three h3] at h
    match j with
    | 0 =>
      cases h
      refine symAt_eq_some_iff.2 (.inl ?_)
      rw [classAt, hkey]
      rfl
    | 1 =>
      cases h
      exact symAt_eq_some_iff.2 (.inr ⟨heot, rfl⟩)
    | j + 2 => exact literal heot (by omega) (List.mem_of_getElem? h)
  · rw [if_neg h3] at heot
    rw [sectionSyms_of_not_three h3] at h
    match j with
    | 0 =>
      cases h
      exact symAt_eq_some_iff.2 (.inr ⟨heot, rfl⟩)
    | j + 1 => exact literal heot (by omega) (List.mem_of_getElem? h)

/-- The pairs of the table section are read back as pairs, and the byte after them as the terminator
(44_table_serializer.md R150, R155). -/
theorem tableAt_tableSection (s : State) (rest : List Byte) :
    TableAt (s.tableSection ++ rest) s.sectionSyms.length := by
  have hlen : (s.tableSection ++ rest).length = 5 * s.sectionSyms.length + 1 + rest.length := by
    rw [List.length_append, length_tableSection]
  have hsym : ∀ j (hj : j < s.sectionSyms.length), symAt (s.tableSection ++ rest) j = some s.sectionSyms[j] :=
    fun j hj => symAt_tableSection (List.getElem?_eq_getElem hj)
  refine ⟨fun j hj => ⟨by omega, by rw [hsym j hj]; exact Option.some_ne_none _, fun i hi he => ?_⟩, by omega, ?_⟩
  · rw [hsym i (hi.trans hj), hsym j hj] at he
    exact absurd ((nodup_sectionSyms s).getElem_inj_iff.1 (Option.some.inj he)) hi.ne
  · have hafter : (if (s.freqAt 3).valid then 1 else 0) < s.sectionSyms.length := by
      rw [State.sectionSyms]
      split <;> simp
    rw [classAt, seenAt_of_endOfTextPair (classAt_tableSection_endOfText s rest) hafter, keyByte_tableSection_end]
    rfl

/-- The symbols read back from the table section are its own. -/
theorem exists_symAt_tableSection :
    (∃ j, j < s.sectionSyms.length ∧ symAt (s.tableSection ++ rest) j = some sym) ↔ sym ∈ s.sectionSyms := by
  constructor
  · rintro ⟨j, hj, hs⟩
    rw [symAt_tableSection (List.getElem?_eq_getElem hj)] at hs
    exact Option.some.inj hs ▸ List.getElem_mem hj
  · intro h
    obtain ⟨j, hj, rfl⟩ := List.mem_iff_getElem.1 h
    exact ⟨j, hj, symAt_tableSection (List.getElem?_eq_getElem hj)⟩

/-- With END_OF_TEXT present the symbols of the table section are the symbols present (10_state.md R41). -/
theorem mem_sectionSyms_iff_valid (heot : (s.freqAt Config.endOfText).valid = true) :
    sym ∈ s.sectionSyms ↔ (s.freqAt sym).valid = true := by
  rw [mem_sectionSyms]
  constructor
  · rintro (rfl | ⟨-, hv⟩)
    · exact heot
    · exact hv
  · intro hv
    have hlt : sym < 257 := presentSyms_lt (mem_presentSyms.2 hv)
    exact (Nat.lt_or_eq_of_le (Nat.le_of_lt_succ hlt)).elim (fun h => .inr ⟨h, hv⟩) .inl

end Section

/-- Settles O38: the section is a table of its symbols, and these are the symbols present. -/
theorem parseInvertsTheTableSection : Obligations.ParseInvertsTheTableSection := by
  unfold Obligations.ParseInvertsTheTableSection
  intro s u rest heot hw hr hc hsrc
  have hlen := length_tableSection s
  obtain ⟨t, he, hdone, hextra, hphase, hpos, hfreq, hnode, htree, hcode, hsetup, hdst, hmem⟩ :=
    exec_parse_table hw hr (hsrc ▸ tableAt_tableSection s rest) fun k hk => hc k (by omega)
  rw [hsrc] at hfreq
  refine ⟨t, he, hdone, hextra, hphase, fun i => ⟨?_, fun hv => ?_⟩, hnode, htree, hcode, hpos.trans hlen.symm, hsetup,
    hdst, hmem⟩
  · rw [Bool.eq_iff_iff, hfreq.present, exists_symAt_tableSection, mem_sectionSyms_iff_valid heot]
  · obtain ⟨j, hj, hget⟩ := List.mem_iff_getElem.1 ((mem_sectionSyms_iff_valid heot).2 hv)
    have hsym : s.sectionSyms[j]? = some i := hget ▸ List.getElem?_eq_getElem hj
    rw [hfreq.count j i hj (symAt_tableSection hsym), countAt_tableSection hsym]

end Sys2Proof.Machine
end

section
/-! SUPPORT. SERIALIZE with room for its table section and without (44_table_serializer.md R150 to R152). -/

namespace Sys2Proof.Machine

/-- Bytes left to emit fail with DST_FULL at once when the destination is full (44_table_serializer.md R151). -/
theorem runOn_emit_full {s : State} {bs : List Byte} {k : Nat} {rest : List Job} {cap : Word}
    (hs : s.todo = .emit (bs.drop k) :: rest) (hk : k < bs.length) (hlen : s.dstLen = cap) (hcap : s.dstCap = cap) :
    s.runOn = .next (s.finishError .dstFull cap) := by
  rw [List.drop_eq_getElem_cons hk] at hs
  have hemit : Job.run (.emit (bs[k] :: bs.drop (k + 1))) s = .error (.error .dstFull s.dstLen) s :=
    Cmd.bind_of_error (emit_full (congrArg BitVec.toNat (hcap.trans hlen.symm)).le)
  rw [runOn_ends (progress_of_error hs hemit), hlen]
  rfl

section Emits
variable {s : State} {k : Nat}

/-- Bytes SERIALIZE has emitted stand from destination offset 0 on (44_table_serializer.md R152). -/
theorem serializing_emitted {bs : List Byte} (h : bs.length < 2 ^ 32) : s.Emitted (s.serializing.wroteAll bs) 0 bs := by
  obtain ⟨hdst, hbytes, hothers⟩ := wroteAll_emitted (s := s.serializing) (bs := bs)
    ((Nat.zero_add bs.length).symm ▸ h)
  exact ⟨hdst, hbytes, hothers⟩

/-- The first bytes of the table section that have room are emitted when host memory answers (44_table_serializer.md R151,
R152). -/
theorem exec_serialize_take (hw : s.hostWaits = true) (hp : s.phase ≠ .empty) (hd : s.DestReady)
    (hk : k ≤ s.tableSection.length) (hcap : k ≤ s.dstCap.toNat) : exec .serialize s =
      State.runOn { s.serializing.wroteAll (s.tableSection.take k) with todo := [.emit (s.tableSection.drop k)] } := by
  have hroom : s.serializing.dstLen.toNat + k ≤ s.serializing.dstCap.toNat := (Nat.zero_add k).symm ▸ hcap
  exact (exec_serialize hw hp hd.inRange hd.offWindow).trans (runOn_emit_take k (s := s.serializing) rfl
    (inRange_le hd.inRange) hk hroom (fun j hj => hd.answers j (hj.trans_le hcap)) rfl)

/-- A table section that fits is emitted whole, and SERIALIZE completes (44_table_serializer.md R152). -/
theorem exec_serialize_fits (hw : s.hostWaits = true) (hp : s.phase ≠ .empty) (hd : s.DestReady)
    (hcap : s.tableSection.length ≤ s.dstCap.toNat) :
    exec .serialize s = .next (s.serializing.wroteAll s.tableSection).finish := by
  rw [exec_serialize_take hw hp hd (Nat.le_refl _) hcap, List.take_length, List.drop_length,
    runOn_goes (progress_of_ok (new := []) rfl rfl)]
  exact runOn_ends (progress_of_nil rfl)

/-- A table section that does not fit ends SERIALIZE by DST_FULL when the destination is full (44_table_serializer.md R151,
R152). -/
theorem exec_serialize_full (hw : s.hostWaits = true) (hp : s.phase ≠ .empty) (hd : s.DestReady)
    (hcap : s.dstCap.toNat < s.tableSection.length) : exec .serialize s =
      .next ((s.serializing.wroteAll (s.tableSection.take s.dstCap.toNat)).finishError .dstFull s.dstCap) := by
  have hlen : (s.tableSection.take s.dstCap.toNat).length = s.dstCap.toNat := List.length_take_of_le hcap.le
  have hdst := BitVec.eq_of_toNat_eq
    ((serializing_emitted (s := s) (hlen.symm ▸ s.dstCap.isLt)).dstLen.trans ((Nat.zero_add _).trans hlen))
  have hroom := (wroteAll_sameSetup (s.tableSection.take s.dstCap.toNat) s.serializing).dstCap
  exact (exec_serialize_take hw hp hd hcap.le (Nat.le_refl _)).trans (runOn_emit_full
    (s := { s.serializing.wroteAll (s.tableSection.take s.dstCap.toNat) with
      todo := [.emit (s.tableSection.drop s.dstCap.toNat)] }) rfl hcap hdst hroom)

end Emits

/-- Settles O34: the section is the pairs of its symbols by its definition, and every byte of it is emitted. -/
theorem serializeWritesTheTableSection : Obligations.SerializeWritesTheTableSection := by
  unfold Obligations.SerializeWritesTheTableSection
  refine ⟨fun s => ⟨length_tableSection s, ?_, fun j sym h => ?_⟩, fun s hw hp hd hcap => ?_⟩
  · rw [tableSection_eq_flatMap, ← length_sectionPairs, List.getElem?_concat_length]
    rfl
  · rw [← List.append_nil s.tableSection]
    exact ⟨keyByte_tableSection h, countAt_tableSection h⟩
  · obtain ⟨hdst, hbytes, hothers⟩ := serializing_emitted (s := s) (hcap.trans_lt s.dstCap.isLt)
    obtain ⟨m, l, d, hu⟩ := wroteAll_eq s.tableSection s.serializing
    refine ⟨_, exec_serialize_fits hw hp hd hcap, ?_, ?_, hdst.trans (Nat.zero_add _), hbytes, hothers, ?_, ?_, ?_⟩
    all_goals rw [hu]
    · constructor <;> rfl
    · rfl
    · constructor <;> rfl
    · constructor <;> rfl
    · rfl

/-- Settles O35: the bytes that have room are emitted, and the next one finds the destination full. -/
theorem serializeStopsWhenTheDestIsFull : Obligations.SerializeStopsWhenTheDestIsFull := by
  unfold Obligations.SerializeStopsWhenTheDestIsFull
  intro s hw hp hd hcap
  have hlen : (s.tableSection.take s.dstCap.toNat).length = s.dstCap.toNat := List.length_take_of_le hcap.le
  obtain ⟨hdst, hbytes, hothers⟩ := serializing_emitted (s := s) (hlen.symm ▸ s.dstCap.isLt)
  rw [hlen] at hdst hbytes hothers
  obtain ⟨m, l, d, hu⟩ := wroteAll_eq (s.tableSection.take s.dstCap.toNat) s.serializing
  refine ⟨_, exec_serialize_full hw hp hd hcap, ?_, BitVec.eq_of_toNat_eq (hdst.trans (Nat.zero_add _)), hbytes, hothers,
    ?_, ?_, ?_⟩
  all_goals rw [hu]
  · constructor <;> rfl
  · constructor <;> rfl
  · constructor <;> rfl
  · rfl

end Sys2Proof.Machine
end

section
/-! SUPPORT. Digits as bytes (30_encoding.md R98, 45_bitstream.md R171, R172): the whole bytes of some digits, the digits left
over, and the bits of the bytes. -/

namespace Sys2Proof.Machine

/-- Digits as bytes, the last one filled with "0" digits (30_encoding.md R98). -/
def packedBytes (ds : List Bool) : List Byte := packDigits ds.length ds

/-- The digits left in the bit buffer when the whole bytes of some digits are emitted (45_bitstream.md R171). -/
def leftDigits (ds : List Bool) : List Bool := ds.drop (8 * (ds.length / 8))

section Packing
variable {x y ds : List Bool}

theorem payload_eq (s : State) (src : List Byte) : s.payload src = packedBytes (s.payloadDigits src) := rfl

theorem packDigits_of_le : ∀ {fuel fuel' : Nat} {ds : List Bool}, ds.length ≤ fuel → ds.length ≤ fuel' →
    packDigits fuel ds = packDigits fuel' ds
  | 0, 0, [], _, _ => rfl
  | 0, _ + 1, [], _, _ => rfl
  | _ + 1, 0, [], _, _ => rfl
  | _ + 1, _ + 1, [], _, _ => rfl
  | fuel + 1, fuel' + 1, d :: ds, h, h' => by
    have hdrop : ((d :: ds).drop 8).length ≤ ds.length := by simp
    rw [List.length_cons] at h h'
    rw [packDigits, packDigits, packDigits_of_le (fuel' := fuel') (by omega) (by omega)]

theorem packedBytes_of_pos (h : 0 < ds.length) :
    packedBytes ds = byteOfDigits (ds.take 8 ++ List.replicate (8 - ds.length) false) :: packedBytes (ds.drop 8) := by
  cases ds with
  | nil => cases h
  | cons d ds => exact congrArg _ (packDigits_of_le (by simp) (Nat.le_refl _))

/-- Eight digits are a byte (45_bitstream.md R171). -/
theorem packedBytes_octet_append (h : x.length = 8) (ds : List Bool) :
    packedBytes (x ++ ds) = byteOfDigits x :: packedBytes ds := by
  have hlen : 8 ≤ (x ++ ds).length := by rw [List.length_append]; omega
  rw [packedBytes_of_pos (by omega), Nat.sub_eq_zero_of_le hlen, List.replicate_zero, List.append_nil, ← h,
    List.take_left, List.drop_left]

/-- Fewer digits are filled with "0" digits (45_bitstream.md R172). -/
theorem packedBytes_short (h : 0 < x.length) (h8 : x.length ≤ 8) :
    packedBytes x = [byteOfDigits (x ++ List.replicate (8 - x.length) false)] := by
  rw [packedBytes_of_pos h, List.take_of_length_le h8, List.drop_of_length_le h8]
  rfl

theorem packedBytes_append_of_whole : ∀ (n : Nat) {x : List Bool}, x.length = 8 * n → ∀ y,
    packedBytes (x ++ y) = packedBytes x ++ packedBytes y
  | 0, x, h, y => by rw [List.length_eq_zero_iff.1 h]; rfl
  | n + 1, x, h, y => by
    have htake : (x.take 8).length = 8 := List.length_take_of_le (by omega)
    have hdrop : (x.drop 8).length = 8 * n := by rw [List.length_drop]; omega
    rw [← List.take_append_drop 8 x, List.append_assoc, packedBytes_octet_append htake, packedBytes_octet_append htake,
      packedBytes_append_of_whole n hdrop, List.cons_append]

theorem length_packedBytes (ds : List Bool) : (packedBytes ds).length = (ds.length + 7) / 8 := by
  induction hn : ds.length using Nat.strongRecOn generalizing ds with
  | ind n ih =>
    subst hn
    cases ds with
    | nil => rfl
    | cons d ds =>
      have hdrop : ((d :: ds).drop 8).length = (d :: ds).length - 8 := List.length_drop
      have hpos : 0 < (d :: ds).length := Nat.succ_pos _
      rw [packedBytes_of_pos hpos, List.length_cons, ih _ (by omega) _ hdrop]
      omega

/-! ### Whole bytes and digits left -/

theorem wholeBytes_eq (ds : List Bool) : wholeBytes ds = packedBytes (ds.take (8 * (ds.length / 8))) :=
  packDigits_of_le (List.length_take_le' _ _) (Nat.le_refl _)

theorem length_take_whole (ds : List Bool) : (ds.take (8 * (ds.length / 8))).length = 8 * (ds.length / 8) :=
  List.length_take_of_le (Nat.mul_div_le _ _)

theorem length_wholeBytes (ds : List Bool) : (wholeBytes ds).length = ds.length / 8 := by
  rw [wholeBytes_eq, length_packedBytes, length_take_whole]
  omega

theorem length_leftDigits (ds : List Bool) : (leftDigits ds).length = ds.length % 8 := by
  rw [leftDigits, List.length_drop]
  omega

theorem length_leftDigits_lt (ds : List Bool) : (leftDigits ds).length < 8 := by
  rw [length_leftDigits]
  exact Nat.mod_lt _ (by decide)

theorem wholeBytes_of_short (h : ds.length < 8) : wholeBytes ds = [] :=
  List.length_eq_zero_iff.1 ((length_wholeBytes ds).trans (Nat.div_eq_of_lt h))

theorem leftDigits_of_short (h : ds.length < 8) : leftDigits ds = ds := by
  rw [leftDigits, Nat.div_eq_of_lt h]
  rfl

theorem wholeBytes_append_of_whole {n : Nat} (h : x.length = 8 * n) (y : List Bool) :
    wholeBytes (x ++ y) = packedBytes x ++ wholeBytes y := by
  have hlen : 8 * ((x ++ y).length / 8) = x.length + 8 * (y.length / 8) := by rw [List.length_append]; omega
  rw [wholeBytes_eq, wholeBytes_eq, hlen, List.take_length_add_append, packedBytes_append_of_whole n h]

theorem leftDigits_append_of_whole {n : Nat} (h : x.length = 8 * n) (y : List Bool) :
    leftDigits (x ++ y) = leftDigits y := by
  have hlen : 8 * ((x ++ y).length / 8) = x.length + 8 * (y.length / 8) := by rw [List.length_append]; omega
  rw [leftDigits, leftDigits, hlen, List.drop_length_add_append]

theorem wholeBytes_octet_append (h : x.length = 8) (ds : List Bool) :
    wholeBytes (x ++ ds) = byteOfDigits x :: wholeBytes ds := by
  rw [wholeBytes_append_of_whole (n := 1) h, packedBytes_short (by omega) (by omega), h]
  simp

theorem wholeBytes_octet (h : x.length = 8) : wholeBytes x = [byteOfDigits x] := by
  have := wholeBytes_octet_append h []
  rwa [List.append_nil] at this

theorem leftDigits_octet (h : x.length = 8) : leftDigits x = [] := by
  rw [leftDigits, h]
  exact List.drop_of_length_le h.le

/-- Digits put after others complete the byte the others have begun (45_bitstream.md R171). -/
theorem wholeBytes_append (x y : List Bool) : wholeBytes (x ++ y) = wholeBytes x ++ wholeBytes (leftDigits x ++ y) := by
  conv_lhs => rw [← List.take_append_drop (8 * (x.length / 8)) x, List.append_assoc]
  rw [wholeBytes_append_of_whole (length_take_whole x), ← wholeBytes_eq, leftDigits]

theorem leftDigits_append (x y : List Bool) : leftDigits (x ++ y) = leftDigits (leftDigits x ++ y) := by
  conv_lhs => rw [← List.take_append_drop (8 * (x.length / 8)) x, List.append_assoc]
  rw [leftDigits_append_of_whole (length_take_whole x), ← leftDigits]

/-- The digits left over are the last byte (45_bitstream.md R172). -/
theorem packedBytes_eq_wholeBytes_append (ds : List Bool) :
    packedBytes ds = wholeBytes ds ++ packedBytes (leftDigits ds) := by
  conv_lhs => rw [← List.take_append_drop (8 * (ds.length / 8)) ds]
  rw [packedBytes_append_of_whole _ (length_take_whole ds), ← wholeBytes_eq, leftDigits]

/-! ### The bits of packed digits -/

/-- A byte of eight digits has them as its bits, the first in bit 7 (45_bitstream.md R171, R175). -/
theorem bitsOfByte_byteOfDigits (h : x.length = 8) : bitsOfByte (byteOfDigits x) = x := by
  have hall : ∀ a b c d e f g i : Bool,
      bitsOfByte (byteOfDigits [a, b, c, d, e, f, g, i]) = [a, b, c, d, e, f, g, i] := by decide
  match x, h with
  | [a, b, c, d, e, f, g, i], _ => exact hall a b c d e f g i

theorem bitsOfBytes_cons (b : Byte) (bs : List Byte) : bitsOfBytes (b :: bs) = bitsOfByte b ++ bitsOfBytes bs := rfl

theorem length_bitsOfBytes : ∀ bs : List Byte, (bitsOfBytes bs).length = 8 * bs.length
  | [] => rfl
  | b :: bs => by
    have hb : (bitsOfByte b).length = 8 := by simp [bitsOfByte]
    rw [bitsOfBytes_cons, List.length_append, length_bitsOfBytes bs, hb, List.length_cons]
    omega

/-- The bits of packed digits begin with the digits (30_encoding.md R98). -/
theorem prefix_bitsOfBytes_packedBytes (ds : List Bool) : ds <+: bitsOfBytes (packedBytes ds) := by
  induction hn : ds.length using Nat.strongRecOn generalizing ds with
  | ind n ih =>
    subst hn
    rcases Nat.lt_or_ge ds.length 8 with hlt | hge
    · rcases Nat.eq_zero_or_pos ds.length with h0 | hpos
      · rw [List.length_eq_zero_iff.1 h0]
        exact List.nil_prefix
      · have hpad : (ds ++ List.replicate (8 - ds.length) false).length = 8 := by
          rw [List.length_append, List.length_replicate]; omega
        rw [packedBytes_short hpos hlt.le, bitsOfBytes_cons, bitsOfByte_byteOfDigits hpad, List.append_assoc]
        exact List.prefix_append _ _
    · have htake : (ds.take 8).length = 8 := List.length_take_of_le hge
      have hdrop : (ds.drop 8).length < ds.length := by rw [List.length_drop]; omega
      conv => rw [← List.take_append_drop 8 ds]
      rw [packedBytes_octet_append htake, bitsOfBytes_cons, bitsOfByte_byteOfDigits htake]
      exact (List.prefix_append_right_inj _).2 (ih _ hdrop _ rfl)

end Packing

end Sys2Proof.Machine
end

section
/-! SUPPORT. A command that emits bytes while it works on the bit buffer or the walk: how many bytes the destination takes,
what stops the next one, and the state the engine goes on in (44_table_serializer.md R151, 20_memory.md R87). -/

namespace Sys2Proof.Machine

/-! ### The destination takes bytes, or refuses one -/

/-- The ranges lie in host memory and apart, and the host has not touched them while the command runs (20_memory.md R71,
R73; 70_reset_and_hazards.md R247). -/
structure State.DmaOk (s : State) : Prop where
  source : s.srcAddr.toNat + s.srcLen.toNat ≤ Config.addrSpace
  dest : s.dstAddr.toNat + s.dstCap.toNat ≤ Config.addrSpace
  apart : overlaps s = false
  srcUntouched : s.srcTouched = []
  dstUntouched : s.dstTouched = []

/-- A command that reads its source and writes its destination, past its start checks (60_exceptions.md R214). -/
theorem State.RangesOk.dmaOk {s : State} {i : Instr} (h : s.RangesOk i) (hr : i.readsSource = true)
    (hw : i.writesDest = true) (w : Word) (l : List Job) : State.DmaOk { s.accept w with todo := l } :=
  ⟨inRange_le (h.source hr).1, inRange_le (h.dest hw).1, h.apart hr hw, rfl, rfl⟩

/-- The next `k` bytes have room, and host memory answers their writes (44_table_serializer.md R151). -/
structure State.Takes (s : State) (k : Nat) : Prop where
  room : k ≤ s.dstCap.toNat - s.dstLen.toNat
  answers : ∀ j, j < k → (s.busAt (s.dstByte + j)).onWrite = .completes

/-- The byte after the next `k` ends the command with `code` and `info`: it has no room, or its write gets a bus error
(44_table_serializer.md R151, 20_memory.md R87). -/
inductive State.Refuses (s : State) (k : Nat) : ErrCode → Word → Prop
  | full (h : s.dstCap.toNat ≤ s.dstLen.toNat + k) : s.Refuses k .dstFull (BitVec.ofNat 32 (s.dstLen.toNat + k))
  | busError (h : s.dstLen.toNat + k < s.dstCap.toNat) (hb : (s.busAt (s.dstByte + k)).onWrite = .busError) :
    s.Refuses k .dstBus (BitVec.ofNat 32 (s.dstByte + k))

/-- The state after the bytes `bs` are emitted, with bit buffer `acc`, walk `w` and jobs `l`. -/
def State.onward (s : State) (bs : List Byte) (acc : List Bool) (w : Walk) (l : List Job) : State :=
  { s.wroteAll bs with acc := acc, walk := w, todo := l }

section Onward
variable {s : State} {bs cs : List Byte} {acc acc' : List Bool} {w w' : Walk} {l l' : List Job} {k : Nat}
  {code : ErrCode} {info : Word}

theorem wroteAll_append : ∀ (bs cs : List Byte) (s : State), s.wroteAll (bs ++ cs) = (s.wroteAll bs).wroteAll cs
  | [], _, _ => rfl
  | b :: bs, cs, s => wroteAll_append bs cs (s.wrote b)

/-- The bit buffer, the walk and the jobs play no part in emitting. -/
theorem wroteAll_onward_nil : ∀ (bs : List Byte) (s : State) (acc : List Bool) (w : Walk) (l : List Job),
    (s.onward [] acc w l).wroteAll bs = s.onward bs acc w l
  | [], _, _, _, _ => rfl
  | b :: bs, s, acc, w, l => wroteAll_onward_nil bs (s.wrote b) acc w l

theorem wroteAll_onward (s : State) (bs cs : List Byte) (acc : List Bool) (w : Walk) (l : List Job) :
    (s.onward bs acc w l).wroteAll cs = s.onward (bs ++ cs) acc w l := by
  have h := wroteAll_onward_nil cs (s.wroteAll bs) acc w l
  simpa only [State.onward, State.wroteAll, wroteAll_append] using h

theorem onward_onward (s : State) (bs cs : List Byte) (acc acc' : List Bool) (w w' : Walk) (l l' : List Job) :
    (s.onward bs acc w l).onward cs acc' w' l' = s.onward (bs ++ cs) acc' w' l' := by
  rw [State.onward, wroteAll_onward]
  rfl

theorem onward_eq (s : State) (bs : List Byte) (acc : List Bool) (w : Walk) (l : List Job) : ∃ m u d,
    s.onward bs acc w l = { s with mem := m, undo := u, dstLen := d, acc := acc, walk := w, todo := l } := by
  obtain ⟨m, u, d, h⟩ := wroteAll_eq bs s
  exact ⟨m, u, d, by rw [State.onward, h]⟩

theorem onward_sameSetup (s : State) (bs : List Byte) (acc : List Bool) (w : Walk) (l : List Job) :
    s.SameSetup (s.onward bs acc w l) := by
  obtain ⟨m, u, d, he⟩ := onward_eq s bs acc w l
  rw [he]
  constructor <;> rfl

theorem onward_sameSession (s : State) (bs : List Byte) (acc : List Bool) (w : Walk) (l : List Job) :
    s.SameSession (s.onward bs acc w l) := by
  obtain ⟨m, u, d, he⟩ := onward_eq s bs acc w l
  rw [he]
  constructor <;> rfl

@[simp] theorem onward_srcAddr : (s.onward bs acc w l).srcAddr = s.srcAddr := (onward_sameSetup ..).srcAddr

@[simp] theorem onward_srcLen : (s.onward bs acc w l).srcLen = s.srcLen := (onward_sameSetup ..).srcLen

@[simp] theorem onward_srcByte (k : Nat) : (s.onward bs acc w l).srcByte k = s.srcByte k := by
  rw [State.srcByte, State.srcByte, onward_srcAddr]

@[simp] theorem onward_srcReply (k : Nat) : (s.onward bs acc w l).srcReply k = s.srcReply k := by
  rw [State.srcReply, State.srcReply, onward_srcAddr, busAt_congr (onward_sameSetup ..).bus]

@[simp] theorem onward_codeAt (i : Nat) : (s.onward bs acc w l).codeAt i = s.codeAt i :=
  codeAt_congr (onward_sameSession ..).code i

theorem State.DmaOk.onward (h : s.DmaOk) (bs : List Byte) (acc : List Bool) (w : Walk) (l : List Job) :
    (s.onward bs acc w l).DmaOk := by
  obtain ⟨m, u, d, he⟩ := onward_eq s bs acc w l
  rw [he]
  exact ⟨h.source, h.dest, h.apart, h.srcUntouched, h.dstUntouched⟩

theorem State.Takes.mono {j : Nat} (h : s.Takes k) (hj : j ≤ k) : s.Takes j :=
  ⟨hj.trans h.room, fun i hi => h.answers i (hi.trans_le hj)⟩

/-- DST_LEN does not wrap while bytes have room. -/
theorem State.Takes.dstLen_lt (h : s.Takes k) : s.dstLen.toNat + k < 2 ^ 32 := by
  have := h.room
  have := s.dstCap.isLt
  have := s.dstLen.isLt
  omega

theorem State.Takes.dstLen_onward (h : s.Takes bs.length) :
    (s.onward bs acc w l).dstLen.toNat = s.dstLen.toNat + bs.length :=
  wroteAll_dstLen bs s h.dstLen_lt

theorem State.Takes.dstByte_onward (h : s.Takes bs.length) :
    (s.onward bs acc w l).dstByte = s.dstByte + bs.length := by
  rw [State.dstByte, h.dstLen_onward, (onward_sameSetup s bs acc w l).dstAddr, ← Nat.add_assoc]
  rfl

theorem State.Takes.onward (h : s.Takes (bs.length + k)) : (s.onward bs acc w l).Takes k := by
  have hbs := h.mono (Nat.le_add_right _ k)
  have hset := onward_sameSetup s bs acc w l
  have hroom := h.room
  refine ⟨by rw [hset.dstCap, hbs.dstLen_onward]; omega, fun j hj => ?_⟩
  rw [hbs.dstByte_onward, busAt_congr hset.bus, Nat.add_assoc]
  exact h.answers _ (Nat.add_lt_add_left hj _)

theorem State.Refuses.onward (hbs : s.Takes bs.length) (h : s.Refuses (bs.length + k) code info) :
    (s.onward bs acc w l).Refuses k code info := by
  have hset := onward_sameSetup s bs acc w l
  have hlen : (s.onward bs acc w l).dstLen.toNat + k = s.dstLen.toNat + (bs.length + k) := by
    rw [hbs.dstLen_onward, Nat.add_assoc]
  have hbyte : (s.onward bs acc w l).dstByte + k = s.dstByte + (bs.length + k) := by
    rw [hbs.dstByte_onward, Nat.add_assoc]
  cases h with
  | full h => exact hlen ▸ .full (by rw [hset.dstCap, hlen]; exact h)
  | busError h hb =>
    exact hbyte ▸ .busError (by rw [hset.dstCap, hlen]; exact h) (by rw [hbyte, busAt_congr hset.bus]; exact hb)

/-- What is emitted goes to the destination, which the source is apart from (20_memory.md R73). -/
theorem read_onward_source (h : s.DmaOk) (hbs : s.Takes bs.length) (hk : k < s.srcLen.toNat) :
    Memory.read (s.onward bs acc w l).mem (s.srcByte k) = Memory.read s.mem (s.srcByte k) := by
  refine (wroteAll_read bs s _ hbs.dstLen_lt).trans (dif_neg fun ⟨hlo, hhi⟩ => ?_)
  have hapart := h.apart
  have hroom := hbs.room
  simp only [overlaps, Bool.and_eq_false_iff, decide_eq_false_iff_not] at hapart
  unfold State.srcByte State.dstByte at hlo hhi
  omega

/-- A source byte whose read is answered is what host memory holds (20_memory.md R76). -/
theorem State.DmaOk.memRead_source (h : s.DmaOk) (hk : k < s.srcLen.toNat) (hc : s.srcReply k = .completes) :
    memRead (s.srcByte k) s = .ok (Memory.read s.mem (s.srcByte k)) s := by
  have hlt : s.srcByte k < Config.addrSpace := (Nat.add_lt_add_left hk _).trans_le h.source
  exact memRead_ok hlt hc h.srcUntouched

/-- A source byte whose read gets a bus error raises SRC_BUS with its address (20_memory.md R87). -/
theorem State.DmaOk.memRead_source_busError (h : s.DmaOk) (hk : k < s.srcLen.toNat) (hb : s.srcReply k = .busError) :
    memRead (s.srcByte k) s = .error (.error .srcBus (s.srcAddr + BitVec.ofNat 32 k)) s := by
  have hlt : s.srcByte k < Config.addrSpace := (Nat.add_lt_add_left hk _).trans_le h.source
  have haddr : BitVec.ofNat 32 (s.srcByte k) = s.srcAddr + BitVec.ofNat 32 k := by
    rw [State.srcByte, BitVec.ofNat_add, BitVec.ofNat_toNat, BitVec.setWidth_eq]
  rw [memRead_busError hlt hb, haddr]

theorem State.Takes.emit {b : Byte} (h : s.Takes 1) (hd : s.DmaOk) : emit b s = .ok () (s.wrote b) := by
  have hroom := h.room
  have hdest := hd.dest
  exact emit_ok (by omega) (by unfold State.dstByte; omega) (h.answers 0 Nat.zero_lt_one) hd.dstUntouched

theorem State.Refuses.emit {b : Byte} (h : s.Refuses 0 code info) (hd : s.DmaOk) :
    emit b s = .error (.error code info) s := by
  have hdest := hd.dest
  cases h with
  | full h => exact (emit_full h).trans (by rw [Nat.add_zero, BitVec.ofNat_toNat, BitVec.setWidth_eq])
  | busError h hb => exact emit_busError h (by unfold State.dstByte; omega) hb

end Onward

/-! ### Emitting on the way -/

/-- From `s` the engine comes to emit the bytes `bs`: if they are all taken it goes on with bit buffer `acc` and jobs `l`, and
if one of them is refused the command ends there (44_table_serializer.md R151, 20_memory.md R87). -/
structure State.Emits (s : State) (bs : List Byte) (acc : List Bool) (l : List Job) : Prop where
  goes : s.Takes bs.length → s.runOn = (s.onward bs acc s.walk l).runOn
  stops : ∀ {k code info}, k < bs.length → s.Takes k → s.Refuses k code info →
    s.runOn = .next ((s.wroteAll (bs.take k)).finishError code info)

section Emits
variable {s : State} {bs cs : List Byte} {acc acc' : List Bool} {l l' : List Job}

theorem emits_nil (h : s.runOn = (s.onward [] acc s.walk l).runOn) : s.Emits [] acc l :=
  ⟨fun _ => h, fun hk => absurd hk (Nat.not_lt_zero _)⟩

theorem State.Emits.trans (h : s.Emits bs acc l)
    (h' : s.Takes bs.length → (s.onward bs acc s.walk l).Emits cs acc' l') : s.Emits (bs ++ cs) acc' l' := by
  have hwalk : (s.onward bs acc s.walk l).walk = s.walk := rfl
  constructor
  · intro ht
    rw [List.length_append] at ht
    have hbs := ht.mono (Nat.le_add_right _ _)
    rw [h.goes hbs, (h' hbs).goes ht.onward, onward_onward, hwalk]
  · intro k code info hk ht hr
    rcases Nat.lt_or_ge k bs.length with hlt | hge
    · rw [List.take_append_of_le_length hlt.le]
      exact h.stops hlt ht hr
    · obtain ⟨j, rfl⟩ := Nat.exists_eq_add_of_le hge
      have hbs := ht.mono hge
      have hj : j < cs.length := by rw [List.length_append] at hk; omega
      rw [h.goes hbs, (h' hbs).stops hj ht.onward (hr.onward hbs), wroteAll_onward, List.take_length_add_append]
      rfl

/-- A job that changes the bit buffer at most comes before what is emitted. -/
theorem State.Emits.of_run {j : Job} {rest new : List Job} (hs : s.todo = j :: rest)
    (hr : j.run s = .ok new { s with acc := acc })
    (h : (s.onward [] acc s.walk (new ++ rest)).Emits bs acc' l') : s.Emits bs acc' l' := by
  have hgoes : s.progress = .goes (s.onward [] acc s.walk (new ++ rest)) := progress_of_ok hs hr
  exact (emits_nil (runOn_goes hgoes)).trans fun _ => h

/-- A byte left to emit is emitted, or refused (44_table_serializer.md R151). -/
theorem emits_emit {b : Byte} (hs : s.todo = .emit [b] :: l) (hd : s.DmaOk) : s.Emits [b] s.acc l := by
  constructor
  · intro ht
    have hemit : Job.run (.emit [b]) s = .ok [.emit []] (s.wrote b) := Cmd.bind_of_ok (ht.emit hd)
    rw [runOn_goes (progress_of_ok hs hemit), runOn_goes (progress_of_ok (new := []) rfl rfl)]
    rfl
  · intro k code info hk _ hr
    obtain rfl : k = 0 := Nat.lt_one_iff.1 hk
    have hemit : Job.run (.emit [b]) s = .error (.error code info) s := Cmd.bind_of_error (hr.emit hd)
    exact runOn_ends (progress_of_error hs hemit)

end Emits

end Sys2Proof.Machine
end

section
/-! SUPPORT. ENCODE_PAYLOAD: digits put into the bit buffer, the codes of source bytes, END_OF_TEXT's code and the padding
(45_bitstream.md R170 to R173). -/

namespace Sys2Proof.Machine

section Jobs
variable {s t : State} {rest : List Job}

/-- A digit that does not fill the bit buffer joins it (45_bitstream.md R171). -/
theorem putDigit_joins {d : Bool} {ds : List Bool} (h : s.acc.length + 1 < 8) :
    putDigit d ds s = .ok [.put ds] (s.pushDigit d) := by
  have hlen : ((s.pushDigit d).acc.length = 8) = False := by simp [State.pushDigit]; omega
  rw [putDigit, Cmd.update_bind, Cmd.get_bind, if_neg (by rw [hlen]; exact id)]
  rfl

/-- A digit that fills the bit buffer makes a byte of it (45_bitstream.md R171). -/
theorem putDigit_fills {d : Bool} {ds : List Bool} (h : s.acc.length + 1 = 8) :
    putDigit d ds s = .ok [.emit [byteOfDigits (s.acc ++ [d])], .put ds] s.emptyAcc := by
  have hlen : (s.pushDigit d).acc.length = 8 := by simp [State.pushDigit, h]
  rw [putDigit, Cmd.update_bind, Cmd.get_bind, if_pos hlen]
  rfl

/-- Digits put into the bit buffer are emitted as far as they fill bytes (45_bitstream.md R171). -/
theorem emits_put : ∀ (ds : List Bool) {s : State}, s.todo = .put ds :: rest → s.DmaOk → s.acc.length < 8 →
    s.Emits (wholeBytes (s.acc ++ ds)) (leftDigits (s.acc ++ ds)) rest
  | [], s, hs, _, h8 => by
    rw [List.append_nil, wholeBytes_of_short h8, leftDigits_of_short h8]
    exact emits_nil (runOn_goes (progress_of_ok (new := []) hs rfl))
  | d :: ds, s, hs, hd, h8 => by
    rw [List.append_cons]
    rcases Nat.lt_or_ge (s.acc.length + 1) 8 with hlt | hge
    · have hjoins : Job.run (.put (d :: ds)) s = .ok [.put ds] { s with acc := s.acc ++ [d] } := putDigit_joins hlt
      exact .of_run hs hjoins (emits_put ds rfl (hd.onward _ _ _ _) (by simpa [State.onward] using hlt))
    · have hlen : (s.acc ++ [d]).length = 8 := by rw [List.length_append, List.length_singleton]; omega
      have hfills : Job.run (.put (d :: ds)) s = .ok [.emit [byteOfDigits (s.acc ++ [d])], .put ds] { s with acc := [] } :=
        putDigit_fills (by omega)
      rw [wholeBytes_octet_append hlen, leftDigits_append_of_whole (n := 1) hlen]
      refine .of_run hs hfills ((emits_emit rfl (hd.onward _ _ _ _)).trans (cs := wholeBytes ds) fun _ => ?_)
      exact emits_put ds rfl ((hd.onward _ _ _ _).onward _ _ _ _) (by decide : ([] : List Bool).length < 8)

theorem codeDigits_congr (h : t.code = s.code) (src : List Byte) : t.codeDigits src = s.codeDigits src := by
  simp only [State.codeDigits, codeAt_congr h]

theorem codeDigits_cons (s : State) (b : Byte) (src : List Byte) :
    s.codeDigits (b :: src) = (s.codeAt b.toNat).digits ++ s.codeDigits src := rfl

theorem srcByte_add (s : State) (k j : Nat) : s.srcByte (k + j) = s.srcByte k + j := (Nat.add_assoc _ _ _).symm

theorem srcByte_succ (s : State) (k : Nat) : s.srcByte (k + 1) = s.srcByte k + 1 := srcByte_add s k 1

/-- A source byte with a code leaves its code to put (45_bitstream.md R170). -/
theorem encodeByte_coded {k n : Nat} (hd : s.DmaOk) (hk : k < s.srcLen.toNat) (hc : s.srcReply k = .completes)
    (hv : (s.codeAt (Memory.read s.mem (s.srcByte k)).toNat).valid = true) : encodeByte k n s =
      .ok [.put (s.codeAt (Memory.read s.mem (s.srcByte k)).toNat).digits, .encode (k + 1) n] s := by
  rw [encodeByte, Cmd.get_bind, Cmd.bind_of_ok (hd.memRead_source hk hc),
    Cmd.get_bind, if_pos hv, Cmd.pure_run]

/-- A source byte with no code fails the command (45_bitstream.md R173). -/
theorem encodeByte_noCode {k n : Nat} (hd : s.DmaOk) (hk : k < s.srcLen.toNat) (hc : s.srcReply k = .completes)
    (hv : (s.codeAt (Memory.read s.mem (s.srcByte k)).toNat).valid = false) :
    encodeByte k n s = .error (.error .noCode (BitVec.ofNat 32 k)) s := by
  rw [encodeByte, Cmd.get_bind, Cmd.bind_of_ok (hd.memRead_source hk hc),
    Cmd.get_bind, if_neg (by rw [hv]; exact Bool.false_ne_true), Cmd.raise_run]

/-- A source byte whose read gets a bus error fails the command (20_memory.md R87). -/
theorem encodeByte_busError {k n : Nat} (hd : s.DmaOk) (hk : k < s.srcLen.toNat) (hb : s.srcReply k = .busError) :
    encodeByte k n s = .error (.error .srcBus (s.srcAddr + BitVec.ofNat 32 k)) s := by
  rw [encodeByte, Cmd.get_bind, Cmd.bind_of_error (hd.memRead_source_busError hk hb)]

/-- The next `n` source bytes, all coded, are emitted as far as their codes fill bytes, and `m` bytes are left to encode
(45_bitstream.md R170, R171). -/
theorem emits_encode (m : Nat) : ∀ (n k : Nat) {s : State}, s.todo = .encode k (n + m) :: rest → s.DmaOk →
    s.acc.length < 8 → k + n ≤ s.srcLen.toNat → (∀ j, k ≤ j → j < k + n → s.srcReply j = .completes) →
    (∀ b ∈ Memory.bytes s.mem (s.srcByte k) n, (s.codeAt b.toNat).valid = true) →
    s.Emits (wholeBytes (s.acc ++ s.codeDigits (Memory.bytes s.mem (s.srcByte k) n)))
      (leftDigits (s.acc ++ s.codeDigits (Memory.bytes s.mem (s.srcByte k) n))) (.encode (k + n) m :: rest)
  | 0, k, s, hs, _, h8, _, _, _ => by
    have hnone : s.acc ++ s.codeDigits (Memory.bytes s.mem (s.srcByte k) 0) = s.acc := List.append_nil _
    rw [Nat.zero_add] at hs
    rw [hnone, wholeBytes_of_short h8, leftDigits_of_short h8, Nat.add_zero, ← hs]
    exact emits_nil rfl
  | n + 1, k, s, hs, hd, h8, hk, hc, hv => by
    rw [Memory.bytes_succ] at hv ⊢
    rw [Nat.add_right_comm] at hs
    have hcode : Job.run (.encode k (n + m + 1)) s = .ok _ { s with acc := s.acc } :=
      encodeByte_coded hd (by omega) (hc k (Nat.le_refl k) (by omega)) (hv _ List.mem_cons_self)
    rw [codeDigits_cons, ← List.append_assoc]
    generalize hx : s.acc ++ _ = x
    rw [wholeBytes_append x, leftDigits_append x, ← hx]
    refine .of_run (acc := s.acc) hs hcode ((emits_put _ rfl (hd.onward _ _ _ _) h8).trans fun ht => ?_)
    have ht' : s.Takes _ := ⟨ht.room, ht.answers⟩
    rw [onward_onward]
    generalize hu : s.onward _ _ _ _ = u
    have hbytes : Memory.bytes u.mem (u.srcByte (k + 1)) n = Memory.bytes s.mem (s.srcByte k + 1) n := by
      rw [← hu, onward_srcByte, ← srcByte_succ]
      refine Memory.bytes_congr fun j hj => ?_
      rw [← srcByte_add]
      exact read_onward_source hd ht' (by omega)
    have hacc : u.acc = leftDigits (s.acc ++ (s.codeAt (Memory.read s.mem (s.srcByte k)).toNat).digits) := hu ▸ rfl
    have hcodes := codeDigits_congr (s := s) (t := u) (hu ▸ (onward_sameSession ..).code)
    rw [← hbytes, ← hcodes, ← hacc, Nat.add_comm n 1, ← Nat.add_assoc]
    refine emits_encode m n (k + 1) (hu ▸ rfl) (hu ▸ hd.onward _ _ _ _) (hacc ▸ length_leftDigits_lt _) ?_
      (fun j h1 h2 => ?_) fun b hb => ?_
    · rw [← hu, onward_srcLen]
      omega
    · rw [← hu, onward_srcReply]
      exact hc j (by omega) (by omega)
    · rw [← hu, onward_codeAt]
      exact hv b (List.mem_cons_of_mem _ (hbytes ▸ hb))

/-- Padding emits what is left in the bit buffer as a byte (45_bitstream.md R172). -/
theorem emits_pad (hs : s.todo = [.pad]) (hd : s.DmaOk) (h8 : s.acc.length < 8) : s.Emits (packedBytes s.acc) [] [] := by
  rcases Nat.eq_zero_or_pos s.acc.length with h0 | hpos
  · have hpad : padAcc s = .ok [] s := by rw [padAcc, Cmd.get_bind, if_pos h0, Cmd.pure_run]
    have hnil := List.length_eq_zero_iff.1 h0
    rw [hnil]
    refine emits_nil ((runOn_goes (progress_of_ok hs hpad)).trans ?_)
    rw [← hnil]
    rfl
  · have hpad : padAcc s = .ok [.put (List.replicate (8 - s.acc.length) false)] s := by
      rw [padAcc, Cmd.get_bind, if_neg (Nat.ne_of_gt hpos), Cmd.pure_run]
    have hlen : (s.acc ++ List.replicate (8 - s.acc.length) false).length = 8 := by
      rw [List.length_append, List.length_replicate]; omega
    rw [packedBytes_short hpos h8.le, ← wholeBytes_octet hlen, ← leftDigits_octet hlen]
    exact .of_run hs hpad (emits_put _ rfl (hd.onward _ _ _ _) h8)

end Jobs

/-! ### The command -/

/-- ENCODE_PAYLOAD accepted and past its start checks, the bit buffer empty (10_state.md R24; 45_bitstream.md R170). -/
def State.encoding (s : State) : State :=
  { s.accept (encode .encodePayload) with todo := [.encode 0 s.srcLen.toNat, .endOfText, .pad] }

section Command
variable {s : State} {bs : List Byte} {k : Nat} {code : ErrCode} {info : Word}

theorem exec_encodePayload_begins (hw : s.hostWaits = true) (hp : s.phase = .coded) (hr : s.RangesOk .encodePayload) :
    exec .encodePayload s = s.encoding.runOn := by
  rw [exec_past_rangeChecks hw hr (by rw [hp]; rfl), runOn_goes (progress_of_ok (new := []) rfl rfl)]
  rfl

/-- The first `k` source bytes, all coded, are emitted as far as their codes fill bytes (45_bitstream.md R170, R171). -/
theorem encoding_emits_take (hr : s.RangesOk .encodePayload) (hk : k ≤ s.srcLen.toNat)
    (hc : ∀ j, j < k → s.srcReply j = .completes) (hv : ∀ b ∈ s.srcBytes.take k, (s.codeAt b.toNat).valid = true) :
    s.encoding.Emits (wholeBytes (s.codeDigits (s.srcBytes.take k))) (leftDigits (s.codeDigits (s.srcBytes.take k)))
      [.encode k (s.srcLen.toNat - k), .endOfText, .pad] := by
  have hdma : s.encoding.DmaOk := hr.dmaOk rfl rfl _ _
  have hbytes : Memory.bytes s.encoding.mem (s.encoding.srcByte 0) k = s.srcBytes.take k := by
    refine List.ext_getElem ?_ fun j hj hj' => ?_
    · rw [Memory.bytes_length, List.length_take, length_srcBytes, Nat.min_eq_left hk]
    · rw [Memory.bytes_getElem, List.getElem_take]
      exact (Memory.bytes_getElem ..).symm
  have htodo : s.encoding.todo = .encode 0 (k + (s.srcLen.toNat - k)) :: [.endOfText, .pad] := by
    rw [Nat.add_sub_cancel' hk]; rfl
  have h := emits_encode (s.srcLen.toNat - k) k 0 htodo hdma (by decide : ([] : List Bool).length < 8)
    (by rw [Nat.zero_add]; exact hk) (fun j _ hj => hc j (by rwa [Nat.zero_add] at hj)) (hbytes ▸ hv)
  rw [hbytes, Nat.zero_add] at h
  exact h

/-- A source that is coded is emitted as its payload, and nothing is left to do (30_encoding.md R98, 45_bitstream.md R170 to
R172). -/
theorem encoding_emits_payload (hr : s.RangesOk .encodePayload) (hc : ∀ j, j < s.srcLen.toNat → s.srcReply j = .completes)
    (hv : ∀ b ∈ s.srcBytes, (s.codeAt b.toNat).valid = true) : s.encoding.Emits (s.payload s.srcBytes) [] [] := by
  have hdma : s.encoding.DmaOk := hr.dmaOk rfl rfl _ _
  have hall : s.srcBytes.take s.srcLen.toNat = s.srcBytes := List.take_of_length_le (length_srcBytes s).le
  have hbytes := encoding_emits_take hr (Nat.le_refl _) hc (hall.symm ▸ hv)
  rw [hall, Nat.sub_self] at hbytes
  generalize hx : s.codeDigits s.srcBytes = x at hbytes
  have hdigits : s.payloadDigits s.srcBytes = x ++ (s.codeAt Config.endOfText).digits := by rw [← hx]; rfl
  rw [payload_eq, hdigits, packedBytes_eq_wholeBytes_append, wholeBytes_append, leftDigits_append, List.append_assoc]
  refine hbytes.trans fun _ => ?_
  generalize hu : s.encoding.onward _ _ _ _ = u
  have hcode : (u.codeAt Config.endOfText).digits = (s.codeAt Config.endOfText).digits := by
    rw [← hu, onward_codeAt]; rfl
  have hacc : u.acc = leftDigits x := hu ▸ rfl
  have hdmau : u.DmaOk := hu ▸ hdma.onward _ _ _ _
  have htodo : u.todo = .encode s.srcLen.toNat 0 :: [.endOfText, .pad] := hu ▸ rfl
  rw [← hacc, ← hcode]
  refine .of_run (acc := u.acc) (new := []) htodo rfl ?_
  refine .of_run (acc := u.acc) (rest := [.pad]) (new := [.put (u.codeAt Config.endOfText).digits]) rfl rfl ?_
  refine State.Emits.trans (emits_put _ rfl ((hdmau.onward _ _ _ _).onward _ _ _ _) (hacc ▸ length_leftDigits_lt _))
    fun _ => ?_
  exact emits_pad rfl (((hdmau.onward _ _ _ _).onward _ _ _ _).onward _ _ _ _) (length_leftDigits_lt _)

end Command

end Sys2Proof.Machine
end

section
/-! SUPPORT. How ENCODE_PAYLOAD ends: with its payload emitted, by a byte the destination refuses, or by a source byte with no
code or with a bus error (45_bitstream.md R170 to R173, 44_table_serializer.md R151, 20_memory.md R87). -/

namespace Sys2Proof.Machine

/-- The command `i` went from `s` to `t` by an error, with the bytes `bs` written and counted from destination offset `off` on;
the session, SRC_POS and every other byte stay (60_exceptions.md R212). -/
structure State.FailedAfter (s t : State) (i : Instr) (code : ErrCode) (info : Word) (off : Nat) (bs : List Byte) :
    Prop where
  failed : t.Failed i i.opcode code info
  emitted : s.Emitted t off bs
  session : s.SameSession t
  setup : s.SameSetup t
  srcPos : t.srcPos = s.srcPos

section Ends
variable {s : State} {bs : List Byte} {k : Nat} {code : ErrCode} {info : Word}

/-- Bytes that are taken are written and counted where DST_LEN was. -/
theorem State.Takes.emitted_encoding (h : s.encoding.Takes bs.length) :
    s.Emitted (s.encoding.wroteAll bs) s.dstLen.toNat bs := by
  obtain ⟨hlen, hbytes, hothers⟩ := wroteAll_emitted (s := s.encoding) h.dstLen_lt
  exact ⟨hlen, hbytes, hothers⟩

theorem encoding_failedAfter (h : s.encoding.Takes bs.length) (code : ErrCode) (info : Word) :
    s.FailedAfter ((s.encoding.wroteAll bs).finishError code info) .encodePayload code info s.dstLen.toNat bs := by
  obtain ⟨hlen, hbytes, hothers⟩ := h.emitted_encoding
  obtain ⟨m, l, d, hu⟩ := wroteAll_eq bs s.encoding
  refine ⟨?_, ⟨hlen, hbytes, hothers⟩, ?_, ?_, ?_⟩
  all_goals rw [hu]
  · constructor <;> rfl
  · constructor <;> rfl
  · constructor <;> rfl
  · rfl

/-- The payload's byte `k` is refused, those before it taken (44_table_serializer.md R151, 20_memory.md R87). -/
theorem exec_encodePayload_refused (hw : s.hostWaits = true) (hp : s.phase = .coded) (hr : s.RangesOk .encodePayload)
    (hc : ∀ j, j < s.srcLen.toNat → s.srcReply j = .completes) (hv : ∀ b ∈ s.srcBytes, (s.codeAt b.toNat).valid = true)
    (hk : k < (s.payload s.srcBytes).length) (ht : s.encoding.Takes k) (he : s.encoding.Refuses k code info) :
    ∃ t, exec .encodePayload s = .next t ∧
      s.FailedAfter t .encodePayload code info s.dstLen.toNat ((s.payload s.srcBytes).take k) := by
  have hlen : ((s.payload s.srcBytes).take k).length = k := List.length_take_of_le hk.le
  exact ⟨_, (exec_encodePayload_begins hw hp hr).trans ((encoding_emits_payload hr hc hv).stops hk ht he),
    encoding_failedAfter (hlen.symm ▸ ht) code info⟩

/-- The whole bytes of the codes of the first `k` source bytes are taken, and the reading of the next byte ends the command
(45_bitstream.md R173, 20_memory.md R87). -/
theorem exec_encodePayload_stopsAt (hw : s.hostWaits = true) (hp : s.phase = .coded) (hr : s.RangesOk .encodePayload)
    (hk : k < s.srcLen.toNat) (hc : ∀ j, j < k → s.srcReply j = .completes)
    (hv : ∀ b ∈ s.srcBytes.take k, (s.codeAt b.toNat).valid = true)
    (ht : s.encoding.Takes (wholeBytes (s.codeDigits (s.srcBytes.take k))).length)
    (he : ∀ n acc w l, let u := s.encoding.onward (wholeBytes (s.codeDigits (s.srcBytes.take k))) acc w l
      encodeByte k n u = .error (.error code info) u) :
    ∃ t, exec .encodePayload s = .next t ∧
      s.FailedAfter t .encodePayload code info s.dstLen.toNat (wholeBytes (s.codeDigits (s.srcBytes.take k))) := by
  have hleft : s.srcLen.toNat - k = s.srcLen.toNat - k - 1 + 1 := by omega
  have hgoes := (encoding_emits_take hr hk.le hc hv).goes ht
  rw [hleft] at hgoes
  exact ⟨_, (exec_encodePayload_begins hw hp hr).trans (hgoes.trans (runOn_ends (progress_of_error rfl (he _ _ _ _)))),
    encoding_failedAfter ht code info⟩

/-- A payload that is taken whole is emitted, and ENCODE_PAYLOAD completes (45_bitstream.md R170 to R172). -/
theorem exec_encodePayload_completes (hw : s.hostWaits = true) (hp : s.phase = .coded) (hr : s.RangesOk .encodePayload)
    (hc : ∀ j, j < s.srcLen.toNat → s.srcReply j = .completes) (hv : ∀ b ∈ s.srcBytes, (s.codeAt b.toNat).valid = true)
    (ht : s.encoding.Takes (s.payload s.srcBytes).length) :
    exec .encodePayload s = .next (s.encoding.wroteAll (s.payload s.srcBytes)).finish := by
  rw [exec_encodePayload_begins hw hp hr, (encoding_emits_payload hr hc hv).goes ht]
  exact runOn_ends (progress_of_nil rfl)

end Ends

/-- Settles O41: the payload is emitted byte by byte, up to its end or to the byte the destination refuses. -/
theorem encodePayloadAppendsThePayload : Obligations.EncodePayloadAppendsThePayload := by
  unfold Obligations.EncodePayloadAppendsThePayload
  intro s hw hp hs hdst hoff hov hv
  have hr : s.RangesOk .encodePayload :=
    ⟨fun _ => ⟨hs.inRange, hs.offWindow⟩, fun _ => ⟨decide_eq_true hdst, hoff⟩, fun _ _ => hov⟩
  have fails : ∀ {k code info}, (∃ t, exec .encodePayload s = .next t ∧
      s.FailedAfter t .encodePayload code info s.dstLen.toNat ((s.payload s.srcBytes).take k)) →
      ∃ t, exec .encodePayload s = .next t ∧ t.Failed .encodePayload 0x6#4 code info ∧
        s.Emitted t s.dstLen.toNat ((s.payload s.srcBytes).take k) ∧ s.SameSession t ∧ s.SameSetup t ∧
        t.srcPos = s.srcPos :=
    fun ⟨t, he, h⟩ => ⟨t, he, h.failed, h.emitted, h.session, h.setup, h.srcPos⟩
  refine ⟨fun hroom hb => ?fits, fun hroom hb => ?full, fun k hk hroom hb he => ?busError⟩
  case fits =>
    have ht : s.encoding.Takes (s.payload s.srcBytes).length := ⟨hroom, hb⟩
    obtain ⟨hlen, hbytes, hothers⟩ := ht.emitted_encoding
    obtain ⟨m, l, d, hu⟩ := wroteAll_eq (s.payload s.srcBytes) s.encoding
    refine ⟨_, exec_encodePayload_completes hw hp hr hs.answers hv ht, ?_, ?_, ⟨hlen, hbytes, hothers⟩, ?_, ?_, ?_⟩
    all_goals rw [hu]
    · constructor <;> rfl
    · rfl
    · constructor <;> rfl
    · constructor <;> rfl
    · rfl
  case full =>
    exact fails (exec_encodePayload_refused hw hp hr hs.answers hv hroom ⟨Nat.le_refl _, hb⟩
      (.full (by change s.dstCap.toNat ≤ s.dstLen.toNat + (s.dstCap.toNat - s.dstLen.toNat); omega)))
  case busError =>
    have hinfo : BitVec.ofNat 32 (s.encoding.dstByte + k) = s.dstAddr + s.dstLen + BitVec.ofNat 32 k := by
      change BitVec.ofNat 32 (s.dstAddr.toNat + s.dstLen.toNat + k) = _
      simp only [BitVec.ofNat_add, BitVec.ofNat_toNat, BitVec.setWidth_eq]
    rw [← hinfo]
    exact fails (exec_encodePayload_refused hw hp hr hs.answers hv hk ⟨hroom.le, hb⟩
      (.busError (by change s.dstLen.toNat + k < s.dstCap.toNat; omega) he))

/-- Settles O42: the codes of the bytes before are emitted as far as they fill bytes, and then the byte is read. -/
theorem encodePayloadStopsAtAByteWithNoCode : Obligations.EncodePayloadStopsAtAByteWithNoCode := by
  unfold Obligations.EncodePayloadStopsAtAByteWithNoCode
  intro s k hw hp hsrc hoff hd hov hk hc hv hroom
  have hr : s.RangesOk .encodePayload :=
    ⟨fun _ => ⟨decide_eq_true hsrc, hoff⟩, fun _ => ⟨hd.inRange, hd.offWindow⟩, fun _ _ => hov⟩
  have ht : s.encoding.Takes (wholeBytes (s.codeDigits (s.srcBytes.take k))).length := by
    rw [length_wholeBytes]
    refine ⟨hroom, fun j hj => ?_⟩
    have hanswer := hd.answers (s.dstLen.toNat + j) (by omega)
    rwa [← Nat.add_assoc] at hanswer
  have fails : ∀ {code info}, (∃ t, exec .encodePayload s = .next t ∧ s.FailedAfter t .encodePayload code info
      s.dstLen.toNat (wholeBytes (s.codeDigits (s.srcBytes.take k)))) →
      ∃ t, exec .encodePayload s = .next t ∧ t.Failed .encodePayload 0x6#4 code info ∧
        s.Emitted t s.dstLen.toNat (wholeBytes (s.codeDigits (s.srcBytes.take k))) ∧ s.SameSession t ∧
        s.SameSetup t ∧ t.srcPos = s.srcPos :=
    fun ⟨t, he, h⟩ => ⟨t, he, h.failed, h.emitted, h.session, h.setup, h.srcPos⟩
  have hdma : s.encoding.DmaOk := hr.dmaOk rfl rfl _ _
  refine ⟨fun hread hnone => fails (exec_encodePayload_stopsAt hw hp hr hk hc hv ht fun n acc w l => ?noCode),
    fun hread => fails (exec_encodePayload_stopsAt hw hp hr hk hc hv ht fun n acc w l => ?busError)⟩
  case noCode =>
    refine encodeByte_noCode (hdma.onward _ _ _ _) (by rw [onward_srcLen]; exact hk)
      (by rw [onward_srcReply]; exact hread) ?_
    rw [onward_srcByte, read_onward_source hdma ht hk, onward_codeAt]
    exact hnone
  case busError =>
    have herr := encodeByte_busError (n := n) (hdma.onward (wholeBytes (s.codeDigits (s.srcBytes.take k))) acc w l)
      (by rw [onward_srcLen]; exact hk)
      (by rw [onward_srcReply]; exact hread)
    rw [onward_srcAddr] at herr
    exact herr

end Sys2Proof.Machine
end

section
/-! SUPPORT. The digits of a source that DECODE_PAYLOAD can read, and its walk on one of them (45_bitstream.md R175 to
R178). -/

namespace Sys2Proof.Machine

/-! ### The digits of the source -/

/-- Digit `j` of the source, counted from bit 7 of its first byte, can be read and is `d` (45_bitstream.md R175). -/
structure State.ReadsDigit (s : State) (j : Nat) (d : Bool) : Prop where
  inside : j / 8 < s.srcLen.toNat
  answers : s.srcReply (j / 8) = .completes
  digit : (Memory.read s.mem (s.srcByte (j / 8))).getLsbD (7 - j % 8) = d

/-- The digits of the source from digit `j` on can be read and begin with `ds`. -/
def State.ReadsDigits (s : State) (j : Nat) (ds : List Bool) : Prop :=
  ∀ k (h : k < ds.length), s.ReadsDigit (j + k) ds[k]

section Digits
variable {s : State} {j p : Nat} {d : Bool} {ds es : List Bool} {bs : List Byte}

theorem State.ReadsDigits.head (h : s.ReadsDigits j (d :: ds)) : s.ReadsDigit j d := h 0 (Nat.succ_pos _)

theorem State.ReadsDigits.tail (h : s.ReadsDigits j (d :: ds)) : s.ReadsDigits (j + 1) ds := fun k hk => by
  rw [Nat.add_assoc, Nat.add_comm 1 k]
  exact h (k + 1) (Nat.succ_lt_succ hk)

theorem State.ReadsDigits.of_prefix (h : s.ReadsDigits j es) (hp : ds <+: es) : s.ReadsDigits j ds := fun k hk => by
  rw [hp.getElem hk]
  exact h k (hk.trans_le hp.length_le)

theorem readsDigits_append :
    s.ReadsDigits j (ds ++ es) ↔ s.ReadsDigits j ds ∧ s.ReadsDigits (j + ds.length) es := by
  constructor
  · refine fun h => ⟨h.of_prefix (List.prefix_append _ _), fun k hk => ?_⟩
    have := h (ds.length + k) (by rw [List.length_append]; omega)
    rw [List.getElem_append_right (Nat.le_add_right _ _), ← Nat.add_assoc] at this
    simpa only [Nat.add_sub_cancel_left] using this
  · intro ⟨hds, hes⟩ k hk
    rcases Nat.lt_or_ge k ds.length with hlt | hge
    · rw [List.getElem_append_left hlt]
      exact hds k hlt
    · obtain ⟨i, rfl⟩ := Nat.exists_eq_add_of_le hge
      rw [List.getElem_append_right hge, ← Nat.add_assoc]
      simp only [Nat.add_sub_cancel_left]
      exact hes i (by rw [List.length_append] at hk; omega)

theorem readsDigits_bitsOfByte (hp : p < s.srcLen.toNat) (hc : s.srcReply p = .completes) :
    s.ReadsDigits (8 * p) (bitsOfByte (Memory.read s.mem (s.srcByte p))) := fun k hk => by
  have hk8 : k < 8 := by simpa [bitsOfByte] using hk
  have hdiv : (8 * p + k) / 8 = p := by omega
  have hmod : (8 * p + k) % 8 = k := by omega
  exact ⟨hdiv.symm ▸ hp, hdiv.symm ▸ hc, by simp [bitsOfByte, hdiv, hmod]⟩

/-- Source bytes that can be read have their bits as digits (45_bitstream.md R175). -/
theorem readsDigits_bitsOfBytes : ∀ (bs : List Byte) (p : Nat), (∀ k (h : k < bs.length),
    p + k < s.srcLen.toNat ∧ s.srcReply (p + k) = .completes ∧ Memory.read s.mem (s.srcByte (p + k)) = bs[k]) →
    s.ReadsDigits (8 * p) (bitsOfBytes bs)
  | [], _, _ => fun _ hk => absurd hk (Nat.not_lt_zero _)
  | b :: bs, p, h => by
    obtain ⟨hp, hc, hb⟩ := h 0 (Nat.succ_pos _)
    refine readsDigits_append.2 ⟨?_, ?_⟩
    · rw [← show _ = b from hb]
      exact readsDigits_bitsOfByte hp hc
    · have hlen : 8 * p + (bitsOfByte b).length = 8 * (p + 1) := by simp [bitsOfByte]; omega
      rw [hlen]
      refine readsDigits_bitsOfBytes bs (p + 1) fun k hk => ?_
      have := h (k + 1) (Nat.succ_lt_succ hk)
      rwa [← Nat.add_assoc, Nat.add_right_comm] at this

theorem State.ReadsDigits.onward {acc : List Bool} {w : Walk} {l : List Job} (h : s.ReadsDigits j ds) (hd : s.DmaOk)
    (ht : s.Takes bs.length) : (s.onward bs acc w l).ReadsDigits j ds := fun k hk => by
  obtain ⟨hin, hans, hdig⟩ := h k hk
  exact ⟨by rw [onward_srcLen]; exact hin, by rw [onward_srcReply]; exact hans,
    by rw [onward_srcByte, read_onward_source hd ht hin]; exact hdig⟩

end Digits

/-! ### Where the walk stands -/

/-- The last `n` bits of source byte `p`, from digit `j` of the source on, are left in the walk `w` (45_bitstream.md
R175). -/
structure State.Holds (s : State) (w : Walk) (j p n : Nat) : Prop where
  left : n < 8
  place : j + n = 8 * (p + 1)
  loaded : 0 < n → p < s.srcLen.toNat ∧ w.byte = Memory.read s.mem (s.srcByte p) ∧ w.bit.toNat + 1 = n

/-- Digit `j` of the source is the next one to be walked: its byte is to be read, or is in the walk (45_bitstream.md
R175). -/
inductive State.AtDigit (s : State) : Nat → Prop
  | byte (p : Nat) (ht : s.todo = [.decode p]) : s.AtDigit (8 * p)
  | bit (p n j : Nat) (ht : s.todo = [.bits p n]) (h : s.Holds s.walk j p n) : s.AtDigit j

/-- The node one digit leads to from node `n`: on a one-leaf tree the root (45_bitstream.md R176, R177). -/
def State.stepNode (s : State) (n : BitVec 10) (d : Bool) : BitVec 10 :=
  if (s.nodeAt s.tree.root.toNat).leaf then s.tree.root
  else if d then (s.nodeAt n.toNat).right else (s.nodeAt n.toNat).left

/-- What the engine goes on in where the walk has come to: END_OF_TEXT's leaf stops the decode, a literal's leaf is emitted, an
internal node goes on; `n` bits of the byte at `p` are left (45_bitstream.md R176). -/
def State.arrived (s : State) (w : Walk) (p n : Nat) : State :=
  if (s.nodeAt w.node.toNat).leaf then
    if (s.nodeAt w.node.toNat).sym.toNat = Config.endOfText then (s.stopDecode (p + 1)).onward [] s.acc w []
    else s.onward [] s.acc w [.emit [(s.nodeAt w.node.toNat).sym.setWidth 8], .toRoot, .bits p n]
  else s.onward [] s.acc w [.bits p n]

/-- The engine comes to node `n` with the digits of the source before digit `j` walked. -/
def State.ComesTo (s : State) (j : Nat) (n : BitVec 10) : Prop :=
  ∃ w p m, w.node = n ∧ s.Holds w j p m ∧ s.runOn = (s.arrived w p m).runOn

section Walk
variable {s : State} {w : Walk} {j p n : Nat} {d : Bool} {node : BitVec 10} {bs : List Byte}

theorem State.Holds.onward {acc : List Bool} {w' : Walk} {l : List Job} (h : s.Holds w j p n) (hd : s.DmaOk)
    (ht : s.Takes bs.length) : (s.onward bs acc w' l).Holds w j p n := by
  refine ⟨h.left, h.place, fun hn => ?_⟩
  obtain ⟨hp, hbyte, hbit⟩ := h.loaded hn
  exact ⟨by rw [onward_srcLen]; exact hp, by rw [onward_srcByte, read_onward_source hd ht hp]; exact hbyte, hbit⟩

theorem takes_zero (s : State) : s.Takes 0 := ⟨Nat.zero_le _, fun _ h => absurd h (Nat.not_lt_zero _)⟩

theorem atNode_arrived (s : State) (p n : Nat) : ∃ new t, atNode p n s = .ok new t ∧
    { t with todo := new } = s.arrived s.walk p n := by
  rw [atNode, Cmd.get_bind, State.arrived]
  split
  · split
    · exact ⟨_, _, rfl, rfl⟩
    · exact ⟨_, _, rfl, rfl⟩
  · exact ⟨_, _, rfl, rfl⟩

/-- A source byte whose read is answered is taken into the walk (45_bitstream.md R175). -/
theorem decodeByte_completes (hd : s.DmaOk) (hp : p < s.srcLen.toNat) (hc : s.srcReply p = .completes) :
    decodeByte p s = .ok [.bits p 8] (s.walkByte (Memory.read s.mem (s.srcByte p))) := by
  rw [decodeByte, Cmd.get_bind, if_pos hp, Cmd.bind_of_ok (hd.memRead_source hp hc), Cmd.update_bind, Cmd.pure_run]

/-- A source byte whose read gets a bus error fails the command (20_memory.md R87). -/
theorem decodeByte_busError (hd : s.DmaOk) (hp : p < s.srcLen.toNat) (hb : s.srcReply p = .busError) :
    decodeByte p s = .error (.error .srcBus (s.srcAddr + BitVec.ofNat 32 p)) s := by
  rw [decodeByte, Cmd.get_bind, if_pos hp, Cmd.bind_of_error (hd.memRead_source_busError hp hb)]

/-- Past the source's end the payload is truncated (45_bitstream.md R179). -/
theorem decodeByte_truncated (hp : s.srcLen.toNat ≤ p) :
    decodeByte p s = .error (.error .truncatedPayload (BitVec.ofNat 32 p)) s := by
  rw [decodeByte, Cmd.get_bind, if_neg (Nat.not_lt.2 hp), Cmd.raise_run]

/-- A byte whose first bit comes next is to be read (45_bitstream.md R175). -/
theorem runOn_atDigit_byte {e : Nat} (h : s.AtDigit (8 * e)) :
    s.runOn = (s.onward [] s.acc s.walk [.decode e]).runOn := by
  generalize hj : 8 * e = j at h
  cases h with
  | byte p ht =>
    obtain rfl : p = e := by omega
    rw [← ht]
    rfl
  | bit p n j ht h =>
    have hplace := h.place
    have hleft := h.left
    obtain rfl : n = 0 := by omega
    obtain rfl : e = p + 1 := by omega
    exact runOn_goes (progress_of_ok (new := [.decode (p + 1)]) ht rfl)

/-- A digit that can be read comes to be walked (45_bitstream.md R175). -/
theorem runOn_atDigit (hd : s.DmaOk) (h : s.AtDigit j) (hr : s.ReadsDigit j d) :
    ∃ w, w.node = s.walk.node ∧ w.byte = Memory.read s.mem (s.srcByte (j / 8)) ∧ w.bit.toNat = 7 - j % 8 ∧
      s.runOn = (s.onward [] s.acc w [.bits (j / 8) (7 - j % 8 + 1)]).runOn := by
  by_cases hmod : j % 8 = 0
  · have hload := decodeByte_completes (hd.onward [] s.acc s.walk [.decode (j / 8)]) hr.inside hr.answers
    have hgoes := runOn_goes (progress_of_ok (j := .decode (j / 8)) rfl hload)
    rw [← Nat.mul_div_cancel' (Nat.dvd_of_mod_eq_zero hmod)] at h
    refine ⟨⟨s.walk.node, Memory.read s.mem (s.srcByte (j / 8)), 7#3⟩, rfl, rfl, by rw [hmod]; rfl, ?_⟩
    rw [runOn_atDigit_byte h, hgoes, hmod]
    rfl
  · cases h with
    | byte p ht => omega
    | bit p n j ht h =>
      have hplace := h.place
      have hleft := h.left
      obtain ⟨-, hbyte, hbit⟩ := h.loaded (by omega)
      obtain rfl : p = j / 8 := by omega
      obtain rfl : n = 7 - j % 8 + 1 := by omega
      refine ⟨s.walk, rfl, hbyte, Nat.succ.inj hbit, ?_⟩
      rw [← ht]
      rfl

theorem walkOn_ok_eq {p : Nat} (hok : (s.nodeAt s.tree.root.toNat).leaf = true → d = false) :
    walkOn p d s = .ok () (s.walkTo (s.stepNode s.walk.node d)) := by
  rw [walkOn, Cmd.get_bind, State.stepNode]
  by_cases hl : (s.nodeAt s.tree.root.toNat).leaf = true
  · rw [if_pos hl, if_pos hl, hok hl]
    rfl
  · rw [if_neg hl, if_neg hl]
    rfl

theorem walkOn_badCode {p : Nat} (hl : (s.nodeAt s.tree.root.toNat).leaf = true) :
    walkOn p true s = .error (.error .badCode (BitVec.ofNat 32 p)) s := by
  rw [walkOn, Cmd.get_bind, if_pos hl]
  rfl

/-- The walk on a digit comes to the node the digit leads to (45_bitstream.md R175, R176). -/
theorem comesTo_digit (hd : s.DmaOk) (h : s.AtDigit j) (hr : s.ReadsDigit j d)
    (hok : (s.nodeAt s.tree.root.toNat).leaf = true → d = false) :
    s.ComesTo (j + 1) (s.stepNode s.walk.node d) := by
  obtain ⟨w, hnode, hbyte, hbit, hrun⟩ := runOn_atDigit hd h hr
  generalize hu : s.onward [] s.acc w [.bits (j / 8) (7 - j % 8 + 1)] = u at hrun
  have hdigit : u.walkDigit = d := by
    rw [← hr.digit, ← hbyte, ← hbit, ← hu]
    rfl
  have hwalk : walkOn (j / 8) u.walkDigit u = .ok () (u.walkTo (s.stepNode s.walk.node d)) := by
    rw [hdigit, ← hnode, ← hu]
    exact walkOn_ok_eq hok
  obtain ⟨new, t, hat, harr⟩ := atNode_arrived (u.walkTo (s.stepNode s.walk.node d)).nextBit (j / 8) (7 - j % 8)
  have hjob : Job.run (.bits (j / 8) (7 - j % 8 + 1)) u = .ok new t := by
    change decodeBit _ _ u = _
    rw [decodeBit, Cmd.get_bind, Cmd.bind_of_ok hwalk, Cmd.update_bind, hat]
  have hgoes : u.runOn = State.runOn { t with todo := new ++ [] } :=
    runOn_goes (progress_of_ok (hu ▸ rfl : u.todo = [.bits (j / 8) (7 - j % 8 + 1)]) hjob)
  rw [List.append_nil, harr] at hgoes
  refine ⟨⟨s.stepNode s.walk.node d, w.byte, w.bit - 1#3⟩, j / 8, 7 - j % 8, rfl, ⟨by omega, by omega,
    fun hn => ⟨hr.inside, hbyte, ?_⟩⟩, hrun.trans (hgoes.trans ?_)⟩
  · have h1 : (w.bit - 1#3).toNat = w.bit.toNat - 1 := BitVec.toNat_sub_of_le (by
      rw [BitVec.le_def, hbit]; exact hn)
    rw [h1, hbit]
    omega
  · rw [← hu]
    rfl

/-- On a one-leaf tree a "1" is no code (45_bitstream.md R177). -/
theorem runOn_badCode (hd : s.DmaOk) (h : s.AtDigit j) (hr : s.ReadsDigit j true)
    (hl : (s.nodeAt s.tree.root.toNat).leaf = true) :
    s.runOn = .next (s.finishError .badCode (BitVec.ofNat 32 (j / 8))) := by
  obtain ⟨w, -, hbyte, hbit, hrun⟩ := runOn_atDigit hd h hr
  generalize hu : s.onward [] s.acc w [.bits (j / 8) (7 - j % 8 + 1)] = u at hrun
  have hdigit : u.walkDigit = true := by
    rw [← hr.digit, ← hbyte, ← hbit, ← hu]
    rfl
  have hjob : Job.run (.bits (j / 8) (7 - j % 8 + 1)) u = .error (.error .badCode (BitVec.ofNat 32 (j / 8))) u := by
    change decodeBit _ _ u = _
    rw [decodeBit, Cmd.get_bind, hdigit, Cmd.bind_of_error (walkOn_badCode (hu ▸ hl))]
  rw [hrun, runOn_ends (progress_of_error (hu ▸ rfl : u.todo = [.bits (j / 8) (7 - j % 8 + 1)]) hjob), ← hu]
  rfl

/-- Where the walk comes to an internal node the next digit is walked (45_bitstream.md R176). -/
theorem State.ComesTo.inner (h : s.ComesTo j node) (hl : (s.nodeAt node.toNat).leaf = false) :
    ∃ w l, w.node = node ∧ (s.onward [] s.acc w l).AtDigit j ∧ s.runOn = (s.onward [] s.acc w l).runOn := by
  obtain ⟨w, p, m, rfl, hholds, hrun⟩ := h
  rw [State.arrived, if_neg (by rw [hl]; exact Bool.false_ne_true)] at hrun
  exact ⟨w, _, rfl, .bit p m j rfl ⟨hholds.left, hholds.place, hholds.loaded⟩, hrun⟩

/-- Where the walk comes to END_OF_TEXT's leaf the decode stops, SRC_POS after the byte with the last digit (45_bitstream.md
R176, R178). -/
theorem State.ComesTo.endOfText (h : s.ComesTo j node) (hl : (s.nodeAt node.toNat).leaf = true)
    (hs : (s.nodeAt node.toNat).sym.toNat = Config.endOfText) :
    s.runOn = .next (s.stopDecode ((j + 7) / 8)).finish := by
  obtain ⟨w, p, m, rfl, hholds, hrun⟩ := h
  have hplace := hholds.place
  have hleft := hholds.left
  have hp : p + 1 = (j + 7) / 8 := by omega
  rw [State.arrived, if_pos hl, if_pos hs, hp] at hrun
  rw [hrun]
  exact runOn_ends (progress_of_nil rfl)

/-- Where the walk comes to a literal's leaf the literal is left to emit (45_bitstream.md R176). -/
theorem State.ComesTo.literal {b : Byte} (h : s.ComesTo j node) (hl : (s.nodeAt node.toNat).leaf = true)
    (hs : (s.nodeAt node.toNat).sym.toNat = b.toNat) :
    ∃ w p m, s.Holds w j p m ∧ s.runOn = (s.onward [] s.acc w [.emit [b], .toRoot, .bits p m]).runOn := by
  obtain ⟨w, p, m, rfl, hholds, hrun⟩ := h
  have hne : ¬ (s.nodeAt w.node.toNat).sym.toNat = Config.endOfText := by
    rw [hs]
    exact (b.isLt.trans_le (by decide)).ne
  have hb : (s.nodeAt w.node.toNat).sym.setWidth 8 = b :=
    BitVec.eq_of_toNat_eq (by rw [BitVec.toNat_setWidth, hs, Nat.mod_eq_of_lt b.isLt])
  rw [State.arrived, if_pos hl, if_neg hne, hb] at hrun
  exact ⟨w, p, m, hholds, hrun⟩

/-- A literal that is taken is written, and the walk goes back to the root (45_bitstream.md R176, 44_table_serializer.md
R151). -/
theorem State.ComesTo.taken {b : Byte} (h : s.ComesTo j node) (hl : (s.nodeAt node.toNat).leaf = true)
    (hs : (s.nodeAt node.toNat).sym.toNat = b.toNat) (hd : s.DmaOk) (ht : s.Takes 1) :
    ∃ w l, w.node = s.tree.root ∧ (s.onward [b] s.acc w l).AtDigit j ∧
      s.runOn = (s.onward [b] s.acc w l).runOn := by
  obtain ⟨w, p, m, hholds, hrun⟩ := h.literal hl hs
  have hemit := (emits_emit rfl (hd.onward [] s.acc w [.emit [b], .toRoot, .bits p m])).goes ⟨ht.room, ht.answers⟩
  rw [onward_onward] at hemit
  have hroot : (s.onward [b] s.acc w [.toRoot, .bits p m]).runOn =
      (s.onward [b] s.acc { w with node := s.tree.root } [.bits p m]).runOn :=
    runOn_goes (progress_of_ok (j := .toRoot) (new := []) rfl rfl)
  have hholds' := hholds.onward (bs := [b]) (acc := s.acc) (w' := { w with node := s.tree.root }) (l := [.bits p m]) hd ht
  exact ⟨{ w with node := s.tree.root }, [.bits p m], rfl,
    .bit p m j rfl ⟨hholds'.left, hholds'.place, hholds'.loaded⟩, hrun.trans (hemit.trans hroot)⟩

/-- A literal that is refused ends the command (44_table_serializer.md R151, 20_memory.md R87). -/
theorem State.ComesTo.refused {b : Byte} {code : ErrCode} {info : Word} (h : s.ComesTo j node)
    (hl : (s.nodeAt node.toNat).leaf = true) (hs : (s.nodeAt node.toNat).sym.toNat = b.toNat) (hd : s.DmaOk)
    (he : s.Refuses 0 code info) : s.runOn = .next (s.finishError code info) := by
  obtain ⟨w, p, m, -, hrun⟩ := h.literal hl hs
  have he' := he.onward (k := 0) (bs := []) (acc := s.acc) (w := w) (l := [.emit [b], .toRoot, .bits p m]) (takes_zero s)
  have hemits := emits_emit rfl (hd.onward [] s.acc w [.emit [b], .toRoot, .bits p m])
  exact hrun.trans (hemits.stops Nat.zero_lt_one (takes_zero _) he')

theorem State.ComesTo.of_runOn {l : List Job} (hrun : s.runOn = (s.onward [] s.acc w l).runOn)
    (h : (s.onward [] s.acc w l).ComesTo j node) : s.ComesTo j node := by
  obtain ⟨w', p, m, hw, hholds, hr⟩ := h
  exact ⟨w', p, m, hw, ⟨hholds.left, hholds.place, hholds.loaded⟩, hrun.trans hr⟩

end Walk

end Sys2Proof.Machine
end

section
/-! SUPPORT. DECODE_PAYLOAD: the walk on the codes of source bytes and on END_OF_TEXT's, and how the command ends
(45_bitstream.md R175 to R179). -/

namespace Sys2Proof.Machine

/-! ### The walk on a code -/

/-- On a one-leaf tree the leaf is that of every symbol present (43_code_deriver.md R142). -/
theorem State.TreeOk.sym_of_root_leaf {c : State} {i : Nat} (h : c.TreeOk) (hl : (c.nodeAt c.tree.root.toNat).leaf = true)
    (hi : (c.freqAt i).valid = true) : (c.nodeAt c.tree.root.toNat).sym.toNat = i := by
  obtain ⟨n, -, hn, rfl⟩ := h.exists_leaf hi
  have hone := h.root_leaf_iff.1 hl
  have hroot := h.root
  have hlt := h.leaf_iff.1 hn
  obtain rfl : n = c.tree.root.toNat := by omega
  rfl

/-- DECODE_PAYLOAD is at the root of the tree of `c`, and digit `j` of its source is the next to be walked (45_bitstream.md
R175, R176). -/
structure State.DecodesAt (s c : State) (j : Nat) : Prop where
  dma : s.DmaOk
  node : s.node = c.node
  tree : s.tree = c.tree
  atDigit : s.AtDigit j
  atRoot : s.walk.node = s.tree.root

section Codes
variable {s c : State} {i j n : Nat} {d : Bool} {ds : List Bool} {b : Byte} {code : ErrCode} {info : Word}

theorem stepNode_toNat (hr : (s.nodeAt s.tree.root.toNat).leaf = false) (n : BitVec 10) (d : Bool) :
    (s.stepNode n d).toNat = s.childOf n.toNat d := by
  rw [State.stepNode, if_neg (by rw [hr]; exact Bool.false_ne_true), State.childOf]
  cases d <;> rfl

/-- Digits that lead to a symbol's leaf take the walk there (43_code_deriver.md R141, 45_bitstream.md R176). -/
theorem comesTo_leadsTo : ∀ (ds : List Bool) {s : State} {d : Bool} {j : Nat},
    (s.nodeAt s.tree.root.toNat).leaf = false → s.DmaOk → s.AtDigit j → s.LeadsTo i s.walk.node.toNat (d :: ds) →
    s.ReadsDigits j (d :: ds) →
    ∃ node, (s.nodeAt node.toNat).leaf = true ∧ (s.nodeAt node.toNat).sym.toNat = i ∧ s.ComesTo (j + ds.length + 1) node
  | ds, s, d, j, hr, hd, hat, ⟨_, hlead⟩, hdig => by
    have hstep := comesTo_digit hd hat hdig.head fun hl => absurd (hr.symm.trans hl) Bool.false_ne_true
    rw [← stepNode_toNat hr] at hlead
    cases ds with
    | nil =>
      obtain ⟨hleaf, hsym⟩ := hlead
      exact ⟨_, hleaf, hsym, hstep⟩
    | cons d' ds =>
      obtain ⟨w, l, hw, hat', hrun⟩ := hstep.inner hlead.1
      rw [← hw, ← leadsTo_congr (s := s) (t := s.onward [] s.acc w l) rfl] at hlead
      obtain ⟨node, hleaf, hsym, hcomes⟩ := comesTo_leadsTo ds (s := s.onward [] s.acc w l) hr (hd.onward [] _ _ _) hat'
        hlead (hdig.tail.onward (bs := []) hd (takes_zero _))
      have hlen : j + (d' :: ds).length + 1 = j + 1 + ds.length + 1 := by rw [List.length_cons]; omega
      exact ⟨node, hleaf, hsym, hlen ▸ .of_runOn hrun hcomes⟩

/-- A symbol's code takes the walk from the root to the symbol's leaf, on a one-leaf tree too (45_bitstream.md R176, R177). -/
theorem State.DecodesAt.comesTo (h : s.DecodesAt c j) (ht : c.TreeOk) (hc : c.CodesOk) (hv : (c.codeAt i).valid = true)
    (hdig : s.ReadsDigits j (c.codeAt i).digits) :
    ∃ node, (s.nodeAt node.toNat).leaf = true ∧ (s.nodeAt node.toNat).sym.toNat = i ∧
      s.ComesTo (j + (c.codeAt i).digits.length) node := by
  have hnodes : ∀ n, s.nodeAt n = c.nodeAt n := nodeAt_congr h.node
  have hroot : s.nodeAt s.tree.root.toNat = c.nodeAt c.tree.root.toNat := by rw [hnodes, h.tree]
  cases hl : (c.nodeAt c.tree.root.toNat).leaf with
  | true =>
    have hone := hc.oneLeaf i hv hl
    rw [hone] at hdig ⊢
    have hstep := comesTo_digit h.dma h.atDigit hdig.head fun _ => rfl
    have hnode : s.stepNode s.walk.node false = s.tree.root := if_pos (hroot ▸ hl)
    rw [hnode] at hstep
    exact ⟨s.tree.root, hroot ▸ hl, hroot ▸ ht.sym_of_root_leaf hl (hc.present i ▸ hv), hstep⟩
  | false =>
    have hlead : s.LeadsTo i s.walk.node.toNat (c.codeAt i).digits := by
      rw [leadsTo_congr h.node, h.atRoot, h.tree]
      exact hc.paths i hv hl
    have hlen : 0 < (c.codeAt i).digits.length := by
      have := (hc.length i hv).1
      rwa [CodeEntry.digits, List.length_map, List.length_range]
    obtain ⟨d, ds, hds⟩ := List.exists_cons_of_length_pos hlen
    rw [hds] at hlead hdig ⊢
    exact comesTo_leadsTo ds (hroot ▸ hl) h.dma h.atDigit hlead hdig

/-! ### The walk on the codes of bytes -/

/-- END_OF_TEXT's code stops the decode, SRC_POS after the byte with its last digit (45_bitstream.md R176, R178). -/
theorem State.DecodesAt.runOn_endOfText (h : s.DecodesAt c j) (ht : c.TreeOk) (hc : c.CodesOk)
    (hv : (c.codeAt Config.endOfText).valid = true) (hdig : s.ReadsDigits j (c.codeAt Config.endOfText).digits) :
    s.runOn = .next (s.stopDecode ((j + (c.codeAt Config.endOfText).digits.length + 7) / 8)).finish := by
  obtain ⟨node, hleaf, hsym, hcomes⟩ := h.comesTo ht hc hv hdig
  exact hcomes.endOfText hleaf hsym

/-- A literal's code ends the command where the literal is refused (44_table_serializer.md R151, 20_memory.md R87). -/
theorem State.DecodesAt.runOn_refused (h : s.DecodesAt c j) (ht : c.TreeOk) (hc : c.CodesOk)
    (hv : (c.codeAt b.toNat).valid = true) (hdig : s.ReadsDigits j (c.codeAt b.toNat).digits)
    (he : s.Refuses 0 code info) : s.runOn = .next (s.finishError code info) := by
  obtain ⟨node, hleaf, hsym, hcomes⟩ := h.comesTo ht hc hv hdig
  exact hcomes.refused hleaf hsym h.dma he

/-- The codes of bytes that are taken are decoded one after another (45_bitstream.md R176). -/
theorem State.DecodesAt.runOn_codes (ht : c.TreeOk) (hc : c.CodesOk) : ∀ (src : List Byte) {s : State} {j : Nat},
    s.DecodesAt c j → (∀ b ∈ src, (c.codeAt b.toNat).valid = true) → s.ReadsDigits j (c.codeDigits src) →
    s.Takes src.length → ∃ w l, (s.onward src s.acc w l).DecodesAt c (j + (c.codeDigits src).length) ∧
      s.runOn = (s.onward src s.acc w l).runOn
  | [], s, _, h, _, _, _ => ⟨s.walk, s.todo, h, rfl⟩
  | b :: src, s, j, h, hv, hdig, htake => by
    rw [codeDigits_cons, readsDigits_append] at hdig
    obtain ⟨hcode, hrest⟩ := hdig
    have hone : s.Takes 1 := htake.mono (Nat.succ_pos _)
    have htake' : s.Takes ([b].length + src.length) := by rw [List.length_singleton, Nat.add_comm]; exact htake
    obtain ⟨node, hleaf, hsym, hcomes⟩ := h.comesTo ht hc (hv b List.mem_cons_self) hcode
    obtain ⟨w, l, hw, hat, hrun⟩ := hcomes.taken hleaf hsym h.dma hone
    have hnext : (s.onward [b] s.acc w l).DecodesAt c (j + (c.codeAt b.toNat).digits.length) :=
      ⟨h.dma.onward _ _ _ _, h.node, h.tree, hat, hw⟩
    obtain ⟨w', l', hat', hrun'⟩ := runOn_codes ht hc src hnext (fun a ha => hv a (List.mem_cons_of_mem _ ha))
      (hrest.onward h.dma hone) htake'.onward
    rw [onward_onward, Nat.add_assoc, ← List.length_append] at hat'
    rw [onward_onward] at hrun'
    exact ⟨w', l', hat', hrun.trans hrun'⟩

theorem staysInside_congr {t : State} (h : t.node = s.node) : ∀ (p : List Bool) (n : Nat),
    t.StaysInside n p ↔ s.StaysInside n p
  | [], _ => Iff.rfl
  | d :: p, n => by
    simp only [State.StaysInside, State.childOf, nodeAt_congr h, staysInside_congr h p]

/-- Digits that lead to no leaf are walked, and nothing is emitted (45_bitstream.md R176). -/
theorem runOn_staysInside : ∀ (p : List Bool) {s : State} {j : Nat}, (s.nodeAt s.tree.root.toNat).leaf = false →
    s.DmaOk → s.AtDigit j → s.StaysInside s.walk.node.toNat p → s.ReadsDigits j p →
    ∃ w l, (s.onward [] s.acc w l).AtDigit (j + p.length) ∧ s.runOn = (s.onward [] s.acc w l).runOn
  | [], s, _, _, _, hat, _, _ => ⟨s.walk, s.todo, hat, rfl⟩
  | d :: p, s, j, hr, hd, hat, ⟨_, hchild, hstay⟩, hdig => by
    have hstep := comesTo_digit hd hat hdig.head fun hl => absurd (hr.symm.trans hl) Bool.false_ne_true
    rw [← stepNode_toNat hr] at hchild hstay
    obtain ⟨w, l, hw, hat', hrun⟩ := hstep.inner hchild
    rw [← hw, ← staysInside_congr (s := s) (t := s.onward [] s.acc w l) rfl] at hstay
    obtain ⟨w', l', hat'', hrun'⟩ := runOn_staysInside p (s := s.onward [] s.acc w l) hr (hd.onward [] _ _ _) hat' hstay
      (hdig.tail.onward (bs := []) hd (takes_zero _))
    have hlen : j + (d :: p).length = j + 1 + p.length := by rw [List.length_cons]; omega
    exact ⟨w', l', hlen ▸ hat'', hrun.trans hrun'⟩

/-- After digits that lead to no leaf the next byte is read (45_bitstream.md R175). -/
theorem State.DecodesAt.runOn_inside {e : Nat} {p : List Bool} (h : s.DecodesAt c j) (hj : j + p.length = 8 * e)
    (hp : c.StaysInside c.tree.root.toNat p) (hdig : s.ReadsDigits j p) :
    ∃ w, s.runOn = (s.onward [] s.acc w [.decode e]).runOn := by
  cases p with
  | nil =>
    obtain rfl : j = 8 * e := hj
    exact ⟨s.walk, runOn_atDigit_byte h.atDigit⟩
  | cons d p =>
    have hroot : (s.nodeAt s.tree.root.toNat).leaf = false := by
      rw [nodeAt_congr h.node, h.tree]
      exact hp.1
    rw [← staysInside_congr h.node, ← h.tree, ← h.atRoot] at hp
    obtain ⟨w, l, hat, hrun⟩ := runOn_staysInside (d :: p) hroot h.dma h.atDigit hp hdig
    rw [hj] at hat
    have hbyte := runOn_atDigit_byte hat
    rw [onward_onward] at hbyte
    exact ⟨w, hrun.trans hbyte⟩

end Codes

/-! ### The command -/

/-- DECODE_PAYLOAD accepted and past its start checks: DST_LEN is 0, the walk at the root, SRC_POS the first byte to read
(10_state.md R24; 45_bitstream.md R175). -/
def State.decoding (s : State) : State :=
  { (s.accept (encode .decodePayload)).startDst.walkTo s.tree.root with todo := [.decode s.srcPos.toNat] }

section Command
variable {s c : State} {src : List Byte} {code : ErrCode} {info : Word}

theorem exec_decodePayload_begins (hw : s.hostWaits = true) (hp : s.phase = .built ∨ s.phase = .coded)
    (hr : s.RangesOk .decodePayload) : exec .decodePayload s = s.decoding.runOn := by
  have hphase : phaseTooLow .decodePayload s.phase = false := by rcases hp with hp | hp <;> rw [hp] <;> rfl
  rw [exec_past_rangeChecks hw hr hphase, runOn_goes (progress_of_ok (new := [.decode s.srcPos.toNat]) rfl rfl)]
  rfl

theorem decoding_dmaOk (hr : s.RangesOk .decodePayload) : s.decoding.DmaOk :=
  ⟨inRange_le (hr.source rfl).1, inRange_le (hr.dest rfl).1, hr.apart rfl rfl, rfl, rfl⟩

theorem decoding_decodesAt (hr : s.RangesOk .decodePayload) (hn : s.node = c.node) (ht : s.tree = c.tree) :
    s.decoding.DecodesAt c (8 * s.srcPos.toNat) :=
  ⟨decoding_dmaOk hr, hn, ht, .byte _ rfl, rfl⟩

/-- Bytes have room from destination offset 0 on, and host memory answers their writes. -/
theorem decoding_takes {k : Nat} (hk : k ≤ s.dstCap.toNat) (ha : ∀ j, j < k → s.dstReply j = .completes) :
    s.decoding.Takes k := ⟨hk, ha⟩

/-- Bytes that are taken are written and counted from destination offset 0 on. -/
theorem State.Takes.emitted_decoding (h : s.decoding.Takes src.length) : s.Emitted (s.decoding.wroteAll src) 0 src := by
  obtain ⟨hlen, hbytes, hothers⟩ := wroteAll_emitted (s := s.decoding) h.dstLen_lt
  exact ⟨hlen, hbytes, hothers⟩

theorem decoding_failedAfter (h : s.decoding.Takes src.length) (code : ErrCode) (info : Word) :
    s.FailedAfter ((s.decoding.wroteAll src).finishError code info) .decodePayload code info 0 src := by
  obtain ⟨hlen, hbytes, hothers⟩ := h.emitted_decoding
  obtain ⟨m, l, d, hu⟩ := wroteAll_eq src s.decoding
  refine ⟨?_, ⟨hlen, hbytes, hothers⟩, ?_, ?_, ?_⟩
  all_goals rw [hu]
  · constructor <;> rfl
  · constructor <;> rfl
  · constructor <;> rfl
  · rfl

end Command

end Sys2Proof.Machine
end

section
/-! SUPPORT. How DECODE_PAYLOAD ends: by END_OF_TEXT's code, by a byte the destination refuses, by a source byte it cannot
read, or on a one-leaf tree by a "1" (45_bitstream.md R175 to R179, 44_table_serializer.md R151, 20_memory.md R87). -/

namespace Sys2Proof.Machine

/-- DECODE_PAYLOAD passes its start checks in `s`, on the tree of `c`, whose codes are those of that tree (60_exceptions.md
R214; 45_bitstream.md R175). -/
structure State.CanDecode (s c : State) : Prop where
  treeOk : c.TreeOk
  codesOk : c.CodesOk
  node : s.node = c.node
  tree : s.tree = c.tree
  waits : s.hostWaits = true
  phase : s.phase = .built ∨ s.phase = .coded
  ranges : s.RangesOk .decodePayload

section Ends
variable {s c : State} {src bs : List Byte} {ds : List Bool} {a k e : Nat} {code : ErrCode} {info : Word}

/-- Source bytes from offset `a` on that can be read have their bits as digits. -/
theorem decoding_readsDigits (hbs : bs <+: s.srcBytes.drop a) (hc : ∀ k, k < bs.length → s.srcReply (a + k) = .completes) :
    s.decoding.ReadsDigits (8 * a) (bitsOfBytes bs) := by
  refine readsDigits_bitsOfBytes bs a fun k hk => ?_
  have hlen := hbs.length_le
  rw [List.length_drop, length_srcBytes] at hlen
  refine ⟨(by omega : a + k < s.srcLen.toNat), hc k hk, ?_⟩
  rw [hbs.getElem hk, List.getElem_drop]
  exact (Memory.bytes_getElem ..).symm

/-- The codes of bytes that are taken are decoded from the payload's first byte on (45_bitstream.md R175, R176). -/
theorem State.CanDecode.runOn_codes (h : s.CanDecode c) (hv : ∀ b ∈ src, (c.codeAt b.toNat).valid = true)
    (hd : s.decoding.ReadsDigits (8 * s.srcPos.toNat) (c.codeDigits src ++ ds)) (ht : s.decoding.Takes src.length) :
    ∃ w l, let u := s.decoding.onward src [] w l
      exec .decodePayload s = u.runOn ∧ u.DecodesAt c (8 * s.srcPos.toNat + (c.codeDigits src).length) ∧
        u.ReadsDigits (8 * s.srcPos.toNat + (c.codeDigits src).length) ds := by
  obtain ⟨hcodes, hrest⟩ := readsDigits_append.1 hd
  obtain ⟨w, l, hat, hrun⟩ := (decoding_decodesAt h.ranges h.node h.tree).runOn_codes h.treeOk h.codesOk src hv hcodes ht
  exact ⟨w, l, (exec_decodePayload_begins h.waits h.phase h.ranges).trans hrun, hat,
    hrest.onward (decoding_dmaOk h.ranges) ht⟩

/-- A byte that is refused ends DECODE_PAYLOAD, those before it written and counted (44_table_serializer.md R151, 20_memory.md
R87). -/
theorem State.CanDecode.exec_refused (h : s.CanDecode c) (hv : ∀ b ∈ src, (c.codeAt b.toNat).valid = true)
    (hd : s.decoding.ReadsDigits (8 * s.srcPos.toNat) (c.codeDigits src)) (hk : k < src.length) (ht : s.decoding.Takes k)
    (he : s.decoding.Refuses k code info) :
    ∃ t, exec .decodePayload s = .next t ∧ s.FailedAfter t .decodePayload code info 0 (src.take k) := by
  have hlen : (src.take k).length = k := List.length_take_of_le hk.le
  have ht' : s.decoding.Takes (src.take k).length := hlen.symm ▸ ht
  have hsplit : c.codeDigits src = c.codeDigits (src.take k) ++ c.codeDigits (src.drop k) := by
    rw [State.codeDigits, State.codeDigits, State.codeDigits, ← List.flatMap_append, List.take_append_drop]
  rw [List.drop_eq_getElem_cons hk, codeDigits_cons] at hsplit
  obtain ⟨w, l, hexec, hat, hread⟩ := h.runOn_codes (fun b hb => hv b (List.mem_of_mem_take hb)) (hsplit ▸ hd) ht'
  have hstop := hat.runOn_refused h.treeOk h.codesOk (hv _ (List.getElem_mem hk)) (hread.of_prefix (List.prefix_append _ _))
    (State.Refuses.onward (k := 0) ht' (hlen.symm ▸ he))
  exact ⟨_, hexec.trans hstop, decoding_failedAfter ht' code info⟩

/-- A source byte that cannot be read, after the codes of bytes and digits that lead to no leaf, ends DECODE_PAYLOAD
(45_bitstream.md R179, 20_memory.md R87). -/
theorem State.CanDecode.exec_unread {p : List Bool} (h : s.CanDecode c) (hv : ∀ b ∈ src, (c.codeAt b.toNat).valid = true)
    (hp : c.StaysInside c.tree.root.toNat p)
    (hd : s.decoding.ReadsDigits (8 * s.srcPos.toNat) (c.codeDigits src ++ p)) (ht : s.decoding.Takes src.length)
    (hlen : 8 * s.srcPos.toNat + (c.codeDigits src ++ p).length = 8 * e)
    (he : ∀ w l, let u := s.decoding.onward src [] w l
      decodeByte e u = .error (.error code info) u) :
    ∃ t, exec .decodePayload s = .next t ∧ s.FailedAfter t .decodePayload code info 0 src := by
  obtain ⟨w, l, hexec, hat, hread⟩ := h.runOn_codes hv hd ht
  rw [List.length_append, ← Nat.add_assoc] at hlen
  obtain ⟨w', hrun⟩ := hat.runOn_inside hlen hp hread
  rw [onward_onward, List.append_nil] at hrun
  have hstop := runOn_ends (progress_of_error (j := .decode e) (rest := []) rfl (he w' [.decode e]))
  exact ⟨_, hexec.trans (hrun.trans hstop), decoding_failedAfter ht code info⟩

/-- The payload of bytes that are taken is decoded to its end, and DECODE_PAYLOAD completes (45_bitstream.md R176, R178). -/
theorem State.CanDecode.exec_completes (h : s.CanDecode c) (heot : (c.freqAt Config.endOfText).valid = true)
    (hv : ∀ b ∈ src, (c.codeAt b.toNat).valid = true)
    (hd : s.decoding.ReadsDigits (8 * s.srcPos.toNat) (c.payloadDigits src)) (ht : s.decoding.Takes src.length) :
    ∃ w l, exec .decodePayload s =
      .next ((s.decoding.onward src [] w l).stopDecode (s.srcPos.toNat + (c.payload src).length)).finish := by
  obtain ⟨w, l, hexec, hat, hread⟩ := h.runOn_codes hv hd ht
  have hstop := hat.runOn_endOfText h.treeOk h.codesOk ((h.codesOk.present _).trans heot) hread
  have hpos : (8 * s.srcPos.toNat + (c.codeDigits src).length + (c.codeAt Config.endOfText).digits.length + 7) / 8 =
      s.srcPos.toNat + (c.payload src).length := by
    have hlen : (c.payloadDigits src).length =
        (c.codeDigits src).length + (c.codeAt Config.endOfText).digits.length := List.length_append
    rw [payload_eq, length_packedBytes, hlen]
    omega
  rw [hpos] at hstop
  exact ⟨w, l, hexec.trans hstop⟩

end Ends

/-- Settles O43: the payload's bits begin with the codes of the bytes and END_OF_TEXT's, and the walk on them emits the bytes
up to its end or to the one the destination refuses. -/
theorem decodePayloadInvertsThePayload : Obligations.DecodePayloadInvertsThePayload := by
  unfold Obligations.DecodePayloadInvertsThePayload
  intro c s src rest hto hco heot hn htr hv hw hp hr hsrc hans
  have hcan : s.CanDecode c := ⟨hto, hco, hn, htr, hw, hp, hr⟩
  have hd : s.decoding.ReadsDigits (8 * s.srcPos.toNat) (c.payloadDigits src) :=
    (decoding_readsDigits (hsrc ▸ List.prefix_append _ _) hans).of_prefix (prefix_bitsOfBytes_packedBytes _)
  have hcodes : s.decoding.ReadsDigits (8 * s.srcPos.toNat) (c.codeDigits src) := hd.of_prefix (List.prefix_append _ _)
  have hlen : s.srcLen.toNat - s.srcPos.toNat = (c.payload src).length + rest.length := by
    rw [← length_srcBytes, ← List.length_drop, hsrc, List.length_append]
  have fails : ∀ {k code info}, (∃ t, exec .decodePayload s = .next t ∧
      s.FailedAfter t .decodePayload code info 0 (src.take k)) →
      ∃ t, exec .decodePayload s = .next t ∧ t.Failed .decodePayload 0x8#4 code info ∧
        s.Emitted t 0 (src.take k) ∧ t.srcPos = s.srcPos ∧ s.SameSession t ∧ s.SameSetup t :=
    fun ⟨t, he, h⟩ => ⟨t, he, h.failed, h.emitted, h.srcPos, h.session, h.setup⟩
  refine ⟨fun hcap hb => ?fits, fun hcap hb => ?full, fun k hk hcap hb he => ?busError⟩
  case fits =>
    have ht := decoding_takes hcap hb
    obtain ⟨hdst, hbytes, hothers⟩ := ht.emitted_decoding
    obtain ⟨w, l, hexec⟩ := hcan.exec_completes heot hv hd ht
    have hpos : 0 < (c.payload src).length := by
      have heotlen := (hco.length _ ((hco.present _).trans heot)).1
      have hdigits : (c.payloadDigits src).length =
          (c.codeDigits src).length + (c.codeAt Config.endOfText).digits.length := List.length_append
      rw [CodeEntry.digits, List.length_map, List.length_range] at hdigits
      rw [payload_eq, length_packedBytes]
      omega
    have hin : s.srcPos.toNat + (c.payload src).length < 2 ^ 32 := by have := s.srcLen.isLt; omega
    have hextra : decide (s.srcPos.toNat + (c.payload src).length < s.srcLen.toNat) = decide (rest ≠ []) := by
      rw [decide_eq_decide, ← List.length_pos_iff]
      omega
    obtain ⟨m, u, d, hu⟩ := onward_eq s.decoding src [] w l
    have hemit : s.Emitted ((s.decoding.onward src [] w l).stopDecode
        (s.srcPos.toNat + (c.payload src).length)).finish 0 src := ⟨hdst, hbytes, hothers⟩
    refine ⟨_, hexec, ?_, ?_, hemit, ?_, ?_, ?_⟩
    all_goals rw [hu]
    · constructor <;> rfl
    · exact hextra
    · exact (BitVec.toNat_ofNat _ _).trans (Nat.mod_eq_of_lt hin)
    · constructor <;> rfl
    · constructor <;> rfl
  case full =>
    have hfull : s.decoding.Refuses s.dstCap.toNat .dstFull s.dstCap := by
      have := State.Refuses.full (s := s.decoding) (k := s.dstCap.toNat) (Nat.le_add_left _ _)
      rwa [show s.decoding.dstLen.toNat = 0 from rfl, Nat.zero_add, BitVec.ofNat_toNat, BitVec.setWidth_eq] at this
    exact fails (hcan.exec_refused hv hcodes hcap (decoding_takes (Nat.le_refl _) hb) hfull)
  case busError =>
    have hbus : s.decoding.Refuses k .dstBus (s.dstAddr + BitVec.ofNat 32 k) := by
      have := State.Refuses.busError (s := s.decoding) (k := k)
        (by rwa [show s.decoding.dstLen.toNat = 0 from rfl, Nat.zero_add]) he
      rwa [BitVec.ofNat_add, show s.decoding.dstByte = s.dstAddr.toNat from rfl, BitVec.ofNat_toNat,
        BitVec.setWidth_eq] at this
    exact fails (hcan.exec_refused hv hcodes hk (decoding_takes hcap.le hb) hbus)

/-- Settles O44: the walk comes to read a byte past the source's end, or one whose read gets a bus error. -/
theorem decodePayloadOfNothingIsTruncated : Obligations.DecodePayloadOfNothingIsTruncated := by
  unfold Obligations.DecodePayloadOfNothingIsTruncated
  refine ⟨fun s hw hp hr hpos => ?_, fun c s src p e hto hco _ hn htr hv hin hw hp hr hpe he hans hbits hcap hb => ?_⟩
  · have hstop := runOn_ends (progress_of_error (s := s.decoding) (j := .decode s.srcPos.toNat) rfl
      (decodeByte_truncated hpos))
    rw [BitVec.ofNat_toNat, BitVec.setWidth_eq] at hstop
    exact ⟨_, (exec_decodePayload_begins hw hp hr).trans hstop, by constructor <;> rfl, rfl, rfl, rfl,
      by constructor <;> rfl, by constructor <;> rfl⟩
  · have hcan : s.CanDecode c := ⟨hto, hco, hn, htr, hw, hp, hr⟩
    have ht := decoding_takes hcap hb
    have hdma := decoding_dmaOk hr
    have hbytes : ((s.srcBytes.take e).drop s.srcPos.toNat).length = e - s.srcPos.toNat := by
      rw [List.length_drop, List.length_take, length_srcBytes, Nat.min_eq_left he]
    have hd := decoding_readsDigits (s := s) (List.drop_take .. ▸ List.take_prefix _ _ :
      (s.srcBytes.take e).drop s.srcPos.toNat <+: s.srcBytes.drop s.srcPos.toNat)
      fun k hk => hans _ (Nat.le_add_right _ _) (by omega)
    have hlen : 8 * s.srcPos.toNat + (bitsOfBytes ((s.srcBytes.take e).drop s.srcPos.toNat)).length = 8 * e := by
      rw [length_bitsOfBytes, hbytes]
      omega
    rw [hbits] at hd hlen
    have fails : ∀ {code info}, (∃ t, exec .decodePayload s = .next t ∧
        s.FailedAfter t .decodePayload code info 0 src) →
        ∃ t, exec .decodePayload s = .next t ∧ t.Failed .decodePayload 0x8#4 code info ∧
          s.Emitted t 0 src ∧ t.srcPos = s.srcPos ∧ s.SameSession t ∧ s.SameSetup t :=
      fun ⟨t, he, h⟩ => ⟨t, he, h.failed, h.emitted, h.srcPos, h.session, h.setup⟩
    refine ⟨fun hend => fails (hcan.exec_unread hv hin hd ht hlen fun w l => ?truncated),
      fun hlt hbus => fails (hcan.exec_unread hv hin hd ht hlen fun w l => ?busError)⟩
    case truncated =>
      have herr := decodeByte_truncated (s := s.decoding.onward src [] w l) (p := e) (by
        rw [onward_srcLen]
        exact hend.ge)
      rw [hend, BitVec.ofNat_toNat, BitVec.setWidth_eq] at herr
      exact hend ▸ herr
    case busError =>
      have herr := decodeByte_busError (p := e) (hdma.onward src [] w l) (by rw [onward_srcLen]; exact hlt)
        (by rw [onward_srcReply]; exact hbus)
      rw [onward_srcAddr] at herr
      exact herr

/-- Settles O45: on a one-leaf tree the walk stays at the root, whose leaf is END_OF_TEXT's. -/
theorem oneLeafTreeDecodesOneBit : Obligations.OneLeafTreeDecodesOneBit := by
  unfold Obligations.OneLeafTreeDecodesOneBit
  intro s hw hp hr hin hans hleaf hsym
  have hdma := decoding_dmaOk hr
  have hat : s.decoding.AtDigit (8 * s.srcPos.toNat) := .byte _ rfl
  have hdiv : 8 * s.srcPos.toNat / 8 = s.srcPos.toNat := Nat.mul_div_cancel_left _ (by decide)
  have hdigit : ∀ {d}, (Memory.read s.mem (s.srcAddr.toNat + s.srcPos.toNat)).getLsbD 7 = d →
      s.decoding.ReadsDigit (8 * s.srcPos.toNat) d := fun h => by
    refine ⟨hdiv.symm ▸ hin, hdiv.symm ▸ hans, ?_⟩
    rw [hdiv, Nat.mul_mod_right]
    exact h
  refine ⟨fun h0 => ?zero, fun h1 => ?one⟩
  case zero =>
    have hcomes := comesTo_digit hdma hat (hdigit h0) fun _ => rfl
    have hroot : s.decoding.stepNode s.decoding.walk.node false = s.tree.root := if_pos hleaf
    rw [hroot] at hcomes
    have hstop := hcomes.endOfText hleaf hsym
    have hpos : (8 * s.srcPos.toNat + 1 + 7) / 8 = s.srcPos.toNat + 1 := by omega
    rw [hpos] at hstop
    refine ⟨_, (exec_decodePayload_begins hw hp hr).trans hstop, by constructor <;> rfl, rfl, rfl, ?_, rfl,
      by constructor <;> rfl, by constructor <;> rfl⟩
    change BitVec.ofNat 32 (s.srcPos.toNat + 1) = _
    rw [BitVec.ofNat_add, BitVec.ofNat_toNat, BitVec.setWidth_eq]
  case one =>
    have hstop := runOn_badCode hdma hat (hdigit h1) hleaf
    rw [hdiv, BitVec.ofNat_toNat, BitVec.setWidth_eq] at hstop
    exact ⟨_, (exec_decodePayload_begins hw hp hr).trans hstop, by constructor <;> rfl, rfl, rfl, rfl,
      by constructor <;> rfl, by constructor <;> rfl⟩

end Sys2Proof.Machine
end

section
/-! SUPPORT. COMPRESS followed by DECOMPRESS of its container (45_bitstream.md R180): the stages of both, one after another
(46_session_ops.md R191, R192). -/

namespace Sys2Proof.Machine

/-! ### What the registers decide -/

section Setup
variable {s t : State}

theorem State.SameSetup.hostWaits (h : s.SameSetup t) (hw : s.hostWaits = true) : t.hostWaits = true :=
  (hostWaits_congr h.host).trans hw

theorem State.SameSetup.sourceReady (h : s.SameSetup t) (hs : s.SourceReady) : t.SourceReady where
  inRange := by rw [h.srcAddr, h.srcLen]; exact hs.inRange
  offWindow := by rw [h.mmioBase, h.srcAddr, h.srcLen]; exact hs.offWindow
  answers := by rw [h.srcAddr, h.srcLen]; exact fun k hk => busAt_congr h.bus _ ▸ hs.answers k hk

theorem State.SameSetup.destReady (h : s.SameSetup t) (hd : s.DestReady) : t.DestReady where
  inRange := by rw [h.dstAddr, h.dstCap]; exact hd.inRange
  offWindow := by rw [h.mmioBase, h.dstAddr, h.dstCap]; exact hd.offWindow
  answers := by rw [h.dstAddr, h.dstCap]; exact fun k hk => busAt_congr h.bus _ ▸ hd.answers k hk

theorem State.SameSetup.overlaps (h : s.SameSetup t) : Machine.overlaps t = Machine.overlaps s := by
  simp only [Machine.overlaps, h.srcAddr, h.srcLen, h.dstAddr, h.dstCap]

theorem State.SameSetup.srcBytes (h : s.SameSetup t) (hm : t.mem = s.mem) : t.srcBytes = s.srcBytes := by
  rw [State.srcBytes, State.srcBytes, h.srcAddr, h.srcLen, hm]

/-- What is written into the destination leaves a source apart from it (20_memory.md R73). -/
theorem State.SameSetup.srcBytes_of_apart (h : s.SameSetup t) {n : Nat} (ho : Machine.overlaps s = false)
    (hn : n ≤ s.dstCap.toNat) (hm : sameMemoryBut s.dstAddr.toNat n s t) : t.srcBytes = s.srcBytes := by
  rw [State.srcBytes, State.srcBytes, h.srcAddr, h.srcLen]
  refine Memory.bytes_congr fun k hk => hm _ ?_
  simp only [Machine.overlaps, Bool.and_eq_false_iff, decide_eq_false_iff_not] at ho
  omega

theorem canRun_of_ready (i : Instr) (hw : s.hostWaits = true) (hs : s.SourceReady) (hd : s.DestReady)
    (ho : overlaps s = false) : s.CanRun i where
  waits := hw
  ranges := rangesOk_of_ready i hs hd ho
  source _ k hk hn := by cases (hs.answers k hk).symm.trans hn
  dest _ k hk hn := by cases (hd.answers k hk).symm.trans hn

theorem freqEntry_eq : ∀ {e e' : FreqEntry}, e.valid = e'.valid → e.count = e'.count → e = e'
  | ⟨_, _⟩, ⟨_, _⟩, rfl, rfl => rfl

/-- FREQ is its entries. -/
theorem freq_ext (h : ∀ i, t.freqAt i = s.freqAt i) : t.freq = s.freq := by
  refine Vector.ext fun i hi => ?_
  have := h i
  simpa only [State.freqAt, Vector.getElem?_eq_getElem hi, Option.getD_some] using this

theorem payload_congr (h : t.code = s.code) (src : List Byte) : t.payload src = s.payload src := by
  simp only [State.payload, State.payloadDigits, codeAt_congr h]

end Setup

/-- CLEAR completes with the session cleared (46_session_ops.md R190). -/
theorem exec_clear_eq {s : State} (hw : s.hostWaits = true) :
    exec .clear s = .next (s.accept (encode .clear)).sessionClear.finish := by
  rw [exec_past_rangeChecks hw (rangesOk_of_none rfl rfl) rfl, runOn_goes (progress_of_ok (new := []) rfl rfl)]
  exact runOn_ends (progress_of_nil rfl)

/-! ### The stages that make a code table -/

/-- CLEAR, COUNT, BUILD and DERIVE, one after another, go from `s` to `d`: the counts of the source, the tree BUILD makes of
them and its codes (46_session_ops.md R191, R193). -/
structure State.Analysed (s d : State) : Prop where
  stages : ∀ l, runStages (.clear :: .count :: .build :: .derive :: l) s = runStages l d
  setup : s.SameSetup d
  mem : d.mem = s.mem
  phase : d.phase = .coded
  literal : ∀ b : Byte, d.freqAt b.toNat = ⟨s.srcBytes.contains b, BitVec.ofNat 32 (s.srcBytes.count b)⟩
  endOfText : d.freqAt Config.endOfText = ⟨true, 1#32⟩
  treeOk : d.TreeOk
  codesOk : d.CodesOk
  treeOfFreq : ∀ p q : State, p.hostWaits = true → p.phase ≠ .empty → p.freq = d.freq → exec .build p = .next q →
    q.node = d.node ∧ q.tree = d.tree

section Analysed
variable {s d : State}

/-- A source that is ready is analysed (46_session_ops.md R193). -/
theorem exists_analysed (hw : s.hostWaits = true) (hs : s.SourceReady) : ∃ d, s.Analysed d := by
  have hclear := exec_clear_eq hw
  generalize ha : (s.accept (encode .clear)).sessionClear.finish = a at hclear
  have hsa : s.SameSetup a := ha ▸ by constructor <;> rfl
  have hma : a.mem = s.mem := ha ▸ rfl
  have hea : a.err = false := ha ▸ rfl
  obtain ⟨b, hcount, hdone, -, hpb, hlit, heot, -, -, -, hsb, -, -, hmb⟩ :=
    countTalliesTheSource a (hsa.hostWaits hw) (hsa.sourceReady hs)
  have hsb := hsa.trans hsb
  have hpb' : b.phase ≠ .empty := by rw [hpb]; decide
  obtain ⟨c, hbuild, hdone', -, hpc, hfc, htree, -, hsc, -, -, hmc⟩ :=
    buildLaysOutTheTree b (hsb.hostWaits hw) hpb' (by rw [heot])
  have hsc := hsb.trans hsc
  obtain ⟨d, hderive, hdone'', -, hpd, hcodes, hfd, hnd, htd, hsd, -, -, hmd⟩ :=
    deriveGivesEachLeafItsPath c (hsc.hostWaits hw) (.inl hpc) htree
  have hfreq : d.freq = b.freq := hfd.trans hfc
  refine ⟨d, fun l => ?_, hsc.trans hsd, by rw [hmd, hmc, hmb, hma], hpd, fun x => ?_, ?_, htree.congr hfd hnd htd, hcodes,
    fun p q hwp hpp hf hq => ?_⟩
  · rw [runStages_cons_of_done _ hclear hea, runStages_cons_of_done _ hcount hdone.noErr,
      runStages_cons_of_done _ hbuild hdone'.noErr, runStages_cons_of_done _ hderive hdone''.noErr]
  · obtain ⟨hvalid, hcnt⟩ := hlit x
    rw [hsa.srcBytes hma] at hvalid hcnt
    rw [freqAt_congr hfreq, ← hvalid, ← hcnt, BitVec.ofNat_toNat, BitVec.setWidth_eq]
  · rw [freqAt_congr hfreq, heot]
  · obtain ⟨hn, ht⟩ := buildIsDeterminedByFreq p b q c hwp (hsb.hostWaits hw) hpp hpb' (hf.trans hfreq) hq hbuild
    exact ⟨hn.trans hnd.symm, ht.trans htd.symm⟩

/-- Every byte of the source has a code. -/
theorem State.Analysed.coded (h : s.Analysed d) {b : Byte} (hb : b ∈ s.srcBytes) : (d.codeAt b.toNat).valid = true := by
  rw [h.codesOk.present, h.literal]
  exact List.contains_iff_mem.2 hb

/-- A symbol that is not present has no count either. -/
theorem State.Analysed.absent (h : s.Analysed d) {i : Nat} (hi : (d.freqAt i).valid = false) :
    d.freqAt i = FreqEntry.absent := by
  rcases Nat.lt_or_ge i 256 with hlt | hge
  · have hbyte : (BitVec.ofNat 8 i).toNat = i := by rw [BitVec.toNat_ofNat, Nat.mod_eq_of_lt hlt]
    have hlit := h.literal (BitVec.ofNat 8 i)
    rw [hbyte] at hlit
    rw [hlit] at hi ⊢
    have hcontains : s.srcBytes.contains (BitVec.ofNat 8 i) = false := hi
    have hnot : BitVec.ofNat 8 i ∉ s.srcBytes := fun hmem => by
      rw [List.contains_iff_mem.2 hmem] at hcontains
      cases hcontains
    rw [FreqEntry.absent, hcontains, List.count_eq_zero_of_not_mem hnot]
  · rcases Nat.eq_or_lt_of_le hge with rfl | hgt
    · have heot : d.freqAt 256 = ⟨true, 1#32⟩ := h.endOfText
      rw [heot] at hi
      cases hi
    · exact freqAt_of_ge d hgt

end Analysed

/-! ### COMPRESS -/

section Compress
variable {s t d : State}

/-- A list of bytes stands in memory where its two parts stand one after the other. -/
theorem bytes_append {m : List Host.Cell} {a : Nat} {xs ys : List Byte} (hx : Memory.bytes m a xs.length = xs)
    (hy : Memory.bytes m (a + xs.length) ys.length = ys) : Memory.bytes m a (xs ++ ys).length = xs ++ ys := by
  have hsplit : Memory.bytes m a (xs.length + ys.length) =
      Memory.bytes m a xs.length ++ Memory.bytes m (a + xs.length) ys.length := by
    simp only [Memory.bytes, List.range_add, List.map_append, List.map_map, Function.comp_def, Nat.add_assoc]
  rw [List.length_append, hsplit, hx, hy]

/-- What is emitted depends on DST_ADDR and host memory before. -/
theorem State.Emitted.congr {off : Nat} {bs : List Byte} (h : d.Emitted t off bs) (ha : d.dstAddr = s.dstAddr)
    (hm : d.mem = s.mem) : s.Emitted t off bs := by
  obtain ⟨hlen, hbytes, hothers⟩ := h
  rw [ha] at hbytes hothers
  exact ⟨hlen, hbytes, fun x hx => hm ▸ hothers x hx⟩

/-- Bytes emitted after others, where these have left DST_LEN, follow them (44_table_serializer.md R151). -/
theorem State.Emitted.append {u : State} {xs ys : List Byte} (h : s.Emitted t 0 xs) (ha : t.dstAddr = s.dstAddr)
    (h' : t.Emitted u t.dstLen.toNat ys) : s.Emitted u 0 (xs ++ ys) := by
  obtain ⟨hlen, hbytes, hothers⟩ := h
  obtain ⟨hlen', hbytes', hothers'⟩ := h'
  rw [hlen, ha, Nat.zero_add] at hbytes' hothers'
  rw [Nat.add_zero] at hbytes hothers
  refine ⟨?_, bytes_append ?_ hbytes', fun x hx => ?_⟩
  · rw [hlen', hlen, List.length_append, Nat.add_assoc]
  · rw [Nat.add_zero]
    refine (Memory.bytes_congr fun k hk => hothers' _ (.inl ?_)).trans hbytes
    omega
  · rw [List.length_append] at hx
    rw [hothers' x (by omega), hothers x (by omega)]

/-- Stages that come to no error fail in none. -/
theorem not_failed_of_runStages {i : Instr} {l : List Instr} {e : State} (hrun : runStages (i :: l) s = .next t)
    (ht : t.err = false) (he : exec i s = .next e) : e.err = false := by
  refine Bool.eq_false_of_not_eq_true fun herr => ?_
  rw [runStages_cons_of_error _ he herr] at hrun
  cases hrun
  rw [herr] at ht
  cases ht

/-- SERIALIZE that comes to no error has written the table section (44_table_serializer.md R152). -/
theorem emitted_of_serialize {l : List Instr} (hw : s.hostWaits = true) (hp : s.phase ≠ .empty) (hd : s.DestReady)
    (hrun : runStages (.serialize :: l) s = .next t) (ht : t.err = false) :
    ∃ e, runStages l e = .next t ∧ s.Emitted e 0 s.tableSection ∧ s.tableSection.length ≤ s.dstCap.toNat ∧
      s.SameSession e ∧ s.SameSetup e := by
  rcases Nat.lt_or_ge s.dstCap.toNat s.tableSection.length with hfull | hfits
  · obtain ⟨e, he, hfail, -⟩ := serializeStopsWhenTheDestIsFull s hw hp hd hfull
    have herr := not_failed_of_runStages hrun ht he
    rw [hfail.err] at herr
    cases herr
  · obtain ⟨e, he, -, -, hlen, hbytes, hothers, hsession, hsetup, -⟩ :=
      serializeWritesTheTableSection.2 s hw hp hd hfits
    exact ⟨e, runStages_tail hrun ht he, ⟨hlen.trans (Nat.zero_add _).symm, hbytes, hothers⟩, hfits, hsession, hsetup⟩

/-- ENCODE_PAYLOAD that comes to no error has appended the payload (45_bitstream.md R170 to R172). -/
theorem emitted_of_encodePayload (hw : s.hostWaits = true) (hp : s.phase = .coded) (hs : s.SourceReady)
    (hd : s.DestReady) (ho : overlaps s = false) (hv : ∀ b, b ∈ s.srcBytes → (s.codeAt b.toNat).valid = true)
    (hrun : runStages [.encodePayload] s = .next t) (ht : t.err = false) :
    s.Emitted t s.dstLen.toNat (s.payload s.srcBytes) ∧ s.SameSetup t := by
  obtain ⟨fits, full, -⟩ := encodePayloadAppendsThePayload s hw hp hs (inRange_le hd.inRange) hd.offWindow ho hv
  have answers : ∀ j, j < s.dstCap.toNat - s.dstLen.toNat →
      (s.busAt (s.dstAddr.toNat + s.dstLen.toNat + j)).onWrite = .completes := fun j hj => by
    rw [Nat.add_assoc]
    exact hd.answers _ (by omega)
  rcases Nat.lt_or_ge (s.dstCap.toNat - s.dstLen.toNat) (s.payload s.srcBytes).length with hfull | hfits
  · obtain ⟨e, he, hfail, -⟩ := full hfull answers
    have herr := not_failed_of_runStages hrun ht he
    rw [hfail.err] at herr
    cases herr
  · obtain ⟨e, he, -, -, hemit, -, hsetup, -⟩ := fits hfits fun j hj => answers j (hj.trans_le hfits)
    obtain rfl : e = t := Host.Outcome.next.inj (runStages_tail hrun ht he)
    exact ⟨hemit, hsetup⟩

/-- COMPRESS that comes to no error has written the table section and the payload of its source under the codes of the
source's tree (46_session_ops.md R191, 30_encoding.md R95). -/
theorem exec_compress_emitted (hw : s.hostWaits = true) (hs : s.SourceReady) (hd : s.DestReady)
    (ho : overlaps s = false) (hexec : exec .compress s = .next t) (ht : t.err = false) :
    ∃ d, s.Analysed d ∧ s.Emitted t 0 (d.tableSection ++ d.payload s.srcBytes) ∧ s.SameSetup t := by
  obtain ⟨d, h⟩ := exists_analysed hw hs
  have hrun := canRun_of_ready .compress hw hs hd ho
  obtain ⟨r, hstages, hr⟩ := encodeIsItsFourStages.1 s .compress _ List.mem_cons_self hw hrun.ranges
    (hrun.source rfl) hrun.dest
  obtain rfl : { r with cmd := Instr.compress.opcode } = t := Host.Outcome.next.inj (hr.symm.trans hexec)
  have hpd : d.phase ≠ .empty := by rw [h.phase]; decide
  obtain ⟨e, hlast, htable, hfits, hsession, hsetup⟩ := emitted_of_serialize (h.setup.hostWaits hw) hpd
    (h.setup.destReady hd) ((h.stages _).symm.trans hstages) ht
  have hse := h.setup.trans hsetup
  have hsrc : e.srcBytes = s.srcBytes :=
    (hsetup.srcBytes_of_apart (h.setup.overlaps.trans ho) hfits (Nat.add_zero d.dstAddr.toNat ▸ htable.others)).trans
      (h.setup.srcBytes h.mem)
  obtain ⟨hpayload, hsetup'⟩ := emitted_of_encodePayload (hse.hostWaits hw) (hsession.phase.trans h.phase)
    (hse.sourceReady hs) (hse.destReady hd) (hse.overlaps.trans ho)
    (fun b hb => (codeAt_congr hsession.code _).symm ▸ h.coded (hsrc ▸ hb)) hlast ht
  rw [hsrc, payload_congr hsession.code] at hpayload
  obtain ⟨hlen, hbytes, hothers⟩ := (htable.append hsetup.dstAddr hpayload).congr h.setup.dstAddr h.mem
  exact ⟨d, h, ⟨hlen, hbytes, hothers⟩, { hse.trans hsetup' with }⟩

end Compress

/-! ### DECOMPRESS -/

section Decompress
variable {s d u p : State} {src : List Byte} {n : Nat}

/-- PARSE of a table section and its terminator comes to the state with its pairs in FREQ (44_table_serializer.md R156). -/
theorem exec_parse_eq (hw : s.hostWaits = true) (hr : s.RangesOk .parse) (h : TableAt s.srcBytes n)
    (hc : ∀ k, k ≤ 5 * n → s.srcReply k = .completes) :
    exec .parse s = .next (((s.parsing .parse).parseAt n []).endParse (5 * n + 1)).finish := by
  have hin : 5 * n + 1 ≤ s.srcLen.toNat := by rw [← length_srcBytes]; exact h.2.1
  have hread : (s.parsing .parse).CanRead (5 * n + 1) :=
    canRead_parsing (by decide) hr hin fun k hk => hc k (Nat.le_of_lt_succ hk)
  exact (exec_parse_begins hw hr).trans ((runOn_pairs n (hread.mono (Nat.le_succ _)) h.1).trans
    (runOn_keyJob_terminator hread h.2.2))

/-- PARSE of a session's table section leaves its FREQ, where a symbol that is not present has no count (44_table_serializer.md
R159). -/
theorem freq_of_exec_parse (heot : (d.freqAt Config.endOfText).valid = true)
    (habs : ∀ i, (d.freqAt i).valid = false → d.freqAt i = FreqEntry.absent) (hw : s.hostWaits = true)
    (hr : s.RangesOk .parse) (hc : ∀ k, k < d.tableSection.length → s.srcReply k = .completes) {rest : List Byte}
    (hsrc : s.srcBytes = d.tableSection ++ rest) (hexec : exec .parse s = .next p) : p.freq = d.freq := by
  have htable := tableAt_tableSection d rest
  have hlen := length_tableSection d
  have heq := exec_parse_eq hw hr (hsrc ▸ htable) fun k hk => hc k (by omega)
  obtain ⟨t, ht, -, -, -, hfreq, -⟩ := parseInvertsTheTableSection d s rest heot hw hr hc hsrc
  rw [hexec] at ht heq
  cases ht
  have hp : p.freq = tableFreq (d.tableSection ++ rest) d.sectionSyms.length := by
    rw [← hsrc, Host.Outcome.next.inj heq]
    rfl
  refine freq_ext fun i => ?_
  obtain ⟨hvalid, hcount⟩ := hfreq i
  cases hv : (d.freqAt i).valid with
  | true => exact freqEntry_eq hvalid (hcount hv)
  | false =>
    rw [hv] at hvalid
    rw [habs i hv]
    refine freqAt_tableFreq_of_absent _ hp htable.1 fun j hj hs => ?_
    rw [(freqAt_tableFreq_valid_iff hp htable.1).2 ⟨j, hj, hs⟩] at hvalid
    cases hvalid

/-- CLEAR, PARSE and BUILD, one after another, go from `u` to `q`: FREQ and the tree of `d`, SRC_POS after its table section
(46_session_ops.md R192). -/
structure State.Rebuilt (u d q : State) : Prop where
  stages : ∀ l, runStages (.clear :: .parse :: .build :: l) u = runStages l q
  setup : u.SameSetup q
  mem : q.mem = u.mem
  phase : q.phase = .built
  freq : q.freq = d.freq
  node : q.node = d.node
  tree : q.tree = d.tree
  srcPos : q.srcPos.toNat = d.tableSection.length

/-- From the table section of an analysed source its tree is made again (46_session_ops.md R192). -/
theorem State.Analysed.exists_rebuilt (h : s.Analysed d) (hw : u.hostWaits = true) (hr : u.RangesOk .parse)
    (hc : ∀ k, k < d.tableSection.length → u.srcReply k = .completes) {rest : List Byte}
    (hsrc : u.srcBytes = d.tableSection ++ rest) : ∃ q, u.Rebuilt d q := by
  have heot : (d.freqAt Config.endOfText).valid = true := by rw [h.endOfText]
  have hclear := exec_clear_eq hw
  generalize ha : (u.accept (encode .clear)).sessionClear.finish = a at hclear
  have hsa : u.SameSetup a := ha ▸ by constructor <;> rfl
  have hma : a.mem = u.mem := ha ▸ rfl
  have hra : a.RangesOk .parse := ha ▸ ⟨hr.source, hr.dest, hr.apart⟩
  have hca : ∀ k, k < d.tableSection.length → a.srcReply k = .completes := ha ▸ hc
  have hsrca := (hsa.srcBytes hma).trans hsrc
  obtain ⟨p, hparse, hdone, -, hpp, -, -, -, -, hpos, hsp, -, hmp⟩ :=
    parseInvertsTheTableSection d a rest heot (hsa.hostWaits hw) hra hca hsrca
  have hfreq := freq_of_exec_parse heot (fun _ => h.absent) (hsa.hostWaits hw) hra hca hsrca hparse
  have hsp := hsa.trans hsp
  have hpp' : p.phase ≠ .empty := by rw [hpp]; decide
  obtain ⟨q, hbuild, hdone', -, hpq, hfq, -, -, hsq, hposq, -, hmq⟩ :=
    buildLaysOutTheTree p (hsp.hostWaits hw) hpp' (by rw [freqAt_congr hfreq]; exact heot)
  obtain ⟨hnode, htree⟩ := h.treeOfFreq p q (hsp.hostWaits hw) hpp' hfreq hbuild
  refine ⟨q, fun l => ?_, hsp.trans hsq, hmq.trans (hmp.trans hma), hpq, hfq.trans hfreq, hnode, htree, ?_⟩
  · rw [runStages_cons_of_done _ hclear (ha ▸ rfl), runStages_cons_of_done _ hparse hdone.noErr,
      runStages_cons_of_done _ hbuild hdone'.noErr]
  · rw [hposq, hpos]

/-- DECOMPRESS of the table section and the payload of an analysed source writes the bytes of the payload (46_session_ops.md
R192). -/
theorem exec_decompress_emitted (h : s.Analysed d) (hv : ∀ b, b ∈ src → (d.codeAt b.toNat).valid = true)
    (hw : u.hostWaits = true) (hs : u.SourceReady) (hd : u.DestReady) (ho : overlaps u = false)
    (hsrc : u.srcBytes = d.tableSection ++ d.payload src) (hcap : src.length ≤ u.dstCap.toNat) :
    ∃ v, exec .decompress u = .next v ∧ v.Completed .decompress 0x8#4 ∧ v.extraInput = false ∧ u.Emitted v 0 src := by
  have hlen : u.srcLen.toNat = d.tableSection.length + (d.payload src).length := by
    rw [← length_srcBytes, hsrc, List.length_append]
  obtain ⟨q, hq⟩ := h.exists_rebuilt hw (rangesOk_of_sourceReady rfl hs) (fun k hk => hs.answers k (by omega)) hsrc
  have hsq := hq.setup.sourceReady hs
  have hdq := hq.setup.destReady hd
  have hrest : q.srcBytes.drop q.srcPos.toNat = d.payload src ++ [] := by
    rw [hq.srcPos, hq.setup.srcBytes hq.mem, hsrc, List.drop_left, List.append_nil]
  obtain ⟨hfits, -⟩ := decodePayloadInvertsThePayload d q src [] h.treeOk h.codesOk (by rw [h.endOfText]) hq.node hq.tree
    hv (hq.setup.hostWaits hw) (.inl hq.phase) (rangesOk_of_ready _ hsq hdq (hq.setup.overlaps.trans ho)) hrest
    fun k hk => hsq.answers _ (by rw [hq.setup.srcLen, hq.srcPos]; omega)
  rw [hq.setup.dstCap] at hfits
  obtain ⟨r, hdecode, hdone, hextra, hemit, -, -, -⟩ :=
    hfits hcap fun j hj => hdq.answers j (by rw [hq.setup.dstCap]; omega)
  have hstages : runStages [.clear, .parse, .build, .decodePayload] u = .next r := by
    rw [hq.stages, runStages_cons_of_done _ hdecode hdone.noErr, runStages_nil]
  have hrun := canRun_of_ready .decompress hw hs hd ho
  obtain ⟨t, ht, hexec⟩ := encodeIsItsFourStages.1 u .decompress _ (List.mem_cons_of_mem _ List.mem_cons_self) hw
    hrun.ranges (hrun.source rfl) hrun.dest
  obtain rfl : r = t := Host.Outcome.next.inj (hstages.symm.trans ht)
  obtain ⟨hdst, hbytes, hothers⟩ := hemit.congr hq.setup.dstAddr hq.mem
  exact ⟨_, hexec, { hdone with cmd := rfl }, hextra, hdst, hbytes, hothers⟩

end Decompress

/-- Settles O52: COMPRESS has written a table section and the payload under its session's codes, and DECOMPRESS makes the same
tree of the table section and decodes the payload on it. -/
theorem compressThenDecompressIsIdentity : Obligations.CompressThenDecompressIsIdentity := by
  unfold Obligations.CompressThenDecompressIsIdentity
  intro s t u a c hw hs hd ho hexec ht hu hus hud huo hc
  obtain ⟨d, hana, ⟨hlen, hbytes, -⟩, hsetup⟩ := exec_compress_emitted hw hs hd ho hexec ht
  have hlensrc : s.srcBytes.length = s.srcLen.toNat := length_srcBytes s
  rw [Nat.zero_add] at hlen
  have hsrc : u.srcBytes = d.tableSection ++ d.payload s.srcBytes := by
    rw [hu, State.srcBytes]
    change Memory.bytes t.mem t.dstAddr.toNat t.dstLen.toNat = _
    rw [hsetup.dstAddr, hlen]
    exact hbytes
  have hwu : u.hostWaits = true := by
    rw [hu]
    exact hsetup.hostWaits hw
  have hcap : s.srcBytes.length ≤ u.dstCap.toNat := by
    rw [hu, hlensrc]
    exact hc
  obtain ⟨v, hv, hdone, hextra, hlenv, hbytesv, -⟩ :=
    exec_decompress_emitted hana (fun b hb => hana.coded hb) hwu hus hud huo hsrc hcap
  rw [Nat.zero_add] at hlenv
  rw [hlensrc] at hlenv hbytesv
  have haddr : u.dstAddr = a := by rw [hu]
  rw [haddr] at hbytesv
  exact ⟨v, hv, hdone, hextra, BitVec.eq_of_toNat_eq hlenv, hbytesv⟩

end Sys2Proof.Machine
end

section
/-! SUPPORT. The session of a source as a value (46_session_ops.md R193): its counts, the tree of them and its codes. -/

namespace Sys2Proof.Machine

section SessionOf
variable (src : List Byte)

/-- The counts of a source, in a state that is otherwise at reset (41_frequency_counter.md R120, R121). -/
def countsOf : State := State.reset.countedFrom src

theorem countsOf_queue : (countsOf src).queue = [] := by
  rw [countsOf, countedFrom_eq]
  rfl

theorem countsOf_growTree_queue : ∃ r, (countsOf src).growTree.queue = [r] := by
  have heot := countedFrom_freqAt_endOfText State.reset src
  exact growTree_queue (List.ne_nil_of_mem (mem_presentSyms.2 (congrArg FreqEntry.valid heot)))

/-- The session of a source is the tree BUILD grows of its counts, with the codes of that tree. -/
theorem sessionOf_eq {r : Nat} (hr : (countsOf src).growTree.queue = [r]) :
    sessionOf src = ((countsOf src).growTree.setRoot r).dropCodes.deriveCodes.endDerive := by
  have hroot : (countsOf src).growTree.queue.headD 0 = r := by rw [hr]; rfl
  exact congrArg (fun r => ((countsOf src).growTree.setRoot r).dropCodes.deriveCodes.endDerive) hroot

/-- Its codes apart, the session of a source is its grown tree, in phase CODED. -/
theorem sessionOf_sameButCodes {r : Nat} (hr : (countsOf src).growTree.queue = [r]) :
    ∃ code, sessionOf src = { (countsOf src).growTree.setRoot r with code := code, phase := .coded } := by
  obtain ⟨code, h⟩ := deriveCodes_sameButCodes ((countsOf src).growTree.setRoot r).dropCodes
  rw [sessionOf_eq src hr, h]
  generalize (countsOf src).growTree = grown
  exact ⟨code, rfl⟩

theorem sessionOf_phase : (sessionOf src).phase = .coded := rfl

theorem sessionOf_freq : (sessionOf src).freq = (countsOf src).freq := by
  obtain ⟨r, hr⟩ := countsOf_growTree_queue src
  obtain ⟨code, h⟩ := sessionOf_sameButCodes src hr
  rw [h]
  exact growTree_freq (countsOf src)

theorem sessionOf_treeOk : (sessionOf src).TreeOk := by
  obtain ⟨r, hr⟩ := countsOf_growTree_queue src
  obtain ⟨code, h⟩ := sessionOf_sameButCodes src hr
  rw [h]
  exact (setRoot_growTree_treeOk (countsOf_queue src) hr).congr rfl rfl rfl

theorem sessionOf_codesOk : (sessionOf src).CodesOk := by
  obtain ⟨r, hr⟩ := countsOf_growTree_queue src
  have htree := setRoot_growTree_treeOk (countsOf_queue src) hr
  rw [sessionOf_eq src hr]
  exact (deriveCodes_codesOk (s := ((countsOf src).growTree.setRoot r).dropCodes) (htree.congr rfl rfl rfl) rfl).congr
    rfl rfl rfl rfl

theorem sessionOf_freqAt_endOfText : (sessionOf src).freqAt Config.endOfText = ⟨true, 1#32⟩ :=
  (freqAt_congr (sessionOf_freq src) _).trans (countedFrom_freqAt_endOfText State.reset src)

theorem sessionOf_freqAt_literal (b : Byte) :
    (sessionOf src).freqAt b.toNat = ⟨src.contains b, BitVec.ofNat 32 (src.count b)⟩ := by
  have hlit := countedFrom_freqAt_literal State.reset src b
  rw [freqAt_of_replicate (s := State.reset) rfl, FreqEntry.absent, Bool.false_or, BitVec.zero_add] at hlit
  exact (freqAt_congr (sessionOf_freq src) _).trans hlit

/-- A symbol that is not present has no count either. -/
theorem sessionOf_freqAt_absent {i : Nat} (hi : ((sessionOf src).freqAt i).valid = false) :
    (sessionOf src).freqAt i = FreqEntry.absent := by
  rcases Nat.lt_trichotomy i Config.endOfText with hlt | rfl | hgt
  · obtain ⟨b, rfl⟩ : ∃ b : Byte, b.toNat = i := ⟨BitVec.ofNat 8 i, Nat.mod_eq_of_lt hlt⟩
    rw [sessionOf_freqAt_literal] at hi ⊢
    have hcontains : src.contains b = false := hi
    have hnot : b ∉ src := fun hmem => Bool.false_ne_true (hcontains.symm.trans (List.contains_iff_mem.2 hmem))
    rw [FreqEntry.absent, hcontains, List.count_eq_zero_of_not_mem hnot]
  · rw [sessionOf_freqAt_endOfText] at hi
    cases hi
  · exact freqAt_of_ge _ hgt

/-- Every byte of a source has a code in its session. -/
theorem sessionOf_coded {b : Byte} (hb : b ∈ src) : ((sessionOf src).codeAt b.toNat).valid = true := by
  rw [(sessionOf_codesOk src).present, sessionOf_freqAt_literal]
  exact List.contains_iff_mem.2 hb

theorem length_containerOf_eq_add : (containerOf src).length =
    (sessionOf src).tableSection.length + ((sessionOf src).payload src).length := List.length_append

/-- BUILD of the counts of a source, whatever the state they stand in, makes the tree of the source's session
(42_tree_builder.md R136). -/
theorem growTree_setRoot_of_counts {s : State} (hf : s.freq = (sessionOf src).freq) (hq : s.queue = []) :
    ∃ r, s.growTree.queue = [r] ∧ s.growTree.setRoot r =
      { s.dropTree with node := (sessionOf src).node, tree := (sessionOf src).tree, phase := .built } := by
  obtain ⟨r, hr⟩ := countsOf_growTree_queue src
  obtain ⟨code, h⟩ := sessionOf_sameButCodes src hr
  have hgrow := growTree_eq_withArena (hf.trans (sessionOf_freq src)) (hq.trans (countsOf_queue src).symm)
  refine ⟨r, (congrArg State.queue hgrow).trans hr, ?_⟩
  rw [hgrow, h, State.dropTree, hq]
  rfl

end SessionOf

end Sys2Proof.Machine
end

section
/-! SUPPORT. DECOMPRESS of a container (46_session_ops.md R192): the tree is made of the table section, and DECODE_PAYLOAD runs
as the last stage. -/

namespace Sys2Proof.Machine

/-! ### The last stage of a composite -/

/-- A stage that comes to its end, with no jobs of the composite after it, ends the composite as it ends by itself, but for
CMD. Nothing is asked of accesses it does not make (46_session_ops.md R194). -/
theorem runOn_within_of_idle {c : Composite} (hc : c.rest = []) : ∀ (n : Nat) {s t : State}, s.work ≤ n → s.busy = true →
    (∀ j ∈ s.todo, j.isCheck = false) → s.runOn = .next t → t.busy = false →
    (s.within c).runOn = .next { t with cmd := c.cmd }
  | 0, s, _, hn, _, _, _, _ => absurd hn (by unfold State.work; omega)
  | n + 1, s, t, hn, hb, hj, hr, ht => by
    cases hs : s.todo with
    | nil =>
      have hnil : (s.within c).todo = [] := by rw [State.within, hs, hc]; rfl
      obtain rfl : s.finish = t := Host.Outcome.next.inj ((runOn_ends (progress_of_nil hs)).symm.trans hr)
      exact runOn_ends (progress_of_nil hnil)
    | cons j rest =>
      have hw := progress_within hs (hj j (by rw [hs]; exact List.mem_cons_self)) c
      cases hp : s.progress with
      | goes u =>
        rw [hp] at hw
        rw [runOn_goes hp] at hr
        have hwork := progress_work hp
        refine (runOn_goes hw).trans (runOn_within_of_idle hc n (by omega) ((outer_busy true).goes hb hp) ?_ hr ht)
        obtain ⟨j', rest', new, v, hs', hrun, rfl⟩ := progress_goes hp
        intro i hi
        rcases List.mem_append.1 hi with hi | hi
        · exact (Job.run_leaves hrun i hi).1
        · exact hj i (by rw [hs']; exact List.mem_cons_of_mem _ hi)
      | ends u =>
        rw [hp] at hw
        rw [runOn_ends hp] at hr
        cases hr
        exact runOn_ends hw
      | waits =>
        rw [runOn_waits hp] at hr
        cases hr
        rw [hb] at ht
        cases ht
      | fault r => rw [runOn_eq, hp] at hr; cases hr
      | refused r => rw [runOn_eq, hp] at hr; cases hr

/-! ### DECOMPRESS up to its last stage -/

section Decompress
variable {s : State} {src rest : List Byte}

/-- After the terminator SRC_POS is the offset after it, and the jobs after PARSE are left (44_table_serializer.md R156). -/
theorem runOn_keyJob_endsTable {n : Nat} {jobs : List Job} (h : s.CanRead (5 * n + 1))
    (hc : classAt s.srcBytes n = .terminator) :
    (s.parseAt n (keyJob s.srcBytes n :: jobs)).runOn = ((s.parseAt n jobs).endParse (5 * n + 1)).runOn := by
  have hkey : (s.parseAt n (keyJob s.srcBytes n :: jobs)).runOn = (s.parseAt n (.endParse (5 * n + 1) :: jobs)).runOn := by
    refine runOn_parseAt_ok (new := [.endParse (5 * n + 1)]) ((run_keyJob (h.keyByte _)).trans ?_)
    rw [← classAt, hc]
  rw [hkey, runOn_goes (progress_of_ok (new := []) rfl rfl)]
  rfl

/-- BUILD as a stage makes the tree of the source whose counts stand in FREQ (46_session_ops.md R192). -/
theorem runOn_build_of_counts {jobs : List Job} (hs : s.todo = .build :: jobs) (hf : s.freq = (sessionOf src).freq)
    (hq : s.queue = []) : s.runOn = State.runOn { s.dropTree with
      node := (sessionOf src).node, tree := (sessionOf src).tree, phase := .built, todo := jobs } := by
  obtain ⟨r, hr, htree⟩ := growTree_setRoot_of_counts src hf hq
  have hbuild : buildStage s = .ok () (s.growTree.setRoot r) := by
    rw [buildStage, Cmd.update_bind, endBuild, hr]
  rw [htree] at hbuild
  exact runOn_goes (progress_of_ok (new := []) hs (Cmd.bind_of_ok hbuild))

/-- DECOMPRESS where its stage DECODE_PAYLOAD begins: the counts and the tree of a source have been made of its table section,
and SRC_POS is after it (46_session_ops.md R192). -/
def State.treeMade (s : State) (src : List Byte) : State :=
  { s.parsing .decompress with
    freq := (sessionOf src).freq
    node := (sessionOf src).node
    tree := (sessionOf src).tree
    phase := .built
    srcPos := BitVec.ofNat 32 (sessionOf src).tableSection.length
    stage := Instr.decodePayload.opcode
    todo := [.startDecode] }

theorem treeMade_sameSetup (s : State) (src : List Byte) : s.SameSetup (s.treeMade src) := by constructor <;> rfl

/-- BUILD leaves no code valid (42_tree_builder.md R137), and neither does a stage that keeps the session. -/
theorem treeMade_noCodes {t : State} (h : (s.treeMade src).SameSession t) (i : Nat) : (t.codeAt i).valid = false := by
  rw [codeAt_congr h.code, codeAt_of_replicate rfl]
  rfl

theorem treeMade_srcPos (s : State) (src : List Byte) :
    (s.treeMade src).srcPos.toNat = (sessionOf src).tableSection.length := by
  obtain ⟨-, -, hle⟩ := tableSectionLength (sessionOf src)
  exact Nat.mod_eq_of_lt (by omega)

/-- DECOMPRESS of a source that begins with the table section of some bytes comes to its stage DECODE_PAYLOAD, whatever host
memory answers after the section (46_session_ops.md R192). -/
theorem exec_decompress_treeMade (hw : s.hostWaits = true) (hr : s.RangesOk .decompress)
    (hsrc : s.srcBytes = (sessionOf src).tableSection ++ rest)
    (hc : ∀ k, k < (sessionOf src).tableSection.length → s.srcReply k = .completes) :
    exec .decompress s = (s.treeMade src).runOn := by
  have htable := tableAt_tableSection (sessionOf src) rest
  have hlen := length_tableSection (sessionOf src)
  rw [← hsrc] at htable
  generalize (sessionOf src).sectionSyms.length = n at htable hlen
  have ⟨hpairs, hinside, hend⟩ := htable
  have hin : 5 * n + 1 ≤ s.srcLen.toNat := by rw [← length_srcBytes]; exact hinside
  have hread := canRead_parsing (by decide) hr hin fun k hk => hc k (by omega)
  have hrp : s.RangesOk .parse := ⟨hr.source, fun h => (by cases h), fun _ h => (by cases h)⟩
  have hfreq : tableFreq s.srcBytes n = (sessionOf src).freq := freq_of_exec_parse
    (by rw [sessionOf_freqAt_endOfText]) (fun _ => sessionOf_freqAt_absent src) hw hrp hc hsrc
    (exec_parse_eq hw hrp htable fun k hk => hc k (by omega))
  have hbegin := (exec_decompress_begins hw hr).trans ((runOn_pairs n (hread.mono (Nat.le_succ _)) hpairs).trans
    (runOn_keyJob_endsTable hread hend))
  rw [hbegin, runOn_goes (progress_of_ok (new := []) rfl rfl), runOn_build_of_counts (src := src) rfl hfreq rfl,
    runOn_goes (progress_of_ok (new := []) rfl rfl), State.treeMade, hlen, ← hfreq]
  rfl

/-- Where DECODE_PAYLOAD as a command of its own comes to its end from there, DECOMPRESS comes to the same, but for CMD
(46_session_ops.md R194). -/
theorem runOn_treeMade {t : State} (hw : s.hostWaits = true) (hr : s.RangesOk .decompress)
    (he : exec .decodePayload (s.treeMade src) = .next t) (ht : t.busy = false) :
    (s.treeMade src).runOn = .next { t with cmd := Instr.decompress.opcode } := by
  have hrq : (s.treeMade src).RangesOk .decodePayload := ⟨hr.source, hr.dest, hr.apart⟩
  rw [exec_past_rangeChecks ((treeMade_sameSetup s src).hostWaits hw) hrq rfl] at he
  refine runOn_within_of_idle (c := ⟨Instr.decompress.opcode, s.donePend, [], []⟩) rfl _ (Nat.le_refl _) rfl
    (fun j hj => ?_) he ht
  obtain rfl := List.mem_singleton.1 hj
  rfl

end Decompress

/-- Settles O51: DECOMPRESS makes the tree of the container's source from the table section, and decodes the payload on it as
DECODE_PAYLOAD by itself does. -/
theorem decompressInvertsTheContainer : Obligations.DecompressInvertsTheContainer := by
  unfold Obligations.DecompressInvertsTheContainer
  intro s src rest hw hr hsrc hread hwrite
  have hlen := length_containerOf_eq_add src
  rw [containerOf, List.append_assoc] at hsrc
  have hexec := exec_decompress_treeMade hw hr hsrc fun k hk => hread k (by omega)
  have hpos := treeMade_srcPos s src
  have hsetup := treeMade_sameSetup s src
  have hdrop : (s.treeMade src).srcBytes.drop (s.treeMade src).srcPos.toNat = (sessionOf src).payload src ++ rest := by
    rw [hpos, hsetup.srcBytes rfl, hsrc, List.drop_left]
  obtain ⟨fits, full, -⟩ := decodePayloadInvertsThePayload (sessionOf src) (s.treeMade src) src rest (sessionOf_treeOk src)
    (sessionOf_codesOk src) (by rw [sessionOf_freqAt_endOfText]) rfl rfl (fun b hb => sessionOf_coded src hb)
    (hsetup.hostWaits hw) (.inl rfl) ⟨hr.source, hr.dest, hr.apart⟩ hdrop
    fun k hk => hread _ (by rw [hpos]; omega)
  refine ⟨fun hcap => ?_, fun hcap => ?_⟩
  · obtain ⟨t, he, hdone, hextra, hemit, hpos', hsession, hsetup'⟩ := fits hcap fun j hj => hwrite j hj (hj.trans_le hcap)
    obtain ⟨hdst, hbytes, hothers⟩ := hemit.congr (s := s) rfl rfl
    refine ⟨_, hexec.trans (runOn_treeMade hw hr he hdone.idle), { hdone with cmd := rfl }, hextra, hsession.phase,
      ⟨hdst, hbytes, hothers⟩, ?_, hsession.freq, hsession.node, hsession.tree, treeMade_noCodes (t := t) hsession,
      { hsetup.trans hsetup' with }⟩
    rw [hlen, ← hpos, ← hpos']
  · obtain ⟨t, he, hfail, hemit, hpos', hsession, hsetup'⟩ := full hcap fun j hj => hwrite j (hj.trans hcap) hj
    obtain ⟨hdst, hbytes, hothers⟩ := hemit.congr (s := s) rfl rfl
    exact ⟨_, hexec.trans (runOn_treeMade hw hr he hfail.idle), { hfail with cmd := rfl }, hsession.phase,
      ⟨hdst, hbytes, hothers⟩, (congrArg BitVec.toNat hpos').trans hpos, hsession.freq, hsession.node, hsession.tree,
      treeMade_noCodes (t := t) hsession, { hsetup.trans hsetup' with }⟩

end Sys2Proof.Machine
end

section
/-! SUPPORT. CLEAR, and the stages ENCODE and COMPRESS begin with: one after another they leave the session of the source
(46_session_ops.md R190, R191, R193). -/

namespace Sys2Proof.Machine

/-! ### The codes of a tree -/

/-- The state `b` with the arena, TREE and the codes of `s`. -/
def State.withCodesOf (b s : State) : State := { b with node := s.node, tree := s.tree, code := s.code }

section Codes
variable (b : State)

theorem codeLeaf_withCodesOf (s : State) (n : Nat) : (b.withCodesOf s).codeLeaf n = b.withCodesOf (s.codeLeaf n) := by
  have hpath : (b.withCodesOf s).path n = s.path n := path_congr (s := s) (t := b.withCodesOf s) rfl rfl n
  have hnode : (b.withCodesOf s).nodeAt n = s.nodeAt n := rfl
  unfold State.codeLeaf
  rw [hnode, hpath]
  split
  · split <;> rfl
  · rfl

theorem codeLeaves_withCodesOf : ∀ (k : Nat) (s : State) (n : Nat),
    (b.withCodesOf s).codeLeaves n k = b.withCodesOf (s.codeLeaves n k)
  | 0, _, _ => rfl
  | k + 1, s, n => by
    rw [State.codeLeaves, State.codeLeaves, codeLeaf_withCodesOf, codeLeaves_withCodesOf k]

/-- The codes DERIVE makes depend on the tree and on the codes it begins with, and on nothing else (43_code_deriver.md
R140). -/
theorem deriveCodes_withCodesOf (s : State) : (b.withCodesOf s).deriveCodes = b.withCodesOf s.deriveCodes := by
  have hroot : (b.withCodesOf s).nodeAt (b.withCodesOf s).tree.root.toNat = s.nodeAt s.tree.root.toNat := rfl
  unfold State.deriveCodes
  rw [hroot]
  split
  · rfl
  · exact codeLeaves_withCodesOf b _ s 0

/-- The session of a source without its codes is its tree, of which DERIVE makes the codes again. -/
theorem deriveCodes_dropCodes_sessionOf (src : List Byte) :
    (sessionOf src).dropCodes.deriveCodes.endDerive = sessionOf src := by
  obtain ⟨r, hr⟩ := countsOf_growTree_queue src
  have heq := sessionOf_eq src hr
  obtain ⟨code, hcode⟩ := sessionOf_sameButCodes src hr
  generalize (countsOf src).growTree.setRoot r = grown at heq hcode
  have hdrop : (sessionOf src).dropCodes = grown.dropCodes := by
    rw [hcode]
    rfl
  rw [hdrop, ← heq]

end Codes

/-! ### The counts of a source -/

/-- The counts of a source depend on FREQ before and on nothing else (41_frequency_counter.md R120). -/
theorem tallies_freq_congr : ∀ (src : List Byte) {s t : State}, t.freq = s.freq →
    (src.foldl State.tally t).freq = (src.foldl State.tally s).freq
  | [], _, _, h => h
  | b :: src, s, t, h => tallies_freq_congr src (s := s.tally b) (t := t.tally b) (by
      simp only [State.tally, State.setFreq, freqAt_congr h, h])

theorem countedFrom_freq_congr {s t : State} (src : List Byte) (h : t.freq = s.freq) :
    (t.countedFrom src).freq = (s.countedFrom src).freq :=
  congrArg (fun f => f.setIfInBounds Config.endOfText ⟨true, 1#32⟩) (tallies_freq_congr src h)

/-! ### The stages, each from where the one before it ended -/

/-- The command `i`, of no effect but on the session, completed with the session of `t`. -/
def State.leftWith (s : State) (i : Instr) (t : State) : State :=
  State.finish { s.accept (encode i) with phase := t.phase, freq := t.freq, node := t.node, tree := t.tree, code := t.code }

section LeftWith
variable (s t : State) (i : Instr)

theorem leftWith_sameSession : t.SameSession (s.leftWith i t) := by constructor <;> rfl

theorem leftWith_sameSetup : s.SameSetup (s.leftWith i t) := by constructor <;> rfl

theorem leftWith_completed : (s.leftWith i t).Completed i (startStage i) where
  idle := rfl
  done := rfl
  noErr := rfl
  errCode := rfl
  errInfo := rfl
  notDropped := rfl
  pending := rfl
  cmd := by cases i <;> rfl
  stage := stageOfWord_encode i
  todo := rfl
  queue := rfl
  acc := rfl
  walk := rfl
  srcTouched := rfl
  dstTouched := rfl
  undo := rfl

end LeftWith

section Stages
variable {s : State} {src : List Byte}

theorem exec_clear_leftWith (hw : s.hostWaits = true) : exec .clear s = .next (s.leftWith .clear State.reset) :=
  exec_clear_eq hw

theorem exec_count_leftWith (hw : s.hostWaits = true) (hs : s.SourceReady) :
    exec .count (s.leftWith .clear State.reset) = .next (s.leftWith .count (countsOf s.srcBytes)) := by
  have hsetup := leftWith_sameSetup s State.reset .clear
  have hfreq : (((s.leftWith .clear State.reset).counting .count).countedFrom s.srcBytes).freq =
      (countsOf s.srcBytes).freq := countedFrom_freq_congr (s := State.reset) s.srcBytes rfl
  rw [exec_count_eq (hsetup.hostWaits hw) (hsetup.sourceReady hs), hsetup.srcBytes rfl, countedFrom_eq, hfreq,
    State.leftWith, countsOf, countedFrom_eq]
  rfl

theorem exec_build_leftWith (hw : s.hostWaits = true) :
    exec .build (s.leftWith .count (countsOf src)) = .next (s.leftWith .build (sessionOf src).dropCodes) := by
  have hwc := (leftWith_sameSetup s (countsOf src) .count).hostWaits hw
  have hpc : (s.leftWith .count (countsOf src)).phase ≠ .empty := fun h => by cases h
  have heot : ((s.leftWith .count (countsOf src)).freqAt Config.endOfText).valid = true :=
    congrArg FreqEntry.valid (countedFrom_freqAt_endOfText State.reset src)
  obtain ⟨r, hr, he⟩ := exec_build_completes hwc hpc (List.ne_nil_of_mem (mem_presentSyms.2 heot))
  obtain ⟨r', hr', htree⟩ := growTree_setRoot_of_counts (s := (s.leftWith .count (countsOf src)).building) src
    (sessionOf_freq src).symm rfl
  obtain rfl : r = r' := List.singleton_inj.1 (hr.symm.trans hr')
  have hfreq : (s.leftWith .count (countsOf src)).freq = (sessionOf src).freq := (sessionOf_freq src).symm
  rw [he, State.builtWith, htree, State.leftWith, State.dropCodes, ← hfreq]
  rfl

theorem exec_derive_leftWith {c : State} (hw : s.hostWaits = true) (hc : c.dropCodes.deriveCodes.endDerive = c) :
    exec .derive (s.leftWith .build c.dropCodes) = .next (s.leftWith .derive c) := by
  have hwb := (leftWith_sameSetup s c.dropCodes .build).hostWaits hw
  have hstart : (s.leftWith .build c.dropCodes).startedDerive.dropCodes =
      (s.leftWith .build c.dropCodes).startedDerive.dropCodes.withCodesOf c.dropCodes := rfl
  rw [exec_derive_eq hwb (.inl rfl), State.derived, hstart, deriveCodes_withCodesOf]
  conv_rhs => rw [← hc]
  obtain ⟨code, hd⟩ := deriveCodes_sameButCodes c.dropCodes
  rw [hd]
  rfl

/-- CLEAR, COUNT, BUILD and DERIVE completed one after another: the session is that of the source (46_session_ops.md R193). -/
def State.analysed (s : State) : State := s.leftWith .derive (sessionOf s.srcBytes)

theorem runStages_analysed (hw : s.hostWaits = true) (hs : s.SourceReady) (l : List Instr) :
    runStages (.clear :: .count :: .build :: .derive :: l) s = runStages l s.analysed := by
  rw [runStages_cons_of_done _ (exec_clear_leftWith hw) rfl, runStages_cons_of_done _ (exec_count_leftWith hw hs) rfl,
    runStages_cons_of_done _ (exec_build_leftWith hw) rfl,
    runStages_cons_of_done _ (exec_derive_leftWith hw (deriveCodes_dropCodes_sessionOf _)) rfl, State.analysed]

theorem analysed_sameSession (s : State) : (sessionOf s.srcBytes).SameSession s.analysed := leftWith_sameSession ..

theorem analysed_sameSetup (s : State) : s.SameSetup s.analysed := leftWith_sameSetup ..

theorem analysed_completed (s : State) : s.analysed.Completed .derive 0x4#4 := leftWith_completed ..

/-- The stages that make a code table leave the registers of the source and the destination, and host memory. -/
theorem analysed_keeps (s : State) : s.analysed.extraInput = false ∧ s.analysed.srcPos = s.srcPos ∧
    s.analysed.dstLen = s.dstLen ∧ s.analysed.mem = s.mem := ⟨rfl, rfl, rfl, rfl⟩

theorem analysed_phase_ne_empty (s : State) : s.analysed.phase ≠ .empty := by
  rw [(analysed_sameSession s).phase, sessionOf_phase]
  decide

end Stages

/-! ### CLEAR and ENCODE -/

/-- Settles O23: CLEAR passes its start check, which asks nothing, and its one job clears the session. -/
theorem clearEmptiesTheSession : Obligations.ClearEmptiesTheSession := by
  unfold Obligations.ClearEmptiesTheSession
  intro s hw
  exact ⟨_, exec_clear_leftWith hw, leftWith_completed s State.reset .clear, rfl,
    ⟨rfl, freqAt_of_replicate rfl, nodeAt_of_replicate rfl, rfl, codeAt_of_replicate rfl⟩,
    leftWith_sameSetup s State.reset .clear, rfl, rfl, rfl⟩

/-- ENCODE is its four stages, but for CMD (46_session_ops.md R193). -/
theorem exec_encode_eq {s : State} (hw : s.hostWaits = true) (hs : s.SourceReady) :
    exec .encode s = .next { s.analysed with cmd := Instr.encode.opcode } := by
  have hsrc : ∀ k, k < s.srcLen.toNat → s.srcReply k ≠ .never := fun k hk hn => by cases (hs.answers k hk).symm.trans hn
  obtain ⟨t, ht, he⟩ := encodeIsItsFourStages.1 s .encode _
    (List.mem_cons_of_mem _ (List.mem_cons_of_mem _ List.mem_cons_self)) hw (rangesOk_of_sourceReady rfl hs) hsrc
    fun h => by cases h
  rw [runStages_analysed hw hs, runStages_nil] at ht
  rw [he, Host.Outcome.next.inj ht]

/-- Settles O46: the stages of ENCODE leave the session of the source, which is a value of its bytes, and nothing else. -/
theorem encodeLeavesTheCodeTable : Obligations.EncodeLeavesTheCodeTable := by
  unfold Obligations.EncodeLeavesTheCodeTable
  intro s hw hs
  have hexec := exec_encode_eq hw hs
  have hsession := analysed_sameSession s
  have hsetup := analysed_sameSetup s
  have hdone := analysed_completed s
  obtain ⟨hextra, hpos, hlen, hmem⟩ := analysed_keeps s
  have hphase := hsession.phase.trans (sessionOf_phase s.srcBytes)
  have htree := (sessionOf_treeOk s.srcBytes).congr hsession.freq hsession.node hsession.tree
  have hcodes := (sessionOf_codesOk s.srcBytes).congr hsession.freq hsession.node hsession.tree hsession.code
  have hfreq := fun i => freqAt_congr hsession.freq i
  generalize s.analysed = d at *
  refine ⟨_, hexec, { hdone with cmd := rfl }, hextra, hphase, fun b => ?_,
    (hfreq _).trans (sessionOf_freqAt_endOfText s.srcBytes), htree.congr rfl rfl rfl, hcodes.congr rfl rfl rfl rfl,
    { hsession with }, { hsetup with }, hpos, hlen, hmem⟩
  have hentry := (hfreq b.toNat).trans (sessionOf_freqAt_literal s.srcBytes b)
  exact ⟨congrArg FreqEntry.valid hentry,
    (congrArg (fun e => e.count.toNat) hentry).trans (Nat.mod_eq_of_lt (count_srcBytes_lt s b))⟩

end Sys2Proof.Machine
end

section
/-! SUPPORT. COMPRESS: the table section and the payload one after the other, and where the destination ends (46_session_ops.md
R191, R196, R197). -/

namespace Sys2Proof.Machine

/-! ### The container and its length -/

section Container
variable (src : List Byte)

/-- The number of distinct bytes of a source (46_session_ops.md R196). -/
def distinctBytes : Nat := ((List.range 256).filter fun b => src.contains (BitVec.ofNat 8 b)).length

/-- The literals present in the session of a source are its bytes (41_frequency_counter.md R120). -/
theorem length_literals_sessionOf : (sessionOf src).literals.length = distinctBytes src := by
  refine congrArg List.length (List.filter_congr fun i hi => ?_)
  obtain ⟨b, rfl⟩ : ∃ b : Byte, b.toNat = i := ⟨BitVec.ofNat 8 i, Nat.mod_eq_of_lt (List.mem_range.1 hi)⟩
  rw [sessionOf_freqAt_literal, BitVec.ofNat_toNat, BitVec.setWidth_eq]

theorem length_tableSection_sessionOf : (sessionOf src).tableSection.length = 5 * (distinctBytes src + 1) + 1 := by
  rw [length_tableSection, length_sectionSyms, length_literals_sessionOf]

/-- The length of the container (46_session_ops.md R196). -/
theorem length_containerOf : (containerOf src).length =
    5 * (distinctBytes src + 1) + 1 + (((sessionOf src).payloadDigits src).length + 7) / 8 := by
  rw [length_containerOf_eq_add, length_tableSection_sessionOf, payload_eq, length_packedBytes]

theorem length_digits_le {i : Nat} (h : ((sessionOf src).codeAt i).valid = true) :
    ((sessionOf src).codeAt i).digits.length ≤ 256 := by
  rw [CodeEntry.digits, List.length_map, List.length_range]
  exact ((sessionOf_codesOk src).length i h).2

/-- No code is longer than 256 digits (43_code_deriver.md R144). -/
theorem length_payloadDigits_le : ((sessionOf src).payloadDigits src).length ≤ 256 * (src.length + 1) := by
  have heot : ((sessionOf src).codeAt Config.endOfText).digits.length ≤ 256 := by
    refine length_digits_le src ?_
    rw [(sessionOf_codesOk src).present, sessionOf_freqAt_endOfText]
  have hcodes : (src.flatMap fun b => ((sessionOf src).codeAt b.toNat).digits).length ≤ src.length * 256 := by
    rw [List.length_flatMap]
    refine (List.sum_le_card_nsmul _ 256 fun n hn => ?_).trans_eq (by rw [List.length_map, smul_eq_mul])
    obtain ⟨b, hb, rfl⟩ := List.mem_map.1 hn
    exact length_digits_le src (sessionOf_coded src hb)
  rw [State.payloadDigits, List.length_append]
  omega

theorem length_containerOf_le : (containerOf src).length ≤ 1286 + 32 * (src.length + 1) := by
  obtain ⟨-, -, htable⟩ := tableSectionLength (sessionOf src)
  have hdigits := length_payloadDigits_le src
  rw [length_containerOf_eq_add, payload_eq, length_packedBytes]
  omega

end Container

/-! ### The stages that write -/

theorem State.SameSession.symm {s t : State} (h : s.SameSession t) : t.SameSession s :=
  ⟨h.phase.symm, h.freq.symm, h.node.symm, h.tree.symm, h.code.symm⟩

theorem tableSection_congr {s t : State} (h : t.freq = s.freq) : t.tableSection = s.tableSection := by
  simp only [State.tableSection, freqAt_congr h, h]

theorem runStages_singleton {i : Instr} {s t : State} (h : exec i s = .next t) : runStages [i] s = .next t := by
  cases he : t.err with
  | false => rw [runStages_cons_of_done _ h he, runStages_nil]
  | true => exact runStages_cons_of_error _ h he

/-- COMPRESS, or its stages one after another, have come from `s` to `t` with the bytes `bs` written from destination offset 0
on; the session is that of the source (46_session_ops.md R191). -/
structure State.Compressing (s t : State) (bs : List Byte) : Prop where
  emitted : s.Emitted t 0 bs
  session : (sessionOf s.srcBytes).SameSession t
  setup : s.SameSetup t
  srcPos : t.srcPos = s.srcPos

section Compress
variable {s e t : State} {bs cs : List Byte}

theorem State.Compressing.withCmd (h : s.Compressing t bs) (c : BitVec 4) : s.Compressing { t with cmd := c } bs := by
  obtain ⟨⟨hlen, hbytes, hothers⟩, hsession, hsetup, hpos⟩ := h
  exact ⟨⟨hlen, hbytes, hothers⟩, { hsession with }, { hsetup with }, hpos⟩

/-- Stages that write `bs` go on from the session of the source. -/
theorem compressing_of_analysed (hemit : s.analysed.Emitted t 0 bs) (hsession : s.analysed.SameSession t)
    (hsetup : s.analysed.SameSetup t) (hpos : t.srcPos = s.analysed.srcPos) : s.Compressing t bs := by
  obtain ⟨-, hpos', -, hmem⟩ := analysed_keeps s
  exact ⟨hemit.congr (analysed_sameSetup s).dstAddr hmem, (analysed_sameSession s).trans hsession,
    (analysed_sameSetup s).trans hsetup, hpos.trans hpos'⟩

theorem State.Compressing.append (h : s.Compressing e bs) (hemit : e.Emitted t e.dstLen.toNat cs)
    (hsession : e.SameSession t) (hsetup : e.SameSetup t) (hpos : t.srcPos = e.srcPos) : s.Compressing t (bs ++ cs) :=
  ⟨h.emitted.append h.setup.dstAddr hemit, h.session.trans hsession, h.setup.trans hsetup, hpos.trans h.srcPos⟩

variable (hw : s.hostWaits = true) (hs : s.SourceReady) (hd : s.DestReady) (ho : overlaps s = false)

section Serialize
include hw hd

/-- SERIALIZE into a destination with room for the table section (44_table_serializer.md R152). -/
theorem exec_serialize_analysed_fits (hfits : (sessionOf s.srcBytes).tableSection.length ≤ s.dstCap.toNat) :
    ∃ e, exec .serialize s.analysed = .next e ∧ e.err = false ∧
      s.Compressing e (sessionOf s.srcBytes).tableSection := by
  have hsetup := analysed_sameSetup s
  have htable := tableSection_congr (analysed_sameSession s).freq
  obtain ⟨e, he, hdone, -, hlen, hbytes, hothers, hsession, hsetup', hpos⟩ := serializeWritesTheTableSection.2 s.analysed
    (hsetup.hostWaits hw) (analysed_phase_ne_empty s) (hsetup.destReady hd) (by rw [htable, hsetup.dstCap]; exact hfits)
  rw [htable] at hlen hbytes hothers
  exact ⟨e, he, hdone.noErr,
    compressing_of_analysed ⟨hlen.trans (Nat.zero_add _).symm, hbytes, hothers⟩ hsession hsetup' hpos⟩

/-- SERIALIZE into a destination with less room than the table section needs (44_table_serializer.md R151, R152). -/
theorem exec_serialize_analysed_full (hfull : s.dstCap.toNat < (sessionOf s.srcBytes).tableSection.length) :
    ∃ t, exec .serialize s.analysed = .next t ∧ t.Failed .serialize 0x5#4 .dstFull s.dstCap ∧
      s.Compressing t ((sessionOf s.srcBytes).tableSection.take s.dstCap.toNat) := by
  have hsetup := analysed_sameSetup s
  have htable := tableSection_congr (analysed_sameSession s).freq
  obtain ⟨t, he, hfail, hlen, hbytes, hothers, hsession, hsetup', hpos⟩ := serializeStopsWhenTheDestIsFull s.analysed
    (hsetup.hostWaits hw) (analysed_phase_ne_empty s) (hsetup.destReady hd) (by rw [htable, hsetup.dstCap]; exact hfull)
  rw [hsetup.dstCap] at hfail hlen hbytes hothers
  rw [htable] at hbytes
  have htake : ((sessionOf s.srcBytes).tableSection.take s.dstCap.toNat).length = s.dstCap.toNat :=
    List.length_take_of_le hfull.le
  refine ⟨t, he, hfail, compressing_of_analysed ⟨?_, ?_, ?_⟩ hsession hsetup' hpos⟩ <;> rw [htake]
  · rw [hlen, Nat.zero_add]
  · exact hbytes
  · exact hothers

end Serialize

include hw hs hd ho

/-- What SERIALIZE and ENCODE_PAYLOAD come to on the session of the source is what COMPRESS comes to, but for CMD
(46_session_ops.md R191). -/
theorem exec_compress_of_stages (ht : runStages [.serialize, .encodePayload] s.analysed = .next t) :
    exec .compress s = .next { t with cmd := Instr.compress.opcode } := by
  have hrun := canRun_of_ready .compress hw hs hd ho
  obtain ⟨u, hu, he⟩ := encodeIsItsFourStages.1 s .compress _ List.mem_cons_self hw hrun.ranges (hrun.source rfl) hrun.dest
  rw [runStages_analysed hw hs, ht] at hu
  rw [he, Host.Outcome.next.inj hu]

/-- What ENCODE_PAYLOAD comes to after the table section: the payload written whole, or as much of it as there is room for
(45_bitstream.md R170 to R172). -/
theorem exec_encodePayload_after_table (hfits : (sessionOf s.srcBytes).tableSection.length ≤ s.dstCap.toNat)
    (h : s.Compressing e (sessionOf s.srcBytes).tableSection) :
    ((containerOf s.srcBytes).length ≤ s.dstCap.toNat →
      ∃ t, exec .encodePayload e = .next t ∧ t.Completed .encodePayload 0x6#4 ∧ t.extraInput = false ∧
        s.Compressing t (containerOf s.srcBytes)) ∧
    (s.dstCap.toNat < (containerOf s.srcBytes).length →
      ∃ t, exec .encodePayload e = .next t ∧ t.Failed .encodePayload 0x6#4 .dstFull s.dstCap ∧
        s.Compressing t ((containerOf s.srcBytes).take s.dstCap.toNat)) := by
  have hde := h.setup.destReady hd
  have hsrc : e.srcBytes = s.srcBytes := h.setup.srcBytes_of_apart ho hfits h.emitted.others
  have hpayload : e.payload e.srcBytes = (sessionOf s.srcBytes).payload s.srcBytes := by
    rw [hsrc, payload_congr h.session.code]
  have hlen : e.dstLen.toNat = (sessionOf s.srcBytes).tableSection.length := h.emitted.dstLen.trans (Nat.zero_add _)
  have hcontainer := length_containerOf_eq_add s.srcBytes
  obtain ⟨fits, full, -⟩ := encodePayloadAppendsThePayload e (h.setup.hostWaits hw) h.session.phase
    (h.setup.sourceReady hs) (inRange_le hde.inRange) hde.offWindow (h.setup.overlaps.trans ho)
    (fun b hb => (codeAt_congr h.session.code _).symm ▸ sessionOf_coded _ (hsrc ▸ hb))
  have answers : ∀ j, j < e.dstCap.toNat - e.dstLen.toNat →
      (e.busAt (e.dstAddr.toNat + e.dstLen.toNat + j)).onWrite = .completes := fun j hj => by
    rw [Nat.add_assoc]
    exact hde.answers _ (by omega)
  rw [hpayload] at fits full
  rw [h.setup.dstCap] at fits full answers
  refine ⟨fun hcap => ?_, fun hcap => ?_⟩
  · obtain ⟨t, he, hdone, hextra, hemit, hsession, hsetup, hpos⟩ := fits (by omega) fun j hj => answers j (by omega)
    exact ⟨t, he, hdone, hextra, h.append hemit hsession hsetup hpos⟩
  · obtain ⟨t, he, hfail, hemit, hsession, hsetup, hpos⟩ := full (by omega) answers
    have htake : (containerOf s.srcBytes).take s.dstCap.toNat = (sessionOf s.srcBytes).tableSection ++
        ((sessionOf s.srcBytes).payload s.srcBytes).take (s.dstCap.toNat - e.dstLen.toNat) := by
      rw [containerOf, List.take_append, List.take_of_length_le hfits, hlen]
    rw [Nat.add_sub_cancel' (hlen ▸ hfits), BitVec.ofNat_toNat, BitVec.setWidth_eq] at hfail
    rw [htake]
    exact ⟨t, he, hfail, h.append hemit hsession hsetup hpos⟩

/-- COMPRESS into a destination with room for the container (46_session_ops.md R191). -/
theorem exec_compress_fits (hcap : (containerOf s.srcBytes).length ≤ s.dstCap.toNat) :
    ∃ t, exec .compress s = .next t ∧ t.Completed .compress 0x6#4 ∧ t.extraInput = false ∧
      s.Compressing t (containerOf s.srcBytes) := by
  have hlen := length_containerOf_eq_add s.srcBytes
  have hfits : (sessionOf s.srcBytes).tableSection.length ≤ s.dstCap.toNat := by omega
  obtain ⟨e, he, herr, h⟩ := exec_serialize_analysed_fits hw hd hfits
  obtain ⟨t, ht, hdone, hextra, hwrote⟩ := (exec_encodePayload_after_table hw hs hd ho hfits h).1 hcap
  have hstages := (runStages_cons_of_done _ he herr).trans (runStages_singleton ht)
  exact ⟨_, exec_compress_of_stages hw hs hd ho hstages, { hdone with cmd := rfl }, hextra, hwrote.withCmd _⟩

/-- COMPRESS into a destination too small for the container, in SERIALIZE or in ENCODE_PAYLOAD (46_session_ops.md R196). -/
theorem exec_compress_full (hcap : s.dstCap.toNat < (containerOf s.srcBytes).length) :
    ∃ t, exec .compress s = .next t ∧
      t.Failed .compress (if s.dstCap.toNat < (sessionOf s.srcBytes).tableSection.length then 0x5#4 else 0x6#4) .dstFull
        s.dstCap ∧
      s.Compressing t ((containerOf s.srcBytes).take s.dstCap.toNat) := by
  split
  · rename_i hfull
    obtain ⟨t, he, hfail, h⟩ := exec_serialize_analysed_full hw hd hfull
    have hstages := runStages_cons_of_error [.encodePayload] he hfail.err
    rw [containerOf, List.take_append_of_le_length hfull.le]
    exact ⟨_, exec_compress_of_stages hw hs hd ho hstages, { hfail with cmd := rfl }, h.withCmd _⟩
  · rename_i hroom
    have hfits := Nat.le_of_not_lt hroom
    obtain ⟨e, he, herr, h⟩ := exec_serialize_analysed_fits hw hd hfits
    obtain ⟨t, ht, hfail, hwrote⟩ := (exec_encodePayload_after_table hw hs hd ho hfits h).2 hcap
    have hstages := (runStages_cons_of_done _ he herr).trans (runStages_singleton ht)
    exact ⟨_, exec_compress_of_stages hw hs hd ho hstages, { hfail with cmd := rfl }, hwrote.withCmd _⟩

/-- COMPRESS that comes to no error has written the container (46_session_ops.md R191). -/
theorem emitted_of_exec_compress (he : exec .compress s = .next t) (ht : t.err = false) :
    s.Emitted t 0 (containerOf s.srcBytes) := by
  rcases Nat.lt_or_ge s.dstCap.toNat (containerOf s.srcBytes).length with hfull | hfits
  · obtain ⟨u, hu, hfail, -⟩ := exec_compress_full hw hs hd ho hfull
    obtain rfl : t = u := Host.Outcome.next.inj (he.symm.trans hu)
    cases ht.symm.trans hfail.err
  · obtain ⟨u, hu, -, -, hwrote⟩ := exec_compress_fits hw hs hd ho hfits
    obtain rfl : t = u := Host.Outcome.next.inj (he.symm.trans hu)
    exact hwrote.emitted

end Compress

/-- Settles O48: with room for the container SERIALIZE and ENCODE_PAYLOAD complete one after the other, from the session ENCODE
leaves. -/
theorem compressWritesTheContainer : Obligations.CompressWritesTheContainer := by
  unfold Obligations.CompressWritesTheContainer
  intro s hw hs hd ho hcap
  obtain ⟨t, he, hdone, hextra, hemit, hsession, hsetup, hpos⟩ := exec_compress_fits hw hs hd ho hcap
  obtain ⟨u, hu, -, -, -, -, -, -, -, hcoded, -⟩ := encodeLeavesTheCodeTable s hw hs
  refine ⟨t, u, he, hdone, hextra, hu, ?_, hemit, hcoded.symm.trans hsession, hsetup, hpos⟩
  rw [containerOf, tableSection_congr hcoded.freq, payload_congr hcoded.code]

/-- Settles O49: the container is the table section, of one pair for each distinct byte, and the packed digits; where the
destination ends in it, COMPRESS stops. -/
theorem compressHasItsLengthOrFills : Obligations.CompressHasItsLengthOrFills := by
  unfold Obligations.CompressHasItsLengthOrFills
  intro s hw hs hd ho p n
  have hn : (containerOf s.srcBytes).length = n := length_containerOf s.srcBytes
  have htable : (sessionOf s.srcBytes).tableSection.length = 5 * (p + 1) + 1 := length_tableSection_sessionOf s.srcBytes
  refine ⟨fun hcap => ?_, fun hcap => ?_, ?_⟩
  · obtain ⟨t, he, hdone, -, hwrote⟩ := exec_compress_fits hw hs hd ho (hn ▸ hcap)
    exact ⟨t, he, hdone, hwrote.emitted.dstLen.trans ((Nat.zero_add _).trans hn)⟩
  · obtain ⟨t, he, hfail, hemit, hsession, hsetup, hpos⟩ := exec_compress_full hw hs hd ho (hn ▸ hcap)
    rw [htable] at hfail
    exact ⟨t, he, hfail, hemit, hsession.phase, hsession, hsetup, hpos⟩
  · rw [← hn, ← length_srcBytes]
    exact length_containerOf_le s.srcBytes

/-- Settles O50: what both write is the container, a value of the source bytes. -/
theorem compressIsDeterministic : Obligations.CompressIsDeterministic := by
  unfold Obligations.CompressIsDeterministic
  intro s s' t t' hw hw' hs hs' hd hd' ho ho' hsrc he he' ht ht'
  obtain ⟨hlen, hbytes, -⟩ := emitted_of_exec_compress hw hs hd ho he ht
  obtain ⟨hlen', hbytes', -⟩ := emitted_of_exec_compress hw' hs' hd' ho' he' ht'
  rw [← hsrc] at hlen' hbytes'
  rw [Nat.zero_add] at hlen hlen'
  refine ⟨BitVec.eq_of_toNat_eq (hlen.trans hlen'.symm), ?_⟩
  rw [hlen, hlen']
  exact hbytes.trans hbytes'.symm

end Sys2Proof.Machine
end

section
/-! SUPPORT. The start checks in the order of 60_exceptions.md R214, and how a command that fails one completes. -/

namespace Sys2Proof.Machine

/-! ### The checks in their order -/

section Checks
variable {s : State} {c d : Cmd Unit} {bad : Bool} {e : Stop}

/-- A check that stops the command where something is `bad`, and what is checked after it. -/
theorem bind_of_check (h : c s = if bad then .error e s else .ok () s) :
    (c >>= fun _ => d) s = if bad then .error e s else d s := by
  cases bad with
  | true => exact Cmd.bind_of_error h
  | false => exact Cmd.bind_of_ok h

theorem needPhase_check {ok : Phase → Bool} {i : Instr} (h : ok s.phase = !phaseTooLow i s.phase) : needPhase ok s =
    if phaseTooLow i s.phase then .error (.error .sequence (0#30 ++ s.phase.code)) s else .ok () s := by
  rw [needPhase_run, h]
  cases phaseTooLow i s.phase <;> rfl

theorem checkSource_check :
    checkSource s = if !inRange s.srcAddr s.srcLen then .error (.error .range 0#32) s else .ok () s := by
  rw [checkSource_run]
  cases inRange s.srcAddr s.srcLen <;> rfl

theorem checkDest_check :
    checkDest s = if !inRange s.dstAddr s.dstCap then .error (.error .range 1#32) s else .ok () s := by
  rw [checkDest_run]
  cases inRange s.dstAddr s.dstCap <;> rfl

end Checks

/-- The start checks of every command, in their order: the phase it needs, the source's range, the destination's, their
overlap, and the refusal of a range that includes the register window (60_exceptions.md R214; 70_reset_and_hazards.md R249,
log 7). -/
theorem startChecks_eq (i : Instr) (s : State) : startChecks i s =
    if phaseTooLow i s.phase then .error (.error .sequence (0#30 ++ s.phase.code)) s
    else if i.readsSource && !inRange s.srcAddr s.srcLen then .error (.error .range 0#32) s
    else if i.writesDest && !inRange s.dstAddr s.dstCap then .error (.error .range 1#32) s
    else if i.readsSource && (i.writesDest && overlaps s) then .error (.error .overlap 0#32) s
    else if i.readsSource && touchesWindow s.mmioBase s.srcAddr s.srcLen then .error (.refuse .dmaIntoWindow) s
    else if i.writesDest && touchesWindow s.mmioBase s.dstAddr s.dstCap then .error (.refuse .dmaIntoWindow) s
    else .ok () s := by
  have source := (bind_of_check (d := refuseWindowSource) checkSource_check).trans
    (if_congr Iff.rfl rfl (refuseWindowSource_run s))
  have dest := (bind_of_check (d := refuseWindowDest) checkDest_check).trans
    (if_congr Iff.rfl rfl (refuseWindowDest_run s))
  have both := (bind_of_check (d := do checkDest; checkOverlap; refuseWindowSource; refuseWindowDest) (s := s)
    checkSource_check).trans <| if_congr Iff.rfl rfl <| (bind_of_check checkDest_check).trans <| if_congr Iff.rfl rfl <|
      (bind_of_check (checkOverlap_run s)).trans <| if_congr Iff.rfl rfl <|
        (bind_of_check (refuseWindowSource_run s)).trans <| if_congr Iff.rfl rfl (refuseWindowDest_run s)
  cases i with
  | clear => rfl
  | count => exact source
  | build => exact needPhase_check (ok := fun p => p.atLeast .counted) (i := .build) (by cases s.phase <;> rfl)
  | derive => exact needPhase_check (ok := fun p => p.atLeast .built) (i := .derive) (by cases s.phase <;> rfl)
  | serialize => exact (bind_of_check (needPhase_check (by cases s.phase <;> rfl))).trans (if_congr Iff.rfl rfl dest)
  | encodePayload => exact (bind_of_check (needPhase_check (by cases s.phase <;> rfl))).trans (if_congr Iff.rfl rfl both)
  | parse => exact source
  | decodePayload => exact (bind_of_check (needPhase_check (by cases s.phase <;> rfl))).trans (if_congr Iff.rfl rfl both)
  | compress => exact both
  | decompress => exact both
  | encode => exact source


/-! ### A command that fails a check -/

section Fails
variable {s t : State} {i : Instr} {code : ErrCode} {info : Word}

/-- A command that fails a start check completes by its error with nothing touched (60_exceptions.md R214). -/
theorem exec_of_check_error (hw : s.hostWaits = true)
    (h : startChecks i (s.accepted i) = .error (.error code info) (s.accepted i)) :
    ∃ t, exec i s = .next t ∧ t.Failed i (startStage i) code info ∧ s.Untouched t := by
  have hjob : Job.run (.check i) (s.accepted i) = .error (.error code info) (s.accepted i) := Cmd.bind_of_error h
  have hcmd : (encode i).extractLsb' 0 4 = i.opcode := by cases i <;> rfl
  refine ⟨_, (exec_eq i s).trans ((if_pos hw).trans
    (runOn_ends (progress_of_error (acceptedJobs_eq_cons s i) hjob))), ?_, ?_⟩
  · constructor
    case cmd => exact hcmd
    case stage => exact stageOfWord_encode i
    all_goals rfl
  · constructor
    case setup => constructor <;> rfl
    case session => constructor <;> rfl
    all_goals rfl

theorem not_inRange {a n : Word} (h : 2 ^ 32 < a.toNat + n.toNat) : inRange a n = false :=
  decide_eq_false (Nat.not_le.2 h)

theorem inRange_of_le {a n : Word} (h : a.toNat + n.toNat ≤ 2 ^ 32) : inRange a n = true := decide_eq_true h

/-- Two ranges overlap exactly when an address is in both (20_memory.md R73). -/
theorem overlaps_iff : overlaps s = true ↔
    ∃ x, rangeHas s.srcAddr s.srcLen x = true ∧ rangeHas s.dstAddr s.dstCap x = true := by
  simp only [overlaps, rangeHas, Bool.and_eq_true, decide_eq_true_eq]
  constructor
  · exact fun h => ⟨max s.srcAddr.toNat s.dstAddr.toNat, by omega, by omega⟩
  · rintro ⟨x, hs, hd⟩
    omega

end Fails

/-- Settles O18: the phase is the first thing checked. -/
theorem sequenceErrorComesFirst : Obligations.SequenceErrorComesFirst := by
  unfold Obligations.SequenceErrorComesFirst
  intro i s hw hp
  exact exec_of_check_error hw ((startChecks_eq i _).trans (if_pos hp))

/-- Settles O19: past the phase, the source's range is checked. -/
theorem sourceRangeErrorComesNext : Obligations.SourceRangeErrorComesNext := by
  unfold Obligations.SourceRangeErrorComesNext
  intro i s hw hp hr hlt
  have hphase : phaseTooLow i (s.accepted i).phase = false := hp
  have hsrc : inRange (s.accepted i).srcAddr (s.accepted i).srcLen = false := not_inRange hlt
  refine exec_of_check_error hw ((startChecks_eq i _).trans ?_)
  rw [hphase, hr, hsrc]
  rfl

/-- Settles O20: past the source's range, where one is read, the destination's is checked. -/
theorem destRangeErrorComesAfterTheSource : Obligations.DestRangeErrorComesAfterTheSource := by
  unfold Obligations.DestRangeErrorComesAfterTheSource
  intro i s hw hp hwr hsrc hlt
  have hphase : phaseTooLow i (s.accepted i).phase = false := hp
  have hdst : inRange (s.accepted i).dstAddr (s.accepted i).dstCap = false := not_inRange hlt
  have hsource : (i.readsSource && !inRange (s.accepted i).srcAddr (s.accepted i).srcLen) = false := by
    cases hr : i.readsSource with
    | false => rfl
    | true => exact congrArg (!·) (inRange_of_le (hsrc hr))
  refine exec_of_check_error hw ((startChecks_eq i _).trans ?_)
  rw [hphase, hsource, hwr, hdst]
  rfl

/-- Settles O21: past both ranges, their overlap is checked. -/
theorem overlapErrorComesLast : Obligations.OverlapErrorComesLast := by
  unfold Obligations.OverlapErrorComesLast
  intro i s hw hp hr hwr hsrc hdst hboth
  have hphase : phaseTooLow i (s.accepted i).phase = false := hp
  have hsource : inRange (s.accepted i).srcAddr (s.accepted i).srcLen = true := inRange_of_le hsrc
  have hdest : inRange (s.accepted i).dstAddr (s.accepted i).dstCap = true := inRange_of_le hdst
  have hoverlap : overlaps (s.accepted i) = true := overlaps_iff.2 hboth
  refine exec_of_check_error hw ((startChecks_eq i _).trans ?_)
  rw [hphase, hr, hwr, hsource, hdest, hoverlap]
  rfl

end Sys2Proof.Machine
end

section
/-! SUPPORT. The interrupt output (60_exceptions.md R216, R217): a completion sets DONE_PEND and leaves INT_EN. -/

namespace Sys2Proof.Machine

section Completion
variable {s t : State}

/-- INT_EN is outer: no job writes it (10_state.md R34). -/
theorem outer_busy_doneIE (b d : Bool) : Outer (fun s => s.busy = b ∧ s.doneIE = d) where
  closed := { draw := fun _ h => h, put := fun _ _ _ _ h => h, bump := fun _ h => h }
  inner := fun _ _ h hs => ⟨h.busy.trans hs.1, h.doneIE.trans hs.2⟩

/-- A command that has completed did so by `finish` or by an error, and either way DONE_PEND is set (60_exceptions.md R212,
R213). -/
theorem raised_of_completed {u : State} (hu : u.busy = true ∧ u.doneIE = s.doneIE) (ht : t.busy = false)
    (h : t = u ∨ t = u.finish ∨ ∃ clears c info, t = u.takeError clears c info) :
    t.donePend = true ∧ t.irq = s.doneIE := by
  obtain ⟨hbusy, hie⟩ := hu
  rcases h with rfl | rfl | ⟨clears, c, info, rfl⟩
  · cases hbusy.symm.trans ht
  · exact ⟨rfl, hie⟩
  · cases clears
    · exact ⟨rfl, hie⟩
    · exact ⟨rfl, hie⟩

/-- A run of the engine that completes its command raises the interrupt if it is enabled (60_exceptions.md R216). -/
theorem raised_of_runOn (hb : s.busy = true) (h : s.runOn = .next t) (ht : t.busy = false) :
    t.donePend = true ∧ t.irq = s.doneIE := by
  obtain ⟨u, hu, hcases⟩ := (outer_busy_doneIE true s.doneIE).drive _ ⟨hb, rfl⟩ h
  exact raised_of_completed hu ht hcases

/-- An access that completes the command likewise (60_exceptions.md R216; log 1). -/
theorem raised_of_oneAccess (hb : s.busy = true) (h : s.oneAccess = .next t) (ht : t.busy = false) :
    t.donePend = true ∧ t.irq = s.doneIE := by
  obtain ⟨u, hu, hcases⟩ := (outer_busy_doneIE true s.doneIE).toAccess _ ⟨hb, rfl⟩ h
  exact raised_of_completed hu ht hcases

end Completion

/-- Settles O56: `irq` is put together from the two flags; a write to INT_STATUS clears DONE_PEND by its bit 0, and every way
of completing sets it. -/
theorem completionRaisesTheInterruptIfEnabled : Obligations.CompletionRaisesTheInterruptIfEnabled := by
  unfold Obligations.CompletionRaisesTheInterruptIfEnabled
  refine ⟨fun s => rfl, fun s v => ?_, fun i s t hw he ht => ?_, fun s t hb h ht => ?_⟩
  · have hwrite := (writableAtAnyTime s v).2.1
    rw [hwrite]
    exact Bool.and_right_comm s.donePend (!v.getLsbD 0) s.doneIE
  · rw [exec_eq, if_pos hw] at he
    exact raised_of_runOn (s := s.accepted i) rfl he ht
  · exact h.elim (fun h => raised_of_oneAccess hb h ht) fun h => raised_of_runOn hb h ht

end Sys2Proof.Machine
end

section
/-! SUPPORT. How a run ends by an error, what an access that fails says of its cause, and what a command that emits bytes
keeps on its way (60_exceptions.md R211, R212; 20_memory.md R73, R87; 44_table_serializer.md R151). -/

namespace Sys2Proof.Machine

/-! ### The job that fails -/

section Run
variable {P : State → Prop} {s t : State}

/-- A run that comes to an error comes to a job that raises it, in a state with all that the jobs before it keep
(60_exceptions.md R212). -/
theorem runOn_error (goes : ∀ u v, P u → u.progress = .goes v → P v) (noErr : ∀ u, P u → u.err = false) (hs : P s)
    (h : s.runOn = .next t) (ht : t.err = true) : ∃ u j rest code info v, P u ∧ u.todo = j :: rest ∧
      j.run u = .error (.error code info) v ∧ t = v.takeError j.clearsOnError code info := by
  have hend := drive_induction (P := P) (Q := fun t => t.err = true → ∃ u j rest code info v, P u ∧
    u.todo = j :: rest ∧ j.run u = .error (.error code info) v ∧ t = v.takeError j.clearsOnError code info) goes
    (fun u v hu he hv => ?_) _ hs h
  · obtain hP | hQ := hend
    · rw [noErr t hP] at ht
      cases ht
    · exact hQ ht
  · obtain ⟨-, rfl⟩ | ⟨j, rest, code, info, w, htodo, hrun, rfl⟩ := progress_ends he
    · cases (noErr u hu).symm.trans hv
    · exact ⟨u, j, rest, code, info, w, hu, htodo, hrun, rfl⟩

/-- STAGE keeps the stage that raised the error (60_exceptions.md R212 item 3). -/
theorem takeError_stage (s : State) (clears : Bool) (code : ErrCode) (info : Word) :
    (s.takeError clears code info).stage = s.stage := by cases clears <;> rfl

end Run

/-! ### Accesses the host leaves alone -/

section Accesses
variable {s t : State} {a : Nat} {b v : Byte} {code : ErrCode} {info : Word}

/-- A byte read of a source the host has not touched is the one host memory holds (20_memory.md R76). -/
theorem memRead_ok_untouched (ht : s.srcTouched = []) (h : memRead a s = .ok b t) : b = Memory.read s.mem a ∧ t = s := by
  obtain ⟨ha, hb, -⟩ := memRead_ok_iff.1 h
  rw [memRead_ok ha hb ht] at h
  cases h
  exact ⟨rfl, rfl⟩

/-- A read raises no error but SRC_BUS (20_memory.md R87). -/
theorem memRead_error_cause (h : memRead a s = .error (.error code info) t) :
    t = s ∧ code = .srcBus ∧ info.toNat = a ∧ (s.busAt a).onRead = .busError := by
  unfold memRead at h
  split at h
  · cases h
  · split at h
    · unfold fetchByte at h
      split at h <;> cases h
    · rename_i ha _ hb
      cases h
      exact ⟨rfl, rfl, Nat.mod_eq_of_lt (Nat.lt_of_not_le ha), hb⟩
    · cases h

/-- A write raises no error but DST_BUS (20_memory.md R87). -/
theorem memWrite_error_cause (h : memWrite a v s = .error (.error code info) t) :
    code = .dstBus ∧ info.toNat = a ∧ (s.busAt a).onWrite = .busError := by
  unfold memWrite at h
  split at h
  · cases h
  · split at h
    · unfold putByte at h
      split at h <;> cases h
    · rename_i ha _ hb
      cases h
      exact ⟨rfl, Nat.mod_eq_of_lt (Nat.lt_of_not_le ha), hb⟩
    · cases h

/-- A byte is emitted into a destination the host has not touched (44_table_serializer.md R151). -/
theorem emit_ok_untouched (ht : s.dstTouched = []) (h : emit v s = .ok () t) :
    s.dstLen.toNat < s.dstCap.toNat ∧ t = s.wrote v := by
  rw [emit, Cmd.get_bind] at h
  split at h
  · rename_i hroom
    refine ⟨hroom, ?_⟩
    obtain ⟨_, u, hw, h⟩ := Cmd.bind_ok_iff.1 h
    cases h
    unfold memWrite at hw
    split at hw
    · cases hw
    · split at hw
      · rw [putByte, ht] at hw
        cases hw
        rfl
      · cases hw
      · cases hw
  · cases h

/-- The cause of an error of `emit`: no room is left, or the write of the next byte gets a bus error (44_table_serializer.md
R151, 20_memory.md R87). -/
inductive State.EmitFails (s : State) : ErrCode → Word → Prop
  | full (h : s.dstCap.toNat ≤ s.dstLen.toNat) : s.EmitFails .dstFull s.dstLen
  | busError (info : Word) (h : s.dstLen.toNat < s.dstCap.toNat) (hi : info.toNat = s.dstByte)
    (hb : (s.busAt s.dstByte).onWrite = .busError) : s.EmitFails .dstBus info

/-- `emit` raises no error but those (44_table_serializer.md R151). -/
theorem emit_error_cause (h : emit v s = .error (.error code info) t) : s.EmitFails code info := by
  rw [emit, Cmd.get_bind] at h
  split at h
  · rename_i hroom
    obtain h | ⟨_, u, -, h⟩ := Cmd.bind_error_iff.1 h
    · obtain ⟨rfl, hi, hb⟩ := memWrite_error_cause h
      exact .busError info hroom hi hb
    · cases h
  · rename_i hroom
    cases h
    exact .full (Nat.le_of_not_lt hroom)

end Accesses

end Sys2Proof.Machine
end

section
/-! SUPPORT. The errors of the stages that emit bytes: SERIALIZE and ENCODE_PAYLOAD, as commands of their own and as the
last stages of COMPRESS (60_exceptions.md R211, 44_table_serializer.md R151, R152, 45_bitstream.md R170, R173, 46_session_ops.md
R191). -/

namespace Sys2Proof.Machine

/-! ### What a stage that emits bytes keeps -/

/-- From `b` a stage has come to `u`: it has written destination bytes and DST_LEN, STAGE and what is left inside the command,
and nothing else; a source apart from the destination reads as in `b` (10_state.md R23; 20_memory.md R73). -/
structure State.Onto (b u : State) : Prop where
  frame : ∃ m l d a w st td,
    u = { b with mem := m, undo := l, dstLen := d, acc := a, walk := w, stage := st, todo := td }
  source : overlaps b = false → ∀ k, k < b.srcLen.toNat →
    Memory.read u.mem (b.srcByte k) = Memory.read b.mem (b.srcByte k)

/-- A command `i` whose stage began in `b` has ended in `t` by an error past its start checks: the error has a cause, and the
session and SRC_POS are as the stage found them (60_exceptions.md R211, 46_session_ops.md R191 to R193). -/
structure State.StageFailed (b : State) (i : Instr) (t : State) : Prop where
  fits : b.ErrorFits t i
  past : ¬ (t.errCode = .sequence ∨ t.errCode = .range ∨ t.errCode = .overlap)
  setup : b.SameSetup t
  session : b.SameSession t
  srcPos : t.srcPos = b.srcPos

section Onto
variable {b u v : State} {i : Instr} {code : ErrCode} {info : Word} {c : Byte}

theorem State.Onto.setup (h : b.Onto u) : b.SameSetup u := by
  obtain ⟨⟨_, _, _, _, _, _, _, rfl⟩, -⟩ := h
  constructor <;> rfl

theorem State.Onto.session (h : b.Onto u) : b.SameSession u := by
  obtain ⟨⟨_, _, _, _, _, _, _, rfl⟩, -⟩ := h
  constructor <;> rfl

theorem State.Onto.srcPos (h : b.Onto u) : u.srcPos = b.srcPos := by
  obtain ⟨⟨_, _, _, _, _, _, _, rfl⟩, -⟩ := h
  rfl

theorem State.Onto.err (h : b.Onto u) : u.err = b.err := by
  obtain ⟨⟨_, _, _, _, _, _, _, rfl⟩, -⟩ := h
  rfl

theorem State.Onto.untouched (h : b.Onto u) : u.srcTouched = b.srcTouched ∧ u.dstTouched = b.dstTouched := by
  obtain ⟨⟨_, _, _, _, _, _, _, rfl⟩, -⟩ := h
  exact ⟨rfl, rfl⟩

theorem State.Onto.srcByte (h : b.Onto u) (k : Nat) : u.srcByte k = b.srcByte k := by
  rw [State.srcByte, State.srcByte, h.setup.srcAddr]

theorem onto_refl (b : State) : b.Onto b := ⟨⟨_, _, _, _, _, _, _, rfl⟩, fun _ _ _ => rfl⟩

/-- The bit buffer, the walk, STAGE and the jobs play no part. -/
theorem State.Onto.set (h : b.Onto u) (d : Word) (a : List Bool) (w : Walk) (st : BitVec 4) (td : List Job) :
    b.Onto { u with dstLen := d, acc := a, walk := w, stage := st, todo := td } := by
  obtain ⟨⟨_, _, _, _, _, _, _, rfl⟩, hsrc⟩ := h
  exact ⟨⟨_, _, _, _, _, _, _, rfl⟩, hsrc⟩

/-- A byte is emitted into the destination, which the source is apart from (20_memory.md R73). -/
theorem State.Onto.emit (h : b.Onto u) (ht : b.dstTouched = []) (he : emit c u = .ok () v) : b.Onto v := by
  have hw := emit_writes he
  have hinside := hw.inside
  rw [h.setup.dstAddr, h.setup.dstCap] at hinside
  refine ⟨?_, fun hapart k hk => ?_⟩
  · obtain ⟨-, rfl⟩ := emit_ok_untouched (h.untouched.2.trans ht) he
    obtain ⟨⟨_, _, _, _, _, _, _, rfl⟩, -⟩ := h
    exact ⟨_, _, _, _, _, _, _, rfl⟩
  · have hsource : rangeHas b.srcAddr b.srcLen (b.srcByte k) = true :=
      Bool.and_eq_true_iff.2 ⟨decide_eq_true (Nat.le_add_right _ _), decide_eq_true (Nat.add_lt_add_left hk _)⟩
    rw [← h.source hapart k hk]
    refine hw.read_other fun hx => Bool.false_ne_true (hapart.symm.trans (overlaps_iff.2 ⟨_, hsource, ?_⟩))
    rw [hx]
    exact hinside

/-- An error of the stage in `u` with a cause ends the command as its rule says (60_exceptions.md R211, R212). -/
theorem State.Onto.stageFailed (h : b.Onto u) (hc : ¬ (code = .sequence ∨ code = .range ∨ code = .overlap))
    (hf : b.ErrorFits (u.finishError code info) i) : b.StageFailed i (u.finishError code info) := by
  refine ⟨hf, hc, ?_, ?_, h.srcPos⟩
  · exact h.setup.trans (by constructor <;> rfl)
  · exact h.session.trans (by constructor <;> rfl)

/-- A byte that the destination refuses (44_table_serializer.md R151, 20_memory.md R87). -/
theorem State.Onto.emit_fails (h : b.Onto u) (hi : i.writesDest = true) (he : u.EmitFails code info) :
    b.StageFailed i (u.finishError code info) := by
  have haddr := h.setup.dstAddr
  have hcap := h.setup.dstCap
  have hbus := busAt_congr h.setup.bus
  cases he with
  | full hfull => exact h.stageFailed (by decide) ⟨hi, rfl, hcap ▸ hfull⟩
  | busError info hroom hinfo hb =>
    rw [State.dstByte, haddr] at hinfo hb
    exact h.stageFailed (by decide) ⟨hi, hcap ▸ hroom, hinfo, hbus _ ▸ hb⟩

theorem State.Onto.emitNext_fails {bs : List Byte} (h : b.Onto u) (hi : i.writesDest = true)
    (hr : emitNext c bs u = .error (.error code info) v) : b.StageFailed i (v.finishError code info) ∧ v = u := by
  obtain he | ⟨_, _, -, he⟩ := Cmd.bind_error_iff.1 hr
  · obtain rfl := emit_error he
    exact ⟨h.emit_fails hi (emit_error_cause he), rfl⟩
  · cases he

/-- A source byte whose read gets a bus error (20_memory.md R87). -/
theorem State.Onto.read_fails (h : b.Onto u) (hi : i.readsSource = true) {k : Nat} (hk : k < b.srcLen.toNat)
    (he : memRead (u.srcByte k) u = .error (.error code info) v) : b.StageFailed i (v.finishError code info) := by
  obtain ⟨rfl, rfl, hinfo, hb⟩ := memRead_error_cause he
  rw [h.srcByte] at hinfo hb
  exact h.stageFailed (by decide) ⟨hi, k, hk, hinfo, busAt_congr h.setup.bus _ ▸ hb⟩

/-- A source byte with no code, those before it having one (45_bitstream.md R173). -/
theorem State.Onto.noCode_fails (h : b.Onto u) (hi : i = .encodePayload ∨ i = .compress) {k : Nat}
    (hk : k < b.srcLen.toNat)
    (hnone : (b.codeAt (Memory.read b.mem (b.srcByte k)).toNat).valid = false)
    (hcodes : ∀ j, j < k → (b.codeAt (Memory.read b.mem (b.srcByte j)).toNat).valid = true) :
    b.StageFailed i (u.finishError .noCode (BitVec.ofNat 32 k)) := by
  have hcode : ∀ a, (u.finishError .noCode (BitVec.ofNat 32 k)).codeAt a = b.codeAt a := codeAt_congr h.session.code
  have hinfo : (u.finishError .noCode (BitVec.ofNat 32 k)).errInfo.toNat = k :=
    Nat.mod_eq_of_lt (hk.trans b.srcLen.isLt)
  refine h.stageFailed (by decide) ⟨hi, hinfo.trans_lt hk, ?_, fun m hm => ?_⟩
  · rw [hcode, hinfo]
    exact hnone
  · rw [hcode]
    exact hcodes m (hinfo ▸ hm)

end Onto

/-! ### Writing the table and the codes -/

/-- The job is one with which the command `i` writes a table section or a payload from `b` on. Where it encodes the source,
each byte before has a code (45_bitstream.md R170, R173; 46_session_ops.md R191). -/
def Job.WritesCodes (b : State) (i : Instr) : Job → Prop
  | .stage i' => i = .compress ∧ i' = .encodePayload
  | .serialize => True
  | .emit _ => True
  | .startEncode => True
  | .encode k n => (i = .encodePayload ∨ i = .compress) ∧ overlaps b = false ∧ k + n = b.srcLen.toNat ∧
      ∀ j, j < k → (b.codeAt (Memory.read b.mem (b.srcByte j)).toNat).valid = true
  | .put _ => True
  | .endOfText => True
  | .pad => True
  | _ => False

/-- The command `i` writes a table section or a payload from `b` on, and has come to `u` (44_table_serializer.md R152,
45_bitstream.md R170). -/
structure State.Writing (b : State) (i : Instr) (u : State) : Prop where
  onto : b.Onto u
  jobs : ∀ j ∈ u.todo, j.WritesCodes b i
  stage : u.stage = b.stage ∨ i = .compress ∧ u.stage = Instr.encodePayload.opcode

section Writing
variable {b u v t : State} {i : Instr} {j : Job} {new rest : List Job} {code : ErrCode} {info : Word}

/-- A job of these stages leaves jobs of theirs. -/
theorem Job.WritesCodes.run (hj : j.WritesCodes b i) (hb : b.srcTouched = [] ∧ b.dstTouched = []) (h : b.Onto u)
    (hr : j.run u = .ok new v) : b.Onto v ∧ ∀ j' ∈ new, j'.WritesCodes b i := by
  cases j with
  | stage i' => obtain ⟨rfl, rfl⟩ := update_only_ok hr; exact ⟨h.set _ _ _ _ _, by simp⟩
  | serialize => cases hr; exact ⟨h.set _ _ _ _ _, by simp [Job.WritesCodes]⟩
  | emit bs =>
    cases bs with
    | nil => cases hr; exact ⟨h, by simp⟩
    | cons c bs =>
      obtain ⟨he, rfl⟩ := emitNext_ok hr
      exact ⟨h.emit hb.2 he, by simp [Job.WritesCodes]⟩
  | startEncode => obtain ⟨rfl, rfl⟩ := update_only_ok hr; exact ⟨h.set _ _ _ _ _, by simp⟩
  | encode k n =>
    cases n with
    | zero => cases hr; exact ⟨h, by simp⟩
    | succ n =>
      obtain ⟨hi, hapart, hlen, hcodes⟩ := hj
      obtain ⟨c, hc, hv, rfl⟩ := encodeByte_ok hr
      obtain ⟨rfl, rfl⟩ := memRead_ok_untouched (h.untouched.1.trans hb.1) hc
      rw [h.srcByte, h.source hapart k (by omega), codeAt_congr h.session.code] at hv
      refine ⟨h, ?_⟩
      simp only [List.mem_cons, List.not_mem_nil, or_false, forall_eq_or_imp, forall_eq]
      refine ⟨trivial, hi, hapart, by omega, fun m hm => ?_⟩
      obtain hlt | rfl := Nat.lt_or_eq_of_le (Nat.le_of_lt_succ hm)
      · exact hcodes m hlt
      · exact hv
  | put ds =>
    cases ds with
    | nil => cases hr; exact ⟨h, by simp⟩
    | cons d ds =>
      obtain ⟨-, rfl, rfl⟩ | ⟨-, rfl, rfl⟩ := putDigit_ok hr
      · exact ⟨h.set _ _ _ _ _, by simp [Job.WritesCodes]⟩
      · exact ⟨h.set _ _ _ _ _, by simp [Job.WritesCodes]⟩
  | endOfText => cases hr; exact ⟨h, by simp [Job.WritesCodes]⟩
  | pad =>
    obtain ⟨rfl, rfl | ⟨_, rfl⟩⟩ := padAcc_ok hr
    · exact ⟨h, by simp⟩
    · exact ⟨h, by simp [Job.WritesCodes]⟩
  | _ => exact hj.elim

theorem State.Writing.goes (hb : b.srcTouched = [] ∧ b.dstTouched = []) (h : b.Writing i u) (hg : u.progress = .goes v) :
    b.Writing i v := by
  obtain ⟨j, rest, new, w, hs, hr, rfl⟩ := progress_goes hg
  have hjobs := h.jobs
  rw [hs] at hjobs
  have hj := hjobs j List.mem_cons_self
  obtain ⟨honto, hnew⟩ := hj.run hb h.onto hr
  refine ⟨honto.set _ _ _ _ _, fun j' hj' => ?_, ?_⟩
  · exact (List.mem_append.1 hj').elim (hnew j') fun hj' => hjobs j' (List.mem_cons_of_mem _ hj')
  · obtain heq | ⟨i', rfl, hnext⟩ := (Job.run_frame hr).stage
    · exact h.stage.imp heq.trans (And.imp_right heq.trans)
    · obtain ⟨hi, rfl⟩ := hj
      exact .inr ⟨hi, hnext⟩

/-- A source byte that is not encoded has no code, or its read gets a bus error (45_bitstream.md R173, 20_memory.md R87). -/
theorem State.Onto.encodeByte_fails {k n : Nat} (h : b.Onto u) (hb : b.srcTouched = [])
    (hj : (Job.encode k (n + 1)).WritesCodes b i) (hr : encodeByte k n u = .error (.error code info) v) :
    b.StageFailed i (v.finishError code info) ∧ v = u := by
  obtain ⟨hi, hapart, hlen, hcodes⟩ := hj
  have hreads : i.readsSource = true := by rcases hi with rfl | rfl <;> rfl
  have hk : k < b.srcLen.toNat := by omega
  rw [encodeByte, Cmd.get_bind] at hr
  obtain hread | ⟨c, w, hread, hr⟩ := Cmd.bind_error_iff.1 hr
  · exact ⟨h.read_fails hreads hk hread, (memRead_error_cause hread).1⟩
  · obtain ⟨rfl, rfl⟩ := memRead_ok_untouched (h.untouched.1.trans hb) hread
    rw [Cmd.get_bind] at hr
    split at hr
    · cases hr
    · rename_i hnone
      cases hr
      rw [h.srcByte, h.source hapart k hk, codeAt_congr h.session.code, Bool.not_eq_true] at hnone
      exact ⟨h.noCode_fails hi hk hnone hcodes, rfl⟩

/-- An error of these stages has a cause the table gives it (60_exceptions.md R211). -/
theorem State.Writing.fails (hi : i.writesDest = true) (hb : b.srcTouched = [] ∧ b.dstTouched = []) (h : b.Writing i u)
    (hs : u.todo = j :: rest) (hr : j.run u = .error (.error code info) v) :
    b.StageFailed i (v.takeError j.clearsOnError code info) ∧ v = u := by
  have hj := h.jobs j (hs ▸ List.mem_cons_self)
  cases j with
  | emit bs =>
    cases bs with
    | nil => cases hr
    | cons c bs => exact h.onto.emitNext_fails hi hr
  | encode k n =>
    cases n with
    | zero => cases hr
    | succ n => exact h.onto.encodeByte_fails hb.1 hj hr
  | put ds =>
    cases ds with
    | nil => cases hr
    | cons d ds =>
      rw [Job.run, putDigit, Cmd.update_bind, Cmd.get_bind] at hr
      split at hr <;> cases hr
  | pad =>
    rw [Job.run, padAcc, Cmd.get_bind] at hr
    split at hr <;> cases hr
  | stage i => cases hr
  | serialize => cases hr
  | startEncode => cases hr
  | endOfText => cases hr
  | _ => exact hj.elim

/-- A run of these stages that ends by an error (60_exceptions.md R211, 46_session_ops.md R191). -/
theorem runOn_writing_fails (hi : i.writesDest = true) (hb : b.srcTouched = [] ∧ b.dstTouched = []) (he : b.err = false)
    (hjobs : ∀ j ∈ b.todo, j.WritesCodes b i) (hr : b.runOn = .next t) (ht : t.err = true) :
    b.StageFailed i t ∧ (t.stage = b.stage ∨ i = .compress ∧ t.stage = Instr.encodePayload.opcode) := by
  obtain ⟨u, j, rest, code, info, v, hu, hs, hrun, rfl⟩ := runOn_error (P := b.Writing i)
    (fun _ _ h hg => h.goes hb hg) (fun _ h => h.onto.err.trans he) ⟨onto_refl b, hjobs, .inl rfl⟩ hr ht
  obtain ⟨hfail, rfl⟩ := hu.fails hi hb hs hrun
  rw [takeError_stage]
  exact ⟨hfail, hu.stage⟩

end Writing

end Sys2Proof.Machine
end

section
/-! SUPPORT. The errors of DECODE_PAYLOAD, as a command of its own and as the last stage of DECOMPRESS: the walk on the
digits before the error (60_exceptions.md R211, 45_bitstream.md R175 to R179, 46_session_ops.md R192). -/

namespace Sys2Proof.Machine

/-! ### The digits left -/

section Digits
variable {b u : State} {n p : Nat}

theorem reachesEnd_congr (hn : u.node = b.node) (ht : u.tree = b.tree) : ∀ (ds : List Bool) (n : Nat),
    u.reachesEnd n ds = b.reachesEnd n ds
  | [], _ => rfl
  | d :: ds, n => by
    simp only [State.reachesEnd, State.childOf, nodeAt_congr hn, ht, reachesEnd_congr hn ht ds]
    rfl

/-- One digit of the walk (45_bitstream.md R176, R177). -/
theorem reachesEnd_cons (b : State) (n : BitVec 10) (d : Bool) (ds : List Bool) : b.reachesEnd n.toNat (d :: ds) =
    if (b.nodeAt (b.stepNode n d).toNat).leaf then
      decide ((b.nodeAt (b.stepNode n d).toNat).sym.toNat = Config.endOfText) || b.reachesEnd b.tree.root.toNat ds
    else b.reachesEnd (b.stepNode n d).toNat ds := by
  have hstep : (if (b.nodeAt b.tree.root.toNat).leaf then b.tree.root.toNat else b.childOf n.toNat d) =
      (b.stepNode n d).toNat := by
    split
    · rename_i hl
      rw [State.stepNode, if_pos hl]
    · rename_i hl
      rw [stepNode_toNat (Bool.eq_false_of_not_eq_true hl)]
  rw [State.reachesEnd]
  simp only [hstep]

/-- The digits of the source from byte `p` on. -/
def State.digitsFrom (b : State) (p : Nat) : List Bool := bitsOfBytes (b.srcBytes.drop p)

/-- The last `n` digits of source byte `p`, and those of the bytes after it. -/
def State.digitsAt (b : State) (p n : Nat) : List Bool :=
  (bitsOfByte (Memory.read b.mem (b.srcByte p))).drop (8 - n) ++ b.digitsFrom (p + 1)

theorem digitsFrom_of_le (h : b.srcLen.toNat ≤ p) : b.digitsFrom p = [] := by
  rw [State.digitsFrom, List.drop_eq_nil_of_le (by rw [length_srcBytes]; exact h)]
  rfl

theorem digitsFrom_eq_digitsAt (h : p < b.srcLen.toNat) : b.digitsFrom p = b.digitsAt p 8 := by
  have hlt : p < b.srcBytes.length := by rw [length_srcBytes]; exact h
  rw [State.digitsFrom, List.drop_eq_getElem_cons hlt, bitsOfBytes_cons]
  congr 2
  exact Memory.bytes_getElem ..

theorem digitsAt_zero (b : State) (p : Nat) : b.digitsAt p 0 = b.digitsFrom (p + 1) := by
  rw [State.digitsAt, List.drop_eq_nil_of_le (by simp [bitsOfByte]), List.nil_append]

theorem digitsAt_succ (hn : n < 8) :
    b.digitsAt p (n + 1) = (Memory.read b.mem (b.srcByte p)).getLsbD n :: b.digitsAt p n := by
  have hlt : 8 - (n + 1) < (bitsOfByte (Memory.read b.mem (b.srcByte p))).length := by simp [bitsOfByte]; omega
  rw [State.digitsAt, List.drop_eq_getElem_cons hlt, show 8 - (n + 1) + 1 = 8 - n by omega]
  have hbit : 7 - (7 - n) = n := by omega
  simp [bitsOfByte, State.digitsAt, hbit]

end Digits

/-! ### Where the walk stands -/

/-- The walk that began at the root with the payload's first byte has come to node `n` with the digits `ds` left, and has not
met END_OF_TEXT: it meets it on the whole payload just where it meets it on what is left (45_bitstream.md R176). -/
def State.WalkedTo (b : State) (n : BitVec 10) (ds : List Bool) : Prop :=
  b.reachesEnd b.tree.root.toNat (b.digitsFrom b.srcPos.toNat) = b.reachesEnd n.toNat ds

/-- On a one-leaf tree the payload's bytes before offset `p` hold no 1 bit (45_bitstream.md R177). -/
def State.ZeroBefore (b : State) (p : Nat) : Prop :=
  (b.nodeAt b.tree.root.toNat).leaf = true →
    ∀ k, b.srcPos.toNat ≤ k → k < p → Memory.read b.mem (b.srcByte k) = 0#8

/-- The last `n` digits of source byte `p` are left to walk from node `node` on (45_bitstream.md R175, R177). -/
structure State.WalksByte (b : State) (w : Walk) (node : BitVec 10) (p n : Nat) : Prop where
  first : b.srcPos.toNat ≤ p
  inside : p < b.srcLen.toNat
  left : n ≤ 8
  loaded : 0 < n → w.byte = Memory.read b.mem (b.srcByte p) ∧ w.bit.toNat + 1 = n
  walked : b.WalkedTo node (b.digitsAt p n)
  zero : b.ZeroBefore p
  zeroDigits : (b.nodeAt b.tree.root.toNat).leaf = true →
    ∀ j, n ≤ j → j < 8 → (Memory.read b.mem (b.srcByte p)).getLsbD j = false

/-- What is left to do inside a decode, and where its walk stands (45_bitstream.md R175, R176). -/
inductive State.DecodePlace (b : State) (w : Walk) : List Job → Prop
  | byte (p : Nat) (hfirst : b.srcPos.toNat ≤ p) (hp : p = b.srcPos.toNat ∨ p ≤ b.srcLen.toNat)
    (hw : b.WalkedTo w.node (b.digitsFrom p)) (hz : b.ZeroBefore p) : b.DecodePlace w [.decode p]
  | bits (p n : Nat) (h : b.WalksByte w w.node p n) : b.DecodePlace w [.bits p n]
  | literal (bs : List Byte) (p n : Nat) (h : b.WalksByte w b.tree.root p n) :
    b.DecodePlace w [.emit bs, .toRoot, .bits p n]
  | back (p n : Nat) (h : b.WalksByte w b.tree.root p n) : b.DecodePlace w [.toRoot, .bits p n]

/-- The decode of the payload begun in `b` has come to `u`, or has met END_OF_TEXT and completes next (45_bitstream.md
R176, R178). -/
def State.Decoding (b u : State) : Prop :=
  (u.err, u.stage) = (false, b.stage) ∧ (u.todo = [] ∨ b.Onto u ∧ b.DecodePlace u.walk u.todo)

section Decoding
variable {b u v t : State} {w w' : Walk} {i : Instr} {node : BitVec 10} {p n : Nat} {new : List Job}
  {code : ErrCode} {info : Word}

/-- The walk's place depends on nothing but the byte in it. -/
theorem State.WalksByte.congr (h : b.WalksByte w node p n) (hw : w'.byte = w.byte ∧ w'.bit = w.bit) :
    b.WalksByte w' node p n := by
  obtain ⟨hfirst, hin, hleft, hload, hwalk, hz, hzd⟩ := h
  exact ⟨hfirst, hin, hleft, by rw [hw.1, hw.2]; exact hload, hwalk, hz, hzd⟩

/-- A byte whose digits are all walked held no 1 bit on a one-leaf tree (45_bitstream.md R177). -/
theorem State.WalksByte.zeroBefore_succ (h : b.WalksByte w node p 0) : b.ZeroBefore (p + 1) := by
  intro hl k hk hlt
  obtain hlt | rfl := Nat.lt_or_eq_of_le (Nat.le_of_lt_succ hlt)
  · exact h.zero hl k hk hlt
  · refine BitVec.eq_of_getLsbD_eq fun j hj => ?_
    rw [h.zeroDigits hl j (Nat.zero_le _) hj]
    simp

/-- A payload byte is taken into the walk (45_bitstream.md R175). -/
theorem State.WalkedTo.walksByte (hw : b.WalkedTo node (b.digitsFrom p)) (hz : b.ZeroBefore p)
    (hfirst : b.srcPos.toNat ≤ p) (hp : p < b.srcLen.toNat) :
    b.WalksByte ⟨node, Memory.read b.mem (b.srcByte p), 7#3⟩ node p 8 where
  first := hfirst
  inside := hp
  left := Nat.le_refl 8
  loaded := fun _ => ⟨rfl, rfl⟩
  walked := digitsFrom_eq_digitsAt hp ▸ hw
  zero := hz
  zeroDigits := fun _ _ h8 hlt => absurd hlt (Nat.not_lt.2 h8)

/-- The next digit of the byte. -/
theorem State.WalksByte.walkDigit (h : b.WalksByte u.walk node p (n + 1)) :
    u.walkDigit = (Memory.read b.mem (b.srcByte p)).getLsbD n := by
  obtain ⟨hbyte, hbit⟩ := h.loaded (Nat.succ_pos n)
  rw [State.walkDigit, hbyte, Nat.succ.inj hbit]

/-- Where the walk goes on one digit, which is no code where it is a "1" on a one-leaf tree (45_bitstream.md R176, R177). -/
theorem State.WalksByte.step (h : b.WalksByte w node p (n + 1))
    (hok : (b.nodeAt b.tree.root.toNat).leaf = true → (Memory.read b.mem (b.srcByte p)).getLsbD n = false)
    (hw' : w'.byte = w.byte ∧ w'.bit = w.bit - 1#3) :
    let c := b.stepNode node ((Memory.read b.mem (b.srcByte p)).getLsbD n)
    ((b.nodeAt c.toNat).leaf = true → (b.nodeAt c.toNat).sym.toNat ≠ Config.endOfText → b.WalksByte w' b.tree.root p n) ∧
      ((b.nodeAt c.toNat).leaf = false → b.WalksByte w' c p n) := by
  intro c
  have hleft := h.left
  have hload := h.loaded (Nat.succ_pos n)
  have hgoes : ∀ node', b.WalkedTo node' (b.digitsAt p n) → b.WalksByte w' node' p n := fun node' hw =>
    { first := h.first
      inside := h.inside
      left := by omega
      loaded := fun hn => by
        obtain ⟨hbyte, hbit⟩ := hload
        have hsub : (w.bit - 1#3).toNat = w.bit.toNat - 1 :=
          BitVec.toNat_sub_of_le (BitVec.le_def.2 (show 1 ≤ w.bit.toNat by omega))
        rw [hw'.1, hw'.2, hsub]
        exact ⟨hbyte, by omega⟩
      walked := hw
      zero := h.zero
      zeroDigits := fun hl j hj hj8 => by
        obtain rfl | hlt := Nat.eq_or_lt_of_le hj
        · exact hok hl
        · exact h.zeroDigits hl j hlt hj8 }
  have hw := h.walked
  rw [State.WalkedTo, digitsAt_succ (by omega), reachesEnd_cons] at hw
  refine ⟨fun hl hsym => hgoes _ ?_, fun hl => hgoes _ ?_⟩
  · rw [if_pos hl, decide_eq_false hsym, Bool.false_or] at hw
    exact hw
  · rw [if_neg (by rw [hl]; decide)] at hw
    exact hw

/-- One digit that is a code's: the walk takes it, and what it comes to says what is left to do (45_bitstream.md R176). -/
theorem decodeBit_eq (hok : (u.nodeAt u.tree.root.toNat).leaf = true → u.walkDigit = false) :
    decodeBit p n u = atNode p n (u.walkTo (u.stepNode u.walk.node u.walkDigit)).nextBit := by
  rw [decodeBit, Cmd.get_bind, Cmd.bind_of_ok (walkOn_ok_eq hok), Cmd.update_bind]

theorem stepNode_congr (hn : u.node = b.node) (ht : u.tree = b.tree) (n : BitVec 10) (d : Bool) :
    u.stepNode n d = b.stepNode n d := by
  simp only [State.stepNode, nodeAt_congr hn, ht]

/-- A digit walked leaves the decode in its next place, or done (45_bitstream.md R176, R178). -/
theorem State.WalksByte.decodeBit_goes (h : b.WalksByte u.walk u.walk.node p (n + 1)) (hu : b.Onto u)
    (hr : decodeBit p n u = .ok new v) :
    (v.err, v.stage) = (u.err, u.stage) ∧ (new = [] ∨ b.Onto v ∧ b.DecodePlace v.walk new) := by
  have hnode := nodeAt_congr hu.session.node
  have htree := hu.session.tree
  have hok : (b.nodeAt b.tree.root.toNat).leaf = true → u.walkDigit = false := fun hl =>
    Bool.eq_false_of_not_eq_true fun hd => by
      have hbad := walkOn_badCode (s := u) (p := p) (by rw [hnode, htree]; exact hl)
      rw [decodeBit, Cmd.get_bind, hd, Cmd.bind_of_error hbad] at hr
      cases hr
  rw [decodeBit_eq (by rw [hnode, htree]; exact hok), stepNode_congr hu.session.node htree] at hr
  have hstep := h.step (w' := (u.walkTo (b.stepNode u.walk.node u.walkDigit)).nextBit.walk) (h.walkDigit ▸ hok)
    ⟨rfl, rfl⟩
  rw [← h.walkDigit] at hstep
  obtain ⟨hleaf, hinner⟩ := hstep
  have honto : b.Onto (u.walkTo (b.stepNode u.walk.node u.walkDigit)).nextBit := hu.set _ _ _ _ _
  rw [atNode, Cmd.get_bind] at hr
  simp only [nodeAt_congr honto.session.node] at hr
  split at hr
  · rename_i hl
    split at hr
    · cases hr
      exact ⟨rfl, .inl rfl⟩
    · rename_i hsym
      cases hr
      exact ⟨rfl, .inr ⟨honto, .literal _ _ _ (hleaf hl hsym)⟩⟩
  · rename_i hl
    cases hr
    exact ⟨rfl, .inr ⟨honto, .bits _ _ (hinner (Bool.eq_false_of_not_eq_true hl))⟩⟩

/-- A job of the decode leaves it in its next place, or done (45_bitstream.md R175, R176). -/
theorem State.DecodePlace.goes (hb : b.srcTouched = [] ∧ b.dstTouched = []) (hapart : overlaps b = false)
    {j : Job} {rest : List Job} (hu : b.Onto u) (h : b.DecodePlace u.walk (j :: rest)) (hr : j.run u = .ok new v) :
    (v.err, v.stage) = (u.err, u.stage) ∧ (new ++ rest = [] ∨ b.Onto v ∧ b.DecodePlace v.walk (new ++ rest)) := by
  cases h with
  | byte p hfirst hp hw hz =>
    obtain ⟨hlt, c, w, hc, rfl, rfl⟩ := decodeByte_ok hr
    obtain ⟨rfl, rfl⟩ := memRead_ok_untouched (hu.untouched.1.trans hb.1) hc
    rw [hu.setup.srcLen] at hlt
    rw [hu.srcByte, hu.source hapart p hlt]
    exact ⟨rfl, .inr ⟨hu.set _ _ _ _ _, .bits p 8 (hw.walksByte hz hfirst hlt)⟩⟩
  | bits p n h =>
    cases n with
    | zero =>
      cases hr
      exact ⟨rfl, .inr ⟨hu, .byte (p + 1) (h.first.trans (Nat.le_succ p)) (.inr h.inside)
        (digitsAt_zero b p ▸ h.walked) h.zeroBefore_succ⟩⟩
    | succ n =>
      rw [List.append_nil]
      exact h.decodeBit_goes hu hr
  | literal bs p n h =>
    cases bs with
    | nil => cases hr; exact ⟨rfl, .inr ⟨hu, .back p n h⟩⟩
    | cons c bs =>
      obtain ⟨he, rfl⟩ := emitNext_ok hr
      have hv := hu.emit hb.2 he
      obtain ⟨-, rfl⟩ := emit_ok_untouched (hu.untouched.2.trans hb.2) he
      exact ⟨rfl, .inr ⟨hv, .literal bs p n (h.congr ⟨rfl, rfl⟩)⟩⟩
  | back p n h =>
    obtain ⟨rfl, rfl⟩ := update_only_ok hr
    refine ⟨rfl, .inr ⟨hu.set _ _ _ _ _, .bits p n ?_⟩⟩
    have hroot : (u.walkTo u.tree.root).walk.node = b.tree.root := hu.session.tree ▸ rfl
    rw [hroot]
    exact h.congr ⟨rfl, rfl⟩

theorem State.Decoding.goes (hb : b.srcTouched = [] ∧ b.dstTouched = []) (hapart : overlaps b = false)
    (h : b.Decoding u) (hg : u.progress = .goes v) : b.Decoding v := by
  obtain ⟨j, rest, new, w, hs, hr, rfl⟩ := progress_goes hg
  obtain ⟨herr, hnil | ⟨honto, hplace⟩⟩ := h
  · rw [hs] at hnil
    cases hnil
  rw [hs] at hplace
  obtain ⟨hkeep, hnext⟩ := hplace.goes hb hapart honto hr
  exact ⟨hkeep.trans herr, hnext.imp id fun ⟨hw, hpl⟩ => ⟨hw.set _ _ _ _ _, hpl⟩⟩

/-! ### The errors -/

/-- The commands whose stage DECODE_PAYLOAD begins in `b`; DECOMPRESS begins it inside its source (46_session_ops.md R192). -/
def State.Decodes (b : State) (i : Instr) : Prop :=
  i = .decodePayload ∨ i = .decompress ∧ b.srcPos.toNat ≤ b.srcLen.toNat

theorem State.Decodes.ranges (h : b.Decodes i) : i.readsSource = true ∧ i.writesDest = true := by
  rcases h with rfl | ⟨rfl, -⟩ <;> decide

/-- The source ends and the walk has not met END_OF_TEXT (45_bitstream.md R179). -/
theorem State.Onto.truncated_fails (h : b.Onto u) (hi : b.Decodes i) (hfirst : b.srcPos.toNat ≤ p)
    (hp : p = b.srcPos.toNat ∨ p ≤ b.srcLen.toNat) (hend : b.srcLen.toNat ≤ p) (hw : b.WalkedTo node (b.digitsFrom p)) :
    b.StageFailed i (u.finishError .truncatedPayload (BitVec.ofNat 32 p)) := by
  have hlt : p < 2 ^ 32 := by omega
  have hinfo : (BitVec.ofNat 32 p).toNat = p := Nat.mod_eq_of_lt hlt
  rw [State.WalkedTo, digitsFrom_of_le hend, State.reachesEnd] at hw
  refine h.stageFailed (by decide) ⟨?_, ?_⟩
  · exact hi.imp (fun hi => ⟨hi, hinfo.trans (by omega)⟩) fun ⟨hi, hpos⟩ =>
      ⟨hi, BitVec.eq_of_toNat_eq (hinfo.trans (by omega))⟩
  · have htree : (u.finishError .truncatedPayload (BitVec.ofNat 32 p)).tree = b.tree := h.session.tree
    have hpos : (u.finishError .truncatedPayload (BitVec.ofNat 32 p)).srcPos = b.srcPos := h.srcPos
    have hnode : (u.finishError .truncatedPayload (BitVec.ofNat 32 p)).node = b.node := h.session.node
    rw [reachesEnd_congr hnode htree, htree, hpos]
    exact hw

/-- The first 1 bit on a one-leaf tree (45_bitstream.md R177). -/
theorem State.Onto.badCode_fails (h : b.Onto u) (hi : b.Decodes i) (hl : (b.nodeAt b.tree.root.toNat).leaf = true)
    (hw : b.WalksByte w node p n) {k : Nat} (hd : (Memory.read b.mem (b.srcByte p)).getLsbD k = true) :
    b.StageFailed i (u.finishError .badCode (BitVec.ofNat 32 p)) := by
  have hinfo : (u.finishError .badCode (BitVec.ofNat 32 p)).errInfo.toNat = p :=
    Nat.mod_eq_of_lt (hw.inside.trans b.srcLen.isLt)
  have hpos : (u.finishError .badCode (BitVec.ofNat 32 p)).srcPos = b.srcPos := h.srcPos
  have htree : (u.finishError .badCode (BitVec.ofNat 32 p)).tree = b.tree := h.session.tree
  refine h.stageFailed (by decide) ⟨hi.imp_right And.left, ?_, ?_, hinfo.trans_lt hw.inside, fun hz => ?_,
    fun k hk hlt => ?_⟩
  · rw [htree]
    exact (nodeAt_congr h.session.node _).symm ▸ hl
  · rw [hinfo, hpos]
    exact hw.first
  · rw [hinfo] at hz
    rw [State.srcByte, hz] at hd
    simp at hd
  · exact hw.zero hl k (hpos ▸ hk) (hinfo ▸ hlt)

/-- A digit that is no code (45_bitstream.md R177). -/
theorem State.WalksByte.decodeBit_fails (h : b.WalksByte u.walk node p (n + 1)) (hu : b.Onto u) (hi : b.Decodes i)
    (hr : decodeBit p n u = .error (.error code info) v) : b.StageFailed i (v.finishError code info) ∧ v = u := by
  have hroot : u.nodeAt u.tree.root.toNat = b.nodeAt b.tree.root.toNat := by
    rw [nodeAt_congr hu.session.node, hu.session.tree]
  by_cases hok : (u.nodeAt u.tree.root.toNat).leaf = true → u.walkDigit = false
  · obtain ⟨_, _, hgoes⟩ := atNode_goes p n (u.walkTo (u.stepNode u.walk.node u.walkDigit)).nextBit
    rw [decodeBit_eq hok, hgoes] at hr
    cases hr
  · obtain ⟨hl, hd⟩ := Classical.not_imp.1 hok
    rw [Bool.not_eq_false] at hd
    rw [decodeBit, Cmd.get_bind, hd, Cmd.bind_of_error (walkOn_badCode hl)] at hr
    cases hr
    exact ⟨hu.badCode_fails hi (hroot ▸ hl) h (h.walkDigit ▸ hd), rfl⟩

/-- An error of the decode has a cause the table gives it (60_exceptions.md R211). -/
theorem State.DecodePlace.fails {j : Job} {rest : List Job} (hu : b.Onto u) (hi : b.Decodes i)
    (h : b.DecodePlace u.walk (j :: rest)) (hr : j.run u = .error (.error code info) v) :
    b.StageFailed i (v.takeError j.clearsOnError code info) ∧ v = u := by
  obtain ⟨hreads, hwrites⟩ := hi.ranges
  cases h with
  | byte p hfirst hp hw hz =>
    rw [Job.run, decodeByte, Cmd.get_bind, hu.setup.srcLen] at hr
    split at hr
    · rename_i hlt
      obtain hread | ⟨c, w, hread, hr⟩ := Cmd.bind_error_iff.1 hr
      · exact ⟨hu.read_fails hreads hlt hread, (memRead_error_cause hread).1⟩
      · cases hr
    · rename_i hend
      cases hr
      exact ⟨hu.truncated_fails hi hfirst hp (Nat.le_of_not_lt hend) hw, rfl⟩
  | bits p n h =>
    cases n with
    | zero => cases hr
    | succ n => exact h.decodeBit_fails hu hi hr
  | literal bs p n h =>
    cases bs with
    | nil => cases hr
    | cons c bs => exact hu.emitNext_fails hwrites hr
  | back p n h => cases hr

/-- A run of the decode that ends by an error (60_exceptions.md R211, 46_session_ops.md R192). -/
theorem runOn_decode_fails (hi : b.Decodes i) (hb : b.srcTouched = [] ∧ b.dstTouched = []) (hapart : overlaps b = false)
    (he : b.err = false) (hs : b.todo = [.startDecode]) (hr : b.runOn = .next t) (ht : t.err = true) :
    b.StageFailed i t ∧ t.stage = b.stage := by
  have hgoes := progress_of_ok (new := [.decode b.srcPos.toNat]) (t := b.startDst.walkTo b.tree.root) hs rfl
  rw [runOn_goes hgoes] at hr
  have hstart : b.Decoding { b.startDst.walkTo b.tree.root with todo := [.decode b.srcPos.toNat] } :=
    ⟨congrArg (·, b.stage) he, .inr ⟨(onto_refl b).set _ _ _ _ _,
      .byte _ (Nat.le_refl _) (.inl rfl) rfl fun _ _ hk hlt => absurd hlt (Nat.not_lt.2 hk)⟩⟩
  obtain ⟨u, j, rest, code, info, v, ⟨hstart, hu⟩, htodo, hrun, rfl⟩ := runOn_error (P := b.Decoding)
    (fun _ _ h hg => h.goes hb hapart hg) (fun _ h => congrArg Prod.fst h.1) hstart hr ht
  rw [htodo] at hu
  obtain hnil | ⟨honto, hplace⟩ := hu
  · cases hnil
  · obtain ⟨hfail, rfl⟩ := hplace.fails honto hi hrun
    exact ⟨hfail, (takeError_stage ..).trans (congrArg Prod.snd hstart)⟩

end Decoding

end Sys2Proof.Machine
end

section
/-! SUPPORT. The errors of the start checks, of COUNT and of PARSE, and where COMPRESS and DECOMPRESS go on past those stages
(60_exceptions.md R211, R214; 41_frequency_counter.md R123, 44_table_serializer.md R156, R158, 46_session_ops.md R191 to
R193). -/

namespace Sys2Proof.Machine

/-! ### A start check that fails -/

/-- The start check that command `i` fails in `s` (60_exceptions.md R214; 20_memory.md R71, R73). -/
inductive State.StartFails (s : State) (i : Instr) : ErrCode → Word → Prop
  | phase (h : phaseTooLow i s.phase = true) : s.StartFails i .sequence (0#30 ++ s.phase.code)
  | source (hr : i.readsSource = true) (h : 2 ^ 32 < s.srcAddr.toNat + s.srcLen.toNat) : s.StartFails i .range 0#32
  | dest (hw : i.writesDest = true) (h : 2 ^ 32 < s.dstAddr.toNat + s.dstCap.toNat) : s.StartFails i .range 1#32
  | overlap (hr : i.readsSource = true) (hw : i.writesDest = true) (h : overlaps s = true) : s.StartFails i .overlap 0#32

section Start
variable {s t v : State} {i : Instr} {code : ErrCode} {info : Word}

theorem lt_of_not_inRange {a n : Word} (h : (!inRange a n) = true) : 2 ^ 32 < a.toNat + n.toNat :=
  Nat.lt_of_not_le fun hle => by
    rw [inRange_of_le hle] at h
    cases h

theorem startChecks_error_cause (h : startChecks i s = .error (.error code info) v) : v = s ∧ s.StartFails i code info := by
  rw [startChecks_eq] at h
  split at h
  · cases h; exact ⟨rfl, .phase ‹_›⟩
  split at h
  · rename_i hc
    cases h
    exact ⟨rfl, .source (Bool.and_eq_true_iff.1 hc).1 (lt_of_not_inRange (Bool.and_eq_true_iff.1 hc).2)⟩
  split at h
  · rename_i hc
    cases h
    exact ⟨rfl, .dest (Bool.and_eq_true_iff.1 hc).1 (lt_of_not_inRange (Bool.and_eq_true_iff.1 hc).2)⟩
  split at h
  · rename_i hc
    cases h
    obtain ⟨hr, hw⟩ := Bool.and_eq_true_iff.1 hc
    exact ⟨rfl, .overlap hr (Bool.and_eq_true_iff.1 hw).1 (Bool.and_eq_true_iff.1 hw).2⟩
  split at h
  · cases h
  split at h <;> cases h

/-- A start check that fails has its cause, and leaves everything (60_exceptions.md R211, R214). -/
theorem State.StartFails.errorFits (h : s.StartFails i code info) (hf : t.Failed i (startStage i) code info)
    (hu : s.Untouched t) : s.ErrorFits t i ∧ s.ErrorLeaves t i := by
  have hleaves : code = .sequence ∨ code = .range ∨ code = .overlap → s.ErrorLeaves t i := fun hc => by
    refine ⟨hu.setup, ?_⟩
    rw [if_pos (hf.errCode.symm ▸ hc)]
    exact ⟨hu, hf.stage⟩
  unfold State.ErrorFits
  rw [hf.errCode, hf.errInfo]
  cases h with
  | phase hp => exact ⟨⟨hp, rfl⟩, hleaves (by decide)⟩
  | source hr hlt => exact ⟨.inl ⟨hr, hlt, rfl⟩, hleaves (by decide)⟩
  | dest hw hlt => exact ⟨.inr ⟨hw, hlt, rfl⟩, hleaves (by decide)⟩
  | overlap hr hw ho => exact ⟨⟨hr, hw, rfl, overlaps_iff.1 ho⟩, hleaves (by decide)⟩

/-- A command that ends by an error has failed a start check, or has passed them all (60_exceptions.md R214). -/
theorem exec_fails (hw : s.hostWaits = true) (h : exec i s = .next t) (ht : t.err = true) :
    (s.ErrorFits t i ∧ s.ErrorLeaves t i) ∨ phaseTooLow i s.phase = false ∧ s.RangesOk i := by
  have hrun := h
  rw [exec_eq, if_pos hw] at hrun
  have goes : ∀ u v, u.FlagsClear ∧ (u = s.accepted i ∨ phaseTooLow i s.phase = false ∧ s.RangesOk i) →
      u.progress = .goes v →
      v.FlagsClear ∧ (v = s.accepted i ∨ phaseTooLow i s.phase = false ∧ s.RangesOk i) := by
    rintro u v ⟨hflags, hu⟩ hg
    refine ⟨outer_flagsClear.goes hflags hg, .inr (hu.elim (fun hu => ?_) id)⟩
    obtain ⟨j, rest, new, w, hs, hr, -⟩ := progress_goes hg
    rw [hu, State.accepted, acceptedJobs_eq_cons] at hs
    cases hs
    obtain ⟨hp, hranges⟩ := startChecks_passes (check_ok hr).1
    rw [hu] at hp hranges
    exact ⟨hp, hranges.source, hranges.dest, hranges.apart⟩
  obtain ⟨u, j, rest, code, info, v, ⟨-, hu⟩, hs, hr, -⟩ :=
    runOn_error goes (fun u hu => congrArg (·.2.2.1) hu.1) ⟨show State.FlagsClear (s.accepted i) from rfl, .inl rfl⟩ hrun ht
  obtain rfl | hpast := hu
  · rw [State.accepted, acceptedJobs_eq_cons] at hs
    cases hs
    obtain hcheck | ⟨_, _, -, hr⟩ := Cmd.bind_error_iff.1 hr
    · obtain ⟨rfl, hfails⟩ := startChecks_error_cause hcheck
      obtain ⟨t', he, hfailed, huntouched⟩ := exec_of_check_error hw hcheck
      obtain rfl : t = t' := Host.Outcome.next.inj (h.symm.trans he)
      have hfails' : s.StartFails i code info := by
        cases hfails with
        | phase h => exact .phase h
        | source hreads h => exact .source hreads h
        | dest hwrites h => exact .dest hwrites h
        | overlap hreads hwrites h => exact .overlap hreads hwrites h
      exact .inl (hfails'.errorFits hfailed huntouched)
    · cases hr
  · exact .inr hpast

end Start

/-! ### A read that is never answered -/

section Waits
variable {s u : State} {j : Job} {rest : List Job} {e n : Nat}

theorem progress_of_waits (hs : s.todo = j :: rest) (h : j.run s = .error .waits u) : s.progress = .waits := by
  rw [State.progress, hs]
  simp only [State.doJob, h]

/-- What holds of every number that has a property, or fails at a first one. -/
theorem forall_or_first {p q : Nat → Prop} : (∀ k, p k → q k) ∨ ∃ k, p k ∧ ¬ q k ∧ ∀ j, j < k → p j → q j := by
  classical
  by_cases hex : ∃ k, p k ∧ ¬ q k
  · exact .inr ⟨Nat.find hex, (Nat.find_spec hex).1, (Nat.find_spec hex).2, fun j hj hp =>
      not_not.1 fun hq => Nat.find_min hex hj ⟨hp, hq⟩⟩
  · exact .inl fun k hp => not_not.1 fun hq => hex ⟨k, hp, hq⟩

/-- A count that comes to a byte whose read is never answered waits there (60_exceptions.md R220). -/
theorem runOn_count_waits : ∀ (m k n : Nat) (s : State) (rest : List Job), s.todo = .count k n :: rest →
    s.srcTouched = [] → m < n → s.srcByte (k + m) < Config.addrSpace →
    (∀ j, k ≤ j → j < k + m → s.srcReply j = .completes) → s.srcReply (k + m) = .never →
    ∃ u, s.runOn = .next u ∧ u.err = s.err
  | _, _, 0, _, _, _, _, hm, _, _, _ => absurd hm (Nat.not_lt_zero _)
  | 0, k, n + 1, s, rest, hs, _, _, ha, _, hb => by
    have hread : memRead (s.srcByte k) s = .error .waits s := memRead_waits ha hb
    have hrun : countByte k n s = .error .waits s := by rw [countByte, Cmd.get_bind, Cmd.bind_of_error hread]
    exact ⟨s, runOn_waits (progress_of_waits hs hrun), rfl⟩
  | m + 1, k, n + 1, s, rest, hs, ht, hm, ha, hc, hb => by
    have hk : s.srcByte k < Config.addrSpace := Nat.lt_of_le_of_lt (by unfold State.srcByte; omega) ha
    have hrun := countByte_completes (n := n) hk (hc k (Nat.le_refl k) (by omega)) ht
    rw [show k + (m + 1) = k + 1 + m by omega] at ha hb
    obtain ⟨u, hu, herr⟩ := runOn_count_waits m (k + 1) n
      { s.tally (Memory.read s.mem (s.srcByte k)) with todo := .count (k + 1) n :: rest } rest rfl ht (by omega) ha
      (fun j h1 h2 => hc j (by omega) (by omega)) hb
    exact ⟨u, (runOn_goes (progress_of_ok hs hrun)).trans hu, herr⟩

/-- A source byte whose read is never answered leaves PARSE waiting (60_exceptions.md R220). -/
theorem nextByte_waits (ha : s.srcAddr.toNat + s.srcLen.toNat ≤ Config.addrSpace) (he : e < s.srcLen.toNat)
    (hb : s.srcReply e = .never) : nextByte e s = .error .waits s := by
  have hlt : s.srcByte e < Config.addrSpace := (Nat.add_lt_add_left he _).trans_le ha
  rw [nextByte, Cmd.get_bind, if_pos he, memRead_waits hlt hb]

/-- PARSE waits at a byte whose read is never answered, a key byte or one inside a pair (60_exceptions.md R220). -/
theorem runOn_keyJob_waits (hb : s.srcReply e = .never) (he : e < s.srcLen.toNat) (hc : s.CanRead e)
    (hn : e = 5 * n ∨ 5 * n < e ∧ e < 5 * n + 5 ∧ symAt s.srcBytes n ≠ none) :
    ∃ u, (s.parseAt n (keyJob s.srcBytes n :: rest)).runOn = .next u ∧ u.err = s.err := by
  have hread : ∀ n jobs, nextByte e (s.parseAt n jobs) = .error .waits (s.parseAt n jobs) := fun n jobs =>
    nextByte_waits (s := s.parseAt n jobs) hc.inRange he hb
  have waits : ∀ j jobs, Job.run j (s.parseAt n (j :: jobs)) = .error .waits (s.parseAt n (j :: jobs)) →
      ∃ u, (s.parseAt n (j :: jobs)).runOn = .next u ∧ u.err = s.err := fun j jobs h =>
    ⟨_, runOn_waits (progress_of_waits rfl h), rfl⟩
  obtain rfl | ⟨hlo, hhi, hsym⟩ := hn
  · exact waits _ _ (Cmd.bind_of_error (hread n _))
  · obtain ⟨sym, hsym⟩ := Option.ne_none_iff_exists'.1 hsym
    obtain ⟨m, rfl⟩ := Nat.exists_eq_add_of_le (Nat.succ_le_of_lt hlo)
    have hm : m < 4 := by omega
    rw [runOn_keyJob_pair (hc.mono (by omega)) hsym, runOn_countJob m hm.le hc]
    refine waits _ _ ?_
    rw [run_countJob_read hm (length_srcBytes s ▸ hc.inside)]
    exact Cmd.bind_of_error (hread n _)

end Waits

/-! ### COUNT and PARSE -/

section Reads
variable {s t : State} {i : Instr} {n : Nat} {code : ErrCode} {info : Word}

/-- COUNT, COMPRESS and ENCODE that end by an error get a bus error first, or read their whole source (41_frequency_counter.md
R120, R123; 20_memory.md R87). -/
theorem exec_count_fails (hi : i ∈ [Instr.count, .compress, .encode]) (hw : s.hostWaits = true) (hr : s.RangesOk i)
    (h : exec i s = .next t) (ht : t.err = true) :
    (∃ k, k < s.srcLen.toNat ∧ s.srcReply k = .busError ∧
      t = (s.counting i).takeError true .srcBus (s.srcAddr + BitVec.ofNat 32 k)) ∨
    ∀ k, k < s.srcLen.toNat → s.srcReply k = .completes := by
  obtain hall | ⟨k, hk, hbad, hbefore⟩ :=
    forall_or_first (p := fun k => k < s.srcLen.toNat) (q := fun k => s.srcReply k = .completes)
  · exact .inr hall
  have hc : ∀ j, j < k → s.srcReply j = .completes := fun j hj => hbefore j hj (hj.trans hk)
  cases hreply : s.srcReply k with
  | completes => exact absurd hreply hbad
  | busError => exact .inl ⟨k, hk, hreply, Host.Outcome.next.inj (h.symm.trans (exec_count_busError hi hw hr hk hc hreply))⟩
  | never =>
    have hreads : i.readsSource = true := by clear hr h; revert i; decide
    have hin := inRange_le (hr.source hreads).1
    obtain ⟨rest, he⟩ := exec_begins_count hi hw hr
    obtain ⟨u, hu, herr⟩ := runOn_count_waits k 0 s.srcLen.toNat
      { s.counting i with todo := .count 0 s.srcLen.toNat :: rest } rest rfl rfl hk
      (by rw [Nat.zero_add]; exact (Nat.add_lt_add_left hk _).trans_le hin)
      (fun j _ hj => hc j (by omega)) (by rw [Nat.zero_add]; exact hreply)
    obtain rfl : t = u := Host.Outcome.next.inj (h.symm.trans (he.trans hu))
    cases ht.symm.trans herr

/-- PARSE and DECOMPRESS that end by an error in the table section have its cause (44_table_serializer.md R155, R156; log
24). -/
inductive State.ParseCause (s : State) : ErrCode → Word → Prop
  | malformed (n : Nat) (h : MalformedAt s.srcBytes n) : s.ParseCause .malformedTable (BitVec.ofNat 32 (5 * n))
  | truncated (n : Nat) (h : TruncatedAt s.srcBytes n) : s.ParseCause .truncatedHeader s.srcLen
  | busError (e : Nat) (he : e < s.srcLen.toNat) (hb : s.srcReply e = .busError) :
    s.ParseCause .srcBus (s.srcAddr + BitVec.ofNat 32 e)

theorem exec_parse_fails_or_table (hi : i ∈ [Instr.parse, .decompress]) (hw : s.hostWaits = true) (hr : s.RangesOk i)
    (h : exec i s = .next t) (ht : t.err = true) :
    (∃ code info, s.ParseCause code info ∧ s.ParseFailed t i code info) ∨
      ∃ n, TableAt s.srcBytes n ∧ ∀ k, k ≤ 5 * n → s.srcReply k = .completes := by
  have hlen := length_srcBytes s
  have fails : ∀ {code info}, s.ParseCause code info → (∃ t, exec i s = .next t ∧ s.ParseFailed t i code info) →
      ∃ code info, s.ParseCause code info ∧ s.ParseFailed t i code info := fun hc ⟨t', he, hf⟩ =>
    ⟨_, _, hc, Host.Outcome.next.inj (h.symm.trans he) ▸ hf⟩
  obtain ⟨n, hp, hend⟩ := exists_table_end s.srcBytes
  obtain hall | ⟨e, hreached, hbad, hbefore⟩ :=
    forall_or_first (p := ReachedAt s.srcBytes n) (q := fun k => s.srcReply k = .completes)
  · obtain htable | hmal | htrunc := hend
    · exact .inr ⟨n, htable, fun k hk => hall k (reachedAt_of_le_key htable.2.1 hk)⟩
    · exact .inl (fails (.malformed n hmal) (exec_parse_malformed hi hw hr hmal
        (fun k hk => hall k (reachedAt_of_le_key hmal.2.1 hk)) fun hc k hk => hall k (hmal.reachedAt hc hk)))
    · exact .inl (fails (.truncated n htrunc) (exec_parse_truncated hi hw hr htrunc fun k hk =>
        hall k (htrunc.reachedAt (hlen ▸ hk))))
  · have hlt : e < s.srcLen.toNat := hlen ▸ hreached.1
    have hc : ∀ k, k < e → s.srcReply k = .completes := fun k hk => hbefore k hk (hreached.of_le hk.le)
    obtain ⟨m, hpm, hplace⟩ := hreached.place hp
    cases hreply : s.srcReply e with
    | completes => exact absurd hreply hbad
    | busError => exact .inl (fails (.busError e hlt hreply) (exec_parse_busError hi hw hr hpm hplace hlt hc hreply))
    | never =>
      have hread := canRead_parsing hi hr hlt.le hc
      obtain ⟨rest, he⟩ := exec_begins_parse hi hw hr
      obtain ⟨u, hu, herr⟩ := runOn_keyJob_waits (s := s.parsing i) (rest := rest) hreply hlt hread hplace
      have hrun := he.trans ((runOn_pairs m (hread.mono (by omega)) hpm).trans hu)
      obtain rfl : t = u := Host.Outcome.next.inj (h.symm.trans hrun)
      cases ht.symm.trans herr

end Reads

/-! ### Past COUNT and PARSE -/

/-- COMPRESS where its stage SERIALIZE begins: the session is that of its source (46_session_ops.md R191). -/
def State.tablesMade (s : State) : State :=
  { s.accept (encode .compress) with
    freq := (sessionOf s.srcBytes).freq
    node := (sessionOf s.srcBytes).node
    tree := (sessionOf s.srcBytes).tree
    code := (sessionOf s.srcBytes).code
    phase := .coded
    stage := Instr.serialize.opcode
    todo := .serialize :: .stage .encodePayload :: s.encodeJobs }

/-- DECOMPRESS where its stage DECODE_PAYLOAD begins, in `b`: the session is BUILT of the `n` pairs of the table section, and
SRC_POS is after it (46_session_ops.md R192). -/
structure State.TreeBuilt (s : State) (n : Nat) (b : State) : Prop where
  setup : s.SameSetup b
  mem : b.mem = s.mem
  flags : b.FlagsClear
  todo : b.todo = [.startDecode]
  stage : b.stage = Instr.decodePayload.opcode
  phase : b.phase = .built
  freq : b.FreqOfTable s.srcBytes n
  tree : b.TreeOk
  noCodes : ∀ k, (b.codeAt k).valid = false
  srcPos : b.srcPos.toNat = 5 * n + 1

section Composites
variable {s c : State} {n : Nat} {l : List Job} {src : List Byte}

/-- A source counted whole from an empty FREQ leaves the counts of its session (41_frequency_counter.md R120, R121). -/
theorem runOn_count_whole (hs : s.todo = .count 0 s.srcLen.toNat :: .endCount :: l) (ht : s.srcTouched = [])
    (hf : s.freq = Vector.replicate 257 FreqEntry.absent)
    (hin : s.srcAddr.toNat + s.srcLen.toNat ≤ Config.addrSpace)
    (hc : ∀ k, k < s.srcLen.toNat → s.srcReply k = .completes) (hsrc : s.srcBytes = src) :
    s.runOn = State.runOn { s with freq := (sessionOf src).freq, phase := .counted, todo := l } := by
  have hcount := runOn_count s.srcLen.toNat 0 s (.endCount :: l) hs ht fun j _ hj => ⟨by omega, hc j (by omega)⟩
  have hbytes : Memory.bytes s.mem (s.srcAddr.toNat + 0) s.srcLen.toNat = src := hsrc
  have hfreq : (s.countedFrom src).freq = (sessionOf src).freq :=
    (countedFrom_freq_congr (s := State.reset) src hf).trans (sessionOf_freq src).symm
  have hend : State.runOn { src.foldl State.tally s with todo := .endCount :: l } =
      State.runOn { s.countedFrom src with todo := l } := by
    rw [runOn_goes (progress_of_ok (new := []) rfl rfl)]
    rfl
  rw [countedFrom_eq, hfreq] at hend
  rw [hbytes] at hcount
  exact hcount.trans hend

/-- DERIVE makes again the codes it made of the tree of `c` (43_code_deriver.md R140). -/
theorem deriveCodes_of_tree (hc : c.dropCodes.deriveCodes.endDerive = c) (hn : s.node = c.node) (ht : s.tree = c.tree) :
    s.dropCodes.deriveCodes.endDerive = { s with code := c.code, phase := .coded } := by
  have hstart : s.dropCodes = s.dropCodes.withCodesOf c.dropCodes := by
    change s.dropCodes = { s.dropCodes with node := c.node, tree := c.tree }
    rw [← hn, ← ht]
    rfl
  rw [hstart, deriveCodes_withCodesOf]
  generalize c.dropCodes.deriveCodes = d at hc ⊢
  rw [← hc] at hn ht ⊢
  have hnode : d.node = s.node := hn.symm
  have htree : d.tree = s.tree := ht.symm
  rw [State.withCodesOf, hnode, htree]
  rfl

/-- The job that shows a stage in STAGE (10_state.md R33). -/
theorem runOn_stage {i : Instr} (hs : s.todo = .stage i :: l) :
    s.runOn = State.runOn { s with stage := i.opcode, todo := l } := runOn_goes (progress_of_ok (new := []) hs rfl)

/-- DERIVE as a stage (46_session_ops.md R191). -/
theorem runOn_derive_of_tree (hc : c.dropCodes.deriveCodes.endDerive = c) (hs : s.todo = .derive :: l)
    (hn : s.node = c.node) (ht : s.tree = c.tree) :
    s.runOn = State.runOn { s with code := c.code, phase := .coded, todo := l } := by
  have hrun : Job.run .derive s = .ok [] { s with code := c.code, phase := .coded } := by
    rw [← deriveCodes_of_tree hc hn ht]
    rfl
  exact runOn_goes (progress_of_ok hs hrun)

/-- BUILD and DERIVE as stages make the tree and the codes of the source whose counts stand in FREQ (46_session_ops.md
R191). -/
theorem runOn_tables_of_counts (hs : s.todo = .stage .build :: .build :: .stage .derive :: .derive :: l)
    (hf : s.freq = (sessionOf src).freq) (hq : s.queue = []) : s.runOn = State.runOn { s with
      node := (sessionOf src).node, tree := (sessionOf src).tree, code := (sessionOf src).code, phase := .coded,
      stage := Instr.derive.opcode, todo := l } := by
  have hbuild := runOn_build_of_counts
    (s := { s with stage := Instr.build.opcode, todo := .build :: .stage .derive :: .derive :: l }) rfl hf hq
  have hc := deriveCodes_dropCodes_sessionOf src
  generalize sessionOf src = c at hbuild hc ⊢
  refine ((runOn_stage hs).trans hbuild).trans ((runOn_stage (i := .derive) (l := .derive :: l) rfl).trans ?_)
  exact runOn_derive_of_tree hc rfl rfl rfl

/-- The stages of a command that makes the code table of a source that is read whole (46_session_ops.md R191). -/
theorem runOn_analyse_whole (hs : s.todo = s.analyseJobs ++ l) (ht : s.srcTouched = []) (hq : s.queue = [])
    (hin : s.srcAddr.toNat + s.srcLen.toNat ≤ Config.addrSpace)
    (hc : ∀ k, k < s.srcLen.toNat → s.srcReply k = .completes) (hsrc : s.srcBytes = src) :
    s.runOn = State.runOn { s with
      freq := (sessionOf src).freq, node := (sessionOf src).node, tree := (sessionOf src).tree,
      code := (sessionOf src).code, phase := .coded, stage := Instr.derive.opcode, todo := l } := by
  have hcount := runOn_count_whole (s := { (s.setStage .count).sessionClear with todo := .count 0 s.srcLen.toNat ::
    .endCount :: (Job.stage .build :: .build :: .stage .derive :: .derive :: l) }) rfl ht rfl hin hc hsrc
  have htables : ∀ u : State, u.todo = .stage .build :: .build :: .stage .derive :: .derive :: l →
    u.freq = (sessionOf src).freq → u.queue = [] → _ := fun u => runOn_tables_of_counts (s := u) (src := src)
  generalize sessionOf src = c at hcount htables ⊢
  exact ((runOn_analyseJobs hs).trans hcount).trans (htables _ rfl rfl hq)

/-- COMPRESS of a source that is read whole comes to its stage SERIALIZE, whatever its destination (46_session_ops.md R191). -/
theorem exec_compress_tablesMade (hw : s.hostWaits = true) (hr : s.RangesOk .compress)
    (hc : ∀ k, k < s.srcLen.toNat → s.srcReply k = .completes) : exec .compress s = s.tablesMade.runOn := by
  have htables := runOn_analyse_whole (s := { s.accept (encode .compress) with todo := s.bodyJobs .compress })
    (l := .stage .serialize :: .serialize :: .stage .encodePayload :: s.encodeJobs) rfl rfl rfl
    (inRange_le (hr.source rfl).1) hc (src := s.srcBytes) rfl
  unfold State.tablesMade
  generalize sessionOf s.srcBytes = c at htables ⊢
  exact (exec_past_rangeChecks hw hr rfl).trans (htables.trans (runOn_stage rfl))

/-- BUILD as a stage makes the tree of the counts in FREQ (42_tree_builder.md R130, R132, R133). -/
theorem runOn_build (hs : s.todo = .build :: l) (heot : (s.freqAt Config.endOfText).valid = true) (hq : s.queue = []) :
    ∃ node tree, let t := { s.dropTree with node := node, tree := tree, phase := .built, todo := l }
      s.runOn = t.runOn ∧ t.TreeOk := by
  obtain ⟨r, hr, hbuild⟩ := buildStage_run (List.ne_nil_of_mem (mem_presentSyms.2 heot))
  have htree := setRoot_growTree_treeOk hq hr
  have hrun := runOn_goes (progress_of_ok (new := []) hs (Cmd.bind_of_ok hbuild))
  obtain ⟨node, tree, queue, hgrow⟩ := growTree_sameButTree s
  rw [hgrow] at htree hrun
  refine ⟨node, ⟨BitVec.ofNat 10 r, tree.nodes⟩, hrun.trans ?_, htree.congr rfl rfl rfl⟩
  rw [State.setRoot, ← hq]
  rfl

/-- DECOMPRESS of a source whose table section is read comes to its stage DECODE_PAYLOAD (46_session_ops.md R192). -/
theorem exec_decompress_treeBuilt (hw : s.hostWaits = true) (hr : s.RangesOk .decompress) (h : TableAt s.srcBytes n)
    (hc : ∀ k, k ≤ 5 * n → s.srcReply k = .completes) : ∃ b, s.TreeBuilt n b ∧ exec .decompress s = b.runOn := by
  have ⟨hpairs, hinside, hend⟩ := h
  have hin : 5 * n + 1 ≤ s.srcLen.toNat := by rw [← length_srcBytes]; exact hinside
  have hread := canRead_parsing (i := .decompress) (by decide) hr hin fun k hk => hc k (by omega)
  have hbegin := (exec_decompress_begins hw hr).trans ((runOn_pairs n (hread.mono (Nat.le_succ _)) hpairs).trans
    (runOn_keyJob_endsTable hread hend))
  have hfreq : ∀ t : State, t.freq = tableFreq s.srcBytes n → t.FreqOfTable s.srcBytes n := fun t ht =>
    freqOfTable_of_tableFreq ht h
  obtain ⟨node, tree, hbuild, htree⟩ := runOn_build
    (s := { ((s.parsing .decompress).parseAt n []).endParse (5 * n + 1) with
      stage := Instr.build.opcode, todo := [.build, .stage .decodePayload, .startDecode] })
    rfl (((hfreq _ rfl).present _).2 h.exists_endOfText) rfl
  refine ⟨_, ?_, hbegin.trans ((runOn_stage rfl).trans (hbuild.trans (runOn_stage rfl)))⟩
  exact
    { setup := by constructor <;> rfl
      mem := rfl
      flags := rfl
      todo := rfl
      stage := rfl
      phase := rfl
      freq := hfreq _ rfl
      tree := htree.congr rfl rfl rfl
      noCodes := fun k => by rw [codeAt_of_replicate rfl]; rfl
      srcPos := Nat.mod_eq_of_lt (hin.trans_lt s.srcLen.isLt) }

end Composites

end Sys2Proof.Machine
end

section
/-! SUPPORT. Every command that ends by an error: its cause, and what it leaves (60_exceptions.md R211). -/

namespace Sys2Proof.Machine

section Commands
variable {s b t : State} {i : Instr} {n : Nat} {code : ErrCode} {info : Word}

/-! ### From the stage that failed to the command -/

/-- The cause of an error past the start checks rests on the operands, host memory and, for DECODE_PAYLOAD, SRC_POS. -/
theorem errorFits_congr (hs : s.SameSetup b) (hm : b.mem = s.mem) (hp : i = .decodePayload → b.srcPos = s.srcPos)
    (hc : t.errCode ≠ .sequence) (h : b.ErrorFits t i) : s.ErrorFits t i := by
  have hbus := busAt_congr hs.bus
  have hsrc := hs.srcBytes hm
  unfold State.ErrorFits at h ⊢
  generalize t.errCode = code at h hc ⊢
  cases code with
  | sequence => exact absurd rfl hc
  | truncatedPayload =>
    simp only [hs.srcLen, hsrc] at h ⊢
    exact ⟨h.1.imp_left fun ⟨hi, hinfo⟩ => ⟨hi, hp hi ▸ hinfo⟩, h.2⟩
  | none => exact h
  | illegalCmd => exact h
  | _ => simpa only [hs.srcAddr, hs.srcLen, hs.dstAddr, hs.dstCap, hbus, hm, hsrc] using h

theorem State.StageFailed.errorFits (h : b.StageFailed i t) (hs : s.SameSetup b) (hm : b.mem = s.mem)
    (hp : i = .decodePayload → b.srcPos = s.srcPos) : s.ErrorFits t i :=
  errorFits_congr hs hm hp (fun hc => h.past (.inl hc)) h.fits

/-- SERIALIZE, ENCODE_PAYLOAD and DECODE_PAYLOAD as commands of their own leave the session and SRC_POS (46_session_ops.md
R191, R192). -/
theorem State.StageFailed.command (h : State.StageFailed { s.accept (encode i) with todo := s.bodyJobs i } i t)
    (hi : i ∈ [Instr.serialize, .encodePayload, .decodePayload]) (hstage : t.stage = startStage i) :
    s.ErrorFits t i ∧ s.ErrorLeaves t i := by
  have hsetup : s.SameSetup t := State.SameSetup.trans (by constructor <;> rfl) h.setup
  have hsession : s.SameSession t := State.SameSession.trans (by constructor <;> rfl) h.session
  refine ⟨h.errorFits (by constructor <;> rfl) rfl fun _ => rfl, hsetup, ?_⟩
  rw [if_neg h.past]
  simp only [List.mem_cons, List.not_mem_nil, or_false] at hi
  obtain rfl | rfl | rfl := hi
  all_goals exact ⟨hsession, hstage, h.srcPos⟩

/-! ### COUNT and PARSE -/

/-- The address of a source byte, in a source range that does not pass 2^32 (20_memory.md R71). -/
theorem srcAddr_add_toNat (hr : s.RangesOk i) (hi : i.readsSource = true) {k : Nat} (hk : k < s.srcLen.toNat) :
    (s.srcAddr + BitVec.ofNat 32 k).toNat = s.srcAddr.toNat + k := by
  have hin := inRange_le (hr.source hi).1
  simp only [Config.addrSpace] at hin
  rw [BitVec.toNat_add, BitVec.toNat_ofNat]
  omega

/-- COUNT, alone and as a stage, leaves the session EMPTY on an error (41_frequency_counter.md R123, 46_session_ops.md
R191, R193). -/
theorem counting_busError (hi : i ∈ [Instr.count, .compress, .encode]) (hr : s.RangesOk i) {k : Nat}
    (hk : k < s.srcLen.toNat) (hb : s.srcReply k = .busError)
    (ht : t = (s.counting i).takeError true .srcBus (s.srcAddr + BitVec.ofNat 32 k)) :
    s.ErrorFits t i ∧ s.ErrorLeaves t i := by
  have hreads : i.readsSource = true := by clear hr ht; revert i; decide
  have hinfo := srcAddr_add_toNat hr hreads hk
  have hempty : t.SessionEmpty := by
    subst ht
    exact ⟨rfl, freqAt_of_replicate rfl, nodeAt_of_replicate rfl, rfl, codeAt_of_replicate rfl⟩
  have hkeep : s.SameSetup t ∧ t.stage = 0x2#4 ∧ t.srcPos = s.srcPos ∧ t.errCode = .srcBus := by
    subst ht
    exact ⟨by constructor <;> rfl, rfl, rfl, rfl⟩
  obtain ⟨hsetup, hstage, hpos, hcode⟩ := hkeep
  refine ⟨by subst ht; exact ⟨hreads, k, hk, hinfo, hb⟩, hsetup, ?_⟩
  rw [if_neg (by rw [hcode]; decide)]
  simp only [List.mem_cons, List.not_mem_nil, or_false] at hi
  obtain rfl | rfl | rfl := hi
  · exact ⟨hempty, hstage, hpos⟩
  · exact ⟨hpos, .inl ⟨hstage, hempty⟩⟩
  · exact ⟨hempty, hstage, hpos⟩

/-- PARSE, alone and as a stage, leaves the session EMPTY on an error (44_table_serializer.md R158, 46_session_ops.md
R192). -/
theorem State.ParseFailed.errorFits (h : s.ParseFailed t i code info) (hc : s.ParseCause code info)
    (hi : i ∈ [Instr.parse, .decompress]) (hr : s.RangesOk i) : s.ErrorFits t i ∧ s.ErrorLeaves t i := by
  have hreads : i.readsSource = true := by clear hr h; revert i; decide
  have hi' : i = .parse ∨ i = .decompress := by simpa using hi
  have hpast : ¬ (code = .sequence ∨ code = .range ∨ code = .overlap) := by cases hc <;> decide
  refine ⟨?_, h.setup, ?_⟩
  · unfold State.ErrorFits
    rw [h.failed.errCode, h.failed.errInfo]
    cases hc with
    | malformed n hmal =>
      have hlt := hmal.2.1
      have hlen := length_srcBytes s
      exact ⟨hi', n, hmal, Nat.mod_eq_of_lt (by omega)⟩
    | truncated n htrunc => exact ⟨hi', rfl, n, htrunc⟩
    | busError e he hb => exact ⟨hreads, e, he, srcAddr_add_toNat hr hreads he, hb⟩
  · rw [if_neg (h.failed.errCode.symm ▸ hpast)]
    obtain rfl | rfl := hi'
    · exact ⟨h.empty, h.failed.stage, h.srcPos⟩
    · exact .inl ⟨h.failed.stage, h.empty, h.srcPos⟩

/-! ### The commands -/

/-- COUNT and ENCODE, whose stages past COUNT cannot fail (41_frequency_counter.md R123, 46_session_ops.md R193). -/
theorem exec_count_encode_errorFits (hi : i = .count ∨ i = .encode) (hw : s.hostWaits = true) (hr : s.RangesOk i)
    (h : exec i s = .next t) (ht : t.err = true) : s.ErrorFits t i ∧ s.ErrorLeaves t i := by
  have hmem : i ∈ [Instr.count, .compress, .encode] := by obtain rfl | rfl := hi <;> decide
  obtain ⟨k, hk, hb, heq⟩ | hc := exec_count_fails hmem hw hr h ht
  · exact counting_busError hmem hr hk hb heq
  have hreads : i.readsSource = true := by obtain rfl | rfl := hi <;> rfl
  have hs : s.SourceReady := ⟨(hr.source hreads).1, (hr.source hreads).2, hc⟩
  obtain rfl | rfl := hi
  · rw [exec_count_eq hw hs, countedFrom_eq] at h
    cases h
    cases ht
  · rw [exec_encode_eq hw hs] at h
    cases h
    cases (analysed_completed s).noErr.symm.trans ht

/-- PARSE (44_table_serializer.md R155 to R158). -/
theorem exec_parse_errorFits (hw : s.hostWaits = true) (hr : s.RangesOk .parse) (h : exec .parse s = .next t)
    (ht : t.err = true) : s.ErrorFits t .parse ∧ s.ErrorLeaves t .parse := by
  obtain ⟨code, info, hcause, hfailed⟩ | ⟨n, htable, hc⟩ := exec_parse_fails_or_table (by decide) hw hr h ht
  · exact hfailed.errorFits hcause (by decide) hr
  · obtain ⟨t', he, hdone, -⟩ := exec_parse_table hw hr htable hc
    obtain rfl : t = t' := Host.Outcome.next.inj (h.symm.trans he)
    cases hdone.noErr.symm.trans ht

/-- CLEAR, BUILD and DERIVE raise no error past their start checks (42_tree_builder.md R130, R135, 43_code_deriver.md R140,
46_session_ops.md R190). -/
theorem exec_noAccess_noErr (hi : i ∈ [Instr.clear, .build, .derive]) (hw : s.hostWaits = true)
    (hp : phaseTooLow i s.phase = false) (h : exec i s = .next t) : t.err = false := by
  simp only [List.mem_cons, List.not_mem_nil, or_false] at hi
  obtain rfl | rfl | rfl := hi
  · rw [exec_clear_eq hw] at h
    cases h
    rfl
  · obtain ⟨r, -, rfl⟩ := exec_build_next hw (beq_eq_false_iff_ne.1 hp) h
    obtain ⟨_, _, _, hgrow⟩ := growTree_sameButTree s.building
    rw [State.builtWith, hgrow]
    rfl
  · have hphase : s.phase = .built ∨ s.phase = .coded := by revert hp; cases s.phase <;> decide
    rw [exec_derive_eq hw hphase] at h
    cases h
    obtain ⟨_, hderived⟩ := deriveCodes_sameButCodes s.startedDerive.dropCodes
    rw [State.derived, hderived]
    rfl

/-- ENCODE_PAYLOAD begins with no source byte encoded (45_bitstream.md R170). -/
theorem encodeJobs_writes (hi : i = .encodePayload ∨ i = .compress) (ha : overlaps b = false) (hl : b.srcLen = s.srcLen) :
    ∀ j ∈ s.encodeJobs, j.WritesCodes b i := by
  simp only [State.encodeJobs, List.mem_cons, List.not_mem_nil, or_false, forall_eq_or_imp, forall_eq]
  exact ⟨trivial, ⟨hi, ha, by rw [hl, Nat.zero_add], fun _ hj => absurd hj (Nat.not_lt_zero _)⟩, trivial, trivial⟩

/-- SERIALIZE and ENCODE_PAYLOAD (44_table_serializer.md R152, 45_bitstream.md R170, R173). -/
theorem exec_write_errorFits (hi : i = .serialize ∨ i = .encodePayload) (hw : s.hostWaits = true) (hr : s.RangesOk i)
    (hp : phaseTooLow i s.phase = false) (h : exec i s = .next t) (ht : t.err = true) :
    s.ErrorFits t i ∧ s.ErrorLeaves t i := by
  rw [exec_past_rangeChecks hw hr hp] at h
  have hjobs : ∀ j ∈ s.bodyJobs i, j.WritesCodes { s.accept (encode i) with todo := s.bodyJobs i } i := by
    obtain rfl | rfl := hi
    · exact List.forall_mem_singleton.2 trivial
    · exact encodeJobs_writes (.inl rfl) (hr.apart rfl rfl) rfl
  have hwrites : i.writesDest = true := by obtain rfl | rfl := hi <;> rfl
  obtain ⟨hfail, hstage⟩ := runOn_writing_fails hwrites ⟨rfl, rfl⟩ rfl hjobs h ht
  refine hfail.command (by obtain rfl | rfl := hi <;> decide) (hstage.elim (·.trans (stageOfWord_encode i)) fun hc => ?_)
  obtain rfl | rfl := hi <;> cases hc.1

/-- DECODE_PAYLOAD (45_bitstream.md R175 to R179). -/
theorem exec_decodePayload_errorFits (hw : s.hostWaits = true) (hr : s.RangesOk .decodePayload)
    (hp : phaseTooLow .decodePayload s.phase = false) (h : exec .decodePayload s = .next t) (ht : t.err = true) :
    s.ErrorFits t .decodePayload ∧ s.ErrorLeaves t .decodePayload := by
  rw [exec_past_rangeChecks hw hr hp] at h
  obtain ⟨hfail, hstage⟩ := runOn_decode_fails (i := .decodePayload)
    (b := { s.accept (encode .decodePayload) with todo := s.bodyJobs .decodePayload }) (.inl rfl) ⟨rfl, rfl⟩
    (hr.apart rfl rfl) rfl rfl h ht
  exact hfail.command (by decide) hstage

theorem tablesMade_keeps (s : State) : s.SameSetup s.tablesMade ∧ (sessionOf s.srcBytes).SameSession s.tablesMade ∧
    s.tablesMade.mem = s.mem ∧ s.tablesMade.err = false ∧
    s.tablesMade.srcTouched = [] ∧ s.tablesMade.dstTouched = [] := by
  have hphase := sessionOf_phase s.srcBytes
  unfold State.tablesMade
  generalize sessionOf s.srcBytes = c at hphase ⊢
  exact ⟨by constructor <;> rfl, ⟨hphase.symm, rfl, rfl, rfl, rfl⟩, rfl, rfl, rfl, rfl⟩

theorem tablesMade_writes (hr : s.RangesOk .compress) :
    ∀ j ∈ s.tablesMade.todo, j.WritesCodes s.tablesMade .compress := by
  have hapart := hr.apart rfl rfl
  unfold State.tablesMade
  generalize sessionOf s.srcBytes = c
  refine List.forall_mem_cons.2 ⟨trivial, List.forall_mem_cons.2 ⟨⟨rfl, rfl⟩, ?_⟩⟩
  exact encodeJobs_writes (.inr rfl) hapart rfl

/-- COMPRESS (46_session_ops.md R191). -/
theorem exec_compress_errorFits (hw : s.hostWaits = true) (hr : s.RangesOk .compress) (h : exec .compress s = .next t)
    (ht : t.err = true) : s.ErrorFits t .compress ∧ s.ErrorLeaves t .compress := by
  obtain ⟨k, hk, hb, heq⟩ | hc := exec_count_fails (by decide) hw hr h ht
  · exact counting_busError (by decide) hr hk hb heq
  rw [exec_compress_tablesMade hw hr hc] at h
  obtain ⟨hsetup, hsession, hmem, herr, htouched⟩ := tablesMade_keeps s
  obtain ⟨hfail, hstage⟩ := runOn_writing_fails (b := s.tablesMade) rfl htouched herr (tablesMade_writes hr) h ht
  refine ⟨hfail.errorFits hsetup hmem (fun hi => by cases hi), hsetup.trans hfail.setup, ?_⟩
  rw [if_neg hfail.past]
  exact ⟨hfail.srcPos, .inr ⟨hstage.imp id And.right, hfail.session.phase, hsession.trans hfail.session⟩⟩

/-- DECOMPRESS (46_session_ops.md R192). -/
theorem exec_decompress_errorFits (hw : s.hostWaits = true) (hr : s.RangesOk .decompress)
    (h : exec .decompress s = .next t) (ht : t.err = true) : s.ErrorFits t .decompress ∧ s.ErrorLeaves t .decompress := by
  obtain ⟨code, info, hcause, hfailed⟩ | ⟨n, htable, hc⟩ := exec_parse_fails_or_table (by decide) hw hr h ht
  · exact hfailed.errorFits hcause (by decide) hr
  obtain ⟨b, hb, he⟩ := exec_decompress_treeBuilt hw hr htable hc
  rw [he] at h
  have hflags := hb.flags
  simp only [State.FlagsClear, Prod.mk.injEq] at hflags
  obtain ⟨-, -, herr, -, -, -, hsrc, hdst⟩ := hflags
  have hpos : b.srcPos.toNat ≤ b.srcLen.toNat := by
    rw [hb.srcPos, hb.setup.srcLen, ← length_srcBytes]
    exact htable.2.1
  have hapart : overlaps b = false := hb.setup.overlaps.trans (hr.apart rfl rfl)
  obtain ⟨hfail, hstage⟩ := runOn_decode_fails (i := .decompress) (.inr ⟨rfl, hpos⟩) ⟨hsrc, hdst⟩ hapart herr hb.todo h
    ht
  have hsession := hfail.session
  refine ⟨hfail.errorFits hb.setup hb.mem (fun hi => by cases hi), hb.setup.trans hfail.setup, ?_⟩
  rw [if_neg hfail.past]
  have htree := hb.tree.congr hsession.freq hsession.node hsession.tree
  refine .inr ⟨hstage.trans hb.stage, hsession.phase.trans hb.phase, htree, fun k => ?_, n,
    ⟨hb.freq.table, fun sym => ?_, fun j sym => ?_⟩, hfail.srcPos ▸ hb.srcPos⟩
  · rw [codeAt_congr hsession.code]
    exact hb.noCodes k
  · rw [freqAt_congr hsession.freq]
    exact hb.freq.present sym
  · rw [freqAt_congr hsession.freq]
    exact hb.freq.count j sym

end Commands

/-- Settles O57: a start check that fails touches nothing; past them COUNT and PARSE clear the session, and the stages that
emit bytes keep the one they began with. -/
theorem errorsHaveTheirCauseAndInfo : Obligations.ErrorsHaveTheirCauseAndInfo := by
  unfold Obligations.ErrorsHaveTheirCauseAndInfo
  intro i s t hw h ht
  obtain hstart | ⟨hp, hr⟩ := exec_fails hw h ht
  · exact hstart
  have noErr : ∀ {p : Prop}, i ∈ [Instr.clear, .build, .derive] → p := fun hi => by
    cases (exec_noAccess_noErr hi hw hp h).symm.trans ht
  cases i with
  | clear => exact noErr (by decide)
  | count => exact exec_count_encode_errorFits (.inl rfl) hw hr h ht
  | build => exact noErr (by decide)
  | derive => exact noErr (by decide)
  | serialize => exact exec_write_errorFits (.inl rfl) hw hr hp h ht
  | encodePayload => exact exec_write_errorFits (.inr rfl) hw hr hp h ht
  | parse => exact exec_parse_errorFits hw hr h ht
  | decodePayload => exact exec_decodePayload_errorFits hw hr hp h ht
  | compress => exact exec_compress_errorFits hw hr h ht
  | decompress => exact exec_decompress_errorFits hw hr h ht
  | encode => exact exec_count_encode_errorFits (.inr rfl) hw hr h ht

end Sys2Proof.Machine
end

section
/-! SUPPORT. The refusal of a command whose range includes the register window (70_reset_and_hazards.md R249; log 7). -/

namespace Sys2Proof.Machine

section Window
variable {s : State} {i : Instr}

/-- A range that has a byte of the register window touches it. -/
theorem touchesWindow_of_rangeHas {base x : Nat} {a n : Word} (hx : rangeHas a n x = true) (hlo : base ≤ x)
    (hhi : x < base + Config.windowSize) : touchesWindow base a n = true := by
  simp only [rangeHas, touchesWindow, Bool.and_eq_true, decide_eq_true_eq] at hx ⊢
  omega

/-- A refusal of the start checks refuses the command, for a host that waits. -/
theorem exec_of_check_refusal (hw : s.hostWaits = true) {r : Refusal}
    (h : startChecks i (s.accepted i) = .error (.refuse r) (s.accepted i)) : exec i s = .refused r := by
  have hjob : Job.run (.check i) (s.accepted i) = .error (.refuse r) (s.accepted i) := Cmd.bind_of_error h
  have hprogress : (s.accepted i).progress = .refused r := by
    rw [State.progress, show (s.accepted i).todo = _ from acceptedJobs_eq_cons s i]
    simp only [State.doJob, hjob]
  rw [exec_eq, if_pos hw, runOn_eq, hprogress]

/-- Past the checks of the phase, the ranges and their overlap, a range that includes the window is refused. -/
theorem startChecks_refuses (hp : phaseTooLow i s.phase = false)
    (hsrc : i.readsSource = true → inRange s.srcAddr s.srcLen = true)
    (hdst : i.writesDest = true → inRange s.dstAddr s.dstCap = true)
    (hapart : i.readsSource = true → i.writesDest = true → overlaps s = false)
    (hwindow : (i.readsSource = true ∧ touchesWindow s.mmioBase s.srcAddr s.srcLen = true) ∨
      (i.writesDest = true ∧ touchesWindow s.mmioBase s.dstAddr s.dstCap = true)) :
    startChecks i s = .error (.refuse .dmaIntoWindow) s := by
  rw [startChecks_eq, if_neg (by simp [hp]), if_neg (by simpa using hsrc), if_neg (by simpa using hdst),
    if_neg (by simpa using hapart)]
  obtain hsource | hdest := hwindow
  · rw [if_pos (Bool.and_eq_true_iff.2 hsource)]
  · rw [if_pos (Bool.and_eq_true_iff.2 hdest), ite_self]

end Window

/-- Settles O22: the refusal is the last of the start checks. -/
theorem rangeInTheWindowIsRefused : Obligations.RangeInTheWindowIsRefused := by
  unfold Obligations.RangeInTheWindowIsRefused
  intro i s hw hp hsrc hdst hapart ⟨x, hlo, hhi, hx⟩
  exact exec_of_check_refusal hw <| startChecks_refuses (s := s.accepted i) hp
    (fun hr => inRange_of_le (hsrc hr)) (fun hwr => inRange_of_le (hdst hwr)) hapart <|
    hx.imp (And.imp_right fun hx => touchesWindow_of_rangeHas hx hlo hhi)
      (And.imp_right fun hx => touchesWindow_of_rangeHas hx hlo hhi)

end Sys2Proof.Machine
end

section
/-! SUPPORT. The reset input (70_reset_and_hazards.md R240, R241): what a step does when it is asserted or released and while
it is asserted, and what it makes of the bytes of an abandoned command. -/

namespace Sys2Proof.Machine

/-! ### The block at reset -/

section AtReset
variable {s : State} {rest : List HostOp}

/-- The block while reset is asserted is as after reset (70_reset_and_hazards.md R240). -/
theorem resetKeeping_atReset (s : State) : s.resetKeeping.AtReset where
  regs := resetKeeping_regIdle s
  session := ⟨rfl, freqAt_of_replicate rfl, nodeAt_of_replicate rfl, rfl, codeAt_of_replicate rfl⟩
  idle := rfl
  irq := rfl

/-- The reset input, the host, host memory and its answers are no part of what is at reset. -/
theorem State.AtReset.withOutside (h : s.AtReset) (r : Bool) (l : List HostOp) (d : List Word) (m : List Host.Cell)
    (b : List BusEntry) : State.AtReset { s with inReset := r, host := l, hostData := d, mem := m, bus := b } where
  regs reg := Eq.trans (by cases reg <;> rfl) (h.regs reg)
  session := ⟨h.session.phase, h.session.freq, h.session.node, h.session.tree, h.session.code⟩
  idle := h.idle
  irq := h.irq

theorem step_reset (h : s.host = .reset :: rest) : step s = .next (State.applyReset { s with host := rest }) :=
  step_of_settled (nextMove_cons h)

theorem step_release (h : s.host = .release :: rest) : step s = .next { s with host := rest, inReset := false } :=
  step_of_settled (nextMove_cons h)

/-- A reset with no old values kept leaves host memory. -/
theorem applyReset_of_undo_nil (h : s.undo = []) : s.applyReset = s.resetKeeping := by
  rw [State.applyReset, h, State.restoreSome]

/-- A read of the window while IDLE gives a value and changes nothing. -/
theorem windowRead_idle (hb : s.busy = false) (off : BitVec 8) (width : AccessWidth) :
    ∃ v, s.windowRead off width = s.give v := by
  by_cases h : accessOk off width = false ∨ regAt off = none
  · exact ⟨_, hostAct_read_none h⟩
  · obtain ⟨hok, hreg⟩ := not_or.1 h
    obtain ⟨r, hr⟩ := Option.ne_none_iff_exists'.1 hreg
    exact ⟨s.regIdle r, by simp [State.windowRead, Bool.eq_true_of_not_eq_false hok, hr, hb]⟩

/-- While IDLE with reset asserted an operation of the host other than those of the reset input reaches the host's own list
and data, host memory and its answers only, and of host memory the byte it writes (70_reset_and_hazards.md R240; log 21, log
23). -/
theorem step_held {op : HostOp} (h : s.host = op :: rest) (hr : s.inReset = true) (hb : s.busy = false)
    (hreset : op ≠ .reset) (hrelease : op ≠ .release) :
    ∃ d m b, step s = .next { s with host := rest, hostData := d, mem := m, bus := b } ∧
      ∀ x, (∀ a v, op = .memWrite a v → a.toNat ≠ x) → Memory.read m x = Memory.read s.mem x := by
  cases op with
  | write off width v => exact ⟨_, _, _, step_write_inReset h hr, fun _ _ => rfl⟩
  | read off width =>
    obtain ⟨v, hv⟩ := windowRead_idle (s := { s with host := rest }) hb off width
    exact ⟨_, _, _, (step_hostAct h (.inl ⟨_, _, rfl⟩)).trans (congrArg _ hv), fun _ _ => rfl⟩
  | memWrite a v =>
    have hact := hostAct_memWrite_idle (s := { s with host := rest }) hb a v
    exact ⟨_, _, _, (step_hostAct h (.inr (.inl ⟨_, _, rfl⟩))).trans (congrArg _ hact), fun x hx =>
      Memory.read_write_other _ _ _ (hx a v rfl).symm⟩
  | memRead a =>
    have hact := hostAct_memRead_idle (s := { s with host := rest }) hb a
    exact ⟨_, _, _, (step_hostAct h (.inr (.inr (.inl ⟨_, rfl⟩)))).trans (congrArg _ hact), fun _ _ => rfl⟩
  | answer a r w => exact ⟨_, _, _, step_hostAct h (.inr (.inr (.inr ⟨_, _, _, rfl⟩))), fun _ _ => rfl⟩
  | reset => exact absurd rfl hreset
  | release => exact absurd rfl hrelease
  | pass => exact ⟨_, _, _, step_pass_idle h hb, fun _ _ => rfl⟩
  | wait => exact ⟨_, _, _, step_wait_idle h hb, fun _ _ => rfl⟩

/-- A reset asserted with no old values kept leaves the block at reset and host memory as it was. -/
theorem step_reset_idle (h : s.host = .reset :: rest) (hu : s.undo = []) :
    ∃ t, step s = .next t ∧ t.inReset = true ∧ t.AtReset ∧ t.mem = s.mem ∧ t.host = rest ∧ t.undo = [] :=
  ⟨_, (step_reset h).trans (congrArg _ (applyReset_of_undo_nil hu)), rfl, resetKeeping_atReset _, rfl, rfl, rfl⟩

end AtReset

/-- Settles O60: the block at reset meets the invariant whether the reset input is asserted or released. -/
theorem resetMeetsTheInvariant : Obligations.ResetMeetsTheInvariant := by
  unfold Obligations.ResetMeetsTheInvariant
  exact ⟨(resetKeeping_inv State.reset).of_invView rfl (fun _ => ⟨rfl, rfl⟩) (fun hr => by cases hr), Memory.reset_wf⟩

/-- Settles O7: a reset puts every register back, and no operation of the host reaches one while it is asserted. -/
theorem resetInputKeepsHostMemory : Obligations.ResetInputKeepsHostMemory := by
  unfold Obligations.ResetInputKeepsHostMemory
  refine ⟨fun s rest h hu => step_reset_idle h hu, fun s op rest h hr hs hu hop => ?held, fun s rest h => step_release h,
    fun s h => h.withOutside false s.host s.hostData s.mem s.bus⟩
  by_cases hreset : op = .reset
  · subst hreset
    obtain ⟨t, hst, hin, hat, hmem, hhost, hundo⟩ := step_reset_idle h hu
    exact ⟨t, hst, hin, hat, hhost, hundo, fun x _ => by rw [hmem]⟩
  · obtain ⟨d, m, b, hst, hmem⟩ := step_held h hr hs.idle hreset hop
    exact ⟨_, hst, hr, hs.withOutside s.inReset rest d m b, rfl, hu, hmem⟩

/-! ### The bytes of an abandoned command -/

/-- Each byte is left as it stands, or gets an old value kept of it (70_reset_and_hazards.md R241; log 11). -/
theorem restoreSome_read : ∀ (l : List Host.Cell) (s : State) (x : Nat),
    Memory.read (s.restoreSome l).mem x = Memory.read s.mem x ∨ (x, Memory.read (s.restoreSome l).mem x) ∈ l
  | [], _, _ => .inl rfl
  | (a, old) :: l, s, x => by
    rw [State.restoreSome]
    generalize hs : (if s.draw.1.getLsbD 0 then s.draw.2.store a old else s.draw.2) = s'
    refine (restoreSome_read l s' x).elim (fun h => ?_) fun h => .inr (List.mem_cons_of_mem _ h)
    rw [h, ← hs]
    split
    · by_cases hx : x = a
      · subst hx
        exact .inr (by simp [Memory.read_write_same])
      · exact .inl (Memory.read_write_other _ _ _ hx)
    · exact .inl rfl

theorem applyReset_read (s : State) (x : Nat) :
    Memory.read s.applyReset.mem x = Memory.read s.mem x ∨ (x, Memory.read s.applyReset.mem x) ∈ s.undo :=
  restoreSome_read s.undo s x

/-- A DMA write keeps the old value of its byte, and writes the byte given where the host has not touched it (log 11). -/
theorem putByte_keeps (s : State) (a : Nat) (v : Byte) :
    ∃ t, putByte a v s = .ok () t ∧ t.undo = (a, Memory.read s.mem a) :: s.undo ∧
      (a ∉ s.dstTouched → Memory.read t.mem a = v) ∧ ∀ x, x ≠ a → Memory.read t.mem x = Memory.read s.mem x := by
  by_cases ha : a ∈ s.dstTouched
  · exact ⟨_, putByte_touched ha v, rfl, fun h => absurd ha h, fun x hx => Memory.read_write_other _ _ _ hx⟩
  · exact ⟨_, if_neg (by simpa using ha), rfl, fun _ => Memory.read_write_same _ _ _,
      fun x hx => Memory.read_write_other _ _ _ hx⟩

/-- Settles O9: a reset puts back none but values kept, and each write of the engine keeps its byte's. -/
theorem resetLeavesOldOrWrittenBytes : Obligations.ResetLeavesOldOrWrittenBytes := by
  unfold Obligations.ResetLeavesOldOrWrittenBytes
  exact ⟨applyReset_read, fun _ _ => rfl, putByte_keeps⟩

end Sys2Proof.Machine
end

section
/-! SUPPORT. The old values a running command keeps (70_reset_and_hazards.md R241; log 11): the engine writes each byte of
its destination once, DST_LEN going back only before the first, so that each value kept is the one the command found. -/

namespace Sys2Proof.Machine

/-! ### Where a job leaves DST_LEN -/

/-- The jobs that set DST_LEN back to 0 (10_state.md R38). -/
def Job.rewinds : Job → Bool
  | .serialize => true
  | .startDecode => true
  | _ => false

theorem Job.writes_of_rewinds {j : Job} (h : j.rewinds = true) : j.writes = true := by
  cases j
  case serialize => rfl
  case startDecode => rfl
  all_goals cases h

section Place
variable {s t : State} {new : List Job}

/-- No job leaves to do one that rewinds DST_LEN, and a job that neither rewinds it nor emits a byte keeps DST_LEN. -/
theorem Job.run_place {j : Job} (h : j.run s = .ok new t) : (∀ j' ∈ new, j'.rewinds = false) ∧
    (j.rewinds = false → (∀ b bs, j ≠ .emit (b :: bs)) → t.dstLen = s.dstLen) := by
  by_cases hw : j.writes = true
  · cases j
    case serialize => cases h; exact ⟨by simp [Job.rewinds], fun hj => by cases hj⟩
    case startDecode => cases h; exact ⟨by simp [Job.rewinds], fun hj => by cases hj⟩
    case emit bs =>
      cases bs with
      | nil => cases h; exact ⟨by simp, fun _ _ => rfl⟩
      | cons b bs =>
        obtain ⟨-, rfl⟩ := emitNext_ok h
        exact ⟨by simp [Job.rewinds], fun _ hj => absurd rfl (hj b bs)⟩
    case encode k n =>
      cases n with
      | zero => cases h; exact ⟨by simp, fun _ _ => rfl⟩
      | succ n =>
        obtain ⟨b, hb, -, rfl⟩ := encodeByte_ok h
        obtain ⟨_, rfl⟩ := memRead_sameButDraws hb
        exact ⟨by simp [Job.rewinds], fun _ _ => rfl⟩
    case put ds =>
      cases ds with
      | nil => cases h; exact ⟨by simp, fun _ _ => rfl⟩
      | cons d ds =>
        obtain ⟨-, rfl, rfl⟩ | ⟨-, rfl, rfl⟩ := putDigit_ok h <;> exact ⟨by simp [Job.rewinds], fun _ _ => rfl⟩
    case endOfText => cases h; exact ⟨by simp [Job.rewinds], fun _ _ => rfl⟩
    case pad => obtain ⟨rfl, rfl | ⟨ds, rfl⟩⟩ := padAcc_ok h <;> exact ⟨by simp [Job.rewinds], fun _ _ => rfl⟩
    case decode pos =>
      obtain ⟨-, b, u, hu, rfl, rfl⟩ := decodeByte_ok h
      obtain ⟨_, rfl⟩ := memRead_sameButDraws hu
      exact ⟨by simp [Job.rewinds], fun _ _ => rfl⟩
    case bits bpos n =>
      cases n with
      | zero => cases h; exact ⟨by simp [Job.rewinds], fun _ _ => rfl⟩
      | succ n =>
        refine ⟨?_, fun _ _ => ?_⟩
        · obtain rfl | ⟨b, rfl⟩ | rfl := decodeBit_ok h <;> simp [Job.rewinds]
        · obtain ⟨_, rfl⟩ | ⟨-, _, _, _, rfl⟩ := decodeBit_changes h <;> rfl
    all_goals cases hw
  · refine ⟨fun j' hj' => Bool.eq_false_of_not_eq_true fun hr => hw ?_, fun _ _ => ?_⟩
    · exact (Job.run_within h 0 j' hj').writes (Job.writes_of_rewinds hr)
    · exact (Job.run_frame h).dstLen (Bool.eq_false_of_not_eq_true hw)

/-- A job writes the next destination byte, or it changes neither host memory nor the old values kept, nor DST_LEN unless it
rewinds it. -/
theorem Job.run_writes_or_place {j : Job} (h : j.run s = .ok new t) :
    (j.writes = true ∧ s.WritesNext t) ∨
      (t.mem = s.mem ∧ t.undo = s.undo ∧ (j.rewinds = false → t.dstLen = s.dstLen)) := by
  by_cases hj : ∃ b bs, j = .emit (b :: bs)
  · obtain ⟨b, bs, rfl⟩ := hj
    exact .inl ⟨rfl, emit_writes (emitNext_ok h).1⟩
  · have hquiet : ∀ b bs, j ≠ .emit (b :: bs) := fun b bs hb => hj ⟨b, bs, hb⟩
    obtain ⟨hmem, hundo⟩ := ((quiet_mem s.mem s.undo).run hquiet).ok ⟨rfl, rfl⟩ h
    exact .inr ⟨hmem, hundo, fun hr => (Job.run_place h).2 hr hquiet⟩

end Place

/-! ### The order of the jobs -/

/-- After a job that writes comes none that rewinds DST_LEN. -/
def rewindsFirst (l : List Job) : Prop := l.Pairwise fun j j' => j.writes = true → j'.rewinds = false

theorem acceptedJobs_rewindsFirst (s : State) (i : Instr) : rewindsFirst (s.acceptedJobs i) := by
  cases i <;> simp [rewindsFirst, State.acceptedJobs, State.countJobs, State.encodeJobs, State.analyseJobs, parseJobs,
    Job.writes, Job.rewinds]

/-- A job that goes through leaves the order. -/
theorem rewindsFirst_run {s t : State} {j : Job} {rest new : List Job} (h : rewindsFirst (j :: rest))
    (hr : j.run s = .ok new t) : rewindsFirst (new ++ rest) := by
  obtain ⟨hhead, hrest⟩ := List.pairwise_cons.1 h
  refine List.pairwise_append.2 ⟨?_, hrest, fun j₁ h₁ j₂ h₂ hw => hhead j₂ h₂ ((Job.run_within hr 0 j₁ h₁).writes hw)⟩
  exact List.pairwise_of_forall_mem_list fun _ _ j₂ h₂ _ => (Job.run_place hr).1 j₂ h₂

/-! ### The old values kept -/

/-- Each byte written from `s` to `u` lies behind DST_ADDR + DST_LEN and has its value in `s` kept, and every other byte is
as in `s`. -/
structure State.KeepsOld (s u : State) : Prop where
  old : ∀ c ∈ u.undo, c.2 = Memory.read s.mem c.1
  behind : ∀ c ∈ u.undo, c.1 < u.dstByte
  unwritten : ∀ x, (∀ c ∈ u.undo, c.1 ≠ x) → Memory.read u.mem x = Memory.read s.mem x

/-- The next destination byte has not been written, so the value kept of it is the one in `s`. -/
theorem State.KeepsOld.writesNext {s u v : State} (h : s.KeepsOld u) (hw : u.WritesNext v) : s.KeepsOld v := by
  have hfresh : Memory.read u.mem u.dstByte = Memory.read s.mem u.dstByte :=
    h.unwritten _ fun c hc => (h.behind c hc).ne
  constructor <;> simp only [hw.undo, hw.counted, List.forall_mem_cons]
  case old => exact ⟨hfresh, h.old⟩
  case behind => exact ⟨Nat.lt_succ_self _, fun c hc => Nat.lt_succ_of_lt (h.behind c hc)⟩
  case unwritten => exact fun x ⟨hx, hothers⟩ => (hw.read_other hx.symm).trans (h.unwritten x hothers)

theorem State.KeepsOld.congr {s u v : State} (h : s.KeepsOld u) (hmem : v.mem = u.mem) (hundo : v.undo = u.undo)
    (hbyte : u.undo ≠ [] → v.dstByte = u.dstByte) : s.KeepsOld v := by
  constructor <;> simp only [hmem, hundo]
  case old => exact h.old
  case behind => exact fun c hc => (hbyte (List.ne_nil_of_mem hc)).symm ▸ h.behind c hc
  case unwritten => exact h.unwritten

/-! ### The command on its way -/

/-- The command `i` accepted in `s` runs in `u`, keeping the old values of the bytes it has written; once it has written one
no job left rewinds DST_LEN. -/
structure State.Underway (i : Instr) (s u : State) : Prop where
  busy : u.busy = true
  inside : s.InsideDest i u
  keeps : s.KeepsOld u
  onward : u.undo ≠ [] → ∀ j ∈ u.todo, j.rewinds = false
  order : rewindsFirst u.todo

/-- The command `i` accepted in `s` runs in `w`, or has completed and keeps no old values (log 11). -/
def State.Reached (i : Instr) (s w : State) : Prop :=
  s.Underway i w ∨ (w.busy = false ∧ s.InsideDest i w ∧ w.undo = [])

section Underway
variable {i : Instr} {s u t : State}

theorem underway_accepted (i : Instr) (s : State) : s.Underway i (s.accepted i) where
  busy := rfl
  inside := insideDest_accepted i s
  keeps := ⟨fun c hc => (by cases hc), fun c hc => (by cases hc), fun _ _ => rfl⟩
  onward := fun h => absurd rfl h
  order := acceptedJobs_rewindsFirst s i

theorem State.Underway.goes (h : s.Underway i u) (hg : u.progress = .goes t) : s.Underway i t := by
  have hbusy := (outer_busy true).goes h.busy hg
  have hinside := h.inside.goes hg
  obtain ⟨-, -, haddr, -⟩ := (outer_operands _ _ _ _).goes ⟨rfl, rfl, rfl, rfl⟩ hg
  obtain ⟨j, rest, new, v, hs, hr, rfl⟩ := progress_goes hg
  have horder := h.order
  have honward := h.onward
  rw [hs] at horder honward
  have hjobs : (∀ j' ∈ rest, j'.rewinds = false) → ∀ j' ∈ new ++ rest, j'.rewinds = false := fun hrest j' hj' =>
    (List.mem_append.1 hj').elim ((Job.run_place hr).1 j') (hrest j')
  obtain ⟨hwrites, hw⟩ | ⟨hmem, hundo, hlen⟩ := Job.run_writes_or_place hr
  · have hkeeps := h.keeps.writesNext hw
    refine ⟨hbusy, hinside, ⟨hkeeps.old, hkeeps.behind, hkeeps.unwritten⟩, fun _ => hjobs fun j' hj' => ?_,
      rewindsFirst_run horder hr⟩
    exact (List.pairwise_cons.1 horder).1 j' hj' hwrites
  · refine ⟨hbusy, hinside, h.keeps.congr hmem hundo fun hne => ?_, fun hne => hjobs fun j' hj' => ?_,
      rewindsFirst_run horder hr⟩
    · exact congrArg₂ (fun a d : Word => a.toNat + d.toNat) haddr (hlen (honward hne j List.mem_cons_self))
    · exact honward (hundo ▸ hne) j' (List.mem_cons_of_mem _ hj')

theorem progress_ends_undo (h : u.progress = .ends t) : t.undo = [] := by
  obtain ⟨-, rfl⟩ | ⟨_, _, _, _, _, -, -, rfl⟩ := progress_ends h <;> rfl

theorem State.Underway.ends (h : s.Underway i u) (he : u.progress = .ends t) :
    t.busy = false ∧ s.InsideDest i t ∧ t.undo = [] :=
  ⟨ends_idle he, h.inside.ends he, progress_ends_undo he⟩

theorem State.InsideDest.withHost (h : s.InsideDest i u) (l : List HostOp) : s.InsideDest i { u with host := l } :=
  ⟨⟨h.held.operands, h.held.srcPos, h.held.dstLen⟩, h.outside⟩

/-- The host's list is no part of what a running command keeps. -/
theorem State.Underway.withHost (h : s.Underway i u) (l : List HostOp) : s.Underway i { u with host := l } :=
  ⟨h.busy, h.inside.withHost l, ⟨h.keeps.old, h.keeps.behind, h.keeps.unwritten⟩, h.onward, h.order⟩

theorem State.Reached.withHost (h : s.Reached i u) (l : List HostOp) : s.Reached i { u with host := l } :=
  h.imp (·.withHost l) fun ⟨hb, hin, hundo⟩ => ⟨hb, hin.withHost l, hundo⟩

/-- A pass of the host leaves a command that runs or has completed. -/
theorem State.Reached.pass {rest : List HostOp} (h : s.Reached i u) (hh : u.host = .pass :: rest)
    (hst : step u = .next t) : s.Reached i t ∧ t.host = rest := by
  by_cases hb : u.busy = true
  · rw [step_pass_busy hh hb] at hst
    have hu : s.Underway i u := h.resolve_right fun hidle => absurd (hb.symm.trans hidle.1) (by decide)
    exact ⟨toAccess_induction (fun _ _ => State.Underway.goes) (fun _ _ => State.Underway.ends) _ (hu.withHost rest) hst,
      toAccess_host hst⟩
  · cases (step_pass_idle hh (Bool.eq_false_of_not_eq_true hb)).symm.trans hst
    exact ⟨h.withHost rest, rfl⟩

/-- As many steps as the host passes leave a command that runs or has completed. -/
theorem State.Reached.steps : ∀ (k : Nat) {u w : State} {rest : List HostOp}, s.Reached i u →
    u.host = List.replicate k .pass ++ rest → u.steps k = .next w → s.Reached i w ∧ w.host = rest
  | 0, _, _, _, h, hh, hk => by cases hk; exact ⟨h, hh⟩
  | k + 1, u, w, rest, h, hh, hk => by
    rw [State.steps] at hk
    split at hk
    · obtain ⟨ht, hth⟩ := h.pass hh ‹_›
      exact State.Reached.steps k ht hth hk
    · cases hk
    · cases hk

/-- Of a command that runs or has completed, every byte outside its destination is as the command found it, and every old
value kept is the one the command found. -/
theorem State.Reached.keeps (h : s.Reached i u) : s.InsideDest i u ∧ ∀ c ∈ u.undo, c.2 = Memory.read s.mem c.1 := by
  obtain h | ⟨-, hin, hundo⟩ := h
  · exact ⟨h.inside, h.keeps.old⟩
  · exact ⟨hin, fun c hc => by rw [hundo] at hc; cases hc⟩

/-- After a reset each byte is as the command found it or as it stood. -/
theorem State.Reached.applyReset_read (h : s.Reached i u) (x : Nat) :
    Memory.read u.applyReset.mem x = Memory.read s.mem x ∨ Memory.read u.applyReset.mem x = Memory.read u.mem x :=
  (Machine.applyReset_read u x).symm.imp_left (h.keeps.2 _)

end Underway

/-- A host whose list is some passes and then a reset does not wait. -/
theorem exec_of_passes {s : State} {i : Instr} {k : Nat} {rest : List HostOp}
    (h : s.host = List.replicate k .pass ++ .reset :: rest) : exec i s = .next (s.accepted i) := by
  have hw : s.hostWaits = false := by
    rw [State.hostWaits, h]
    cases k <;> rfl
  rw [exec_eq, hw]
  rfl

/-- Settles O8: up to the reset the command has written each byte at most once, so a value put back is the one it found. -/
theorem resetAbandonsTheCommand : Obligations.ResetAbandonsTheCommand := by
  unfold Obligations.ResetAbandonsTheCommand
  intro i s k rest hh
  refine ⟨s.accepted i, exec_of_passes hh, rfl, rfl, fun w hk => ?_⟩
  obtain ⟨hw, hwh⟩ := State.Reached.steps k (.inl (underway_accepted i s)) hh hk
  have hread := (hw.withHost rest).applyReset_read
  refine ⟨_, step_reset hwh, rfl, resetKeeping_atReset _, rfl, ?_, fun x hx => ?_, hread⟩
  · exact congrArg State.host (restoreSome_eq { w with host := rest } w.undo)
  · exact (hread x).elim id fun h => h.trans (hw.keeps.1.outside x hx)

end Sys2Proof.Machine
end
